-- ==== Sys2Proof/Word.lean ====
section
/-! DEFINITION. The 32-bit word, its residue modulo 15, and the tagged word (data with stored residue) that every
register, scratchpad and cache holds (R4, R55, R56, R72). -/

namespace Sys2Proof

/-- A word is 32 bits (R4). -/
abbrev Word := BitVec 32
abbrev Byte := BitVec 8
/-- One bit per lane of a group (R181: 128 bits). -/
abbrev Mask := BitVec 128

/-- A stored word: 32 data bits and 4 residue bits (R72). The default is the wiped word (R243). -/
structure TWord where
  data : Word
  res  : BitVec 4
deriving DecidableEq, Repr, Inhabited

/-- res(w) := w mod 15 (R55). -/
def resOf (w : Word) : BitVec 4 := BitVec.ofNat 4 (w.toNat % 15)

/-- The word with the residue formed from its data. -/
def TWord.of (w : Word) : TWord := ⟨w, resOf w⟩

/-- The wiped word: 0 with residue 0 (R243). -/
def TWord.zero : TWord := ⟨0, 0⟩

/-- Residue code 0b1111 marks poison (R56). -/
def TWord.poisoned (t : TWord) : Bool := t.res == 15#4

/-- The word made poison, its data kept (R56: the residue has no defined relation to the data). -/
def TWord.poison (t : TWord) : TWord := { t with res := 15#4 }

/-- The stored residue matches the data (the operand check's second part, R58). -/
def TWord.good (t : TWord) : Bool := t.res == resOf t.data

end Sys2Proof
end

