-- ==== Sys2Proof/Syntax.lean ====
section
/-! DEFINITION. The instructions of the machine: the operand types, one structure of fields per operand shape, the
operands of the events (the steps of agents other than a group's strand) and the one inductive Instr with one
constructor per row of spec/opcode_table.json. -/

namespace Sys2Proof

/-- A source operand name (R91); K carries the owned literal word (R83). -/
inductive Src where
  | v (n : Fin 56)
  | x (n : Fin 4)
  | l (n : Fin 2)
  | z
  | k (w : Word)
deriving DecidableEq, Repr

/-- An RR source: an operand name or a uniform register (R95). -/
inductive RSrc where
  | op (s : Src)
  | g (n : Fin 32)
deriving DecidableEq, Repr

/-- A destination operand name (R91: L0, L1 and K are no destinations). -/
inductive Dst where
  | v (n : Fin 56)
  | x (n : Fin 4)
  | z
deriving DecidableEq, Repr

/-- The destination of a long-latency producer: a V register or Z (R92). -/
inductive LDst where
  | v (n : Fin 56)
  | z
deriving DecidableEq, Repr

/-- A V or X register, for the fields that admit nothing else (R153, R156, R158, R328). -/
inductive VX where
  | v (n : Fin 56)
  | x (n : Fin 4)
deriving DecidableEq, Repr

/-- A uniform offset: Z or K (R214, R244). -/
inductive ZK where
  | z
  | k (w : Word)
deriving DecidableEq, Repr

/-- The source of NAP and EVON (R195). -/
inductive NSrc where
  | g (n : Fin 32)
  | z
  | k (w : Word)
deriving DecidableEq, Repr

/-- The source of MCFG (R303). -/
inductive MSrc where
  | g (n : Fin 32)
  | k (w : Word)
deriving DecidableEq, Repr

/-- A branch target: an offset in packets in the T field, or in the owned literal word (R100). -/
inductive Target where
  | near (t : BitVec 9)
  | far (w : Word)
deriving DecidableEq, Repr

/-- Scopes, codes 0 to 5 (R104, R230). -/
inductive Scope where
  | group | block | gang | die | device | fabric
deriving DecidableEq, Repr

/-- Rounding selection of a word: FPC.RM or a fixed mode (R111, R112). -/
inductive RSel where
  | fpc | rn | rz | rd | ru
deriving DecidableEq, Repr

/-- Formats, the FMT codes of R49. -/
inductive Fmt where
  | bits | i32 | n32 | f32 | f16 | b16 | i16 | n16 | e4m3 | e5m2 | q4 | i8 | n8 | i64
deriving DecidableEq, Repr

/-- Conditions of FCMP (R111). -/
inductive FCond where
  | eq | ne | lt | le | gt | ge | un
deriving DecidableEq, Repr

/-- Code tables of Q4 blocks (R44, R151). -/
inductive QType where
  | uni | e2m1 | pow2 | hyb
deriving DecidableEq, Repr

/-- Load forms (R248). -/
inductive LdT where
  | i8 | n8 | i16 | n16 | w | d | q
deriving DecidableEq, Repr

/-- Store forms (R249). -/
inductive StT where
  | b | h | w | d | q
deriving DecidableEq, Repr

/-- QXCH exchange patterns (R154). -/
inductive QxPat where
  | h | v | d
deriving DecidableEq, Repr

/-- XLANE section modes (R155). -/
inductive XlMode where
  | abs | rot | xor | step
deriving DecidableEq, Repr

/-- REDG operations (R157). -/
inductive RedgOp where
  | fadd | fmin | fmax | fminNum | fmaxNum | iadd | imin | imax | umin | umax | and | or | xor
deriving DecidableEq, Repr

/-- PREF levels (R261). -/
inductive PrefLevel where
  | l1 | die | msc
deriving DecidableEq, Repr

/-- WAITV conditions (R264). -/
inductive VCond where
  | eq | ne | geU | ltU
deriving DecidableEq, Repr

/-- FENCE kinds (R257). -/
inductive FenceKind where
  | both | rel | acq
deriving DecidableEq, Repr

/-- NATOM operations (R412). -/
inductive NatomOp where
  | add | cas
deriving DecidableEq, Repr

/-- Special registers (R159). -/
inductive SReg where
  | laneid | groupid | width | blockx | blocky | blockz | gridx | gridy | gridz | bdimx | bdimy | bdimz
  | fpc | domctl | finj | ht0 | ht1 | ht2 | ht3 | evec | evpend | preq | deadline | clocklo | clockhi | ctxid
deriving DecidableEq, Repr

/-- One pair of a BRM: predicate, negation, signed offset in packets (R101). -/
structure BrmPair where
  p : Fin 8
  n : Bool
  off : BitVec 24
deriving DecidableEq, Repr

/-! ### Operand shapes -/

/-- Fields of shape RR (R94, R95). -/
structure RR where
  c : Bool
  d : Dst
  wa : Bool
  a : RSrc
  wb : Bool
  b : RSrc
deriving DecidableEq, Repr

/-- Fields of shape RS (R94, R109: M = 0b11). -/
structure RS where
  c : Bool
  d : Dst
  wa : Bool
  a : Src
  wb : Bool
  b : Src
deriving DecidableEq, Repr

/-- Fields of shape R1 (R94, R95: one source). -/
structure R1 where
  c : Bool
  d : Dst
  wa : Bool
  a : Src
deriving DecidableEq, Repr

/-- Fields of shape CmpF (R109, R132). -/
structure CmpF where
  c : Bool
  p : Fin 8
  wa : Bool
  a : RSrc
  wb : Bool
  b : RSrc
deriving DecidableEq, Repr

/-- Fields of shape SelF (R133). -/
structure SelF where
  c : Bool
  p : Fin 8
  d : Dst
  wa : Bool
  a : Src
  wb : Bool
  b : Src
deriving DecidableEq, Repr

/-- Fields of shape MovkF (R136). -/
structure MovkF where
  c : Bool
  d : Dst
  k : Fin 512
deriving DecidableEq, Repr

/-- Fields of shape BmixF (R110). -/
structure BmixF where
  c : Bool
  lut : BitVec 8
  d : Dst
  a : Src
  b : Src
deriving DecidableEq, Repr

/-- Fields of shape RI (R98). -/
structure RI where
  c : Bool
  d : Fin 32
  imm : BitVec 20
deriving DecidableEq, Repr

/-- Fields of shape ShliF (R137). -/
structure ShliF where
  c : Bool
  d : Fin 32
  k : Fin 32
deriving DecidableEq, Repr

/-- Fields of shape FcmpF (R111, R145). -/
structure FcmpF where
  c : Bool
  cond : FCond
  p : Fin 8
  wa : Bool
  a : RSrc
  wb : Bool
  b : RSrc
deriving DecidableEq, Repr

/-- Fields of shape RQ (R96). -/
structure RQ where
  c : Bool
  d : Dst
  a : Src
  b : Src
  e : Src
  w : Bool
deriving DecidableEq, Repr

/-- Fields of shape FmakF (R142). -/
structure FmakF where
  c : Bool
  rm : RSel
  d : Dst
  wa : Bool
  a : Src
  k : Fin 512
deriving DecidableEq, Repr

/-- Fields of shape CvtF (R112). -/
structure CvtF where
  c : Bool
  sat : Bool
  tgt : Fmt
  fr : Fmt
  d : Dst
  a : Src
  w : Bool
  rnd : RSel
deriving DecidableEq, Repr

/-- Fields of shape CvtqQF (R151). -/
structure CvtqQF where
  c : Bool
  d : VX
  a : Fin 56
  ty : QType
deriving DecidableEq, Repr

/-- Fields of shape CvtqXF (R151). -/
structure CvtqXF where
  c : Bool
  d : Fin 56
  a : Src
  ty : QType
deriving DecidableEq, Repr

/-- Fields of shape PackF (R150). -/
structure PackF where
  c : Bool
  d : Dst
  a : Fin 56
  tgt : Fmt
deriving DecidableEq, Repr

/-- Fields of shape UnpkF (R150). -/
structure UnpkF where
  c : Bool
  d : Fin 56
  a : Src
  fr : Fmt
deriving DecidableEq, Repr

/-- Fields of shape QxchF (R153). -/
structure QxchF where
  c : Bool
  pat : QxPat
  d : VX
  a : VX
  w : Bool
deriving DecidableEq, Repr

/-- Fields of shape QbrdF (R153). -/
structure QbrdF where
  c : Bool
  j : Fin 4
  d : VX
  a : VX
  w : Bool
deriving DecidableEq, Repr

/-- Fields of shape XlaneF (R153). -/
structure XlaneF where
  c : Bool
  mode : XlMode
  d : VX
  a : VX
  w : Bool
deriving DecidableEq, Repr

/-- Fields of shape PollQF (R156). -/
structure PollQF where
  c : Bool
  p : Fin 8
  s : Fin 8
  n : Bool
  q : BitVec 8
deriving DecidableEq, Repr

/-- Fields of shape PollSF (R156). -/
structure PollSF where
  c : Bool
  p : Fin 8
  s : Fin 8
  n : Bool
deriving DecidableEq, Repr

/-- Fields of shape PollWF (R156). -/
structure PollWF where
  c : Bool
  d : VX
  s : Fin 8
  n : Bool
deriving DecidableEq, Repr

/-- Fields of shape RedgF (R157). -/
structure RedgF where
  c : Bool
  op : RedgOp
  d : VX
  a : VX
  w : Bool
deriving DecidableEq, Repr

/-- Fields of shape TagrF (R158). -/
structure TagrF where
  c : Bool
  d : Dst
  a : Src
deriving DecidableEq, Repr

/-- Fields of shape TagwF (R158). -/
structure TagwF where
  c : Bool
  d : VX
  tag : BitVec 8
deriving DecidableEq, Repr

/-- Fields of shape SrdF (R159). -/
structure SrdF where
  c : Bool
  d : Dst
  s : SReg
deriving DecidableEq, Repr

/-- Fields of shape PlopF (R134). -/
structure PlopF where
  c : Bool
  lut : BitVec 4
  p : Fin 8
  a : Fin 8
  b : Fin 8
deriving DecidableEq, Repr

/-- Fields of shape LdF (R99, R244). -/
structure LdF where
  c : Bool
  t : LdT
  d : LDst
  a : Src
  g : Fin 16
  pri : Fin 4
  lu : Bool
  sh : Fin 8
deriving DecidableEq, Repr

/-- Fields of shape StF (R99, R244). -/
structure StF where
  c : Bool
  t : StT
  s : Src
  a : Src
  g : Fin 16
  pri : Fin 4
  lu : Bool
  sh : Fin 8
deriving DecidableEq, Repr

/-- Fields of shape LdaF (R244). -/
structure LdaF where
  c : Bool
  dw : Bool
  d : LDst
  a : Src
  g : Fin 16
  pri : Fin 4
  lu : Bool
  sc : Scope
deriving DecidableEq, Repr

/-- Fields of shape StlF (R244). -/
structure StlF where
  c : Bool
  dw : Bool
  s : Src
  a : Src
  g : Fin 16
  pri : Fin 4
  lu : Bool
  sc : Scope
deriving DecidableEq, Repr

/-- Fields of shape PrefF (R261). -/
structure PrefF where
  c : Bool
  lvl : PrefLevel
  a : Src
  g : Fin 16
  pri : Fin 4
  sh : Fin 8
deriving DecidableEq, Repr

/-- Fields of shape HsetF (R262). -/
structure HsetF where
  c : Bool
  d : LDst
  a : ZK
  g : Fin 16
  pri : Fin 4
deriving DecidableEq, Repr

/-- Fields of shape HdemF (R262). -/
structure HdemF where
  c : Bool
  d : LDst
deriving DecidableEq, Repr

/-- Fields of shape HdropF (R262). -/
structure HdropF where
  c : Bool
  d : LDst
  lu : Bool
deriving DecidableEq, Repr

/-- Fields of shape LrfF (R263). -/
structure LrfF where
  c : Bool
  a : ZK
  g : Fin 16
deriving DecidableEq, Repr

/-- Fields of shape WaitvF (R264). -/
structure WaitvF where
  c : Bool
  s : Src
  a : ZK
  g : Fin 16
  cond : VCond
deriving DecidableEq, Repr

/-- Fields of shape AtomF (R251). -/
structure AtomF where
  c : Bool
  d : LDst
  a : Src
  g : Fin 16
  pri : Fin 4
  lu : Bool
  sc : Scope
deriving DecidableEq, Repr

/-- Fields of shape RedF (R251). -/
structure RedF where
  c : Bool
  s : Src
  a : Src
  g : Fin 16
  pri : Fin 4
  lu : Bool
  sc : Scope
deriving DecidableEq, Repr

/-- Fields of shape BarS (R214). -/
structure BarS where
  c : Bool
  s : Src
  a : ZK
  g : Fin 16
deriving DecidableEq, Repr

/-- Fields of shape BarD (R214). -/
structure BarD where
  c : Bool
  d : Dst
  a : ZK
  g : Fin 16
  sc : Scope
deriving DecidableEq, Repr

/-- Fields of shape BwaitF (R214). -/
structure BwaitF where
  c : Bool
  s : Src
  a : ZK
  g : Fin 16
  sc : Scope
deriving DecidableEq, Repr

/-- Fields of shape BinvF (R214). -/
structure BinvF where
  c : Bool
  a : ZK
  g : Fin 16
deriving DecidableEq, Repr

/-- Fields of shape FenceF (R257). -/
structure FenceF where
  c : Bool
  kind : FenceKind
  sc : Scope
deriving DecidableEq, Repr

/-- Fields of shape ShadowF (R259). -/
structure ShadowF where
  c : Bool
  d : LDst
  a : ZK
  g : Fin 16
deriving DecidableEq, Repr

/-- Fields of shape PubF (R259). -/
structure PubF where
  c : Bool
  d : LDst
  a : Src
  sc : Scope
deriving DecidableEq, Repr

/-- Fields of shape DiscF (R259). -/
structure DiscF where
  c : Bool
  d : LDst
  a : Src
deriving DecidableEq, Repr

/-- Fields of shape MflushF (R265). -/
structure MflushF where
  c : Bool
  s : Src
  a : ZK
  g : Fin 16
deriving DecidableEq, Repr

/-- Fields of shape C0 (chain bit only). -/
structure C0 where
  c : Bool
deriving DecidableEq, Repr

/-- Fields of shape CwaitF (R174). -/
structure CwaitF where
  c : Bool
  p : Fin 8
  a : Src
  g : Fin 16
deriving DecidableEq, Repr

/-- Fields of shape BraF (R195). -/
structure BraF where
  c : Bool
  t : Target
deriving DecidableEq, Repr

/-- Fields of shape BrcF (R195). -/
structure BrcF where
  c : Bool
  p : Fin 8
  n : Bool
  t : Target
  j : BitVec 9
deriving DecidableEq, Repr

/-- Fields of shape BrvF (R195). -/
structure BrvF where
  c : Bool
  p : Fin 8
  n : Bool
  w : Bool
  a : Src
  j : BitVec 9
deriving DecidableEq, Repr

/-- Fields of shape BrmF (R101). -/
structure BrmF where
  pairs : List BrmPair
  j : BitVec 9
deriving DecidableEq, Repr

/-- Fields of shape JoutF (R195). -/
structure JoutF where
  c : Bool
  n : Fin 64
deriving DecidableEq, Repr

/-- Fields of shape ElectF (R195). -/
structure ElectF where
  c : Bool
  p : Fin 8
deriving DecidableEq, Repr

/-- Fields of shape NapF (R195). -/
structure NapF where
  c : Bool
  w : Bool
  s : NSrc
deriving DecidableEq, Repr

/-- Fields of shape MloadbF (R313). -/
structure MloadbF where
  c : Bool
  slot : Fin 64
  fmt : Fmt
  g : Fin 32
deriving DecidableEq, Repr

/-- Fields of shape MmaF (R314). -/
structure MmaF where
  c : Bool
  t : Fin 16
  slot : Fin 64
  g : Fin 8
  sat : Bool
deriving DecidableEq, Repr

/-- Fields of shape MmagF (R315; n is NM1). -/
structure MmagF where
  c : Bool
  n : Fin 16
  g : Fin 8
  sat : Bool
deriving DecidableEq, Repr

/-- Fields of shape MreadF (R316). -/
structure MreadF where
  c : Bool
  t : Fin 16
  d : Fin 56
  row : Fin 32
  two : Bool
deriving DecidableEq, Repr

/-- Fields of shape MzeroF (R317). -/
structure MzeroF where
  c : Bool
  t : Fin 16
deriving DecidableEq, Repr

/-- Fields of shape McfgF (R303). -/
structure McfgF where
  c : Bool
  s : MSrc
deriving DecidableEq, Repr

/-- Fields of shape TcopyF (R340, R341). -/
structure TcopyF where
  c : Bool
  gr : Fin 16
  gs : Fin 16
  gq : Fin 16
  gc : Fin 8
  nb : Bool
deriving DecidableEq, Repr

/-- Fields of shape XcopyF (R342). -/
structure XcopyF where
  c : Bool
  d : Fin 56
  a : Fin 56
  gt : Fin 16
deriving DecidableEq, Repr

/-- Fields of shape HreadF (R344). -/
structure HreadF where
  c : Bool
  gr : Fin 16
  gc : Fin 8
  gh : Fin 16
  gq : Fin 16
  bar : Bool
deriving DecidableEq, Repr

/-- Fields of shape BatchF (R219). -/
structure BatchF where
  c : Bool
  d : Dst
  ev : Bool
deriving DecidableEq, Repr

/-- Fields of shape WaitbF (R220). -/
structure WaitbF where
  c : Bool
  s : RSrc
  w : Bool
deriving DecidableEq, Repr

/-- Fields of shape HstF (R328). -/
structure HstF where
  c : Bool
  a : Fin 56
  gb : Fin 16
  gc : Fin 8
  sat : Bool
deriving DecidableEq, Repr

/-- Fields of shape HldF (R328). -/
structure HldF where
  c : Bool
  d : Fin 56
  gb : Fin 16
  gc : Fin 8
deriving DecidableEq, Repr

/-- Fields of shape HfwdF (R328). -/
structure HfwdF where
  c : Bool
  d : VX
  a : VX
  w : Bool
  depth : Fin 8
deriving DecidableEq, Repr

/-- Fields of shape HrecF (R328). -/
structure HrecF where
  c : Bool
  d : VX
  a : VX
  w : Bool
deriving DecidableEq, Repr

/-- Fields of shape HthrF (R328). -/
structure HthrF where
  c : Bool
  d : VX
  a : VX
  w : Bool
  sel : Fin 4
deriving DecidableEq, Repr

/-- Fields of shape HbiasF (R328). -/
structure HbiasF where
  c : Bool
  d : Dst
  b : RSrc
  w : Bool
deriving DecidableEq, Repr

/-- Fields of shape QuayF (R354). -/
structure QuayF where
  c : Bool
  gd : Fin 16
  gq : Fin 16
  bar : Bool
  q : Fin 8
deriving DecidableEq, Repr

/-- Fields of shape QtlF (R354). -/
structure QtlF where
  c : Bool
  gt : Fin 16
  gc : Fin 32
  slot : Fin 4
  q : Fin 8
deriving DecidableEq, Repr

/-- Fields of shape NputF (R412). -/
structure NputF where
  c : Bool
  gl : Fin 16
  gr : Fin 16
  gn : Fin 32
  q : Fin 4
  pub : Bool
deriving DecidableEq, Repr

/-- Fields of shape NgetF (R412). -/
structure NgetF where
  c : Bool
  gl : Fin 16
  gr : Fin 16
  gn : Fin 32
  q : Fin 4
deriving DecidableEq, Repr

/-- Fields of shape NatomF (R412). -/
structure NatomF where
  c : Bool
  gl : Fin 16
  gr : Fin 16
  gv : Fin 8
  op : NatomOp
  q : Fin 4
deriving DecidableEq, Repr

/-- Fields of shape BreqF (R412). -/
structure BreqF where
  c : Bool
  ga : Fin 16
deriving DecidableEq, Repr

/-- Fields of shape EnqF (R393; n is NM1). -/
structure EnqF where
  c : Bool
  p : Fin 8
  q : Fin 16
  ga : Fin 16
  n : Fin 8
deriving DecidableEq, Repr

/-- Fields of shape LaunchF (R171). -/
structure LaunchF where
  c : Bool
  p : Fin 8
  q : Fin 16
  a : Fin 28 ⊕ Fin 16
  w : Bool
deriving DecidableEq, Repr

/-- Fields of shape TrapF (R379). -/
structure TrapF where
  c : Bool
  imm : BitVec 16
deriving DecidableEq, Repr

/-- Fields of shape RettF (R379). -/
structure RettF where
  c : Bool
  gf : Fin 16
  p : Fin 8
deriving DecidableEq, Repr

/-- Fields of shape SwrF (R379). -/
structure SwrF where
  c : Bool
  a : Src
  s : SReg
deriving DecidableEq, Repr

/-- Fields of shape SaveptF (R379; live as encoded). -/
structure SaveptF where
  c : Bool
  live : Fin 64
deriving DecidableEq, Repr

/-- Fields of shape ProbeF (R297: even V registers 2d and 2a). -/
structure ProbeF where
  c : Bool
  d : Fin 28
  a : Fin 28
  w : Bool
deriving DecidableEq, Repr

/-- Fields of shape TlbF (R298: pairs G(2n)). -/
structure TlbF where
  c : Bool
  gb : Fin 16
  gc : Fin 16
deriving DecidableEq, Repr

/-! ### Operands of the events -/

/-- The harbour master image the boot ROM reads, its SM2 signature, its rollback number (R434). -/
structure Firmware where
  image : List Byte
  sig : List Byte
  rollback : Nat
deriving DecidableEq, Repr

/-- Unit kinds of a failure report (R433). -/
inductive UnitKind where
  | core | dieCache | stack | ringStop | port | firmware | lifeCycle
deriving DecidableEq, Repr

/-- What a self-test of bring-up found (R430, R431, R433). -/
inductive TestOutcome where
  | pass
  | fail (unit : UnitKind) (number : Nat) (detail : Word)
deriving DecidableEq, Repr

/-- Whose signature a life-cycle request carries, as verified (R435). -/
inductive Signer where
  | vendor | operator | other
deriving DecidableEq, Repr

/-- A life-cycle request: who signed it, and the operator's public key a deploy request carries (R435). -/
structure SignedReq where
  signer : Signer
  key : Nat
deriving DecidableEq, Repr

/-- A device certificate offered for installation (R437). -/
structure Certificate where
  bytes : List Byte
deriving DecidableEq, Repr

/-- A create-context request: the fields of the context record that the owner names (R365, R366). -/
structure CreateReq where
  owner : Nat
  priv : Bool
  buoy : Bool
  debug : Bool
  super : Nat
  ptRoot : Nat
  saveBase : Nat
  ngimg : Nat
  nbimg : Nat
  fqBase : Nat
  fqSize : Nat
  tqSize : Nat
  tqBase : Nat
  shPool : Nat
  statusVa : Nat
  deadline : Nat
  bimgOff : Nat
  qdBase : Nat
  shSize : Nat
deriving DecidableEq, Repr

/-- An open-queue request: queue number 0 to 31 in the order of R384, and the fixed fields of R385. -/
structure QueueReq where
  queue : Nat
  base : Nat
  size : Nat
  prio : Nat
  net : Bool
  ordered : Bool
deriving DecidableEq, Repr

/-- The rings whose HEAD software moves (R292, R376, R439). -/
inductive RingName where
  | fault | trap | log
deriving DecidableEq, Repr

/-- A cache of the hierarchy (R224). -/
inductive CacheLevel where
  | l1 (core : Nat) | die (n : Nat) | msc
deriving DecidableEq, Repr

/-- A DRAM bank: stack, pseudo-channel, bank (R225). -/
structure BankId where
  stack : Nat
  pch : Nat
  bank : Nat
deriving DecidableEq, Repr

/-- An Ethernet frame: the owner its SCI names, or 16 for the harbour master's channel, port, association and packet number, whether its
ICV verifies, the queue pair it addresses, whether it asks what the device does not support, its ECN mark (R398, R399, R404). -/
structure Frame where
  owner : Nat
  port : Nat
  an : Nat
  pn : Nat
  icvOk : Bool
  qp : Nat
  unsupported : Bool := false
  ecn : Bool := false
deriving DecidableEq, Repr

/-- A RoCE SEND to a launch endpoint: queue pair and port, the immediate, the message bytes (R389, R400). -/
structure LaunchSend where
  owner : Nat
  port : Nat
  qp : Nat
  imm : Option Word
  data : List Byte
deriving DecidableEq, Repr

/-- An RDMA operation on an export berth: requester, queue pair, key, offset in the window, length of a read, data of
a write, the immediate, and for an atomic whether it is a compare-and-swap, with its operands (R398, R404, R405). -/
structure RdmaReq where
  owner : Nat
  port : Nat
  qp : Nat
  key : Word
  offset : Nat
  len : Nat
  data : List Byte
  imm : Option Word
  cas : Bool
  operand : BitVec 64
  swap : BitVec 64
deriving DecidableEq, Repr

/-- A word of storage that takes a bit error (R72). -/
inductive StorageErr where
  /-- V, X, L or G register of a group: slot 0-61, or 64-95 for G0-G31; bit flips of the 36 bits; more than one bit. -/
  | reg (grp slot lane : Nat) (multi : Bool)
  /-- tags and full/empty bits of a V register. -/
  | tag (grp slot : Nat)
  | scratch (block off : Nat) (multi : Bool)
  | tile (core tile row col : Nat) (multi : Bool)
  | bstore (core slot idx : Nat) (multi : Bool)
  /-- a cache line: dirty lines of L1 and the die cache and all memory-side lines are SEC-DED, clean ones parity. -/
  | cache (lvl : CacheLevel) (sector word : Nat) (multi : Bool)
  | burst (core idx word : Nat) (multi : Bool)
  | icache (core line : Nat)
  /-- symbols of a DRAM sector change: position in the stored 72 bytes and the error value. -/
  | dram (sector : Nat) (errs : List (Nat × Byte))
deriving DecidableEq, Repr

/-- A packet that a stop sends over the hawser ring (R395): read data (KIND 3) is taken from the sectors at ADDR; for other kinds but 1
what the sending agent puts into it, whole sectors among it. -/
structure RingSend where
  src : Nat
  dest : Nat
  owner : Nat
  kind : Nat
  addr : Nat
  operand : BitVec 128
  len : Nat
  data : List (List Word)
deriving DecidableEq, Repr

/-- The operands of an event: which machine part it takes place in and what comes from outside (DESIGN CHOICE, log 1). -/
inductive Arg where
  | none
  | n (a : Nat)
  | n2 (a b : Nat)
  | n3 (a b c : Nat)
  | flag (a b : Nat) (on : Bool)
  | firmware (f : Firmware)
  | outcome (r : TestOutcome)
  | signed (r : SignedReq)
  | certificate (r : Certificate)
  | nonce (owner port : Nat) (bytes : List Byte)
  | create (r : CreateReq)
  | queue (owner ctx : Nat) (r : QueueReq)
  | ring (ctx : Nat) (r : RingName)
  | level (lvl : CacheLevel) (sector : Nat)
  | bank (b : BankId) (row : Nat)
  | packet (r : RingSend)
  | flit (stop : Nat) (up : Bool) (flip : Option Nat)
  | frame (f : Frame)
  | launch (r : LaunchSend)
  | rdma (r : RdmaReq)
  | storage (e : StorageErr)
deriving DecidableEq, Repr

/-- The instructions and events: one constructor per row of spec/opcode_table.json, the instruction words first. An
event takes its operands from State.input. -/
inductive Instr where
  /-- ADD: Adds A and B modulo 2^32. (R123) -/
  | add (f : RR)
  /-- ADD_SAT: Adds A and B as I32 with saturation. (R123) -/
  | addSat (f : RS)
  /-- SUB: Subtracts B from A modulo 2^32. (R123) -/
  | sub (f : RR)
  /-- SUB_SAT: Subtracts B from A as I32 with saturation. (R123) -/
  | subSat (f : RS)
  /-- ADDC: Adds A, B and carry P6, writing the carry-out to P6. (R123) -/
  | addc (f : RR)
  /-- SUBB: Subtracts B and borrow P6 from A, writing the borrow-out to P6. (R123) -/
  | subb (f : RR)
  /-- NEG: Negates A modulo 2^32. (R123) -/
  | neg (f : R1)
  /-- ABS: Writes the absolute value of A. (R123) -/
  | abs (f : R1)
  /-- SAD: Adds the sum of absolute byte differences of A and B to old D. (R126) -/
  | sad (f : RR)
  /-- MOV: Copies A with its residue and tag, unchecked. (R135) -/
  | mov (f : R1)
  /-- MUL: Writes the low word of A times B. (R125) -/
  | mul (f : RR)
  /-- MULH: Writes the high word of the signed product. (R125) -/
  | mulh (f : RR)
  /-- MULH_U: Writes the high word of the unsigned product. (R125) -/
  | mulhU (f : RS)
  /-- MAD: Writes the low word of A times B plus old D. (R125) -/
  | mad (f : RR)
  /-- MADH: Writes the high word of the unsigned A times B plus old D. (R125) -/
  | madh (f : RR)
  /-- MIN: Writes the signed lesser of A and B. (R127) -/
  | min (f : RR)
  /-- MIN_U: Writes the unsigned lesser of A and B. (R127) -/
  | minU (f : RS)
  /-- MAX: Writes the signed greater of A and B. (R127) -/
  | max (f : RR)
  /-- MAX_U: Writes the unsigned greater of A and B. (R127) -/
  | maxU (f : RS)
  /-- DOT4: Adds the signed four-byte dot product of A and B to old D, wrapping. (R126) -/
  | dot4 (f : RR)
  /-- DOT4_SAT: Signed four-byte dot product plus old D, saturated. (R126) -/
  | dot4Sat (f : RS)
  /-- DOT4_U: Adds the unsigned four-byte dot product to old D, wrapping. (R126) -/
  | dot4U (f : RR)
  /-- DOT4_U_SAT: Unsigned four-byte dot product plus old D, saturated. (R126) -/
  | dot4USat (f : RS)
  /-- AND: Bitwise AND of A and B. (R131) -/
  | and (f : RR)
  /-- OR: Bitwise OR of A and B. (R131) -/
  | or (f : RR)
  /-- XOR: Bitwise XOR of A and B. (R131) -/
  | xor (f : RR)
  /-- ANDN: Bitwise A AND NOT B. (R131) -/
  | andn (f : RR)
  /-- POPC: Counts the 1 bits of A. (R128) -/
  | popc (f : R1)
  /-- CLZ: Counts the leading zeros of A. (R128) -/
  | clz (f : R1)
  /-- BREV: Reverses the bits of A. (R128) -/
  | brev (f : R1)
  /-- SHL: Shifts A left by B[4:0]. (R129) -/
  | shl (f : RR)
  /-- SHR: Shifts A right logically by B[4:0]. (R129) -/
  | shr (f : RR)
  /-- SAR: Shifts A right arithmetically by B[4:0]. (R129) -/
  | sar (f : RR)
  /-- ROL: Rotates A left by B[4:0]. (R129) -/
  | rol (f : RR)
  /-- ROR: Rotates A right by B[4:0]. (R129) -/
  | ror (f : RR)
  /-- BFX: Extracts a bit field of A described by B. (R130) -/
  | bfx (f : RR)
  /-- BFI: Inserts A's low bits into old D at the field described by B. (R130) -/
  | bfi (f : RR)
  /-- FSHL: Funnel-shifts (A, B) left by old D and writes the high word. (R129) -/
  | fshl (f : RR)
  /-- FSHR: Funnel-shifts (A, B) right by old D and writes the low word. (R129) -/
  | fshr (f : RR)
  /-- LEA_1: Writes A + B·2. (R124) -/
  | lea1 (f : RR)
  /-- LEA_2: Writes A + B·4. (R124) -/
  | lea2 (f : RR)
  /-- LEA_3: Writes A + B·8. (R124) -/
  | lea3 (f : RR)
  /-- LEA_4: Writes A + B·16. (R124) -/
  | lea4 (f : RR)
  /-- CMP_EQ: Sets predicate Pd where A equals B. (R132) -/
  | cmpEq (f : CmpF)
  /-- CMP_NE: Sets predicate Pd where A differs from B. (R132) -/
  | cmpNe (f : CmpF)
  /-- CMP_LT: Sets predicate Pd where A < B signed. (R132) -/
  | cmpLt (f : CmpF)
  /-- CMP_LE: Sets predicate Pd where A <= B signed. (R132) -/
  | cmpLe (f : CmpF)
  /-- CMP_LT_U: Sets predicate Pd where A < B unsigned. (R132) -/
  | cmpLtU (f : CmpF)
  /-- CMP_LE_U: Sets predicate Pd where A <= B unsigned. (R132) -/
  | cmpLeU (f : CmpF)
  /-- SEL: Writes A where predicate Pn is 1, else B. (R133) -/
  | sel (f : SelF)
  /-- MOVK: Writes constant-bank word n to every lane, tagged BITS/0. (R136) -/
  | movk (f : MovkF)
  /-- BMIX: Computes each bit of D from the 8-bit truth table over bits of A, B and old D. (R110) -/
  | bmix (f : BmixF)
  /-- MOVI: Writes the sign-extended 20-bit immediate. (R137) -/
  | movi (f : RI)
  /-- ADDI: Adds the sign-extended immediate to D. (R137) -/
  | addi (f : RI)
  /-- ANDI: ANDs D with the sign-extended immediate. (R137) -/
  | andi (f : RI)
  /-- ORI: ORs D with the zero-extended immediate. (R137) -/
  | ori (f : RI)
  /-- XORI: XORs D with the zero-extended immediate. (R137) -/
  | xori (f : RI)
  /-- SHLI: Shifts D left by IMM20[4:0]. (R137) -/
  | shli (f : ShliF)
  /-- FADD: F32 addition rounded by FPC.RM. (R141) -/
  | fadd (f : RR)
  /-- FSUB: F32 subtraction rounded by FPC.RM. (R141) -/
  | fsub (f : RR)
  /-- FMUL: F32 multiplication rounded by FPC.RM. (R141) -/
  | fmul (f : RR)
  /-- FMIN: IEEE minimum of A and B. (R144) -/
  | fmin (f : RR)
  /-- FMIN_NUM: IEEE minimumNumber of A and B. (R144) -/
  | fminNum (f : RS)
  /-- FMAX: IEEE maximum of A and B. (R144) -/
  | fmax (f : RR)
  /-- FMAX_NUM: IEEE maximumNumber of A and B. (R144) -/
  | fmaxNum (f : RS)
  /-- FCMP: Sets predicate Pd where the float condition in D[5:3] holds for A and B. (R145) -/
  | fcmp (f : FcmpF)
  /-- FINT: Rounds A to an integral F32 by FPC.RM. (R144) -/
  | fint (f : R1)
  /-- PFMA: Per-half fused A×B + old D in F16×2 or B16×2 by FPC.RM. (R143) -/
  | pfma (f : RR)
  /-- FADD_RN: F32 addition rounded to nearest even. (R141) -/
  | faddRn (f : RR)
  /-- FADD_RZ: F32 addition rounded toward zero. (R141) -/
  | faddRz (f : RR)
  /-- FADD_RD: F32 addition rounded toward minus infinity. (R141) -/
  | faddRd (f : RR)
  /-- FADD_RU: F32 addition rounded toward plus infinity. (R141) -/
  | faddRu (f : RR)
  /-- FSUB_RN: F32 subtraction rounded to nearest even. (R141) -/
  | fsubRn (f : RR)
  /-- FSUB_RZ: F32 subtraction rounded toward zero. (R141) -/
  | fsubRz (f : RR)
  /-- FSUB_RD: F32 subtraction rounded toward minus infinity. (R141) -/
  | fsubRd (f : RR)
  /-- FSUB_RU: F32 subtraction rounded toward plus infinity. (R141) -/
  | fsubRu (f : RR)
  /-- FMUL_RN: F32 multiplication rounded to nearest even. (R141) -/
  | fmulRn (f : RR)
  /-- FMUL_RZ: F32 multiplication rounded toward zero. (R141) -/
  | fmulRz (f : RR)
  /-- FMUL_RD: F32 multiplication rounded toward minus infinity. (R141) -/
  | fmulRd (f : RR)
  /-- FMUL_RU: F32 multiplication rounded toward plus infinity. (R141) -/
  | fmulRu (f : RR)
  /-- FINT_RN: Rounds A to integral F32, nearest even. (R144) -/
  | fintRn (f : R1)
  /-- FINT_RZ: Rounds A to integral F32 toward zero. (R144) -/
  | fintRz (f : R1)
  /-- FINT_RD: Rounds A to integral F32 toward minus infinity. (R144) -/
  | fintRd (f : R1)
  /-- FINT_RU: Rounds A to integral F32 toward plus infinity. (R144) -/
  | fintRu (f : R1)
  /-- PFMA_RN: Per-half fused multiply-add, nearest even. (R143) -/
  | pfmaRn (f : RR)
  /-- PFMA_RZ: Per-half fused multiply-add toward zero. (R143) -/
  | pfmaRz (f : RR)
  /-- PFMA_RD: Per-half fused multiply-add toward minus infinity. (R143) -/
  | pfmaRd (f : RR)
  /-- PFMA_RU: Per-half fused multiply-add toward plus infinity. (R143) -/
  | pfmaRu (f : RR)
  /-- FRCP: Approximate reciprocal of A. (R146) -/
  | frcp (f : R1)
  /-- FRSQ: Approximate reciprocal square root of A. (R146) -/
  | frsq (f : R1)
  /-- FSQRT: Approximate square root of A. (R146) -/
  | fsqrt (f : R1)
  /-- FEXP2: Approximate 2 to the power A. (R146) -/
  | fexp2 (f : R1)
  /-- FLOG2: Approximate base-2 logarithm of A. (R146) -/
  | flog2 (f : R1)
  /-- FSIN: Approximate sin(2πA). (R146) -/
  | fsin (f : R1)
  /-- FCOS: Approximate cos(2πA). (R146) -/
  | fcos (f : R1)
  /-- FMA: Fused A×B + C rounded by FPC.RM. (R142) -/
  | fma (f : RQ)
  /-- FMA_RN: Fused multiply-add rounded to nearest even. (R142) -/
  | fmaRn (f : RQ)
  /-- FMA_RZ: Fused multiply-add rounded toward zero. (R142) -/
  | fmaRz (f : RQ)
  /-- FMA_RD: Fused multiply-add rounded toward minus infinity. (R142) -/
  | fmaRd (f : RQ)
  /-- FMA_RU: Fused multiply-add rounded toward plus infinity. (R142) -/
  | fmaRu (f : RQ)
  /-- FMAK: Fused D×A + bank word, with the mode in FN. (R142) -/
  | fmak (f : FmakF)
  /-- CVT: Converts A's elements from format FROM to format TO. (R148) -/
  | cvt (f : CvtF)
  /-- CVTQ_Q: Quantises a quad's 32 F32 elements into one Q4 block and scale record. (R152) -/
  | cvtqQ (f : CvtqQF)
  /-- CVTQ_X: Expands a quad's Q4 block into an 8-register F32 run. (R152) -/
  | cvtqX (f : CvtqXF)
  /-- PACK: Converts a register run into the elements of one packed word. (R150) -/
  | pack (f : PackF)
  /-- UNPK: Unpacks the elements of a packed word into a register run. (R150) -/
  | unpk (f : UnpkF)
  /-- FADDI: Adds the F32 upper-bits immediate to D. (R142) -/
  | faddi (f : RI)
  /-- FMULI: Multiplies D by the F32 upper-bits immediate. (R142) -/
  | fmuli (f : RI)
  /-- QXCH: Exchanges words between lanes of a quad by pattern H, V or D. (R154) -/
  | qxch (f : QxchF)
  /-- QBRD: Broadcasts lane j of each quad to the quad. (R154) -/
  | qbrd (f : QbrdF)
  /-- XLANE: Reads A from a source lane chosen per lane by the lane operand in old D. (R155) -/
  | xlane (f : XlaneF)
  /-- POLL_QUORUM: Sets Pd when at least q voters vote 1. (R156) -/
  | pollQuorum (f : PollQF)
  /-- POLL_SAME: Sets Pd when every voter votes alike. (R156) -/
  | pollSame (f : PollSF)
  /-- POLL_COUNT: Writes the number of voters that vote 1. (R156) -/
  | pollCount (f : PollWF)
  /-- POLL_RANK: Writes the number of voters below the lane that vote 1. (R156) -/
  | pollRank (f : PollWF)
  /-- POLL_MAP: Writes word l mod 4 of the group's vote map. (R156) -/
  | pollMap (f : PollWF)
  /-- REDG: Reduces A over the voters by the selected operation and broadcasts the result. (R157) -/
  | redg (f : RedgF)
  /-- TAGR: Writes the tag of A as an N32 word. (R158) -/
  | tagr (f : TagrF)
  /-- TAGW: Sets the whole-group tag of D once D is full. (R158) -/
  | tagw (f : TagwF)
  /-- SRD: Reads a special register; CLOCKLO also latches CLOCKHI and FPC waits for prior float write-backs. (R159) -/
  | srd (f : SrdF)
  /-- PLOP: Computes predicate Pd from Pa and Pb by a 4-bit table. (R134) -/
  | plop (f : PlopF)
  /-- LD: Loads a byte, half, word, pair or quad per lane from global memory into a register run. (R248) -/
  | ld (f : LdF)
  /-- ST: Stores a byte, half, word, pair or quad per non-helper lane to global memory. (R249) -/
  | st (f : StF)
  /-- LDA: Acquiring load of a word or pair at SCOPE. (R250) -/
  | lda (f : LdaF)
  /-- STL: Releasing store of a word or pair at SCOPE. (R250) -/
  | stl (f : StlF)
  /-- LDS: Loads from scratchpad into a register run. (R248) -/
  | lds (f : LdF)
  /-- STS: Stores to scratchpad. (R249) -/
  | sts (f : StF)
  /-- PREF: Prefetches each lane's sector into the named cache level, never faulting. (R261) -/
  | pref (f : PrefF)
  /-- HSET: Sets a residency handle from a layout record's range at the given PRI. (R262) -/
  | hset (f : HsetF)
  /-- HDEM: Demotes a residency handle's lines to PRI 0. (R262) -/
  | hdem (f : HdemF)
  /-- HDROP: Frees a residency handle, evicting or (with .LU) dropping its lines. (R262) -/
  | hdrop (f : HdropF)
  /-- LRFLUSH: Releases at DEVICE scope and invalidates a layout record in every record cache of the context. (R263) -/
  | lrflush (f : LrfF)
  /-- WAITV: Parks the strand until the word at the uniform address meets the condition against the leader's value. (R264) -/
  | waitv (f : WaitvF)
  /-- ATOM_ADD: Atomic add at the home, returning the old word. (R252) -/
  | atomAdd (f : AtomF)
  /-- ATOM_MIN: Atomic signed minimum, returning the old word. (R252) -/
  | atomMin (f : AtomF)
  /-- ATOM_MAX: Atomic signed maximum, returning the old word. (R252) -/
  | atomMax (f : AtomF)
  /-- ATOM_MIN_U: Atomic unsigned minimum, returning the old word. (R252) -/
  | atomMinU (f : AtomF)
  /-- ATOM_MAX_U: Atomic unsigned maximum, returning the old word. (R252) -/
  | atomMaxU (f : AtomF)
  /-- ATOM_FADD: Atomic F32 add rounded to nearest even, returning the old word. (R252) -/
  | atomFadd (f : AtomF)
  /-- ATOM_EXCH: Atomic exchange of a word. (R252) -/
  | atomExch (f : AtomF)
  /-- ATOM_CAS: Atomic compare-and-swap of a word. (R252) -/
  | atomCas (f : AtomF)
  /-- ATOM_AND: Atomic AND, returning the old word. (R252) -/
  | atomAnd (f : AtomF)
  /-- ATOM_OR: Atomic OR, returning the old word. (R252) -/
  | atomOr (f : AtomF)
  /-- ATOM_XOR: Atomic XOR, returning the old word. (R252) -/
  | atomXor (f : AtomF)
  /-- ATOM_ADD_D: Atomic 64-bit add, returning the old pair. (R252) -/
  | atomAddD (f : AtomF)
  /-- ATOM_EXCH_D: Atomic 64-bit exchange. (R252) -/
  | atomExchD (f : AtomF)
  /-- ATOM_CAS_D: Atomic 64-bit compare-and-swap. (R252) -/
  | atomCasD (f : AtomF)
  /-- ATOMS_ADD: Scratchpad atomic add in the barrier unit. (R252) -/
  | atomsAdd (f : AtomF)
  /-- ATOMS_MIN: Scratchpad atomic signed minimum. (R252) -/
  | atomsMin (f : AtomF)
  /-- ATOMS_MAX: Scratchpad atomic signed maximum. (R252) -/
  | atomsMax (f : AtomF)
  /-- ATOMS_MIN_U: Scratchpad atomic unsigned minimum. (R252) -/
  | atomsMinU (f : AtomF)
  /-- ATOMS_MAX_U: Scratchpad atomic unsigned maximum. (R252) -/
  | atomsMaxU (f : AtomF)
  /-- ATOMS_FADD: Scratchpad atomic F32 add. (R252) -/
  | atomsFadd (f : AtomF)
  /-- ATOMS_EXCH: Scratchpad atomic exchange. (R252) -/
  | atomsExch (f : AtomF)
  /-- ATOMS_CAS: Scratchpad atomic compare-and-swap. (R252) -/
  | atomsCas (f : AtomF)
  /-- RED_ADD: Reduction add at the home, returning nothing. (R252) -/
  | redAdd (f : RedF)
  /-- RED_MIN: Reduction signed minimum. (R252) -/
  | redMin (f : RedF)
  /-- RED_MAX: Reduction signed maximum. (R252) -/
  | redMax (f : RedF)
  /-- RED_MIN_U: Reduction unsigned minimum. (R252) -/
  | redMinU (f : RedF)
  /-- RED_MAX_U: Reduction unsigned maximum. (R252) -/
  | redMaxU (f : RedF)
  /-- RED_FADD: Reduction F32 add. (R252) -/
  | redFadd (f : RedF)
  /-- RED_AND: Reduction AND. (R252) -/
  | redAnd (f : RedF)
  /-- RED_OR: Reduction OR. (R252) -/
  | redOr (f : RedF)
  /-- BINIT: Initialises a barrier with the leader's arrival count, or traps BARINV when busy. (R215) -/
  | binit (f : BarS)
  /-- BEXPECT: Adds the leader's sector count to SECTOR_PENDING, optionally clearing FAULTED_SECTORS. (R215) -/
  | bexpect (f : BarS)
  /-- BARRIVE: Releases at SCOPE, takes one arrival and returns the phase token. (R215) -/
  | barrive (f : BarD)
  /-- BWAIT: Parks until a completion of the barrier when PHASE equals the token, then acquires. (R215) -/
  | bwait (f : BwaitF)
  /-- BTRY: Writes 1 if the token's phase has completed, else arms EV_BARRIER when enabled. (R215) -/
  | btry (f : BarD)
  /-- BINVAL: Invalidates a barrier, trapping its waiters and orphaning its copies. (R215) -/
  | binval (f : BinvF)
  /-- BINIT_FORCE: Re-initialises a barrier even when busy. (R215) -/
  | binitForce (f : BarS)
  /-- FENCE: Release, acquire or both at SCOPE, holding the strand's next memory instruction until complete. (R257) -/
  | fence (f : FenceF)
  /-- SHADOW: Opens the lowest free shadow handle over a layout record's footprint and writes a status. (R259) -/
  | shadow (f : ShadowF)
  /-- PUBLISH: Releases at SCOPE and requests the swap of a shadow handle, writing its status after the swap. (R260) -/
  | publish (f : PubF)
  /-- DISCARD: Moves a shadow handle to DRAINING and writes a status. (R259) -/
  | discard (f : DiscF)
  /-- MFLUSH: Privileged: releases and writes dirty memory-side cache sectors of a range to DRAM, parking until done. (R265) -/
  | mflush (f : MflushF)
  /-- CDONE: Releases at DEVICE scope and requests the atomic OR of the block's bitmap bit. (R173) -/
  | cdone (f : C0)
  /-- CWAIT: Parks until the named blocks' bitmap bits are set or the grid has failed, then sets Pd. (R174) -/
  | cwait (f : CwaitF)
  /-- BRA: Unconditional branch by a packet offset. (R197) -/
  | bra (f : BraF)
  /-- BRC: Conditional branch that divides the strand and may push a JOIN. (R197) -/
  | brc (f : BrcF)
  /-- CALL: Turns the strand into a CALL entry and starts the callee path. (R199) -/
  | call (f : BraF)
  /-- BRV: Indirect branch with per-lane packet offsets. (R197) -/
  | brv (f : BrvF)
  /-- BRM: Multi-way branch over 1 to 4 predicate and offset pairs. (R198) -/
  | brm (f : BrmF)
  /-- RET: Returns the strand's lanes to their nearest CALL frame. (R199) -/
  | ret (f : C0)
  /-- JOUT: Leaves n enclosing joins for the strand's lanes. (R200) -/
  | jout (f : JoutF)
  /-- ELECT: Sets Pd in the lowest non-helper lane of the mask only. (R201) -/
  | elect (f : ElectF)
  /-- YIELD: Resets the strand's and group's ages. (R202) -/
  | yield (f : C0)
  /-- NAP: Parks the strand for a count of clk. (R203) -/
  | nap (f : NapF)
  /-- TAIL: Retires the whole group, handing outstanding work to the retirement tracker. (R193) -/
  | tail (f : C0)
  /-- EXIT: Makes the mask's lanes helpers or removes them, retiring the group when none remain. (R204) -/
  | exit (f : C0)
  /-- EVRET: Returns from an event handler, removing the EVENT entry and clearing the in-service mark. (R207) -/
  | evret (f : C0)
  /-- EVON: Sets the group's event enables. (R206) -/
  | evon (f : NapF)
  /-- MLOADB: Copies a B image, and for Q4 its scale image, from scratchpad into B-store slots. (R313) -/
  | mloadb (f : MloadbF)
  /-- MMA: Accumulates A rows from scratchpad times a B slot into tile rows. (R314) -/
  | mma (f : MmaF)
  /-- MMAG: Runs a ragged grouped product from a table of entries. (R315) -/
  | mmag (f : MmagF)
  /-- MREAD: Moves one or two checked tile rows into a V register run. (R316) -/
  | mread (f : MreadF)
  /-- MZERO: Clears a tile, its tag and its TFLAG. (R317) -/
  | mzero (f : MzeroF)
  /-- MCFG: Writes the group's matrix configuration. (R303) -/
  | mcfg (f : McfgF)
  /-- TCOPY: Appends a copy of a tensor box from global memory into scratchpad. (R340) -/
  | tcopy (f : TcopyF)
  /-- TSTORE: Appends a store of a scratchpad image into a tensor box, directly or through a shadow. (R341) -/
  | tstore (f : TcopyF)
  /-- XCOPY: Reads a register run and appends its delivery into another group of the block. (R342) -/
  | xcopy (f : XcopyF)
  /-- HREAD: Appends a bulk read whose bursts are born as lighters. (R344) -/
  | hread (f : HreadF)
  /-- BATCH: Closes the group's open copy and engine commands as a new batch and returns its number. (R219) -/
  | batch (f : BatchF)
  /-- WAITB: Parks until every batch up to the named one is complete. (R220) -/
  | waitb (f : WaitbF)
  /-- HST: Transforms, thresholds, converts and stores one Haar strip with its survival group. (R333) -/
  | hst (f : HstF)
  /-- HLD: Reads one Haar strip's coefficients into an 8-register run. (R334) -/
  | hld (f : HldF)
  /-- HLDX: Reads one Haar strip and reconstructs the plain values. (R334) -/
  | hldx (f : HldF)
  /-- HFWD: Applies the forward Haar transform at depth d. (R330) -/
  | hfwd (f : HfwdF)
  /-- HREC: Applies the inverse Haar transform at the source's depth. (R330) -/
  | hrec (f : HrecF)
  /-- HTHR: Thresholds Haar detail coefficients by band code. (R331) -/
  | hthr (f : HthrF)
  /-- HBIAS: Adds a bias to each segment's average. (R332) -/
  | hbias (f : HbiasF)
  /-- QGATH: Appends a gather of rows by an index tensor. (R357) -/
  | qgath (f : QuayF)
  /-- QRED: Appends an element-wise reduction of up to four tensors. (R358) -/
  | qred (f : QuayF)
  /-- QCVT: Appends a format conversion, including Q4 quantisation. (R359) -/
  | qcvt (f : QuayF)
  /-- QUNPK: Appends a table-driven unpack of a bit stream into a shadow. (R362) -/
  | qunpk (f : QuayF)
  /-- QTLOAD: Appends an install of unpacker transition tables into a slot. (R361) -/
  | qtload (f : QtlF)
  /-- NPUT: Appends a transfer of bytes from local memory to a remote berth, optionally publishing. (R413) -/
  | nput (f : NputF)
  /-- NGET: Appends a transfer of bytes from a remote berth to local memory. (R413) -/
  | nget (f : NgetF)
  /-- NATOM: Appends a remote 64-bit add or compare-and-swap with a local result record. (R414) -/
  | natom (f : NatomF)
  /-- BOPEN: Passes a berth-open request block to the harbour master. (R415) -/
  | bopen (f : BreqF)
  /-- BREVOKE: Passes a berth-revoke request block to the harbour master, raising GEN. (R415) -/
  | brevoke (f : BreqF)
  /-- ENQ_L: Appends 1 to 8 prepared launch records to a launch queue, all or nothing. (R393) -/
  | enqL (f : EnqF)
  /-- ENQ_Q: Appends 1 to 8 prepared quay entries to a quay queue as batch members. (R393) -/
  | enqQ (f : EnqF)
  /-- LAUNCH: Appends per-lane or uniform launch records to a launch queue, reporting per lane. (R171) -/
  | launch (f : LaunchF)
  /-- TRAP: Traps TRAPI with the immediate after being performed. (R380) -/
  | trap (f : TrapF)
  /-- RETT_RESUME: Privileged: resumes a trapped group or lighter by replaying its replay queue. (R383) -/
  | rettResume (f : RettF)
  /-- RETT_SKIP: Privileged: drops replay entry 0 and resumes the rest. (R383) -/
  | rettSkip (f : RettF)
  /-- RETT_END: Privileged: retires the trapped group or discards the lighter with LFAULT. (R383) -/
  | rettEnd (f : RettF)
  /-- RETT_FAULT: Privileged: puts the target's context into FAULTED. (R383) -/
  | rettFault (f : RettF)
  /-- SWR: Writes the leader's value into a writable special register (FPC, DOMCTL, FINJ, HT0–HT3, EVEC, DEADLINE). (R381) -/
  | swr (f : SwrF)
  /-- SAVEPT: Parks the group at its save point when a pre-emption is requested. (R382) -/
  | savept (f : SaveptF)
  /-- PROBE: Translates per-lane addresses without faulting, writing status and frame words. (R297) -/
  | probe (f : ProbeF)
  /-- TLBINV: Privileged: drops cached translations of a range of the target context. (R298) -/
  | tlbinv (f : TlbF)
  /-- TLBINV_R: Privileged: drops translations, raises the resolve count and replays parked requests in range. (R298) -/
  | tlbinvR (f : TlbF)
  /-- TLBINV_ABORT: Privileged: drops translations and fails parked requests in range. (R298) -/
  | tlbinvAbort (f : TlbF)
  /-- BREAK: Traps BREAK with the immediate in a DEBUG context. (R380) -/
  | brk (f : TrapF)
  /-- BRING_UP: Power-up or a device reset starts the bring-up sequence at step 1; a reset during any step restarts it. (R430) -/
  | bringUp
  /-- STACK_TRAINING: Step 2, started when step 1 completes: stack training, DRAM BIST and a wipe of all DRAM with valid line codes. (R430) -/
  | stackTraining
  /-- RING_LOOPBACK: Step 3, started when step 2 completes: hawser ring loopback in both directions through every stop. (R430) -/
  | ringLoopback
  /-- PHY_LOOPBACK: Step 4, started when step 3 completes: Ethernet PHY loopback and the MACsec known-answer test. (R430) -/
  | phyLoopback
  /-- SRAM_BIST: Step 5, started when step 4 completes: SRAM BIST and wipe of every compute-die memory. (R430) -/
  | sramBist
  /-- RESIDUE_CHECKER_TEST: Step 6, started when step 5 completes: every residue checker, line-code decoder and ring stop is shown to fire and to stay quiet. (R431) -/
  | residueCheckerTest
  /-- CLOCK_START: Step 7, started when step 6 completes: CLOCK starts at 0, the ports accept owner channels and the management port reports READY. (R160) -/
  | clockStart
  /-- RESET_REQUEST: A management Reset request performs the bring-up sequence of R430. (R432) -/
  | resetRequest
  /-- READ_FAILURE_REPORT: A management request returns the signed 256-byte failure report. (R433) -/
  | readFailureReport
  /-- READ_IDENTITY: A management request returns the device certificate, the certificate request or the manufacturing identity record, by life-cycle state. (R437) -/
  | readIdentity
  /-- PROVISIONING_REQUEST: A vendor-signed request moves MANUFACTURE to PROVISIONED, generates the identity key and emits the certificate request. (R435) -/
  | provisioningRequest
  /-- DEPLOY_REQUEST: A deploy request fuses the operator key (PROVISIONED to DEPLOYED) or returns DEBUG to DEPLOYED; every change kills, wipes and resets. (R435) -/
  | deployRequest
  /-- DEBUG_REQUEST: An operator-signed request moves DEPLOYED to DEBUG, allowing debug contexts. (R435) -/
  | debugRequest
  /-- RETIRE_REQUEST: A signed retire request moves any state to RETIRED, destroys the identity key and leaves the module in safe hold. (R435) -/
  | retireRequest
  /-- INSTALL_CERTIFICATE: The operator's Install certificate request is verified and the device certificate kept, or BADCERT is answered. (R437) -/
  | installCertificate
  /-- ATTESTATION_REQUEST: An owner's request with a 32-byte nonce is answered with a 128-byte report signed by the identity key. (R436) -/
  | attestationRequest
  /-- CREATE_CONTEXT: An owner's create request makes the harbour master assign a CTXID and write the context record, or answers DENIED, NOSPACE, BADREQ, NODEBUG or BUSY. (R365) -/
  | createContext
  /-- LOAD_CONTEXT: An owner's load request moves a context from CREATED to LOADING. (R367) -/
  | loadContext
  /-- START_CONTEXT: An owner's start request moves a context from LOADING to RUNNING, and the distributor takes its launch queues. (R367) -/
  | startContext
  /-- RESUME_CONTEXT: An owner's resume request moves a FAULTED context to RUNNING by restore. (R367) -/
  | resumeContext
  /-- KILL_CONTEXT: An owner's or the harbour master's kill discards groups, lighters and commands, fails grids with code 10, frees shadows and closes berths. (R367) -/
  | killContext
  /-- OPEN_QUEUE: An owner's management request makes the harbour master open a queue of the context. (R384) -/
  | openQueue
  /-- CLOSE_QUEUE: An owner's management request makes the harbour master close a queue of the context. (R384) -/
  | closeQueue
  /-- SET_DEADLINE: An owner's management request sets the context's starting DEADLINE. (R371) -/
  | setDeadline
  /-- OPEN_PATH: An owner's management request opens a Reliable Connection path and numbers it. (R402) -/
  | openPath
  /-- CLOSE_PATH: An owner's management request closes a path. (R402) -/
  | closePath
  /-- PILOT_KEY_ROTATION: The harbour master installs a new pilot key under a new association number and retires the old key once frames under the new one are seen in both directions. (R399) -/
  | pilotKeyRotation
  /-- SET_THR: The harbour master sets a stack's row-activation threshold and publishes it in the device status page. (R241) -/
  | setThr
  /-- SCHEDULER_DESCHEDULE: The scheduler moves a RUNNING context to YIELDING, raises PREQ.REQ and EV_PREEMPT, starts the deadline and stops or buoys its engine commands. (R367) -/
  | schedulerDeschedule
  /-- DEADLINE_EXPIRY: A group not at its save point CLK clk after REQ rose is saved by force. (R371) -/
  | deadlineExpiry
  /-- BLOCK_SAVE: When every group of a block (and of its gang) is at its save point, the groups, scratchpad, engine state and lighters are written to the images. (R372) -/
  | blockSave
  /-- CONTEXT_SAVED: When every block is saved and the engines are quiet, the context becomes SAVED and frees its resident place. (R367) -/
  | contextSaved
  /-- SCHEDULER_RESTORE: The scheduler restores a SAVED context: blocks, replay queues, parked requests and waiting bursts are restored and PREQ.REQ is cleared. (R372) -/
  | schedulerRestore
  /-- CONTEXT_WIPED: When the wipe of a KILLED context's pages completes, it becomes WIPED and its CTXID is freed. (R367) -/
  | contextWiped
  /-- COMPUTE_DIE_RESET: A compute die enters reset after placement stops, its contexts are SAVED and its dirty die-cache lines are written back. (R28) -/
  | computeDieReset
  /-- TAKE_LAUNCH_ENTRY: The distributor takes the head launch entry of the highest-priority open queue; the grid enters QUEUED and then STARTING or WAITING. (R390) -/
  | takeLaunchEntry
  /-- LAUNCH_QUEUE_AGING: Each 100,000 clk that a queue head waits untaken raises its effective priority by one, up to 7. (R390) -/
  | launchQueueAging
  /-- DEPENDENCE_POLL: The distributor re-examines the context's unsatisfied dependences after a CDONE or a grid state change, and at least every 7000 clk. (R170) -/
  | dependencePoll
  /-- GRID_STARTING: The distributor checks the record and footprint, reads the constant bank into the bank image and initialises the bitmap, or fails the grid. (R167) -/
  | gridStarting
  /-- PLACE_GANG: When resources free, the distributor places the next gang of a chosen grid on a die with room, invalidating instruction caches and loading constant caches. (R165) -/
  | placeGang
  /-- BLOCK_RETIRE: When all groups have retired and the retirement tracker holds no entry of the block, its scratchpad and matrix engine are freed. (R194) -/
  | blockRetire
  /-- GRID_DRAINED: When the trackers hold no entry of a DRAINING grid, it becomes DONE (or FAILED if refused), the bitmap is set and queue progress advances. (R167) -/
  | gridDrained
  /-- ISSUE_SELECT: In each clk each port selects the oldest ready group and strand and issues one chain, with identical chains of the same slot co-issuing. (R190) -/
  | issueSelect
  /-- EVENT_ENTRY: A pending enabled event is taken at a boundary: EVENT and PATH entries are pushed and the handler is entered by branch. (R191) -/
  | eventEntry
  /-- CLOCK_WRAP: CLOCK[15:0] passing from 0xFFFF to 0x0000 raises EV_TIMER. (R221) -/
  | clockWrap
  /-- LOAD_DATA_RETURN: A long-latency producer's data and residue arrive, writing the run and its tag and marking the lanes full. (R179) -/
  | loadDataReturn
  /-- NAP_EXPIRY: A strand parked in NAP becomes ready between c and c+16 clk after issue. (R203) -/
  | napExpiry
  /-- WAITV_REREAD: A parked WAITV re-reads its word when its sector is written at the memory-side cache, or after 7000 clk, and continues when the condition holds. (R264) -/
  | waitvReread
  /-- CWAIT_REREAD: A parked CWAIT re-reads its words when written, or after 7000 clk, and continues on the bits or a FAILED header. (R174) -/
  | cwaitReread
  /-- BATCH_COMPLETE: A batch completes when all its members and all earlier batches have completed, waking WAITB and raising EV_COPYDONE for BATCH.EV. (R219) -/
  | batchComplete
  /-- RETIREMENT_TRACKER_DRAIN: Outstanding work of a retired group completes under its retirement-tracker entry, which then frees. (R193) -/
  | retirementTrackerDrain
  /-- QUEUE_HEAD_REREAD: A write of a fault, trap or log ring's HEAD at its home makes the device re-read it and append the waiting entries. (R292) -/
  | queueHeadReread
  /-- FAULT_BERTH_FREED: A request waiting in its slot for a full set of fault berths parks when a berth frees. (R291) -/
  | faultBerthFreed
  /-- TLBINV_EFFECT_COMPLETE: When translations are dropped everywhere and accesses using them are done, parked requests in range are replayed or failed and the strand continues. (R298) -/
  | tlbinvEffectComplete
  /-- ENGINE_TAKE_ENTRY: A copy, quay or network engine takes its queue's next entry, raising HEAD and setting QSTATE RUNNING. (R388) -/
  | engineTakeEntry
  /-- BUOY_RETURN: An engine takes a buoy after every earlier command, writes it DONE and takes nothing further until restore. (R392) -/
  | buoyReturn
  /-- ENGINE_QUIET: An engine's already-sent sectors land, or its buoys return, so that it holds nothing of the yielding context. (R377) -/
  | engineQuiet
  /-- COPY_SECTOR_DELIVERED: A copy writes a destination sector into scratchpad (or its image), performs it at BLOCK scope and decrements the named barrier. (R211) -/
  | copySectorDelivered
  /-- TSTORE_SECTOR_WRITTEN: A TSTORE writes a destination sector to memory or a shadow frame and decrements its barrier. (R341) -/
  | tstoreSectorWritten
  /-- XCOPY_DELIVERY: When the target run is full, the engine marks it empty, delivers the words, tags and residues and marks it full. (R343) -/
  | xcopyDelivery
  /-- COMMAND_COMPLETION: An engine command completes: STATUS is written, QSTATE becomes DONE with release and the entry retires. (R388) -/
  | commandCompletion
  /-- PUBLISH_SWAP: When every prior writer has completed without error, the shadowed pages are remapped in one step and PUBLISH writes its status. (R260) -/
  | publishSwap
  /-- HREAD_BURST_REQUEST: The read sequencer issues the next burst request when a burst berth is free. (R346) -/
  | hreadBurstRequest
  /-- HREAD_BURST_RETURN: A burst returns into its berth, or fails by PROT and sets the read's error mark or FAULTED_SECTORS. (R346) -/
  | hreadBurstReturn
  /-- LIGHTER_BIRTH: A waiting burst is born into the lowest free lighter place with its initial registers, and its berth is freed. (R347) -/
  | lighterBirth
  /-- HREAD_COMPLETION: When every burst has retired, the read releases at BLOCK scope and raises EV_BURSTDONE or arrives on its barrier. (R349) -/
  | hreadCompletion
  /-- QUNPK_SYMBOL: The unpacker decodes one symbol of its input, emitting bytes or stopping with OK or UNPACK. (R362) -/
  | qunpkSymbol
  /-- QUAY_COMMAND_RUN: A quay engine runs a command of one queue at a time on the home stack of its destination, recording progress when suspended. (R352) -/
  | quayCommandRun
  /-- MATRIX_ENTRY_DONE: A matrix instruction in the engine queue finishes its tile, slot or TFLAG work after every earlier entry. (R310) -/
  | matrixEntryDone
  /-- MREAD_DATA_ARRIVAL: An MREAD's verified words and full bits arrive in its run and TFLAG is ORed into FPC. (R316) -/
  | mreadDataArrival
  /-- CDONE_OR_PERFORM: CDONE's atomic OR is performed at the bitmap word's home, or refused, marking the grid refused. (R173) -/
  | cdoneOrPerform
  /-- DIRECTORY_INVALIDATE: A home invalidates other dies' copies of a line, each first writing back its dirty sectors, before acknowledging. (R228) -/
  | directoryInvalidate
  /-- CACHE_EVICTION: A die or memory-side cache evicts a line, writing back its dirty sectors. (R228) -/
  | cacheEviction
  /-- DRAM_WRITE: The memory controller encodes a sector with its residues into the RS line code and writes it to DRAM. (R74) -/
  | dramWrite
  /-- DRAM_READ: The controller reads a sector, regenerates residues and decodes the line code, correcting or poisoning the sector. (R75) -/
  | dramRead
  /-- ROW_ALERT: At the precharge of an activation that brings a row's counter to THR, the stack alerts and the back-off window opens. (R239) -/
  | rowAlert
  /-- REFRESH_MANAGEMENT_COMMAND: The controller refreshes one neighbour row of an alerting aggressor, every 35 clk in order. (R239) -/
  | refreshManagementCommand
  /-- BACKOFF_WINDOW_CLOSE: The last refresh-management command completes, the aggressor's counter is reset and queued requests for the bank proceed. (R240) -/
  | backoffWindowClose
  /-- REGULAR_REFRESH: The controller refreshes a bank, on average every 2730 clk, holding it for 105 clk. (R442) -/
  | regularRefresh
  /-- SELF_REFRESH_ENTRY: A pseudo-channel with no request for 7000 clk enters self-refresh. (R242) -/
  | selfRefreshEntry
  /-- RING_PACKET_INJECT: A stop injects a packet the shorter way round when its buffer has n + 2 free slots. (R396) -/
  | ringPacketInject
  /-- RING_FLIT_RECEIVE: A stop checks HCRC and HOPCRC, acknowledges and forwards or delivers the flit, decoding data by R77. (R397) -/
  | ringFlitReceive
  /-- RING_FLIT_RESEND: A flit that failed its check is resent by the previous stop. (R397) -/
  | ringFlitResend
  /-- ETHERNET_FRAME_RECEIVE: A received frame is checked for MACsec ICV, replay, queue-pair owner, berth, key, generation and permission, in order. (R404) -/
  | ethernetFrameReceive
  /-- ROCE_LAUNCH_SEND: A SEND to a launch endpoint appends 1 to 16 records as one offer after earlier writes of its queue pair, or is NAKed. (R389) -/
  | roceLaunchSend
  /-- RDMA_WRITE: An RDMA WRITE into a berth is performed at its home (or into the berth's shadow) before it is acknowledged. (R405) -/
  | rdmaWrite
  /-- RDMA_WRITE_PUBLISH: An RDMA WRITE with immediate bit 31 set swaps the SHADOWED window after earlier writes, then acknowledges. (R405) -/
  | rdmaWritePublish
  /-- RDMA_READ: An RDMA READ of a berth returns data from the home memory-side cache. (R405) -/
  | rdmaRead
  /-- RDMA_ATOMIC: An 8-byte Compare-and-Swap or Fetch-and-Add on a berth is performed at the home. (R405) -/
  | rdmaAtomic
  /-- REVOCATION_NOTICE_RECEIVE: A REVOKED refusal or revocation notice makes an import berth STALE and raises EV_REVOKE in the owner's contexts. (R409) -/
  | revocationNoticeReceive
  /-- ROCE_RETRY_EXHAUSTED: A path that exhausts its retries refuses its operations as REVOKED and makes its import berths STALE. (R406) -/
  | roceRetryExhausted
  /-- PORT_LOSS_OF_SIGNAL: A port's loss of signal is a shared-hardware fault reported to the harbour master. (R411) -/
  | portLossOfSignal
  /-- BERTH_REVOKE_IN_FORCE: Within 35,000 clk of BREVOKE the new GEN is in force at every port and local agent. (R407) -/
  | berthRevokeInForce
  /-- BERTH_REVOKE_DONE: When operations under the old GEN are done, shadow writes are dropped, notices sent and the request block's DONE written. (R407) -/
  | berthRevokeDone
  /-- BOPEN_ANSWER: The harbour master grants or refuses a BOPEN and writes STATUS, ID, KEY and then DONE. (R415) -/
  | bopenAnswer
  /-- POWER_LOSS: Loss of the 54 V supply makes the domains fall in the reverse of their rising order. (R28) -/
  | powerLoss
  /-- COMPUTE_DIE_RESET_EXIT: A compute die that was put in reset leaves reset, wiped, and the distributor may place blocks on it again. (R28) -/
  | computeDieResetExit
  /-- STORAGE_ERROR: A single-bit or multi-bit error arises in a stored word, tag or line and is later corrected, refetched or poisoned. (R72) -/
  | storageError
  /-- INSTRUCTION_LINE_ARRIVAL: A fetched code line arrives in the instruction cache, and a branch held for it completes or traps BRTARGET. (R86) -/
  | instructionLineArrival
  /-- POWER_LIMIT: The harbour master limits power and throttles issue. (R26) -/
  | powerLimit
  /-- CREATE_OWNER: The harbour master creates an owner and assigns its 4-bit owner ID. (R22) -/
  | createOwner
  /-- COUNTER_CLEAR: The harbour master reads and clears the per-owner, per-port drop, ICV, refusal and closure counters. (R410) -/
  | counterClear
  /-- BERTH_PAGE_REASSIGN: The harbour master reassigns a berth's pages to another owner and wipes them first. (R243) -/
  | berthPageReassign
deriving DecidableEq, Repr

end Sys2Proof
end

