-- ==== Sys2Proof/WellFormed.lean ====
section
/-! DEFINITION. Which instructions are well formed: the limits on fields that R82, R83, R91 to R102 and the
instructions' entries state. A word that breaks one traps ILLEGAL at decode. Limits that rest on the group's declared
register count, its width or on register contents are checked when the instruction issues. -/

namespace Sys2Proof

/-- The literal words of operand fields: every K field reads the same word (R83). -/
def litsAgree : List Word → Bool
  | [] => true
  | w :: ws => ws.all (· == w)

def Src.lits : Src → List Word
  | .k w => [w]
  | _ => []

def RSrc.lits : RSrc → List Word
  | .op s => s.lits
  | .g _ => []

def RSrc.isG : RSrc → Bool
  | .g _ => true
  | .op _ => false

def ZK.lits : ZK → List Word
  | .k w => [w]
  | .z => []

def NSrc.lits : NSrc → List Word
  | .k w => [w]
  | _ => []

def MSrc.lits : MSrc → List Word
  | .k w => [w]
  | .g _ => []

def Target.lits : Target → List Word
  | .far w => [w]
  | .near _ => []

/-- R158: TAGR reads the tag of a V, X or L register. -/
def Src.isVXL : Src → Bool
  | .z => false
  | .k _ => false
  | _ => true

/-- A run of n words starts at a V register divisible by n and stays below V56, or is Z (R245). -/
def LDst.runOk (n : Nat) : LDst → Bool
  | .v r => r.val % n == 0 && decide (r.val + n ≤ 56)
  | .z => true

/-- A source run: one word may be any source; a longer one is a V run or Z (R245). -/
def Src.runOk (n : Nat) : Src → Bool
  | .v r => r.val % n == 0 && decide (r.val + n ≤ 56)
  | .z => true
  | _ => n == 1

def LdT.run : LdT → Nat
  | .d => 2
  | .q => 4
  | _ => 1

def StT.run : StT → Nat
  | .d => 2
  | .q => 4
  | _ => 1

/-- The float formats among CVT's (R148). -/
def Fmt.isFloat : Fmt → Bool
  | .f32 | .f16 | .b16 | .e4m3 | .e5m2 => true
  | _ => false

/-- Formats that CVT converts between: codes 1 to 9, 11 and 12 (R148). -/
def Fmt.isCvt : Fmt → Bool
  | .bits | .q4 | .i64 => false
  | _ => true

def cvtPair (a b : Fmt) : Bool := a.isCvt && b.isCvt && a != b

/-- The packed formats of PACK and UNPK: codes 4 to 9, 11 and 12 (R150). -/
def Fmt.isPacked : Fmt → Bool
  | .f16 | .b16 | .i16 | .n16 | .e4m3 | .e5m2 | .i8 | .n8 => true
  | _ => false

/-- B formats of MLOADB: codes 4, 5 and 8 to 12 (R313). -/
def Fmt.isB : Fmt → Bool
  | .f16 | .b16 | .e4m3 | .e5m2 | .q4 | .i8 | .n8 => true
  | _ => false

/-- Elements per 32-bit word (R34, R49). -/
def Fmt.count : Fmt → Nat
  | .f16 | .b16 | .i16 | .n16 => 2
  | .e4m3 | .e5m2 | .i8 | .n8 => 4
  | .q4 => 8
  | _ => 1

/-- A tag TAGW may write: no reserved FMT or DOM (R50). -/
def tagOk (t : BitVec 8) : Bool := decide (t.toNat % 16 < 14) && decide (t.toNat / 16 < 8)

/-- Special registers with a field that SWR may write (R381). -/
def SReg.writable : SReg → Bool
  | .fpc | .domctl | .finj | .ht0 | .ht1 | .ht2 | .ht3 | .evec | .deadline => true
  | _ => false

/-- The pair literal of BRM (R101). -/
def BrmPair.word (p : BrmPair) : Word :=
  BitVec.ofNat 32 (p.p.val * 536870912 + p.n.toNat * 268435456 + p.off.toNat)

/-- Validity of shape RR (R94, R95). -/
def RR.wf (f : RR) : Bool :=
  litsAgree (f.a.lits ++ f.b.lits) && !(f.a.isG && f.b.isG)

/-- Validity of shape RS (R94, R109: M = 0b11). -/
def RS.wf (f : RS) : Bool :=
  litsAgree (f.a.lits ++ f.b.lits)

/-- Validity of shape CmpF (R109, R132). -/
def CmpF.wf (f : CmpF) : Bool :=
  litsAgree (f.a.lits ++ f.b.lits) && !(f.a.isG && f.b.isG)

/-- Validity of shape SelF (R133). -/
def SelF.wf (f : SelF) : Bool :=
  litsAgree (f.a.lits ++ f.b.lits)

/-- Validity of shape BmixF (R110). -/
def BmixF.wf (f : BmixF) : Bool :=
  litsAgree (f.a.lits ++ f.b.lits)

/-- Validity of shape FcmpF (R111, R145). -/
def FcmpF.wf (f : FcmpF) : Bool :=
  litsAgree (f.a.lits ++ f.b.lits) && !(f.a.isG && f.b.isG)

/-- Validity of shape RQ (R96). -/
def RQ.wf (f : RQ) : Bool :=
  litsAgree (f.a.lits ++ f.b.lits ++ f.e.lits)

/-- Validity of shape CvtF (R112). -/
def CvtF.wf (f : CvtF) : Bool :=
  (cvtPair f.tgt f.fr && (f.rnd == .fpc || f.tgt.isFloat || f.fr.isFloat))

/-- Validity of shape CvtqQF (R151). -/
def CvtqQF.wf (f : CvtqQF) : Bool :=
  (match f.d with | .v _ => true | .x n => decide (2 ≤ n.val)) && decide (f.a.val + 8 ≤ 56)

/-- Validity of shape CvtqXF (R151). -/
def CvtqXF.wf (f : CvtqXF) : Bool :=
  decide (f.d.val + 8 ≤ 56)

/-- Validity of shape PackF (R150). -/
def PackF.wf (f : PackF) : Bool :=
  f.tgt.isPacked && decide (f.a.val + f.tgt.count ≤ 56)

/-- Validity of shape UnpkF (R150). -/
def UnpkF.wf (f : UnpkF) : Bool :=
  f.fr.isPacked && decide (f.d.val + f.fr.count ≤ 56)

/-- Validity of shape PollQF (R156). -/
def PollQF.wf (f : PollQF) : Bool :=
  decide (f.q.toNat ≤ 128)

/-- Validity of shape TagrF (R158). -/
def TagrF.wf (f : TagrF) : Bool :=
  f.a.isVXL

/-- Validity of shape TagwF (R158). -/
def TagwF.wf (f : TagwF) : Bool :=
  tagOk f.tag

/-- Validity of shape LdF (R99, R244). -/
def LdF.wf (f : LdF) : Bool :=
  f.d.runOk f.t.run

/-- Validity of shape StF (R99, R244). -/
def StF.wf (f : StF) : Bool :=
  litsAgree (f.s.lits ++ f.a.lits) && f.s.runOk f.t.run

/-- Validity of shape LdaF (R244). -/
def LdaF.wf (f : LdaF) : Bool :=
  f.d.runOk (if f.dw then 2 else 1)

/-- Validity of shape StlF (R244). -/
def StlF.wf (f : StlF) : Bool :=
  litsAgree (f.s.lits ++ f.a.lits) && f.s.runOk (if f.dw then 2 else 1)

/-- Validity of shape WaitvF (R264). -/
def WaitvF.wf (f : WaitvF) : Bool :=
  litsAgree (f.s.lits ++ f.a.lits)

/-- Validity of shape RedF (R251). -/
def RedF.wf (f : RedF) : Bool :=
  litsAgree (f.s.lits ++ f.a.lits)

/-- Validity of shape BarS (R214). -/
def BarS.wf (f : BarS) : Bool :=
  litsAgree (f.s.lits ++ f.a.lits)

/-- Validity of shape BwaitF (R214). -/
def BwaitF.wf (f : BwaitF) : Bool :=
  litsAgree (f.s.lits ++ f.a.lits)

/-- Validity of shape MflushF (R265). -/
def MflushF.wf (f : MflushF) : Bool :=
  litsAgree (f.s.lits ++ f.a.lits)

/-- A T field of -256 says that the target is the literal word (R83, R100). -/
def Target.ok : Target → Bool
  | .near t => t != 256#9
  | .far _ => true

/-- Validity of shape BraF (R100). -/
def BraF.wf (f : BraF) : Bool := f.t.ok

/-- Validity of shape BrcF (R195). -/
def BrcF.wf (f : BrcF) : Bool :=
  f.t.ok && (f.j != 256#9)

/-- Validity of shape BrvF (R195). -/
def BrvF.wf (f : BrvF) : Bool :=
  f.j != 256#9 && f.a != .z

/-- Validity of shape BrmF (R101). -/
def BrmF.wf (f : BrmF) : Bool :=
  f.j != 256#9 && decide (1 ≤ f.pairs.length) && decide (f.pairs.length ≤ 4)

/-- Validity of shape JoutF (R195). -/
def JoutF.wf (f : JoutF) : Bool :=
  f.n != 0

/-- Validity of shape MloadbF (R313). -/
def MloadbF.wf (f : MloadbF) : Bool :=
  (f.fmt.isB && (f.fmt != .q4 || (f.slot.val % 2 == 0 && decide (f.g.val ≤ 30))))

/-- Validity of shape MreadF (R316). -/
def MreadF.wf (f : MreadF) : Bool :=
  decide (f.row.val + (if f.two then 2 else 1) ≤ 32)

/-- Validity of shape TcopyF (R340, R341). -/
def TcopyF.wf (f : TcopyF) : Bool :=
  (!f.nb || f.gq == 0)

/-- Validity of shape HreadF (R344). -/
def HreadF.wf (f : HreadF) : Bool :=
  (f.bar || f.gq == 0)

/-- Validity of shape HstF (R328). -/
def HstF.wf (f : HstF) : Bool :=
  f.a.val % 8 == 0

/-- Validity of shape HldF (R328). -/
def HldF.wf (f : HldF) : Bool :=
  f.d.val % 8 == 0

/-- Validity of shape HfwdF (R328). -/
def HfwdF.wf (f : HfwdF) : Bool :=
  f.depth != 0

/-- Validity of shape QuayF (R354). -/
def QuayF.wf (f : QuayF) : Bool :=
  (f.bar || f.gq == 0)

/-- Validity of shape LaunchF (R171). -/
def LaunchF.wf (f : LaunchF) : Bool :=
  (match f.a with | .inl _ => true | .inr _ => !f.w)

/-- Validity of shape SwrF (R379). -/
def SwrF.wf (f : SwrF) : Bool :=
  f.s.writable

/-- Validity of shape SaveptF (R379; live as encoded). -/
def SaveptF.wf (f : SaveptF) : Bool :=
  f.live.val % 8 == 0 && decide (f.live.val ≤ 56)

/-- An instruction has an encoding as the spec admits it (R82, R83, R91 to R102 and the entries). Events carry no
encoding: their operands are checked when they take place. -/
def Instr.wellFormed : Instr → Bool
  | .add f => f.wf
  | .addSat f => f.wf
  | .sub f => f.wf
  | .subSat f => f.wf
  | .addc f => f.wf
  | .subb f => f.wf
  | .neg _ => true
  | .abs _ => true
  | .sad f => f.wf
  | .mov _ => true
  | .mul f => f.wf
  | .mulh f => f.wf
  | .mulhU f => f.wf
  | .mad f => f.wf
  | .madh f => f.wf
  | .min f => f.wf
  | .minU f => f.wf
  | .max f => f.wf
  | .maxU f => f.wf
  | .dot4 f => f.wf
  | .dot4Sat f => f.wf
  | .dot4U f => f.wf
  | .dot4USat f => f.wf
  | .and f => f.wf
  | .or f => f.wf
  | .xor f => f.wf
  | .andn f => f.wf
  | .popc _ => true
  | .clz _ => true
  | .brev _ => true
  | .shl f => f.wf
  | .shr f => f.wf
  | .sar f => f.wf
  | .rol f => f.wf
  | .ror f => f.wf
  | .bfx f => f.wf
  | .bfi f => f.wf
  | .fshl f => f.wf
  | .fshr f => f.wf
  | .lea1 f => f.wf
  | .lea2 f => f.wf
  | .lea3 f => f.wf
  | .lea4 f => f.wf
  | .cmpEq f => f.wf
  | .cmpNe f => f.wf
  | .cmpLt f => f.wf
  | .cmpLe f => f.wf
  | .cmpLtU f => f.wf
  | .cmpLeU f => f.wf
  | .sel f => f.wf
  | .movk _ => true
  | .bmix f => f.wf
  | .movi _ => true
  | .addi _ => true
  | .andi _ => true
  | .ori _ => true
  | .xori _ => true
  | .shli _ => true
  | .fadd f => f.wf
  | .fsub f => f.wf
  | .fmul f => f.wf
  | .fmin f => f.wf
  | .fminNum f => f.wf
  | .fmax f => f.wf
  | .fmaxNum f => f.wf
  | .fcmp f => f.wf
  | .fint _ => true
  | .pfma f => f.wf
  | .faddRn f => f.wf
  | .faddRz f => f.wf
  | .faddRd f => f.wf
  | .faddRu f => f.wf
  | .fsubRn f => f.wf
  | .fsubRz f => f.wf
  | .fsubRd f => f.wf
  | .fsubRu f => f.wf
  | .fmulRn f => f.wf
  | .fmulRz f => f.wf
  | .fmulRd f => f.wf
  | .fmulRu f => f.wf
  | .fintRn _ => true
  | .fintRz _ => true
  | .fintRd _ => true
  | .fintRu _ => true
  | .pfmaRn f => f.wf
  | .pfmaRz f => f.wf
  | .pfmaRd f => f.wf
  | .pfmaRu f => f.wf
  | .frcp _ => true
  | .frsq _ => true
  | .fsqrt _ => true
  | .fexp2 _ => true
  | .flog2 _ => true
  | .fsin _ => true
  | .fcos _ => true
  | .fma f => f.wf
  | .fmaRn f => f.wf
  | .fmaRz f => f.wf
  | .fmaRd f => f.wf
  | .fmaRu f => f.wf
  | .fmak _ => true
  | .cvt f => f.wf
  | .cvtqQ f => f.wf
  | .cvtqX f => f.wf
  | .pack f => f.wf
  | .unpk f => f.wf
  | .faddi _ => true
  | .fmuli _ => true
  | .qxch _ => true
  | .qbrd _ => true
  | .xlane _ => true
  | .pollQuorum f => f.wf
  | .pollSame _ => true
  | .pollCount _ => true
  | .pollRank _ => true
  | .pollMap _ => true
  | .redg _ => true
  | .tagr f => f.wf
  | .tagw f => f.wf
  | .srd _ => true
  | .plop _ => true
  | .ld f => f.wf
  | .st f => f.wf
  | .lda f => f.wf
  | .stl f => f.wf
  | .lds f => f.wf
  | .sts f => f.wf
  | .pref _ => true
  | .hset _ => true
  | .hdem _ => true
  | .hdrop _ => true
  | .lrflush _ => true
  | .waitv f => f.wf
  | .atomAdd f => f.d.runOk 1
  | .atomMin f => f.d.runOk 1
  | .atomMax f => f.d.runOk 1
  | .atomMinU f => f.d.runOk 1
  | .atomMaxU f => f.d.runOk 1
  | .atomFadd f => f.d.runOk 1
  | .atomExch f => f.d.runOk 1
  | .atomCas f => f.d.runOk 2
  | .atomAnd f => f.d.runOk 1
  | .atomOr f => f.d.runOk 1
  | .atomXor f => f.d.runOk 1
  | .atomAddD f => f.d.runOk 2
  | .atomExchD f => f.d.runOk 2
  | .atomCasD f => f.d.runOk 4
  | .atomsAdd f => f.d.runOk 1
  | .atomsMin f => f.d.runOk 1
  | .atomsMax f => f.d.runOk 1
  | .atomsMinU f => f.d.runOk 1
  | .atomsMaxU f => f.d.runOk 1
  | .atomsFadd f => f.d.runOk 1
  | .atomsExch f => f.d.runOk 1
  | .atomsCas f => f.d.runOk 2
  | .redAdd f => f.wf
  | .redMin f => f.wf
  | .redMax f => f.wf
  | .redMinU f => f.wf
  | .redMaxU f => f.wf
  | .redFadd f => f.wf
  | .redAnd f => f.wf
  | .redOr f => f.wf
  | .binit f => f.wf
  | .bexpect f => f.wf
  | .barrive _ => true
  | .bwait f => f.wf
  | .btry _ => true
  | .binval _ => true
  | .binitForce f => f.wf
  | .fence _ => true
  | .shadow _ => true
  | .publish _ => true
  | .discard _ => true
  | .mflush f => f.wf
  | .cdone _ => true
  | .cwait _ => true
  | .bra f => f.wf
  | .brc f => f.wf
  | .call f => f.wf
  | .brv f => f.wf
  | .brm f => f.wf
  | .ret _ => true
  | .jout f => f.wf
  | .elect _ => true
  | .yield _ => true
  | .nap _ => true
  | .tail _ => true
  | .exit _ => true
  | .evret _ => true
  | .evon _ => true
  | .mloadb f => f.wf
  | .mma _ => true
  | .mmag _ => true
  | .mread f => f.wf
  | .mzero _ => true
  | .mcfg _ => true
  | .tcopy f => f.wf
  | .tstore f => f.wf
  | .xcopy _ => true
  | .hread f => f.wf
  | .batch _ => true
  | .waitb _ => true
  | .hst f => f.wf
  | .hld f => f.wf
  | .hldx f => f.wf
  | .hfwd f => f.wf
  | .hrec _ => true
  | .hthr _ => true
  | .hbias _ => true
  | .qgath f => f.wf
  | .qred f => f.wf
  | .qcvt f => f.wf
  | .qunpk f => f.wf
  | .qtload _ => true
  | .nput _ => true
  | .nget _ => true
  | .natom _ => true
  | .bopen _ => true
  | .brevoke _ => true
  | .enqL _ => true
  | .enqQ f => decide (f.q.val ≤ 7)
  | .launch f => f.wf
  | .trap _ => true
  | .rettResume _ => true
  | .rettSkip _ => true
  | .rettEnd _ => true
  | .rettFault _ => true
  | .swr f => f.wf
  | .savept f => f.wf
  | .probe _ => true
  | .tlbinv _ => true
  | .tlbinvR _ => true
  | .tlbinvAbort _ => true
  | .brk _ => true
  | .bringUp => true
  | .stackTraining => true
  | .ringLoopback => true
  | .phyLoopback => true
  | .sramBist => true
  | .residueCheckerTest => true
  | .clockStart => true
  | .resetRequest => true
  | .readFailureReport => true
  | .readIdentity => true
  | .provisioningRequest => true
  | .deployRequest => true
  | .debugRequest => true
  | .retireRequest => true
  | .installCertificate => true
  | .attestationRequest => true
  | .createContext => true
  | .loadContext => true
  | .startContext => true
  | .resumeContext => true
  | .killContext => true
  | .openQueue => true
  | .closeQueue => true
  | .setDeadline => true
  | .openPath => true
  | .closePath => true
  | .pilotKeyRotation => true
  | .setThr => true
  | .schedulerDeschedule => true
  | .deadlineExpiry => true
  | .blockSave => true
  | .contextSaved => true
  | .schedulerRestore => true
  | .contextWiped => true
  | .computeDieReset => true
  | .takeLaunchEntry => true
  | .launchQueueAging => true
  | .dependencePoll => true
  | .gridStarting => true
  | .placeGang => true
  | .blockRetire => true
  | .gridDrained => true
  | .issueSelect => true
  | .eventEntry => true
  | .clockWrap => true
  | .loadDataReturn => true
  | .napExpiry => true
  | .waitvReread => true
  | .cwaitReread => true
  | .batchComplete => true
  | .retirementTrackerDrain => true
  | .queueHeadReread => true
  | .faultBerthFreed => true
  | .tlbinvEffectComplete => true
  | .engineTakeEntry => true
  | .buoyReturn => true
  | .engineQuiet => true
  | .copySectorDelivered => true
  | .tstoreSectorWritten => true
  | .xcopyDelivery => true
  | .commandCompletion => true
  | .publishSwap => true
  | .hreadBurstRequest => true
  | .hreadBurstReturn => true
  | .lighterBirth => true
  | .hreadCompletion => true
  | .qunpkSymbol => true
  | .quayCommandRun => true
  | .matrixEntryDone => true
  | .mreadDataArrival => true
  | .cdoneOrPerform => true
  | .directoryInvalidate => true
  | .cacheEviction => true
  | .dramWrite => true
  | .dramRead => true
  | .rowAlert => true
  | .refreshManagementCommand => true
  | .backoffWindowClose => true
  | .regularRefresh => true
  | .selfRefreshEntry => true
  | .ringPacketInject => true
  | .ringFlitReceive => true
  | .ringFlitResend => true
  | .ethernetFrameReceive => true
  | .roceLaunchSend => true
  | .rdmaWrite => true
  | .rdmaWritePublish => true
  | .rdmaRead => true
  | .rdmaAtomic => true
  | .revocationNoticeReceive => true
  | .roceRetryExhausted => true
  | .portLossOfSignal => true
  | .berthRevokeInForce => true
  | .berthRevokeDone => true
  | .bopenAnswer => true
  | .powerLoss => true
  | .computeDieResetExit => true
  | .storageError => true
  | .instructionLineArrival => true
  | .powerLimit => true
  | .createOwner => true
  | .counterClear => true
  | .berthPageReassign => true

/-- The well-formed instructions. -/
def WellFormed (i : Instr) : Prop := i.wellFormed = true

end Sys2Proof
end

