-- ==== Sys2Proof/Decode.lean ====
section
/-! DEFINITION. Decoding and encoding of instruction words (R79 to R119). The decoder is total: a word either gives a
well-formed instruction or is rejected by name. `encode` is written from the same tables. -/

namespace Sys2Proof

/-- Bits [lo + width - 1 : lo] of a word. -/
def fld (n lo width : Nat) : Nat := n / 2 ^ lo % 2 ^ width

def bit (n lo : Nat) : Bool := n / 2 ^ lo % 2 == 1

/-- A field that every value fills. -/
def fin (w n lo : Nat) : Fin (2 ^ w) := ⟨fld n lo w, Nat.mod_lt _ (Nat.two_pow_pos w)⟩

def finLt (m k : Nat) : Option (Fin m) := if h : k < m then some ⟨k, h⟩ else none

/-- Operand names (R91). -/
def Src.code : Src → Nat
  | .v n => n.val
  | .x n => 56 + n.val
  | .l n => 60 + n.val
  | .z => 62
  | .k _ => 63

def Src.ofCode (c : Nat) (lit : Word) : Option Src :=
  if h : c < 56 then some (.v ⟨c, h⟩)
  else if h : c - 56 < 4 then some (.x ⟨c - 56, h⟩)
  else if h : c - 60 < 2 then some (.l ⟨c - 60, h⟩)
  else if c = 62 then some .z
  else if c = 63 then some (.k lit)
  else none

def Dst.code : Dst → Nat
  | .v n => n.val
  | .x n => 56 + n.val
  | .z => 62

def Dst.ofCode (c : Nat) : Option Dst :=
  if h : c < 56 then some (.v ⟨c, h⟩)
  else if h : c - 56 < 4 then some (.x ⟨c - 56, h⟩)
  else if c = 62 then some .z
  else none

def LDst.code : LDst → Nat
  | .v n => n.val
  | .z => 62

def LDst.ofCode (c : Nat) : Option LDst :=
  if h : c < 56 then some (.v ⟨c, h⟩) else if c = 62 then some .z else none

def VX.code : VX → Nat
  | .v n => n.val
  | .x n => 56 + n.val

def VX.ofCode (c : Nat) : Option VX :=
  if h : c < 56 then some (.v ⟨c, h⟩) else if h : c - 56 < 4 then some (.x ⟨c - 56, h⟩) else none

def ZK.code : ZK → Nat
  | .z => 62
  | .k _ => 63

def ZK.ofCode (c : Nat) (lit : Word) : Option ZK :=
  if c = 62 then some .z else if c = 63 then some (.k lit) else none

def RSrc.code : RSrc → Nat
  | .op s => s.code
  | .g n => n.val

/-- A field that names a uniform register (its bit 5 must be 0, checked by `decodeWord`) or an operand (R95). -/
def RSrc.ofCode (uniform : Bool) (c : Nat) (lit : Word) : Option RSrc :=
  if uniform then some (.g ⟨c % 32, Nat.mod_lt _ (by decide)⟩) else (Src.ofCode c lit).map .op

/-- M of an RR word (R95). -/
def rrMode (a b : RSrc) : Nat := a.isG.toNat * 2 + b.isG.toNat

/-- Where the truth table of BMIX stands in its word (R110). -/
def lutBits (t : Nat) : Nat :=
  t / 128 * 33554432 + t / 16 % 8 * 4194304 + t / 4 % 4 + t / 2 % 2 * 32768 + t % 2 * 256

def lutOf (n : Nat) : Nat :=
  fld n 25 1 * 128 + fld n 22 3 * 16 + fld n 0 2 * 4 + fld n 15 1 * 2 + fld n 8 1

def Target.code : Target → Nat
  | .near t => t.toNat
  | .far _ => 256

def Target.ofCode (c : Nat) (lit : Word) : Target := if c = 256 then .far lit else .near (BitVec.ofNat 9 c)

def BrmPair.ofWord (w : Word) : BrmPair :=
  { p := fin 3 w.toNat 29, n := bit w.toNat 28, off := BitVec.ofNat 24 (fld w.toNat 0 24) }

/-- The source of NAP and EVON with M (R195). -/
def NSrc.code : NSrc → Nat
  | .g n => n.val * 4 + 1
  | .z => 248
  | .k _ => 252

def NSrc.ofCode (m b : Nat) (lit : Word) : Option NSrc :=
  if m = 1 then some (.g ⟨b % 32, Nat.mod_lt _ (by decide)⟩)
  else if b = 62 then some .z
  else if b = 63 then some (.k lit)
  else none

/-- U and A of MCFG (R303). -/
def MSrc.code : MSrc → Nat
  | .g n => 64 + n.val
  | .k _ => 63

def MSrc.ofCode (u : Bool) (a : Nat) (lit : Word) : MSrc :=
  if u then .g ⟨a % 32, Nat.mod_lt _ (by decide)⟩ else .k lit

/-- A and U of LAUNCH (R171): an even V register, or with U = 1 an even G register. -/
def launchCode : Fin 28 ⊕ Fin 16 → Nat
  | .inl v => v.val * 16
  | .inr g => g.val * 16 + 4

def launchOf (u : Bool) (k : Nat) : Option (Fin 28 ⊕ Fin 16) :=
  if u then some (.inr ⟨k % 16, Nat.mod_lt _ (by decide)⟩) else (finLt 28 k).map .inl

def Scope.code : Scope → Nat
  | .group => 0
  | .block => 1
  | .gang => 2
  | .die => 3
  | .device => 4
  | .fabric => 5

def Scope.ofCode : Nat → Option Scope
  | 0 => some .group
  | 1 => some .block
  | 2 => some .gang
  | 3 => some .die
  | 4 => some .device
  | 5 => some .fabric
  | _ => none

def RSel.code : RSel → Nat
  | .fpc => 0
  | .rn => 1
  | .rz => 2
  | .rd => 3
  | .ru => 4

def RSel.ofCode : Nat → Option RSel
  | 0 => some .fpc
  | 1 => some .rn
  | 2 => some .rz
  | 3 => some .rd
  | 4 => some .ru
  | _ => none

def Fmt.code : Fmt → Nat
  | .bits => 0
  | .i32 => 1
  | .n32 => 2
  | .f32 => 3
  | .f16 => 4
  | .b16 => 5
  | .i16 => 6
  | .n16 => 7
  | .e4m3 => 8
  | .e5m2 => 9
  | .q4 => 10
  | .i8 => 11
  | .n8 => 12
  | .i64 => 13

def Fmt.ofCode : Nat → Option Fmt
  | 0 => some .bits
  | 1 => some .i32
  | 2 => some .n32
  | 3 => some .f32
  | 4 => some .f16
  | 5 => some .b16
  | 6 => some .i16
  | 7 => some .n16
  | 8 => some .e4m3
  | 9 => some .e5m2
  | 10 => some .q4
  | 11 => some .i8
  | 12 => some .n8
  | 13 => some .i64
  | _ => none

def FCond.code : FCond → Nat
  | .eq => 0
  | .ne => 1
  | .lt => 2
  | .le => 3
  | .gt => 4
  | .ge => 5
  | .un => 6

def FCond.ofCode : Nat → Option FCond
  | 0 => some .eq
  | 1 => some .ne
  | 2 => some .lt
  | 3 => some .le
  | 4 => some .gt
  | 5 => some .ge
  | 6 => some .un
  | _ => none

def QType.code : QType → Nat
  | .uni => 0
  | .e2m1 => 1
  | .pow2 => 2
  | .hyb => 3

def QType.ofCode : Nat → Option QType
  | 0 => some .uni
  | 1 => some .e2m1
  | 2 => some .pow2
  | 3 => some .hyb
  | _ => none

def LdT.code : LdT → Nat
  | .i8 => 0
  | .n8 => 1
  | .i16 => 2
  | .n16 => 3
  | .w => 4
  | .d => 5
  | .q => 6

def LdT.ofCode : Nat → Option LdT
  | 0 => some .i8
  | 1 => some .n8
  | 2 => some .i16
  | 3 => some .n16
  | 4 => some .w
  | 5 => some .d
  | 6 => some .q
  | _ => none

def StT.code : StT → Nat
  | .b => 0
  | .h => 1
  | .w => 2
  | .d => 3
  | .q => 4

def StT.ofCode : Nat → Option StT
  | 0 => some .b
  | 1 => some .h
  | 2 => some .w
  | 3 => some .d
  | 4 => some .q
  | _ => none

def QxPat.code : QxPat → Nat
  | .h => 0
  | .v => 1
  | .d => 2

def QxPat.ofCode : Nat → Option QxPat
  | 0 => some .h
  | 1 => some .v
  | 2 => some .d
  | _ => none

def XlMode.code : XlMode → Nat
  | .abs => 0
  | .rot => 1
  | .xor => 2
  | .step => 3

def XlMode.ofCode : Nat → Option XlMode
  | 0 => some .abs
  | 1 => some .rot
  | 2 => some .xor
  | 3 => some .step
  | _ => none

def RedgOp.code : RedgOp → Nat
  | .fadd => 0
  | .fmin => 1
  | .fmax => 2
  | .fminNum => 3
  | .fmaxNum => 4
  | .iadd => 5
  | .imin => 6
  | .imax => 7
  | .umin => 8
  | .umax => 9
  | .and => 10
  | .or => 11
  | .xor => 12

def RedgOp.ofCode : Nat → Option RedgOp
  | 0 => some .fadd
  | 1 => some .fmin
  | 2 => some .fmax
  | 3 => some .fminNum
  | 4 => some .fmaxNum
  | 5 => some .iadd
  | 6 => some .imin
  | 7 => some .imax
  | 8 => some .umin
  | 9 => some .umax
  | 10 => some .and
  | 11 => some .or
  | 12 => some .xor
  | _ => none

def PrefLevel.code : PrefLevel → Nat
  | .l1 => 0
  | .die => 1
  | .msc => 2

def PrefLevel.ofCode : Nat → Option PrefLevel
  | 0 => some .l1
  | 1 => some .die
  | 2 => some .msc
  | _ => none

def VCond.code : VCond → Nat
  | .eq => 0
  | .ne => 1
  | .geU => 2
  | .ltU => 3

def VCond.ofCode : Nat → Option VCond
  | 0 => some .eq
  | 1 => some .ne
  | 2 => some .geU
  | 3 => some .ltU
  | _ => none

def FenceKind.code : FenceKind → Nat
  | .both => 0
  | .rel => 1
  | .acq => 2

def FenceKind.ofCode : Nat → Option FenceKind
  | 0 => some .both
  | 1 => some .rel
  | 2 => some .acq
  | _ => none

def NatomOp.code : NatomOp → Nat
  | .add => 0
  | .cas => 1

def NatomOp.ofCode : Nat → Option NatomOp
  | 0 => some .add
  | 1 => some .cas
  | _ => none

def SReg.code : SReg → Nat
  | .laneid => 0
  | .groupid => 1
  | .width => 2
  | .blockx => 3
  | .blocky => 4
  | .blockz => 5
  | .gridx => 6
  | .gridy => 7
  | .gridz => 8
  | .bdimx => 9
  | .bdimy => 10
  | .bdimz => 11
  | .fpc => 16
  | .domctl => 17
  | .finj => 18
  | .ht0 => 20
  | .ht1 => 21
  | .ht2 => 22
  | .ht3 => 23
  | .evec => 32
  | .evpend => 33
  | .preq => 34
  | .deadline => 35
  | .clocklo => 48
  | .clockhi => 49
  | .ctxid => 64

def SReg.ofCode : Nat → Option SReg
  | 0 => some .laneid
  | 1 => some .groupid
  | 2 => some .width
  | 3 => some .blockx
  | 4 => some .blocky
  | 5 => some .blockz
  | 6 => some .gridx
  | 7 => some .gridy
  | 8 => some .gridz
  | 9 => some .bdimx
  | 10 => some .bdimy
  | 11 => some .bdimz
  | 16 => some .fpc
  | 17 => some .domctl
  | 18 => some .finj
  | 20 => some .ht0
  | 21 => some .ht1
  | 22 => some .ht2
  | 23 => some .ht3
  | 32 => some .evec
  | 33 => some .evpend
  | 34 => some .preq
  | 35 => some .deadline
  | 48 => some .clocklo
  | 49 => some .clockhi
  | 64 => some .ctxid
  | _ => none

/-! ### Field layouts of the shapes -/

def RR.bits (f : RR) : Nat := f.c.toNat * 2147483648 + f.d.code * 65536 + f.wa.toNat * 32768 + f.a.code * 512 + rrMode f.a f.b + f.wb.toNat * 256 + f.b.code * 4
def RR.lits (f : RR) : List Word := (f.a.lits ++ f.b.lits).take 1
def RR.dec (n : Nat) (lits : List Word) : Option RR := do
  let d ← Dst.ofCode (fld n 16 6)
  let a ← RSrc.ofCode (n % 4 == 2) (fld n 9 6) (lits.headD 0)
  let b ← RSrc.ofCode (n % 4 == 1) (fld n 2 6) (lits.headD 0)
  some { c := bit n 31, d := d, wa := bit n 15, a := a, wb := bit n 8, b := b }

def RS.bits (f : RS) : Nat := f.c.toNat * 2147483648 + f.d.code * 65536 + f.wa.toNat * 32768 + f.a.code * 512 + f.wb.toNat * 256 + f.b.code * 4
def RS.lits (f : RS) : List Word := (f.a.lits ++ f.b.lits).take 1
def RS.dec (n : Nat) (lits : List Word) : Option RS := do
  let d ← Dst.ofCode (fld n 16 6)
  let a ← Src.ofCode (fld n 9 6) (lits.headD 0)
  let b ← Src.ofCode (fld n 2 6) (lits.headD 0)
  some { c := bit n 31, d := d, wa := bit n 15, a := a, wb := bit n 8, b := b }

def R1.bits (f : R1) : Nat := f.c.toNat * 2147483648 + f.d.code * 65536 + f.wa.toNat * 32768 + f.a.code * 512
def R1.lits (f : R1) : List Word := f.a.lits
def R1.dec (n : Nat) (lits : List Word) : Option R1 := do
  let d ← Dst.ofCode (fld n 16 6)
  let a ← Src.ofCode (fld n 9 6) (lits.headD 0)
  some { c := bit n 31, d := d, wa := bit n 15, a := a }

def CmpF.bits (f : CmpF) : Nat := f.c.toNat * 2147483648 + f.p.val * 65536 + f.wa.toNat * 32768 + f.a.code * 512 + rrMode f.a f.b + f.wb.toNat * 256 + f.b.code * 4
def CmpF.lits (f : CmpF) : List Word := (f.a.lits ++ f.b.lits).take 1
def CmpF.dec (n : Nat) (lits : List Word) : Option CmpF := do
  let a ← RSrc.ofCode (n % 4 == 2) (fld n 9 6) (lits.headD 0)
  let b ← RSrc.ofCode (n % 4 == 1) (fld n 2 6) (lits.headD 0)
  some { c := bit n 31, p := fin 3 n 16, wa := bit n 15, a := a, wb := bit n 8, b := b }

def SelF.bits (f : SelF) : Nat := f.c.toNat * 2147483648 + f.p.val * 4194304 + f.d.code * 65536 + f.wa.toNat * 32768 + f.a.code * 512 + f.wb.toNat * 256 + f.b.code * 4
def SelF.lits (f : SelF) : List Word := (f.a.lits ++ f.b.lits).take 1
def SelF.dec (n : Nat) (lits : List Word) : Option SelF := do
  let d ← Dst.ofCode (fld n 16 6)
  let a ← Src.ofCode (fld n 9 6) (lits.headD 0)
  let b ← Src.ofCode (fld n 2 6) (lits.headD 0)
  some { c := bit n 31, p := fin 3 n 22, d := d, wa := bit n 15, a := a, wb := bit n 8, b := b }

def MovkF.bits (f : MovkF) : Nat := f.c.toNat * 2147483648 + f.d.code * 65536 + f.k.val
def MovkF.dec (n : Nat) (_lits : List Word) : Option MovkF := do
  let d ← Dst.ofCode (fld n 16 6)
  some { c := bit n 31, d := d, k := fin 9 n 0 }

def BmixF.bits (f : BmixF) : Nat := f.c.toNat * 2147483648 + lutBits f.lut.toNat + f.d.code * 65536 + f.a.code * 512 + f.b.code * 4
def BmixF.lits (f : BmixF) : List Word := (f.a.lits ++ f.b.lits).take 1
def BmixF.dec (n : Nat) (lits : List Word) : Option BmixF := do
  let d ← Dst.ofCode (fld n 16 6)
  let a ← Src.ofCode (fld n 9 6) (lits.headD 0)
  let b ← Src.ofCode (fld n 2 6) (lits.headD 0)
  some { c := bit n 31, lut := BitVec.ofNat 8 (lutOf n), d := d, a := a, b := b }

def RI.bits (f : RI) : Nat := f.c.toNat * 2147483648 + f.d.val * 1048576 + f.imm.toNat
def RI.dec (n : Nat) (_lits : List Word) : Option RI :=
  some { c := bit n 31, d := fin 5 n 20, imm := BitVec.ofNat 20 (fld n 0 20) }

def ShliF.bits (f : ShliF) : Nat := f.c.toNat * 2147483648 + f.d.val * 1048576 + f.k.val
def ShliF.dec (n : Nat) (_lits : List Word) : Option ShliF :=
  some { c := bit n 31, d := fin 5 n 20, k := fin 5 n 0 }

def FcmpF.bits (f : FcmpF) : Nat := f.c.toNat * 2147483648 + f.cond.code * 524288 + f.p.val * 65536 + f.wa.toNat * 32768 + f.a.code * 512 + rrMode f.a f.b + f.wb.toNat * 256 + f.b.code * 4
def FcmpF.lits (f : FcmpF) : List Word := (f.a.lits ++ f.b.lits).take 1
def FcmpF.dec (n : Nat) (lits : List Word) : Option FcmpF := do
  let cond ← FCond.ofCode (fld n 19 3)
  let a ← RSrc.ofCode (n % 4 == 2) (fld n 9 6) (lits.headD 0)
  let b ← RSrc.ofCode (n % 4 == 1) (fld n 2 6) (lits.headD 0)
  some { c := bit n 31, cond := cond, p := fin 3 n 16, wa := bit n 15, a := a, wb := bit n 8, b := b }

def RQ.bits (f : RQ) : Nat := f.c.toNat * 2147483648 + f.d.code * 524288 + f.a.code * 8192 + f.b.code * 128 + f.e.code * 2 + f.w.toNat
def RQ.lits (f : RQ) : List Word := (f.a.lits ++ f.b.lits ++ f.e.lits).take 1
def RQ.dec (n : Nat) (lits : List Word) : Option RQ := do
  let d ← Dst.ofCode (fld n 19 6)
  let a ← Src.ofCode (fld n 13 6) (lits.headD 0)
  let b ← Src.ofCode (fld n 7 6) (lits.headD 0)
  let e ← Src.ofCode (fld n 1 6) (lits.headD 0)
  some { c := bit n 31, d := d, a := a, b := b, e := e, w := bit n 0 }

def FmakF.bits (f : FmakF) : Nat := f.c.toNat * 2147483648 + f.rm.code * 4194304 + f.d.code * 65536 + f.wa.toNat * 32768 + f.a.code * 512 + f.k.val
def FmakF.lits (f : FmakF) : List Word := f.a.lits
def FmakF.dec (n : Nat) (lits : List Word) : Option FmakF := do
  let rm ← RSel.ofCode (fld n 22 3)
  let d ← Dst.ofCode (fld n 16 6)
  let a ← Src.ofCode (fld n 9 6) (lits.headD 0)
  some { c := bit n 31, rm := rm, d := d, wa := bit n 15, a := a, k := fin 9 n 0 }

def CvtF.bits (f : CvtF) : Nat := f.c.toNat * 2147483648 + f.sat.toNat * 16777216 + f.tgt.code * 1048576 + f.fr.code * 65536 + f.d.code * 1024 + f.a.code * 16 + f.w.toNat * 8 + f.rnd.code
def CvtF.lits (f : CvtF) : List Word := f.a.lits
def CvtF.dec (n : Nat) (lits : List Word) : Option CvtF := do
  let tgt ← Fmt.ofCode (fld n 20 4)
  let fr ← Fmt.ofCode (fld n 16 4)
  let d ← Dst.ofCode (fld n 10 6)
  let a ← Src.ofCode (fld n 4 6) (lits.headD 0)
  let rnd ← RSel.ofCode (fld n 0 3)
  some { c := bit n 31, sat := bit n 24, tgt := tgt, fr := fr, d := d, a := a, w := bit n 3, rnd := rnd }

def CvtqQF.bits (f : CvtqQF) : Nat := f.c.toNat * 2147483648 + f.d.code * 1024 + f.a.val * 16 + f.ty.code * 4
def CvtqQF.dec (n : Nat) (_lits : List Word) : Option CvtqQF := do
  let d ← VX.ofCode (fld n 10 6)
  let a ← finLt 56 (fld n 4 6)
  let ty ← QType.ofCode (fld n 2 2)
  some { c := bit n 31, d := d, a := a, ty := ty }

def CvtqXF.bits (f : CvtqXF) : Nat := f.c.toNat * 2147483648 + f.d.val * 1024 + f.a.code * 16 + f.ty.code * 4
def CvtqXF.lits (f : CvtqXF) : List Word := f.a.lits
def CvtqXF.dec (n : Nat) (lits : List Word) : Option CvtqXF := do
  let d ← finLt 56 (fld n 10 6)
  let a ← Src.ofCode (fld n 4 6) (lits.headD 0)
  let ty ← QType.ofCode (fld n 2 2)
  some { c := bit n 31, d := d, a := a, ty := ty }

def PackF.bits (f : PackF) : Nat := f.c.toNat * 2147483648 + f.d.code * 1024 + f.a.val * 16 + f.tgt.code
def PackF.dec (n : Nat) (_lits : List Word) : Option PackF := do
  let d ← Dst.ofCode (fld n 10 6)
  let a ← finLt 56 (fld n 4 6)
  let tgt ← Fmt.ofCode (fld n 0 4)
  some { c := bit n 31, d := d, a := a, tgt := tgt }

def UnpkF.bits (f : UnpkF) : Nat := f.c.toNat * 2147483648 + f.d.val * 1024 + f.a.code * 16 + f.fr.code
def UnpkF.lits (f : UnpkF) : List Word := f.a.lits
def UnpkF.dec (n : Nat) (lits : List Word) : Option UnpkF := do
  let d ← finLt 56 (fld n 10 6)
  let a ← Src.ofCode (fld n 4 6) (lits.headD 0)
  let fr ← Fmt.ofCode (fld n 0 4)
  some { c := bit n 31, d := d, a := a, fr := fr }

def QxchF.bits (f : QxchF) : Nat := f.c.toNat * 2147483648 + f.pat.code * 65536 + f.d.code * 1024 + f.a.code * 16 + f.w.toNat * 8
def QxchF.dec (n : Nat) (_lits : List Word) : Option QxchF := do
  let pat ← QxPat.ofCode (fld n 16 4)
  let d ← VX.ofCode (fld n 10 6)
  let a ← VX.ofCode (fld n 4 6)
  some { c := bit n 31, pat := pat, d := d, a := a, w := bit n 3 }

def QbrdF.bits (f : QbrdF) : Nat := f.c.toNat * 2147483648 + f.j.val * 65536 + f.d.code * 1024 + f.a.code * 16 + f.w.toNat * 8
def QbrdF.dec (n : Nat) (_lits : List Word) : Option QbrdF := do
  let d ← VX.ofCode (fld n 10 6)
  let a ← VX.ofCode (fld n 4 6)
  some { c := bit n 31, j := fin 2 n 16, d := d, a := a, w := bit n 3 }

def XlaneF.bits (f : XlaneF) : Nat := f.c.toNat * 2147483648 + f.mode.code * 65536 + f.d.code * 1024 + f.a.code * 16 + f.w.toNat * 8
def XlaneF.dec (n : Nat) (_lits : List Word) : Option XlaneF := do
  let mode ← XlMode.ofCode (fld n 16 2)
  let d ← VX.ofCode (fld n 10 6)
  let a ← VX.ofCode (fld n 4 6)
  some { c := bit n 31, mode := mode, d := d, a := a, w := bit n 3 }

def PollQF.bits (f : PollQF) : Nat := f.c.toNat * 2147483648 + f.p.val * 8192 + f.s.val * 1024 + f.n.toNat * 512 + f.q.toNat
def PollQF.dec (n : Nat) (_lits : List Word) : Option PollQF :=
  some { c := bit n 31, p := fin 3 n 13, s := fin 3 n 10, n := bit n 9, q := BitVec.ofNat 8 (fld n 0 8) }

def PollSF.bits (f : PollSF) : Nat := f.c.toNat * 2147483648 + f.p.val * 8192 + f.s.val * 1024 + f.n.toNat * 512
def PollSF.dec (n : Nat) (_lits : List Word) : Option PollSF :=
  some { c := bit n 31, p := fin 3 n 13, s := fin 3 n 10, n := bit n 9 }

def PollWF.bits (f : PollWF) : Nat := f.c.toNat * 2147483648 + f.d.code * 1024 + f.s.val * 128 + f.n.toNat * 64
def PollWF.dec (n : Nat) (_lits : List Word) : Option PollWF := do
  let d ← VX.ofCode (fld n 10 6)
  some { c := bit n 31, d := d, s := fin 3 n 7, n := bit n 6 }

def RedgF.bits (f : RedgF) : Nat := f.c.toNat * 2147483648 + f.op.code * 65536 + f.d.code * 1024 + f.a.code * 16 + f.w.toNat * 8
def RedgF.dec (n : Nat) (_lits : List Word) : Option RedgF := do
  let op ← RedgOp.ofCode (fld n 16 4)
  let d ← VX.ofCode (fld n 10 6)
  let a ← VX.ofCode (fld n 4 6)
  some { c := bit n 31, op := op, d := d, a := a, w := bit n 3 }

def TagrF.bits (f : TagrF) : Nat := f.c.toNat * 2147483648 + f.d.code * 1024 + f.a.code * 16
def TagrF.lits (f : TagrF) : List Word := f.a.lits
def TagrF.dec (n : Nat) (lits : List Word) : Option TagrF := do
  let d ← Dst.ofCode (fld n 10 6)
  let a ← Src.ofCode (fld n 4 6) (lits.headD 0)
  some { c := bit n 31, d := d, a := a }

def TagwF.bits (f : TagwF) : Nat := f.c.toNat * 2147483648 + f.d.code * 1024 + f.tag.toNat * 4
def TagwF.dec (n : Nat) (_lits : List Word) : Option TagwF := do
  let d ← VX.ofCode (fld n 10 6)
  some { c := bit n 31, d := d, tag := BitVec.ofNat 8 (fld n 2 8) }

def SrdF.bits (f : SrdF) : Nat := f.c.toNat * 2147483648 + f.d.code * 1024 + f.s.code
def SrdF.dec (n : Nat) (_lits : List Word) : Option SrdF := do
  let d ← Dst.ofCode (fld n 10 6)
  let s ← SReg.ofCode (fld n 0 10)
  some { c := bit n 31, d := d, s := s }

def PlopF.bits (f : PlopF) : Nat := f.c.toNat * 2147483648 + f.lut.toNat * 65536 + f.p.val * 8192 + f.a.val * 1024 + f.b.val * 128
def PlopF.dec (n : Nat) (_lits : List Word) : Option PlopF :=
  some { c := bit n 31, lut := BitVec.ofNat 4 (fld n 16 4), p := fin 3 n 13, a := fin 3 n 10, b := fin 3 n 7 }

def LdF.bits (f : LdF) : Nat := f.c.toNat * 2147483648 + f.t.code * 4194304 + f.d.code * 65536 + f.a.code * 1024 + f.g.val * 64 + f.pri.val * 16 + f.lu.toNat * 8 + f.sh.val
def LdF.lits (f : LdF) : List Word := f.a.lits
def LdF.dec (n : Nat) (lits : List Word) : Option LdF := do
  let t ← LdT.ofCode (fld n 22 3)
  let d ← LDst.ofCode (fld n 16 6)
  let a ← Src.ofCode (fld n 10 6) (lits.headD 0)
  some { c := bit n 31, t := t, d := d, a := a, g := fin 4 n 6, pri := fin 2 n 4, lu := bit n 3, sh := fin 3 n 0 }

def StF.bits (f : StF) : Nat := f.c.toNat * 2147483648 + f.t.code * 4194304 + f.s.code * 65536 + f.a.code * 1024 + f.g.val * 64 + f.pri.val * 16 + f.lu.toNat * 8 + f.sh.val
def StF.lits (f : StF) : List Word := (f.s.lits ++ f.a.lits).take 1
def StF.dec (n : Nat) (lits : List Word) : Option StF := do
  let t ← StT.ofCode (fld n 22 3)
  let s ← Src.ofCode (fld n 16 6) (lits.headD 0)
  let a ← Src.ofCode (fld n 10 6) (lits.headD 0)
  some { c := bit n 31, t := t, s := s, a := a, g := fin 4 n 6, pri := fin 2 n 4, lu := bit n 3, sh := fin 3 n 0 }

def LdaF.bits (f : LdaF) : Nat := f.c.toNat * 2147483648 + f.dw.toNat * 4194304 + f.d.code * 65536 + f.a.code * 1024 + f.g.val * 64 + f.pri.val * 16 + f.lu.toNat * 8 + f.sc.code
def LdaF.lits (f : LdaF) : List Word := f.a.lits
def LdaF.dec (n : Nat) (lits : List Word) : Option LdaF := do
  let d ← LDst.ofCode (fld n 16 6)
  let a ← Src.ofCode (fld n 10 6) (lits.headD 0)
  let sc ← Scope.ofCode (fld n 0 3)
  some { c := bit n 31, dw := bit n 22, d := d, a := a, g := fin 4 n 6, pri := fin 2 n 4, lu := bit n 3, sc := sc }

def StlF.bits (f : StlF) : Nat := f.c.toNat * 2147483648 + f.dw.toNat * 4194304 + f.s.code * 65536 + f.a.code * 1024 + f.g.val * 64 + f.pri.val * 16 + f.lu.toNat * 8 + f.sc.code
def StlF.lits (f : StlF) : List Word := (f.s.lits ++ f.a.lits).take 1
def StlF.dec (n : Nat) (lits : List Word) : Option StlF := do
  let s ← Src.ofCode (fld n 16 6) (lits.headD 0)
  let a ← Src.ofCode (fld n 10 6) (lits.headD 0)
  let sc ← Scope.ofCode (fld n 0 3)
  some { c := bit n 31, dw := bit n 22, s := s, a := a, g := fin 4 n 6, pri := fin 2 n 4, lu := bit n 3, sc := sc }

def PrefF.bits (f : PrefF) : Nat := f.c.toNat * 2147483648 + f.lvl.code * 65536 + f.a.code * 1024 + f.g.val * 64 + f.pri.val * 16 + f.sh.val
def PrefF.lits (f : PrefF) : List Word := f.a.lits
def PrefF.dec (n : Nat) (lits : List Word) : Option PrefF := do
  let lvl ← PrefLevel.ofCode (fld n 16 6)
  let a ← Src.ofCode (fld n 10 6) (lits.headD 0)
  some { c := bit n 31, lvl := lvl, a := a, g := fin 4 n 6, pri := fin 2 n 4, sh := fin 3 n 0 }

def HsetF.bits (f : HsetF) : Nat := f.c.toNat * 2147483648 + f.d.code * 65536 + f.a.code * 1024 + f.g.val * 64 + f.pri.val * 16
def HsetF.lits (f : HsetF) : List Word := f.a.lits
def HsetF.dec (n : Nat) (lits : List Word) : Option HsetF := do
  let d ← LDst.ofCode (fld n 16 6)
  let a ← ZK.ofCode (fld n 10 6) (lits.headD 0)
  some { c := bit n 31, d := d, a := a, g := fin 4 n 6, pri := fin 2 n 4 }

def HdemF.bits (f : HdemF) : Nat := f.c.toNat * 2147483648 + f.d.code * 65536
def HdemF.dec (n : Nat) (_lits : List Word) : Option HdemF := do
  let d ← LDst.ofCode (fld n 16 6)
  some { c := bit n 31, d := d }

def HdropF.bits (f : HdropF) : Nat := f.c.toNat * 2147483648 + f.d.code * 65536 + f.lu.toNat * 8
def HdropF.dec (n : Nat) (_lits : List Word) : Option HdropF := do
  let d ← LDst.ofCode (fld n 16 6)
  some { c := bit n 31, d := d, lu := bit n 3 }

def LrfF.bits (f : LrfF) : Nat := f.c.toNat * 2147483648 + f.a.code * 1024 + f.g.val * 64
def LrfF.lits (f : LrfF) : List Word := f.a.lits
def LrfF.dec (n : Nat) (lits : List Word) : Option LrfF := do
  let a ← ZK.ofCode (fld n 10 6) (lits.headD 0)
  some { c := bit n 31, a := a, g := fin 4 n 6 }

def WaitvF.bits (f : WaitvF) : Nat := f.c.toNat * 2147483648 + f.s.code * 65536 + f.a.code * 1024 + f.g.val * 64 + f.cond.code
def WaitvF.lits (f : WaitvF) : List Word := (f.s.lits ++ f.a.lits).take 1
def WaitvF.dec (n : Nat) (lits : List Word) : Option WaitvF := do
  let s ← Src.ofCode (fld n 16 6) (lits.headD 0)
  let a ← ZK.ofCode (fld n 10 6) (lits.headD 0)
  let cond ← VCond.ofCode (fld n 0 3)
  some { c := bit n 31, s := s, a := a, g := fin 4 n 6, cond := cond }

def AtomF.bits (f : AtomF) : Nat := f.c.toNat * 2147483648 + f.d.code * 65536 + f.a.code * 1024 + f.g.val * 64 + f.pri.val * 16 + f.lu.toNat * 8 + f.sc.code
def AtomF.lits (f : AtomF) : List Word := f.a.lits
def AtomF.dec (n : Nat) (lits : List Word) : Option AtomF := do
  let d ← LDst.ofCode (fld n 16 6)
  let a ← Src.ofCode (fld n 10 6) (lits.headD 0)
  let sc ← Scope.ofCode (fld n 0 3)
  some { c := bit n 31, d := d, a := a, g := fin 4 n 6, pri := fin 2 n 4, lu := bit n 3, sc := sc }

def RedF.bits (f : RedF) : Nat := f.c.toNat * 2147483648 + f.s.code * 65536 + f.a.code * 1024 + f.g.val * 64 + f.pri.val * 16 + f.lu.toNat * 8 + f.sc.code
def RedF.lits (f : RedF) : List Word := (f.s.lits ++ f.a.lits).take 1
def RedF.dec (n : Nat) (lits : List Word) : Option RedF := do
  let s ← Src.ofCode (fld n 16 6) (lits.headD 0)
  let a ← Src.ofCode (fld n 10 6) (lits.headD 0)
  let sc ← Scope.ofCode (fld n 0 3)
  some { c := bit n 31, s := s, a := a, g := fin 4 n 6, pri := fin 2 n 4, lu := bit n 3, sc := sc }

def BarS.bits (f : BarS) : Nat := f.c.toNat * 2147483648 + f.s.code * 65536 + f.a.code * 1024 + f.g.val * 64
def BarS.lits (f : BarS) : List Word := (f.s.lits ++ f.a.lits).take 1
def BarS.dec (n : Nat) (lits : List Word) : Option BarS := do
  let s ← Src.ofCode (fld n 16 6) (lits.headD 0)
  let a ← ZK.ofCode (fld n 10 6) (lits.headD 0)
  some { c := bit n 31, s := s, a := a, g := fin 4 n 6 }

def BarD.bits (f : BarD) : Nat := f.c.toNat * 2147483648 + f.d.code * 65536 + f.a.code * 1024 + f.g.val * 64 + f.sc.code
def BarD.lits (f : BarD) : List Word := f.a.lits
def BarD.dec (n : Nat) (lits : List Word) : Option BarD := do
  let d ← Dst.ofCode (fld n 16 6)
  let a ← ZK.ofCode (fld n 10 6) (lits.headD 0)
  let sc ← Scope.ofCode (fld n 0 3)
  some { c := bit n 31, d := d, a := a, g := fin 4 n 6, sc := sc }

def BwaitF.bits (f : BwaitF) : Nat := f.c.toNat * 2147483648 + f.s.code * 65536 + f.a.code * 1024 + f.g.val * 64 + f.sc.code
def BwaitF.lits (f : BwaitF) : List Word := (f.s.lits ++ f.a.lits).take 1
def BwaitF.dec (n : Nat) (lits : List Word) : Option BwaitF := do
  let s ← Src.ofCode (fld n 16 6) (lits.headD 0)
  let a ← ZK.ofCode (fld n 10 6) (lits.headD 0)
  let sc ← Scope.ofCode (fld n 0 3)
  some { c := bit n 31, s := s, a := a, g := fin 4 n 6, sc := sc }

def BinvF.bits (f : BinvF) : Nat := f.c.toNat * 2147483648 + f.a.code * 1024 + f.g.val * 64
def BinvF.lits (f : BinvF) : List Word := f.a.lits
def BinvF.dec (n : Nat) (lits : List Word) : Option BinvF := do
  let a ← ZK.ofCode (fld n 10 6) (lits.headD 0)
  some { c := bit n 31, a := a, g := fin 4 n 6 }

def FenceF.bits (f : FenceF) : Nat := f.c.toNat * 2147483648 + f.kind.code * 65536 + f.sc.code
def FenceF.dec (n : Nat) (_lits : List Word) : Option FenceF := do
  let kind ← FenceKind.ofCode (fld n 16 2)
  let sc ← Scope.ofCode (fld n 0 3)
  some { c := bit n 31, kind := kind, sc := sc }

def ShadowF.bits (f : ShadowF) : Nat := f.c.toNat * 2147483648 + f.d.code * 65536 + f.a.code * 1024 + f.g.val * 64
def ShadowF.lits (f : ShadowF) : List Word := f.a.lits
def ShadowF.dec (n : Nat) (lits : List Word) : Option ShadowF := do
  let d ← LDst.ofCode (fld n 16 6)
  let a ← ZK.ofCode (fld n 10 6) (lits.headD 0)
  some { c := bit n 31, d := d, a := a, g := fin 4 n 6 }

def PubF.bits (f : PubF) : Nat := f.c.toNat * 2147483648 + f.d.code * 65536 + f.a.code * 1024 + f.sc.code
def PubF.lits (f : PubF) : List Word := f.a.lits
def PubF.dec (n : Nat) (lits : List Word) : Option PubF := do
  let d ← LDst.ofCode (fld n 16 6)
  let a ← Src.ofCode (fld n 10 6) (lits.headD 0)
  let sc ← Scope.ofCode (fld n 0 3)
  some { c := bit n 31, d := d, a := a, sc := sc }

def DiscF.bits (f : DiscF) : Nat := f.c.toNat * 2147483648 + f.d.code * 65536 + f.a.code * 1024
def DiscF.lits (f : DiscF) : List Word := f.a.lits
def DiscF.dec (n : Nat) (lits : List Word) : Option DiscF := do
  let d ← LDst.ofCode (fld n 16 6)
  let a ← Src.ofCode (fld n 10 6) (lits.headD 0)
  some { c := bit n 31, d := d, a := a }

def MflushF.bits (f : MflushF) : Nat := f.c.toNat * 2147483648 + f.s.code * 65536 + f.a.code * 1024 + f.g.val * 64
def MflushF.lits (f : MflushF) : List Word := (f.s.lits ++ f.a.lits).take 1
def MflushF.dec (n : Nat) (lits : List Word) : Option MflushF := do
  let s ← Src.ofCode (fld n 16 6) (lits.headD 0)
  let a ← ZK.ofCode (fld n 10 6) (lits.headD 0)
  some { c := bit n 31, s := s, a := a, g := fin 4 n 6 }

def C0.bits (f : C0) : Nat := f.c.toNat * 2147483648
def C0.dec (n : Nat) (_lits : List Word) : Option C0 :=
  some { c := bit n 31 }

def CwaitF.bits (f : CwaitF) : Nat := f.c.toNat * 2147483648 + f.p.val * 65536 + f.a.code * 1024 + f.g.val * 64
def CwaitF.lits (f : CwaitF) : List Word := f.a.lits
def CwaitF.dec (n : Nat) (lits : List Word) : Option CwaitF := do
  let a ← Src.ofCode (fld n 10 6) (lits.headD 0)
  some { c := bit n 31, p := fin 3 n 16, a := a, g := fin 4 n 6 }

def BraF.bits (f : BraF) : Nat := f.c.toNat * 2147483648 + f.t.code * 512
def BraF.lits (f : BraF) : List Word := f.t.lits
def BraF.dec (n : Nat) (lits : List Word) : Option BraF :=
  some { c := bit n 31, t := Target.ofCode (fld n 9 9) (lits.headD 0) }

def BrcF.bits (f : BrcF) : Nat := f.c.toNat * 2147483648 + f.p.val * 524288 + f.n.toNat * 262144 + f.t.code * 512 + f.j.toNat
def BrcF.lits (f : BrcF) : List Word := f.t.lits
def BrcF.dec (n : Nat) (lits : List Word) : Option BrcF :=
  some { c := bit n 31, p := fin 3 n 19, n := bit n 18, t := Target.ofCode (fld n 9 9) (lits.headD 0), j := BitVec.ofNat 9 (fld n 0 9) }

def BrvF.bits (f : BrvF) : Nat := f.c.toNat * 2147483648 + f.p.val * 524288 + f.n.toNat * 262144 + f.w.toNat * 32768 + f.a.code * 512 + f.j.toNat
def BrvF.lits (f : BrvF) : List Word := f.a.lits
def BrvF.dec (n : Nat) (lits : List Word) : Option BrvF := do
  let a ← Src.ofCode (fld n 9 6) (lits.headD 0)
  some { c := bit n 31, p := fin 3 n 19, n := bit n 18, w := bit n 15, a := a, j := BitVec.ofNat 9 (fld n 0 9) }

def BrmF.bits (f : BrmF) : Nat := (f.pairs.length - 1) * 524288 + f.j.toNat
def BrmF.lits (f : BrmF) : List Word := f.pairs.map BrmPair.word
def BrmF.dec (n : Nat) (lits : List Word) : Option BrmF :=
  some { pairs := (lits.take (fld n 19 3 + 1)).map BrmPair.ofWord, j := BitVec.ofNat 9 (fld n 0 9) }

def JoutF.bits (f : JoutF) : Nat := f.c.toNat * 2147483648 + f.n.val * 65536
def JoutF.dec (n : Nat) (_lits : List Word) : Option JoutF :=
  some { c := bit n 31, n := fin 6 n 16 }

def ElectF.bits (f : ElectF) : Nat := f.c.toNat * 2147483648 + f.p.val * 65536
def ElectF.dec (n : Nat) (_lits : List Word) : Option ElectF :=
  some { c := bit n 31, p := fin 3 n 16 }

def NapF.bits (f : NapF) : Nat := f.c.toNat * 2147483648 + f.w.toNat * 256 + f.s.code
def NapF.lits (f : NapF) : List Word := f.s.lits
def NapF.dec (n : Nat) (lits : List Word) : Option NapF := do
  let s ← NSrc.ofCode (n % 4) (fld n 2 6) (lits.headD 0)
  some { c := bit n 31, w := bit n 8, s := s }

def MloadbF.bits (f : MloadbF) : Nat := f.c.toNat * 2147483648 + f.slot.val * 1024 + f.fmt.code * 64 + f.g.val * 2
def MloadbF.dec (n : Nat) (_lits : List Word) : Option MloadbF := do
  let fmt ← Fmt.ofCode (fld n 6 4)
  some { c := bit n 31, slot := fin 6 n 10, fmt := fmt, g := fin 5 n 1 }

def MmaF.bits (f : MmaF) : Nat := f.c.toNat * 2147483648 + f.t.val * 4096 + f.slot.val * 64 + f.g.val * 8 + f.sat.toNat * 4
def MmaF.dec (n : Nat) (_lits : List Word) : Option MmaF :=
  some { c := bit n 31, t := fin 4 n 12, slot := fin 6 n 6, g := fin 3 n 3, sat := bit n 2 }

def MmagF.bits (f : MmagF) : Nat := f.c.toNat * 2147483648 + f.n.val * 4096 + f.g.val * 8 + f.sat.toNat * 4
def MmagF.dec (n : Nat) (_lits : List Word) : Option MmagF :=
  some { c := bit n 31, n := fin 4 n 12, g := fin 3 n 3, sat := bit n 2 }

def MreadF.bits (f : MreadF) : Nat := f.c.toNat * 2147483648 + f.t.val * 4096 + f.d.val * 64 + f.row.val * 2 + f.two.toNat
def MreadF.dec (n : Nat) (_lits : List Word) : Option MreadF := do
  let d ← finLt 56 (fld n 6 6)
  some { c := bit n 31, t := fin 4 n 12, d := d, row := fin 5 n 1, two := bit n 0 }

def MzeroF.bits (f : MzeroF) : Nat := f.c.toNat * 2147483648 + f.t.val * 4096
def MzeroF.dec (n : Nat) (_lits : List Word) : Option MzeroF :=
  some { c := bit n 31, t := fin 4 n 12 }

def McfgF.bits (f : McfgF) : Nat := f.c.toNat * 2147483648 + f.s.code * 512
def McfgF.lits (f : McfgF) : List Word := f.s.lits
def McfgF.dec (n : Nat) (lits : List Word) : Option McfgF :=
  some { c := bit n 31, s := MSrc.ofCode (bit n 15) (fld n 9 6) (lits.headD 0) }

def TcopyF.bits (f : TcopyF) : Nat := f.c.toNat * 2147483648 + f.gr.val * 4096 + f.gs.val * 256 + f.gq.val * 16 + f.gc.val * 2 + f.nb.toNat
def TcopyF.dec (n : Nat) (_lits : List Word) : Option TcopyF :=
  some { c := bit n 31, gr := fin 4 n 12, gs := fin 4 n 8, gq := fin 4 n 4, gc := fin 3 n 1, nb := bit n 0 }

def XcopyF.bits (f : XcopyF) : Nat := f.c.toNat * 2147483648 + f.d.val * 1024 + f.a.val * 16 + f.gt.val
def XcopyF.dec (n : Nat) (_lits : List Word) : Option XcopyF := do
  let d ← finLt 56 (fld n 10 6)
  let a ← finLt 56 (fld n 4 6)
  some { c := bit n 31, d := d, a := a, gt := fin 4 n 0 }

def HreadF.bits (f : HreadF) : Nat := f.c.toNat * 2147483648 + f.gr.val * 4096 + f.gc.val * 512 + f.gh.val * 32 + f.gq.val * 2 + f.bar.toNat
def HreadF.dec (n : Nat) (_lits : List Word) : Option HreadF :=
  some { c := bit n 31, gr := fin 4 n 12, gc := fin 3 n 9, gh := fin 4 n 5, gq := fin 4 n 1, bar := bit n 0 }

def BatchF.bits (f : BatchF) : Nat := f.c.toNat * 2147483648 + f.d.code * 1024 + f.ev.toNat * 512
def BatchF.dec (n : Nat) (_lits : List Word) : Option BatchF := do
  let d ← Dst.ofCode (fld n 10 6)
  some { c := bit n 31, d := d, ev := bit n 9 }

def WaitbF.bits (f : WaitbF) : Nat := f.c.toNat * 2147483648 + f.s.code * 1024 + f.s.isG.toNat * 256 + f.w.toNat * 512
def WaitbF.lits (f : WaitbF) : List Word := f.s.lits
def WaitbF.dec (n : Nat) (lits : List Word) : Option WaitbF := do
  let s ← RSrc.ofCode (bit n 8) (fld n 10 6) (lits.headD 0)
  some { c := bit n 31, s := s, w := bit n 9 }

def HstF.bits (f : HstF) : Nat := f.c.toNat * 2147483648 + f.a.val * 1024 + f.gb.val * 64 + f.gc.val * 8 + f.sat.toNat * 4
def HstF.dec (n : Nat) (_lits : List Word) : Option HstF := do
  let a ← finLt 56 (fld n 10 6)
  some { c := bit n 31, a := a, gb := fin 4 n 6, gc := fin 3 n 3, sat := bit n 2 }

def HldF.bits (f : HldF) : Nat := f.c.toNat * 2147483648 + f.d.val * 1024 + f.gb.val * 64 + f.gc.val * 8
def HldF.dec (n : Nat) (_lits : List Word) : Option HldF := do
  let d ← finLt 56 (fld n 10 6)
  some { c := bit n 31, d := d, gb := fin 4 n 6, gc := fin 3 n 3 }

def HfwdF.bits (f : HfwdF) : Nat := f.c.toNat * 2147483648 + f.d.code * 1024 + f.a.code * 16 + f.w.toNat * 8 + f.depth.val
def HfwdF.dec (n : Nat) (_lits : List Word) : Option HfwdF := do
  let d ← VX.ofCode (fld n 10 6)
  let a ← VX.ofCode (fld n 4 6)
  some { c := bit n 31, d := d, a := a, w := bit n 3, depth := fin 3 n 0 }

def HrecF.bits (f : HrecF) : Nat := f.c.toNat * 2147483648 + f.d.code * 1024 + f.a.code * 16 + f.w.toNat * 8
def HrecF.dec (n : Nat) (_lits : List Word) : Option HrecF := do
  let d ← VX.ofCode (fld n 10 6)
  let a ← VX.ofCode (fld n 4 6)
  some { c := bit n 31, d := d, a := a, w := bit n 3 }

def HthrF.bits (f : HthrF) : Nat := f.c.toNat * 2147483648 + f.d.code * 1024 + f.a.code * 16 + f.w.toNat * 8 + f.sel.val
def HthrF.dec (n : Nat) (_lits : List Word) : Option HthrF := do
  let d ← VX.ofCode (fld n 10 6)
  let a ← VX.ofCode (fld n 4 6)
  some { c := bit n 31, d := d, a := a, w := bit n 3, sel := fin 2 n 0 }

def HbiasF.bits (f : HbiasF) : Nat := f.c.toNat * 2147483648 + f.d.code * 1024 + f.b.code * 16 + f.b.isG.toNat * 8 + f.w.toNat * 4
def HbiasF.lits (f : HbiasF) : List Word := f.b.lits
def HbiasF.dec (n : Nat) (lits : List Word) : Option HbiasF := do
  let d ← Dst.ofCode (fld n 10 6)
  let b ← RSrc.ofCode (bit n 3) (fld n 4 6) (lits.headD 0)
  some { c := bit n 31, d := d, b := b, w := bit n 2 }

def QuayF.bits (f : QuayF) : Nat := f.c.toNat * 2147483648 + f.gd.val * 4096 + f.gq.val * 256 + f.bar.toNat * 128 + f.q.val * 16
def QuayF.dec (n : Nat) (_lits : List Word) : Option QuayF :=
  some { c := bit n 31, gd := fin 4 n 12, gq := fin 4 n 8, bar := bit n 7, q := fin 3 n 4 }

def QtlF.bits (f : QtlF) : Nat := f.c.toNat * 2147483648 + f.gt.val * 4096 + f.gc.val * 128 + f.slot.val * 32 + f.q.val * 4
def QtlF.dec (n : Nat) (_lits : List Word) : Option QtlF :=
  some { c := bit n 31, gt := fin 4 n 12, gc := fin 5 n 7, slot := fin 2 n 5, q := fin 3 n 2 }

def NputF.bits (f : NputF) : Nat := f.c.toNat * 2147483648 + f.gl.val * 4096 + f.gr.val * 256 + f.gn.val * 8 + f.q.val * 2 + f.pub.toNat
def NputF.dec (n : Nat) (_lits : List Word) : Option NputF :=
  some { c := bit n 31, gl := fin 4 n 12, gr := fin 4 n 8, gn := fin 5 n 3, q := fin 2 n 1, pub := bit n 0 }

def NgetF.bits (f : NgetF) : Nat := f.c.toNat * 2147483648 + f.gl.val * 4096 + f.gr.val * 256 + f.gn.val * 8 + f.q.val * 2
def NgetF.dec (n : Nat) (_lits : List Word) : Option NgetF :=
  some { c := bit n 31, gl := fin 4 n 12, gr := fin 4 n 8, gn := fin 5 n 3, q := fin 2 n 1 }

def NatomF.bits (f : NatomF) : Nat := f.c.toNat * 2147483648 + f.gl.val * 4096 + f.gr.val * 256 + f.gv.val * 32 + f.op.code * 8 + f.q.val * 2
def NatomF.dec (n : Nat) (_lits : List Word) : Option NatomF := do
  let op ← NatomOp.ofCode (fld n 3 2)
  some { c := bit n 31, gl := fin 4 n 12, gr := fin 4 n 8, gv := fin 3 n 5, op := op, q := fin 2 n 1 }

def BreqF.bits (f : BreqF) : Nat := f.c.toNat * 2147483648 + f.ga.val * 4096
def BreqF.dec (n : Nat) (_lits : List Word) : Option BreqF :=
  some { c := bit n 31, ga := fin 4 n 12 }

def EnqF.bits (f : EnqF) : Nat := f.c.toNat * 2147483648 + f.p.val * 8192 + f.q.val * 512 + f.ga.val * 16 + f.n.val * 2
def EnqF.dec (n : Nat) (_lits : List Word) : Option EnqF :=
  some { c := bit n 31, p := fin 3 n 13, q := fin 4 n 9, ga := fin 4 n 4, n := fin 3 n 1 }

def LaunchF.bits (f : LaunchF) : Nat := f.c.toNat * 2147483648 + f.p.val * 8192 + f.q.val * 512 + launchCode f.a + f.w.toNat * 2
def LaunchF.dec (n : Nat) (_lits : List Word) : Option LaunchF := do
  let a ← launchOf (bit n 2) (fld n 4 5)
  some { c := bit n 31, p := fin 3 n 13, q := fin 4 n 9, a := a, w := bit n 1 }

def TrapF.bits (f : TrapF) : Nat := f.c.toNat * 2147483648 + f.imm.toNat
def TrapF.dec (n : Nat) (_lits : List Word) : Option TrapF :=
  some { c := bit n 31, imm := BitVec.ofNat 16 (fld n 0 16) }

def RettF.bits (f : RettF) : Nat := f.c.toNat * 2147483648 + f.gf.val * 4096 + f.p.val * 256
def RettF.dec (n : Nat) (_lits : List Word) : Option RettF :=
  some { c := bit n 31, gf := fin 4 n 12, p := fin 3 n 8 }

def SwrF.bits (f : SwrF) : Nat := f.c.toNat * 2147483648 + f.a.code * 1024 + f.s.code
def SwrF.lits (f : SwrF) : List Word := f.a.lits
def SwrF.dec (n : Nat) (lits : List Word) : Option SwrF := do
  let a ← Src.ofCode (fld n 10 6) (lits.headD 0)
  let s ← SReg.ofCode (fld n 0 10)
  some { c := bit n 31, a := a, s := s }

def SaveptF.bits (f : SaveptF) : Nat := f.c.toNat * 2147483648 + f.live.val
def SaveptF.dec (n : Nat) (_lits : List Word) : Option SaveptF :=
  some { c := bit n 31, live := fin 6 n 0 }

def ProbeF.bits (f : ProbeF) : Nat := f.c.toNat * 2147483648 + f.d.val * 2048 + f.a.val * 32 + f.w.toNat * 8
def ProbeF.dec (n : Nat) (_lits : List Word) : Option ProbeF := do
  let d ← finLt 28 (fld n 11 5)
  let a ← finLt 28 (fld n 5 5)
  some { c := bit n 31, d := d, a := a, w := bit n 3 }

def TlbF.bits (f : TlbF) : Nat := f.c.toNat * 2147483648 + f.gb.val * 4096 + f.gc.val * 128
def TlbF.dec (n : Nat) (_lits : List Word) : Option TlbF :=
  some { c := bit n 31, gb := fin 4 n 12, gc := fin 4 n 7 }

/-- The instruction word of an instruction (none for an event): the base of its row and its fields (R94 to R117). -/
def Instr.head? : Instr → Option Nat
  | .add f => some (33554432 + f.bits)
  | .addSat f => some (33554435 + f.bits)
  | .sub f => some (37748736 + f.bits)
  | .subSat f => some (37748739 + f.bits)
  | .addc f => some (41943040 + f.bits)
  | .subb f => some (46137344 + f.bits)
  | .neg f => some (50331648 + f.bits)
  | .abs f => some (54525952 + f.bits)
  | .sad f => some (58720256 + f.bits)
  | .mov f => some (62914560 + f.bits)
  | .mul f => some (67108864 + f.bits)
  | .mulh f => some (71303168 + f.bits)
  | .mulhU f => some (71303171 + f.bits)
  | .mad f => some (75497472 + f.bits)
  | .madh f => some (79691776 + f.bits)
  | .min f => some (83886080 + f.bits)
  | .minU f => some (83886083 + f.bits)
  | .max f => some (88080384 + f.bits)
  | .maxU f => some (88080387 + f.bits)
  | .dot4 f => some (92274688 + f.bits)
  | .dot4Sat f => some (92274691 + f.bits)
  | .dot4U f => some (96468992 + f.bits)
  | .dot4USat f => some (96468995 + f.bits)
  | .and f => some (100663296 + f.bits)
  | .or f => some (104857600 + f.bits)
  | .xor f => some (109051904 + f.bits)
  | .andn f => some (113246208 + f.bits)
  | .popc f => some (117440512 + f.bits)
  | .clz f => some (121634816 + f.bits)
  | .brev f => some (125829120 + f.bits)
  | .shl f => some (134217728 + f.bits)
  | .shr f => some (138412032 + f.bits)
  | .sar f => some (142606336 + f.bits)
  | .rol f => some (146800640 + f.bits)
  | .ror f => some (150994944 + f.bits)
  | .bfx f => some (155189248 + f.bits)
  | .bfi f => some (159383552 + f.bits)
  | .fshl f => some (163577856 + f.bits)
  | .fshr f => some (167772160 + f.bits)
  | .lea1 f => some (171966464 + f.bits)
  | .lea2 f => some (176160768 + f.bits)
  | .lea3 f => some (180355072 + f.bits)
  | .lea4 f => some (184549376 + f.bits)
  | .cmpEq f => some (201326592 + f.bits)
  | .cmpNe f => some (205520896 + f.bits)
  | .cmpLt f => some (209715200 + f.bits)
  | .cmpLe f => some (213909504 + f.bits)
  | .cmpLtU f => some (218103808 + f.bits)
  | .cmpLeU f => some (222298112 + f.bits)
  | .sel f => some (201326595 + f.bits)
  | .movk f => some (234881024 + f.bits)
  | .bmix f => some (268435456 + f.bits)
  | .movi f => some (335544320 + f.bits)
  | .addi f => some (369098752 + f.bits)
  | .andi f => some (402653184 + f.bits)
  | .ori f => some (436207616 + f.bits)
  | .xori f => some (469762048 + f.bits)
  | .shli f => some (503316480 + f.bits)
  | .fadd f => some (536870912 + f.bits)
  | .fsub f => some (541065216 + f.bits)
  | .fmul f => some (545259520 + f.bits)
  | .fmin f => some (549453824 + f.bits)
  | .fminNum f => some (549453827 + f.bits)
  | .fmax f => some (553648128 + f.bits)
  | .fmaxNum f => some (553648131 + f.bits)
  | .fcmp f => some (557842432 + f.bits)
  | .fint f => some (562036736 + f.bits)
  | .pfma f => some (566231040 + f.bits)
  | .faddRn f => some (570425344 + f.bits)
  | .faddRz f => some (603979776 + f.bits)
  | .faddRd f => some (637534208 + f.bits)
  | .faddRu f => some (671088640 + f.bits)
  | .fsubRn f => some (574619648 + f.bits)
  | .fsubRz f => some (608174080 + f.bits)
  | .fsubRd f => some (641728512 + f.bits)
  | .fsubRu f => some (675282944 + f.bits)
  | .fmulRn f => some (578813952 + f.bits)
  | .fmulRz f => some (612368384 + f.bits)
  | .fmulRd f => some (645922816 + f.bits)
  | .fmulRu f => some (679477248 + f.bits)
  | .fintRn f => some (595591168 + f.bits)
  | .fintRz f => some (629145600 + f.bits)
  | .fintRd f => some (662700032 + f.bits)
  | .fintRu f => some (696254464 + f.bits)
  | .pfmaRn f => some (599785472 + f.bits)
  | .pfmaRz f => some (633339904 + f.bits)
  | .pfmaRd f => some (666894336 + f.bits)
  | .pfmaRu f => some (700448768 + f.bits)
  | .frcp f => some (704643072 + f.bits)
  | .frsq f => some (708837376 + f.bits)
  | .fsqrt f => some (713031680 + f.bits)
  | .fexp2 f => some (717225984 + f.bits)
  | .flog2 f => some (721420288 + f.bits)
  | .fsin f => some (725614592 + f.bits)
  | .fcos f => some (729808896 + f.bits)
  | .fma f => some (738197504 + f.bits)
  | .fmaRn f => some (771751936 + f.bits)
  | .fmaRz f => some (805306368 + f.bits)
  | .fmaRd f => some (838860800 + f.bits)
  | .fmaRu f => some (872415232 + f.bits)
  | .fmak f => some (905969664 + f.bits)
  | .cvt f => some (939524096 + f.bits)
  | .cvtqQ f => some (973144064 + f.bits)
  | .cvtqX f => some (973144066 + f.bits)
  | .pack f => some (973209600 + f.bits)
  | .unpk f => some (973275136 + f.bits)
  | .faddi f => some (1006632960 + f.bits)
  | .fmuli f => some (1040187392 + f.bits)
  | .qxch f => some (1073741824 + f.bits)
  | .qbrd f => some (1074790400 + f.bits)
  | .xlane f => some (1075838976 + f.bits)
  | .pollQuorum f => some (1076887552 + f.bits)
  | .pollSame f => some (1076953088 + f.bits)
  | .pollCount f => some (1077018624 + f.bits)
  | .pollRank f => some (1077084160 + f.bits)
  | .pollMap f => some (1077149696 + f.bits)
  | .redg f => some (1077936128 + f.bits)
  | .tagr f => some (1078984704 + f.bits)
  | .tagw f => some (1080033280 + f.bits)
  | .srd f => some (1081081856 + f.bits)
  | .plop f => some (1082130432 + f.bits)
  | .ld f => some (1342177280 + f.bits)
  | .st f => some (1375731712 + f.bits)
  | .lda f => some (1409286144 + f.bits)
  | .stl f => some (1426063360 + f.bits)
  | .lds f => some (1442840576 + f.bits)
  | .sts f => some (1476395008 + f.bits)
  | .pref f => some (1509949440 + f.bits)
  | .hset f => some (1514143744 + f.bits)
  | .hdem f => some (1518401536 + f.bits)
  | .hdrop f => some (1522595840 + f.bits)
  | .lrflush f => some (1526726656 + f.bits)
  | .waitv f => some (1530920960 + f.bits)
  | .atomAdd f => some (1610612736 + f.bits)
  | .atomMin f => some (1614807040 + f.bits)
  | .atomMax f => some (1619001344 + f.bits)
  | .atomMinU f => some (1623195648 + f.bits)
  | .atomMaxU f => some (1627389952 + f.bits)
  | .atomFadd f => some (1631584256 + f.bits)
  | .atomExch f => some (1635778560 + f.bits)
  | .atomCas f => some (1639972864 + f.bits)
  | .atomAnd f => some (1644167168 + f.bits)
  | .atomOr f => some (1648361472 + f.bits)
  | .atomXor f => some (1652555776 + f.bits)
  | .atomAddD f => some (1656750080 + f.bits)
  | .atomExchD f => some (1660944384 + f.bits)
  | .atomCasD f => some (1665138688 + f.bits)
  | .atomsAdd f => some (1677721600 + f.bits)
  | .atomsMin f => some (1681915904 + f.bits)
  | .atomsMax f => some (1686110208 + f.bits)
  | .atomsMinU f => some (1690304512 + f.bits)
  | .atomsMaxU f => some (1694498816 + f.bits)
  | .atomsFadd f => some (1698693120 + f.bits)
  | .atomsExch f => some (1702887424 + f.bits)
  | .atomsCas f => some (1707081728 + f.bits)
  | .redAdd f => some (1711276032 + f.bits)
  | .redMin f => some (1715470336 + f.bits)
  | .redMax f => some (1719664640 + f.bits)
  | .redMinU f => some (1723858944 + f.bits)
  | .redMaxU f => some (1728053248 + f.bits)
  | .redFadd f => some (1732247552 + f.bits)
  | .redAnd f => some (1736441856 + f.bits)
  | .redOr f => some (1740636160 + f.bits)
  | .binit f => some (1744830464 + f.bits)
  | .bexpect f => some (1749024768 + f.bits)
  | .barrive f => some (1753219072 + f.bits)
  | .bwait f => some (1757413376 + f.bits)
  | .btry f => some (1761607680 + f.bits)
  | .binval f => some (1769865216 + f.bits)
  | .binitForce f => some (1769996288 + f.bits)
  | .fence f => some (1778384896 + f.bits)
  | .shadow f => some (1782579200 + f.bits)
  | .publish f => some (1786773504 + f.bits)
  | .discard f => some (1790967808 + f.bits)
  | .mflush f => some (1795162116 + f.bits)
  | .cdone f => some (1799356420 + f.bits)
  | .cwait f => some (1803550724 + f.bits)
  | .bra f => some (1815609344 + f.bits)
  | .brc f => some (1816133632 + f.bits)
  | .call f => some (1823997952 + f.bits)
  | .brv f => some (1824522240 + f.bits)
  | .brm f => some (1845624832 + f.bits)
  | .ret f => some (1879048192 + f.bits)
  | .jout f => some (1883242496 + f.bits)
  | .elect f => some (1887436800 + f.bits)
  | .yield f => some (1891631104 + f.bits)
  | .nap f => some (1895825408 + f.bits)
  | .tail f => some (1900019712 + f.bits)
  | .exit f => some (1904214016 + f.bits)
  | .evret f => some (1908408320 + f.bits)
  | .evon f => some (1912602624 + f.bits)
  | .mloadb f => some (2013331456 + f.bits)
  | .mma f => some (2013396992 + f.bits)
  | .mmag f => some (2013462528 + f.bits)
  | .mread f => some (2013528064 + f.bits)
  | .mzero f => some (2013593600 + f.bits)
  | .mcfg f => some (2013659136 + f.bits)
  | .tcopy f => some (2046885888 + f.bits)
  | .tstore f => some (2046951424 + f.bits)
  | .xcopy f => some (2047016960 + f.bits)
  | .hread f => some (2047082496 + f.bits)
  | .batch f => some (2047148032 + f.bits)
  | .waitb f => some (2047213568 + f.bits)
  | .hst f => some (2047868928 + f.bits)
  | .hld f => some (2047934464 + f.bits)
  | .hldx f => some (2048000000 + f.bits)
  | .hfwd f => some (2048065536 + f.bits)
  | .hrec f => some (2048131072 + f.bits)
  | .hthr f => some (2048196608 + f.bits)
  | .hbias f => some (2048262144 + f.bits)
  | .qgath f => some (2080440320 + f.bits)
  | .qred f => some (2080505856 + f.bits)
  | .qcvt f => some (2080571392 + f.bits)
  | .qunpk f => some (2080636928 + f.bits)
  | .qtload f => some (2080702464 + f.bits)
  | .nput f => some (2081423360 + f.bits)
  | .nget f => some (2081488896 + f.bits)
  | .natom f => some (2081554432 + f.bits)
  | .bopen f => some (2081619968 + f.bits)
  | .brevoke f => some (2081685504 + f.bits)
  | .enqL f => some (2082471936 + f.bits)
  | .enqQ f => some (2082472192 + f.bits)
  | .launch f => some (2082537472 + f.bits)
  | .trap f => some (2113994752 + f.bits)
  | .rettResume f => some (2114060288 + f.bits)
  | .rettSkip f => some (2114060352 + f.bits)
  | .rettEnd f => some (2114060416 + f.bits)
  | .rettFault f => some (2114060480 + f.bits)
  | .swr f => some (2114125824 + f.bits)
  | .savept f => some (2114191360 + f.bits)
  | .probe f => some (2114256896 + f.bits)
  | .tlbinv f => some (2114322432 + f.bits)
  | .tlbinvR f => some (2114322464 + f.bits)
  | .tlbinvAbort f => some (2114322448 + f.bits)
  | .brk f => some (2114387968 + f.bits)
  | .bringUp => none
  | .stackTraining => none
  | .ringLoopback => none
  | .phyLoopback => none
  | .sramBist => none
  | .residueCheckerTest => none
  | .clockStart => none
  | .resetRequest => none
  | .readFailureReport => none
  | .readIdentity => none
  | .provisioningRequest => none
  | .deployRequest => none
  | .debugRequest => none
  | .retireRequest => none
  | .installCertificate => none
  | .attestationRequest => none
  | .createContext => none
  | .loadContext => none
  | .startContext => none
  | .resumeContext => none
  | .killContext => none
  | .openQueue => none
  | .closeQueue => none
  | .setDeadline => none
  | .openPath => none
  | .closePath => none
  | .pilotKeyRotation => none
  | .setThr => none
  | .schedulerDeschedule => none
  | .deadlineExpiry => none
  | .blockSave => none
  | .contextSaved => none
  | .schedulerRestore => none
  | .contextWiped => none
  | .computeDieReset => none
  | .takeLaunchEntry => none
  | .launchQueueAging => none
  | .dependencePoll => none
  | .gridStarting => none
  | .placeGang => none
  | .blockRetire => none
  | .gridDrained => none
  | .issueSelect => none
  | .eventEntry => none
  | .clockWrap => none
  | .loadDataReturn => none
  | .napExpiry => none
  | .waitvReread => none
  | .cwaitReread => none
  | .batchComplete => none
  | .retirementTrackerDrain => none
  | .queueHeadReread => none
  | .faultBerthFreed => none
  | .tlbinvEffectComplete => none
  | .engineTakeEntry => none
  | .buoyReturn => none
  | .engineQuiet => none
  | .copySectorDelivered => none
  | .tstoreSectorWritten => none
  | .xcopyDelivery => none
  | .commandCompletion => none
  | .publishSwap => none
  | .hreadBurstRequest => none
  | .hreadBurstReturn => none
  | .lighterBirth => none
  | .hreadCompletion => none
  | .qunpkSymbol => none
  | .quayCommandRun => none
  | .matrixEntryDone => none
  | .mreadDataArrival => none
  | .cdoneOrPerform => none
  | .directoryInvalidate => none
  | .cacheEviction => none
  | .dramWrite => none
  | .dramRead => none
  | .rowAlert => none
  | .refreshManagementCommand => none
  | .backoffWindowClose => none
  | .regularRefresh => none
  | .selfRefreshEntry => none
  | .ringPacketInject => none
  | .ringFlitReceive => none
  | .ringFlitResend => none
  | .ethernetFrameReceive => none
  | .roceLaunchSend => none
  | .rdmaWrite => none
  | .rdmaWritePublish => none
  | .rdmaRead => none
  | .rdmaAtomic => none
  | .revocationNoticeReceive => none
  | .roceRetryExhausted => none
  | .portLossOfSignal => none
  | .berthRevokeInForce => none
  | .berthRevokeDone => none
  | .bopenAnswer => none
  | .powerLoss => none
  | .computeDieResetExit => none
  | .storageError => none
  | .instructionLineArrival => none
  | .powerLimit => none
  | .createOwner => none
  | .counterClear => none
  | .berthPageReassign => none

/-- The literal words an instruction owns (R83). -/
def Instr.lits : Instr → List Word
  | .add f => f.lits
  | .addSat f => f.lits
  | .sub f => f.lits
  | .subSat f => f.lits
  | .addc f => f.lits
  | .subb f => f.lits
  | .neg f => f.lits
  | .abs f => f.lits
  | .sad f => f.lits
  | .mov f => f.lits
  | .mul f => f.lits
  | .mulh f => f.lits
  | .mulhU f => f.lits
  | .mad f => f.lits
  | .madh f => f.lits
  | .min f => f.lits
  | .minU f => f.lits
  | .max f => f.lits
  | .maxU f => f.lits
  | .dot4 f => f.lits
  | .dot4Sat f => f.lits
  | .dot4U f => f.lits
  | .dot4USat f => f.lits
  | .and f => f.lits
  | .or f => f.lits
  | .xor f => f.lits
  | .andn f => f.lits
  | .popc f => f.lits
  | .clz f => f.lits
  | .brev f => f.lits
  | .shl f => f.lits
  | .shr f => f.lits
  | .sar f => f.lits
  | .rol f => f.lits
  | .ror f => f.lits
  | .bfx f => f.lits
  | .bfi f => f.lits
  | .fshl f => f.lits
  | .fshr f => f.lits
  | .lea1 f => f.lits
  | .lea2 f => f.lits
  | .lea3 f => f.lits
  | .lea4 f => f.lits
  | .cmpEq f => f.lits
  | .cmpNe f => f.lits
  | .cmpLt f => f.lits
  | .cmpLe f => f.lits
  | .cmpLtU f => f.lits
  | .cmpLeU f => f.lits
  | .sel f => f.lits
  | .movk _ => []
  | .bmix f => f.lits
  | .movi _ => []
  | .addi _ => []
  | .andi _ => []
  | .ori _ => []
  | .xori _ => []
  | .shli _ => []
  | .fadd f => f.lits
  | .fsub f => f.lits
  | .fmul f => f.lits
  | .fmin f => f.lits
  | .fminNum f => f.lits
  | .fmax f => f.lits
  | .fmaxNum f => f.lits
  | .fcmp f => f.lits
  | .fint f => f.lits
  | .pfma f => f.lits
  | .faddRn f => f.lits
  | .faddRz f => f.lits
  | .faddRd f => f.lits
  | .faddRu f => f.lits
  | .fsubRn f => f.lits
  | .fsubRz f => f.lits
  | .fsubRd f => f.lits
  | .fsubRu f => f.lits
  | .fmulRn f => f.lits
  | .fmulRz f => f.lits
  | .fmulRd f => f.lits
  | .fmulRu f => f.lits
  | .fintRn f => f.lits
  | .fintRz f => f.lits
  | .fintRd f => f.lits
  | .fintRu f => f.lits
  | .pfmaRn f => f.lits
  | .pfmaRz f => f.lits
  | .pfmaRd f => f.lits
  | .pfmaRu f => f.lits
  | .frcp f => f.lits
  | .frsq f => f.lits
  | .fsqrt f => f.lits
  | .fexp2 f => f.lits
  | .flog2 f => f.lits
  | .fsin f => f.lits
  | .fcos f => f.lits
  | .fma f => f.lits
  | .fmaRn f => f.lits
  | .fmaRz f => f.lits
  | .fmaRd f => f.lits
  | .fmaRu f => f.lits
  | .fmak f => f.lits
  | .cvt f => f.lits
  | .cvtqQ _ => []
  | .cvtqX f => f.lits
  | .pack _ => []
  | .unpk f => f.lits
  | .faddi _ => []
  | .fmuli _ => []
  | .qxch _ => []
  | .qbrd _ => []
  | .xlane _ => []
  | .pollQuorum _ => []
  | .pollSame _ => []
  | .pollCount _ => []
  | .pollRank _ => []
  | .pollMap _ => []
  | .redg _ => []
  | .tagr f => f.lits
  | .tagw _ => []
  | .srd _ => []
  | .plop _ => []
  | .ld f => f.lits
  | .st f => f.lits
  | .lda f => f.lits
  | .stl f => f.lits
  | .lds f => f.lits
  | .sts f => f.lits
  | .pref f => f.lits
  | .hset f => f.lits
  | .hdem _ => []
  | .hdrop _ => []
  | .lrflush f => f.lits
  | .waitv f => f.lits
  | .atomAdd f => f.lits
  | .atomMin f => f.lits
  | .atomMax f => f.lits
  | .atomMinU f => f.lits
  | .atomMaxU f => f.lits
  | .atomFadd f => f.lits
  | .atomExch f => f.lits
  | .atomCas f => f.lits
  | .atomAnd f => f.lits
  | .atomOr f => f.lits
  | .atomXor f => f.lits
  | .atomAddD f => f.lits
  | .atomExchD f => f.lits
  | .atomCasD f => f.lits
  | .atomsAdd f => f.lits
  | .atomsMin f => f.lits
  | .atomsMax f => f.lits
  | .atomsMinU f => f.lits
  | .atomsMaxU f => f.lits
  | .atomsFadd f => f.lits
  | .atomsExch f => f.lits
  | .atomsCas f => f.lits
  | .redAdd f => f.lits
  | .redMin f => f.lits
  | .redMax f => f.lits
  | .redMinU f => f.lits
  | .redMaxU f => f.lits
  | .redFadd f => f.lits
  | .redAnd f => f.lits
  | .redOr f => f.lits
  | .binit f => f.lits
  | .bexpect f => f.lits
  | .barrive f => f.lits
  | .bwait f => f.lits
  | .btry f => f.lits
  | .binval f => f.lits
  | .binitForce f => f.lits
  | .fence _ => []
  | .shadow f => f.lits
  | .publish f => f.lits
  | .discard f => f.lits
  | .mflush f => f.lits
  | .cdone _ => []
  | .cwait f => f.lits
  | .bra f => f.lits
  | .brc f => f.lits
  | .call f => f.lits
  | .brv f => f.lits
  | .brm f => f.lits
  | .ret _ => []
  | .jout _ => []
  | .elect _ => []
  | .yield _ => []
  | .nap f => f.lits
  | .tail _ => []
  | .exit _ => []
  | .evret _ => []
  | .evon f => f.lits
  | .mloadb _ => []
  | .mma _ => []
  | .mmag _ => []
  | .mread _ => []
  | .mzero _ => []
  | .mcfg f => f.lits
  | .tcopy _ => []
  | .tstore _ => []
  | .xcopy _ => []
  | .hread _ => []
  | .batch _ => []
  | .waitb f => f.lits
  | .hst _ => []
  | .hld _ => []
  | .hldx _ => []
  | .hfwd _ => []
  | .hrec _ => []
  | .hthr _ => []
  | .hbias f => f.lits
  | .qgath _ => []
  | .qred _ => []
  | .qcvt _ => []
  | .qunpk _ => []
  | .qtload _ => []
  | .nput _ => []
  | .nget _ => []
  | .natom _ => []
  | .bopen _ => []
  | .brevoke _ => []
  | .enqL _ => []
  | .enqQ _ => []
  | .launch _ => []
  | .trap _ => []
  | .rettResume _ => []
  | .rettSkip _ => []
  | .rettEnd _ => []
  | .rettFault _ => []
  | .swr f => f.lits
  | .savept _ => []
  | .probe _ => []
  | .tlbinv _ => []
  | .tlbinvR _ => []
  | .tlbinvAbort _ => []
  | .brk _ => []
  | .bringUp => []
  | .stackTraining => []
  | .ringLoopback => []
  | .phyLoopback => []
  | .sramBist => []
  | .residueCheckerTest => []
  | .clockStart => []
  | .resetRequest => []
  | .readFailureReport => []
  | .readIdentity => []
  | .provisioningRequest => []
  | .deployRequest => []
  | .debugRequest => []
  | .retireRequest => []
  | .installCertificate => []
  | .attestationRequest => []
  | .createContext => []
  | .loadContext => []
  | .startContext => []
  | .resumeContext => []
  | .killContext => []
  | .openQueue => []
  | .closeQueue => []
  | .setDeadline => []
  | .openPath => []
  | .closePath => []
  | .pilotKeyRotation => []
  | .setThr => []
  | .schedulerDeschedule => []
  | .deadlineExpiry => []
  | .blockSave => []
  | .contextSaved => []
  | .schedulerRestore => []
  | .contextWiped => []
  | .computeDieReset => []
  | .takeLaunchEntry => []
  | .launchQueueAging => []
  | .dependencePoll => []
  | .gridStarting => []
  | .placeGang => []
  | .blockRetire => []
  | .gridDrained => []
  | .issueSelect => []
  | .eventEntry => []
  | .clockWrap => []
  | .loadDataReturn => []
  | .napExpiry => []
  | .waitvReread => []
  | .cwaitReread => []
  | .batchComplete => []
  | .retirementTrackerDrain => []
  | .queueHeadReread => []
  | .faultBerthFreed => []
  | .tlbinvEffectComplete => []
  | .engineTakeEntry => []
  | .buoyReturn => []
  | .engineQuiet => []
  | .copySectorDelivered => []
  | .tstoreSectorWritten => []
  | .xcopyDelivery => []
  | .commandCompletion => []
  | .publishSwap => []
  | .hreadBurstRequest => []
  | .hreadBurstReturn => []
  | .lighterBirth => []
  | .hreadCompletion => []
  | .qunpkSymbol => []
  | .quayCommandRun => []
  | .matrixEntryDone => []
  | .mreadDataArrival => []
  | .cdoneOrPerform => []
  | .directoryInvalidate => []
  | .cacheEviction => []
  | .dramWrite => []
  | .dramRead => []
  | .rowAlert => []
  | .refreshManagementCommand => []
  | .backoffWindowClose => []
  | .regularRefresh => []
  | .selfRefreshEntry => []
  | .ringPacketInject => []
  | .ringFlitReceive => []
  | .ringFlitResend => []
  | .ethernetFrameReceive => []
  | .roceLaunchSend => []
  | .rdmaWrite => []
  | .rdmaWritePublish => []
  | .rdmaRead => []
  | .rdmaAtomic => []
  | .revocationNoticeReceive => []
  | .roceRetryExhausted => []
  | .portLossOfSignal => []
  | .berthRevokeInForce => []
  | .berthRevokeDone => []
  | .bopenAnswer => []
  | .powerLoss => []
  | .computeDieResetExit => []
  | .storageError => []
  | .instructionLineArrival => []
  | .powerLimit => []
  | .createOwner => []
  | .counterClear => []
  | .berthPageReassign => []

/-- Major 0x01. -/
def cand01 (n : Nat) (lits : List Word) : Option Instr :=
  match fld n 22 3 with
  | 0 => if n % 4 = 3 then (RS.dec n lits).map .addSat else (RR.dec n lits).map .add
  | 1 => if n % 4 = 3 then (RS.dec n lits).map .subSat else (RR.dec n lits).map .sub
  | 2 => (RR.dec n lits).map .addc
  | 3 => (RR.dec n lits).map .subb
  | 4 => (R1.dec n lits).map .neg
  | 5 => (R1.dec n lits).map .abs
  | 6 => (RR.dec n lits).map .sad
  | 7 => (R1.dec n lits).map .mov
  | _ => none

/-- Major 0x02. -/
def cand02 (n : Nat) (lits : List Word) : Option Instr :=
  match fld n 22 3 with
  | 0 => (RR.dec n lits).map .mul
  | 1 => if n % 4 = 3 then (RS.dec n lits).map .mulhU else (RR.dec n lits).map .mulh
  | 2 => (RR.dec n lits).map .mad
  | 3 => (RR.dec n lits).map .madh
  | 4 => if n % 4 = 3 then (RS.dec n lits).map .minU else (RR.dec n lits).map .min
  | 5 => if n % 4 = 3 then (RS.dec n lits).map .maxU else (RR.dec n lits).map .max
  | 6 => if n % 4 = 3 then (RS.dec n lits).map .dot4Sat else (RR.dec n lits).map .dot4
  | 7 => if n % 4 = 3 then (RS.dec n lits).map .dot4USat else (RR.dec n lits).map .dot4U
  | _ => none

/-- Major 0x03. -/
def cand03 (n : Nat) (lits : List Word) : Option Instr :=
  match fld n 22 3 with
  | 0 => (RR.dec n lits).map .and
  | 1 => (RR.dec n lits).map .or
  | 2 => (RR.dec n lits).map .xor
  | 3 => (RR.dec n lits).map .andn
  | 4 => (R1.dec n lits).map .popc
  | 5 => (R1.dec n lits).map .clz
  | 6 => (R1.dec n lits).map .brev
  | _ => none

/-- Major 0x04. -/
def cand04 (n : Nat) (lits : List Word) : Option Instr :=
  match fld n 22 3 with
  | 0 => (RR.dec n lits).map .shl
  | 1 => (RR.dec n lits).map .shr
  | 2 => (RR.dec n lits).map .sar
  | 3 => (RR.dec n lits).map .rol
  | 4 => (RR.dec n lits).map .ror
  | 5 => (RR.dec n lits).map .bfx
  | 6 => (RR.dec n lits).map .bfi
  | 7 => (RR.dec n lits).map .fshl
  | _ => none

/-- Major 0x05. -/
def cand05 (n : Nat) (lits : List Word) : Option Instr :=
  match fld n 22 3 with
  | 0 => (RR.dec n lits).map .fshr
  | 1 => (RR.dec n lits).map .lea1
  | 2 => (RR.dec n lits).map .lea2
  | 3 => (RR.dec n lits).map .lea3
  | 4 => (RR.dec n lits).map .lea4
  | _ => none

/-- Major 0x06. -/
def cand06 (n : Nat) (lits : List Word) : Option Instr :=
  if n % 4 = 3 then (SelF.dec n lits).map .sel else
  match fld n 22 3 with
  | 0 => (CmpF.dec n lits).map .cmpEq
  | 1 => (CmpF.dec n lits).map .cmpNe
  | 2 => (CmpF.dec n lits).map .cmpLt
  | 3 => (CmpF.dec n lits).map .cmpLe
  | 4 => (CmpF.dec n lits).map .cmpLtU
  | 5 => (CmpF.dec n lits).map .cmpLeU
  | _ => none

/-- Major 0x07. -/
def cand07 (n : Nat) (lits : List Word) : Option Instr :=
  match fld n 22 3 with
  | 0 => (MovkF.dec n lits).map .movk
  | _ => none

/-- Major 0x10. -/
def cand10 (n : Nat) (lits : List Word) : Option Instr :=
  match fld n 22 3 with
  | 0 => (RR.dec n lits).map .fadd
  | 1 => (RR.dec n lits).map .fsub
  | 2 => (RR.dec n lits).map .fmul
  | 3 => if n % 4 = 3 then (RS.dec n lits).map .fminNum else (RR.dec n lits).map .fmin
  | 4 => if n % 4 = 3 then (RS.dec n lits).map .fmaxNum else (RR.dec n lits).map .fmax
  | 5 => (FcmpF.dec n lits).map .fcmp
  | 6 => (R1.dec n lits).map .fint
  | 7 => (RR.dec n lits).map .pfma
  | _ => none

/-- Major 0x11. -/
def cand11 (n : Nat) (lits : List Word) : Option Instr :=
  match fld n 22 3 with
  | 0 => (RR.dec n lits).map .faddRn
  | 1 => (RR.dec n lits).map .fsubRn
  | 2 => (RR.dec n lits).map .fmulRn
  | 6 => (R1.dec n lits).map .fintRn
  | 7 => (RR.dec n lits).map .pfmaRn
  | _ => none

/-- Major 0x12. -/
def cand12 (n : Nat) (lits : List Word) : Option Instr :=
  match fld n 22 3 with
  | 0 => (RR.dec n lits).map .faddRz
  | 1 => (RR.dec n lits).map .fsubRz
  | 2 => (RR.dec n lits).map .fmulRz
  | 6 => (R1.dec n lits).map .fintRz
  | 7 => (RR.dec n lits).map .pfmaRz
  | _ => none

/-- Major 0x13. -/
def cand13 (n : Nat) (lits : List Word) : Option Instr :=
  match fld n 22 3 with
  | 0 => (RR.dec n lits).map .faddRd
  | 1 => (RR.dec n lits).map .fsubRd
  | 2 => (RR.dec n lits).map .fmulRd
  | 6 => (R1.dec n lits).map .fintRd
  | 7 => (RR.dec n lits).map .pfmaRd
  | _ => none

/-- Major 0x14. -/
def cand14 (n : Nat) (lits : List Word) : Option Instr :=
  match fld n 22 3 with
  | 0 => (RR.dec n lits).map .faddRu
  | 1 => (RR.dec n lits).map .fsubRu
  | 2 => (RR.dec n lits).map .fmulRu
  | 6 => (R1.dec n lits).map .fintRu
  | 7 => (RR.dec n lits).map .pfmaRu
  | _ => none

/-- Major 0x15. -/
def cand15 (n : Nat) (lits : List Word) : Option Instr :=
  match fld n 22 3 with
  | 0 => (R1.dec n lits).map .frcp
  | 1 => (R1.dec n lits).map .frsq
  | 2 => (R1.dec n lits).map .fsqrt
  | 3 => (R1.dec n lits).map .fexp2
  | 4 => (R1.dec n lits).map .flog2
  | 5 => (R1.dec n lits).map .fsin
  | 6 => (R1.dec n lits).map .fcos
  | _ => none

/-- Major 0x1D. -/
def cand1D (n : Nat) (lits : List Word) : Option Instr :=
  match fld n 16 9 with
  | 1 =>
    match fld n 1 1 with
    | 0 => (CvtqQF.dec n lits).map .cvtqQ
    | 1 => (CvtqXF.dec n lits).map .cvtqX
    | _ => none
  | 2 => (PackF.dec n lits).map .pack
  | 3 => (UnpkF.dec n lits).map .unpk
  | _ => none

/-- Major 0x20. -/
def cand20 (n : Nat) (lits : List Word) : Option Instr :=
  match fld n 20 5 with
  | 0 => (QxchF.dec n lits).map .qxch
  | 1 => (QbrdF.dec n lits).map .qbrd
  | 2 => (XlaneF.dec n lits).map .xlane
  | 3 =>
    match fld n 16 4 with
    | 0 => (PollQF.dec n lits).map .pollQuorum
    | 1 => (PollSF.dec n lits).map .pollSame
    | 2 => (PollWF.dec n lits).map .pollCount
    | 3 => (PollWF.dec n lits).map .pollRank
    | 4 => (PollWF.dec n lits).map .pollMap
    | _ => none
  | 4 => (RedgF.dec n lits).map .redg
  | 5 => (TagrF.dec n lits).map .tagr
  | 6 => (TagwF.dec n lits).map .tagw
  | 7 => (SrdF.dec n lits).map .srd
  | 8 => (PlopF.dec n lits).map .plop
  | _ => none

/-- Major 0x2A. -/
def cand2A (n : Nat) (lits : List Word) : Option Instr :=
  match fld n 22 3 with
  | 0 => (LdaF.dec n lits).map .lda
  | 1 => (LdaF.dec n lits).map .lda
  | 4 => (StlF.dec n lits).map .stl
  | 5 => (StlF.dec n lits).map .stl
  | _ => none

/-- Major 0x2D. -/
def cand2D (n : Nat) (lits : List Word) : Option Instr :=
  match fld n 22 3 with
  | 0 => (PrefF.dec n lits).map .pref
  | 1 => (HsetF.dec n lits).map .hset
  | 2 => (HdemF.dec n lits).map .hdem
  | 3 => (HdropF.dec n lits).map .hdrop
  | 4 => (LrfF.dec n lits).map .lrflush
  | 5 => (WaitvF.dec n lits).map .waitv
  | _ => none

/-- Major 0x30. -/
def cand30 (n : Nat) (lits : List Word) : Option Instr :=
  match fld n 22 3 with
  | 0 => (AtomF.dec n lits).map .atomAdd
  | 1 => (AtomF.dec n lits).map .atomMin
  | 2 => (AtomF.dec n lits).map .atomMax
  | 3 => (AtomF.dec n lits).map .atomMinU
  | 4 => (AtomF.dec n lits).map .atomMaxU
  | 5 => (AtomF.dec n lits).map .atomFadd
  | 6 => (AtomF.dec n lits).map .atomExch
  | 7 => (AtomF.dec n lits).map .atomCas
  | _ => none

/-- Major 0x31. -/
def cand31 (n : Nat) (lits : List Word) : Option Instr :=
  match fld n 22 3 with
  | 0 => (AtomF.dec n lits).map .atomAnd
  | 1 => (AtomF.dec n lits).map .atomOr
  | 2 => (AtomF.dec n lits).map .atomXor
  | 3 => (AtomF.dec n lits).map .atomAddD
  | 4 => (AtomF.dec n lits).map .atomExchD
  | 5 => (AtomF.dec n lits).map .atomCasD
  | _ => none

/-- Major 0x32. -/
def cand32 (n : Nat) (lits : List Word) : Option Instr :=
  match fld n 22 3 with
  | 0 => (AtomF.dec n lits).map .atomsAdd
  | 1 => (AtomF.dec n lits).map .atomsMin
  | 2 => (AtomF.dec n lits).map .atomsMax
  | 3 => (AtomF.dec n lits).map .atomsMinU
  | 4 => (AtomF.dec n lits).map .atomsMaxU
  | 5 => (AtomF.dec n lits).map .atomsFadd
  | 6 => (AtomF.dec n lits).map .atomsExch
  | 7 => (AtomF.dec n lits).map .atomsCas
  | _ => none

/-- Major 0x33. -/
def cand33 (n : Nat) (lits : List Word) : Option Instr :=
  match fld n 22 3 with
  | 0 => (RedF.dec n lits).map .redAdd
  | 1 => (RedF.dec n lits).map .redMin
  | 2 => (RedF.dec n lits).map .redMax
  | 3 => (RedF.dec n lits).map .redMinU
  | 4 => (RedF.dec n lits).map .redMaxU
  | 5 => (RedF.dec n lits).map .redFadd
  | 6 => (RedF.dec n lits).map .redAnd
  | 7 => (RedF.dec n lits).map .redOr
  | _ => none

/-- Major 0x34. -/
def cand34 (n : Nat) (lits : List Word) : Option Instr :=
  match fld n 22 3 with
  | 0 => (BarS.dec n lits).map .binit
  | 1 => (BarS.dec n lits).map .bexpect
  | 2 => (BarD.dec n lits).map .barrive
  | 3 => (BwaitF.dec n lits).map .bwait
  | 4 => (BarD.dec n lits).map .btry
  | 5 => (BinvF.dec n lits).map .binval
  | 6 => (BarS.dec n lits).map .binitForce
  | _ => none

/-- Major 0x35. -/
def cand35 (n : Nat) (lits : List Word) : Option Instr :=
  match fld n 22 3 with
  | 0 => (FenceF.dec n lits).map .fence
  | 1 => (ShadowF.dec n lits).map .shadow
  | 2 => (PubF.dec n lits).map .publish
  | 3 => (DiscF.dec n lits).map .discard
  | 4 => (MflushF.dec n lits).map .mflush
  | 5 => (C0.dec n lits).map .cdone
  | 6 => (CwaitF.dec n lits).map .cwait
  | _ => none

/-- Major 0x36. -/
def cand36 (n : Nat) (lits : List Word) : Option Instr :=
  match fld n 22 3 with
  | 0 => (BraF.dec n lits).map .bra
  | 1 => (BrcF.dec n lits).map .brc
  | 2 => (BraF.dec n lits).map .call
  | 3 => (BrvF.dec n lits).map .brv
  | _ => none

/-- Major 0x37. -/
def cand37 (n : Nat) (lits : List Word) : Option Instr :=
  match fld n 22 3 with
  | 0 => (BrmF.dec n lits).map .brm
  | _ => none

/-- Major 0x38. -/
def cand38 (n : Nat) (lits : List Word) : Option Instr :=
  match fld n 22 3 with
  | 0 => (C0.dec n lits).map .ret
  | 1 => (JoutF.dec n lits).map .jout
  | 2 => (ElectF.dec n lits).map .elect
  | 3 => (C0.dec n lits).map .yield
  | 4 => (NapF.dec n lits).map .nap
  | 5 => (C0.dec n lits).map .tail
  | 6 => (C0.dec n lits).map .exit
  | 7 => (C0.dec n lits).map .evret
  | _ => none

/-- Major 0x39. -/
def cand39 (n : Nat) (lits : List Word) : Option Instr :=
  match fld n 22 3 with
  | 0 => (NapF.dec n lits).map .evon
  | _ => none

/-- Major 0x3C. -/
def cand3C (n : Nat) (lits : List Word) : Option Instr :=
  match fld n 16 9 with
  | 1 => (MloadbF.dec n lits).map .mloadb
  | 2 => (MmaF.dec n lits).map .mma
  | 3 => (MmagF.dec n lits).map .mmag
  | 4 => (MreadF.dec n lits).map .mread
  | 5 => (MzeroF.dec n lits).map .mzero
  | 6 => (McfgF.dec n lits).map .mcfg
  | _ => none

/-- Major 0x3D. -/
def cand3D (n : Nat) (lits : List Word) : Option Instr :=
  match fld n 16 9 with
  | 1 => (TcopyF.dec n lits).map .tcopy
  | 2 => (TcopyF.dec n lits).map .tstore
  | 3 => (XcopyF.dec n lits).map .xcopy
  | 4 => (HreadF.dec n lits).map .hread
  | 5 => (BatchF.dec n lits).map .batch
  | 6 => (WaitbF.dec n lits).map .waitb
  | 16 => (HstF.dec n lits).map .hst
  | 17 => (HldF.dec n lits).map .hld
  | 18 => (HldF.dec n lits).map .hldx
  | 19 => (HfwdF.dec n lits).map .hfwd
  | 20 => (HrecF.dec n lits).map .hrec
  | 21 => (HthrF.dec n lits).map .hthr
  | 22 => (HbiasF.dec n lits).map .hbias
  | _ => none

/-- Major 0x3E. -/
def cand3E (n : Nat) (lits : List Word) : Option Instr :=
  match fld n 16 9 with
  | 1 => (QuayF.dec n lits).map .qgath
  | 2 => (QuayF.dec n lits).map .qred
  | 3 => (QuayF.dec n lits).map .qcvt
  | 4 => (QuayF.dec n lits).map .qunpk
  | 5 => (QtlF.dec n lits).map .qtload
  | 16 => (NputF.dec n lits).map .nput
  | 17 => (NgetF.dec n lits).map .nget
  | 18 => (NatomF.dec n lits).map .natom
  | 19 => (BreqF.dec n lits).map .bopen
  | 20 => (BreqF.dec n lits).map .brevoke
  | 32 =>
    match fld n 8 1 with
    | 0 => (EnqF.dec n lits).map .enqL
    | 1 => (EnqF.dec n lits).map .enqQ
    | _ => none
  | 33 => (LaunchF.dec n lits).map .launch
  | _ => none

/-- Major 0x3F. -/
def cand3F (n : Nat) (lits : List Word) : Option Instr :=
  match fld n 16 9 with
  | 1 => (TrapF.dec n lits).map .trap
  | 2 =>
    match fld n 6 2 with
    | 0 => (RettF.dec n lits).map .rettResume
    | 1 => (RettF.dec n lits).map .rettSkip
    | 2 => (RettF.dec n lits).map .rettEnd
    | 3 => (RettF.dec n lits).map .rettFault
    | _ => none
  | 3 => (SwrF.dec n lits).map .swr
  | 4 => (SaveptF.dec n lits).map .savept
  | 5 => (ProbeF.dec n lits).map .probe
  | 6 =>
    match fld n 4 2 with
    | 0 => (TlbF.dec n lits).map .tlbinv
    | 2 => (TlbF.dec n lits).map .tlbinvR
    | 1 => (TlbF.dec n lits).map .tlbinvAbort
    | _ => none
  | 7 => (TrapF.dec n lits).map .brk
  | _ => none

/-- The instruction a word would be, read by major, then by FN or XOP, then by the bits that a few entries add (R108
to R117); reserved bits are checked by `decodeWord`. -/
def candidate (n : Nat) (lits : List Word) : Option Instr :=
  match fld n 25 6 with
  | 1 => cand01 n lits
  | 2 => cand02 n lits
  | 3 => cand03 n lits
  | 4 => cand04 n lits
  | 5 => cand05 n lits
  | 6 => cand06 n lits
  | 7 => cand07 n lits
  | 8 => (BmixF.dec n lits).map .bmix
  | 9 => (BmixF.dec n lits).map .bmix
  | 10 => (RI.dec n lits).map .movi
  | 11 => (RI.dec n lits).map .addi
  | 12 => (RI.dec n lits).map .andi
  | 13 => (RI.dec n lits).map .ori
  | 14 => (RI.dec n lits).map .xori
  | 15 => (ShliF.dec n lits).map .shli
  | 16 => cand10 n lits
  | 17 => cand11 n lits
  | 18 => cand12 n lits
  | 19 => cand13 n lits
  | 20 => cand14 n lits
  | 21 => cand15 n lits
  | 22 => (RQ.dec n lits).map .fma
  | 23 => (RQ.dec n lits).map .fmaRn
  | 24 => (RQ.dec n lits).map .fmaRz
  | 25 => (RQ.dec n lits).map .fmaRd
  | 26 => (RQ.dec n lits).map .fmaRu
  | 27 => (FmakF.dec n lits).map .fmak
  | 28 => (CvtF.dec n lits).map .cvt
  | 29 => cand1D n lits
  | 30 => (RI.dec n lits).map .faddi
  | 31 => (RI.dec n lits).map .fmuli
  | 32 => cand20 n lits
  | 40 => (LdF.dec n lits).map .ld
  | 41 => (StF.dec n lits).map .st
  | 42 => cand2A n lits
  | 43 => (LdF.dec n lits).map .lds
  | 44 => (StF.dec n lits).map .sts
  | 45 => cand2D n lits
  | 48 => cand30 n lits
  | 49 => cand31 n lits
  | 50 => cand32 n lits
  | 51 => cand33 n lits
  | 52 => cand34 n lits
  | 53 => cand35 n lits
  | 54 => cand36 n lits
  | 55 => cand37 n lits
  | 56 => cand38 n lits
  | 57 => cand39 n lits
  | 60 => cand3C n lits
  | 61 => cand3D n lits
  | 62 => cand3E n lits
  | 63 => cand3F n lits
  | _ => none

/-- Why a word is no instruction. Every one of them traps ILLEGAL, but a chained BRM, which traps CHAIN (R82, R101). -/
inductive DecodeError where
  | unassigned
  | badField
  | reservedBits
  | literalMissing
  | chainedBrm
deriving DecidableEq, Repr

/-- A BRM word with C = 1 (R101), whose other bits are those of an instruction. -/
def chainedBrm (w : Word) (i : Instr) : Bool :=
  fld w.toNat 25 6 == 55 && decide (2147483648 ≤ w.toNat) && i.head? == some (w.toNat - 2147483648)

/-- Decode an instruction word with the words that follow it (R82, R83). A word is an instruction only when it is the
very word `head?` gives it: so every reserved bit is 0. A chained BRM that breaks no other check is told apart (R87). -/
def decodeWord (w : Word) (lits : List Word) : Except DecodeError Instr :=
  match candidate w.toNat lits with
  | none => .error .unassigned
  | some i =>
    if !i.wellFormed then .error .badField
    else if i.head? ≠ some w.toNat ∧ chainedBrm w i = false then .error .reservedBits
    else if lits.take i.lits.length ≠ i.lits then .error .literalMissing
    else if i.head? ≠ some w.toNat then .error .chainedBrm
    else .ok i

/-- The words of an instruction: its instruction word and the literals it owns; an event has none. -/
def encode (i : Instr) : List Word :=
  match i.head? with
  | some n => BitVec.ofNat 32 n :: i.lits
  | none => []

/-- What the decoder reads from an instruction whose first word is w: the literal words are zeros (R83). -/
def decodeTableWord (nbits w : Nat) : Option Instr :=
  if nbits = 0 then none
  else
    match decodeWord (BitVec.ofNat 32 w) [0, 0, 0, 0] with
    | .ok i => some i
    | .error _ => none

end Sys2Proof
end

