-- ==== Sys2Proof/Config.lean ====
section
/-! DEFINITION. What the spec leaves to the implementation or does not state: free values. Each is an opaque constant,
so nothing proved about the machine rests on a value of it (DESIGN CHOICE, log 7, log 8). -/

namespace Sys2Proof.Config

open Sys2Proof

/-- Words that another device returns to a read or an atomic, by the count of Machine.netCount (R406; DESIGN CHOICE, log 7). -/
opaque netWord : Nat → Word

/-- How many proposals of a RED.ADD another device answers with a changed unit before one succeeds, by the count of
Machine.netCount (R406; DESIGN CHOICE, log 7). -/
opaque netRetries : Nat → Nat

/-- Whether another device refuses an operation, and if so whether it says REVOKED, by the count of Machine.netCount (R404, R406,
R408; DESIGN CHOICE, log 7). -/
opaque netRefusal : Nat → Option Bool

/-- The results of the approximate functions FRCP, FRSQ, FSQRT, FEXP2, FLOG2, FSIN and FCOS before the bounds of R146
are applied: function number 0 to 6 in the order of R111, and the operand (DESIGN CHOICE, log 7). -/
opaque approx : Nat → Word → Word

/-- Words of the device status page that the spec does not lay out, by offset (R241, DESIGN CHOICE, log 7). -/
opaque statusWord : Nat → Word

/-- The SM3 digest of a message (GB/T 32905, named but not defined by the spec), as 8 words (R439; DESIGN CHOICE, log 8). -/
opaque sm3 : List Byte → List Word

/-- The identity public key of a part, by its serial number and how many were generated (R435; DESIGN CHOICE, log 8). -/
opaque identityKey : List Byte → Nat → Nat

/-- The manufacturing key of a part, by its serial number (R437; DESIGN CHOICE, log 8). -/
opaque manufacturingKey : List Byte → Nat

/-- The public half of an SM2 key, 64 bytes (R437; DESIGN CHOICE, log 8). -/
opaque publicKey : Nat → List Byte

/-- Whether an SM2 signature over the SM3 digest of a message verifies under a public key (R434, R437; DESIGN CHOICE, log 8). -/
opaque verifies : List Byte → List Byte → List Byte → Bool

/-- The SM2 signature that the private half of a key makes over a digest, 64 bytes (R433, R436, R437; DESIGN CHOICE, log 8). -/
opaque signature : Nat → List Byte → List Byte

/-- The public parameters of the pilot key of a channel, by its association number (R436; DESIGN CHOICE, log 8). -/
opaque pilotParams : Nat → Nat → List Byte

end Sys2Proof.Config
end

