-- ==== Sys2Proof/Machine/State.lean ====
section
/-! DEFINITION. The state of the module as plain data: everything the spec gives the machine (INVENTORY.md, heading
State, names the rule of each piece), the reasons a step can stop, and the state after reset. -/

namespace Sys2Proof.Machine

open Sys2Proof

/-- A finite map as a list of key and value, keys strictly rising. -/
abbrev Map (α : Type) := List (Nat × α)

/-! ### Memory -/

/-- A 64-byte sector held by a cache: 16 words with residues, dirty bytes, the PRI recorded with its line (R224, R231), and in
an L1 the PRI that the levels below record for the line (R234). -/
structure Sector where
  words : List TWord
  dirty : BitVec 64
  pri : Nat
  low : Nat
deriving DecidableEq, Repr

/-- A cache: sectors by physical sector number (address div 64). -/
abbrev Cache := Map Sector

/-- The counters and timers of one DRAM bank or pseudo-channel are kept sparse: absent means 0. -/
structure Dram where
  /-- data bytes, unlisted bytes read 0 (R243). -/
  bytes : List Host.Cell
  /-- the 8 check bytes of a sector, unlisted 0: the code of the zero sector (R73). -/
  check : Map (BitVec 64)
  /-- activation counter of a row, by PA div 2^20 with bank and channel (R239). -/
  act : Map Nat
  /-- alert in service of a pseudo-channel: bank, row, rows still to refresh (R239, R240). -/
  alert : Map (Nat × Nat × List Nat)
  /-- alerts waiting, in the order in which they are served: clk of raising, pseudo-channel, bank, row (R240). -/
  alerts : List (Nat × Nat × Nat × Nat)
  /-- rows of the requests that wait for a bank in back-off, in order of arrival, by bank (R240). -/
  queued : Map (List Nat)
  /-- regular refreshes postponed, by bank (R442). -/
  postponed : Map Nat
  /-- clk of the last request of a pseudo-channel (R242). -/
  lastReq : Map Nat
  /-- pseudo-channels in self-refresh (R242). -/
  asleep : List Nat
deriving DecidableEq, Repr

/-- Memory-side caches with the directory, the die caches, and DRAM (R224 to R229). -/
structure Mem where
  dram : Dram
  msc : Cache
  /-- presence vector of a 256-byte line (R228). -/
  presence : Map (BitVec 12)
  die : Map Cache
  /-- the lines of a cache, most recently used first: by core, 1000 + die, 2000 + stack (R231). -/
  recent : Map (List Nat)
deriving DecidableEq, Repr

/-! ### Groups -/

/-- A per-lane register: tag, one word per lane, empty bit per lane (R49, R72, R92). -/
structure Reg where
  tag : BitVec 8
  lanes : List TWord
  empty : Mask
deriving DecidableEq, Repr

/-- KIND of a reconvergence stack entry (R181). -/
inductive EKind where
  | path | join | call | event
deriving DecidableEq, Repr

/-- Why a strand is parked (R188, R191). -/
inductive ParkWhy where
  /-- BWAIT on a barrier: block and offset (R215). -/
  | bwait (block off : Nat)
  /-- a BWAIT whose barrier was invalidated while it was parked: it runs again and traps BARINV (R213). -/
  | barinv
  | waitb
  | waitv
  | cwait
  /-- NAP, ready at that clk (R203). -/
  | nap (until_ : Nat)
  /-- TLBINV waiting for its effect on a target context: base, 64 KiB pages (0: all), 0 drop, 1 .R, 2 .ABORT (R298). -/
  | tlbinv (target base pages mode : Nat)
  /-- at a save point (R382). -/
  | savept
  /-- RETT until the trapped group has taken the mode (R383). -/
  | rett (target : Nat)
  /-- fetch fault at a virtual address (R86, R291). -/
  | fetch (va : Nat)
  /-- a parked read of a record, descriptor, entry or table (R336). -/
  | read (va : Nat)
  /-- the wait was abandoned or its fault resolved: the instruction runs again (R191). -/
  | again
  /-- the access at a virtual address failed when its fault was resolved by ABORT (R293). It runs again and traps. -/
  | bad (va : Nat)
deriving DecidableEq, Repr

/-- A parked instruction: why, the instruction, its address. `alone`: the rest of its chain has executed, the strand's PC
is past the chain, and the instruction runs again by itself; otherwise the whole chain runs again from the PC. -/
structure Park where
  why : ParkWhy
  instr : Instr
  pc : Nat
  alone : Bool
deriving DecidableEq, Repr

/-- An entry of the reconvergence stack (R181). pc is a byte address, rpc a packet index (none: all ones). `evno` of a PATH
is 1 until an event handler's first chain issues (R223). -/
structure Entry where
  sid : Nat
  kind : EKind
  pc : Nat
  mask : Mask
  out : Mask
  rpc : Option Nat
  evno : Nat
  park : Option Park
  /-- the last issue was held (R179, R188). -/
  held : Bool
  age : Nat
  /-- the entry was entered by branch and its target check is still to be made (R86). -/
  entered : Bool
deriving DecidableEq, Repr

/-- A long-latency producer in flight: destination run, lanes, the words to deliver per register, the tag (R179, R245). -/
structure Pending where
  slots : List Nat
  lanes : Mask
  words : List (List TWord)
  tag : BitVec 8
  /-- MREAD: delivered by MREAD_DATA_ARRIVAL, with the TFLAG it ORs into FPC (R316). -/
  mread : Option (BitVec 4)
  /-- lanes whose request is parked in a fault berth (R291). -/
  parked : Mask
  instr : Option Instr
  pc : Nat
  mask : Mask
  /-- FINJ as it strikes the producer, else 0 (R71). -/
  finj : BitVec 32
deriving DecidableEq, Repr

/-- An open or closed batch: number, EV, whether closed, members not yet complete, all members (R219). -/
structure Batch where
  num : Nat
  ev : Bool
  left : List Nat
  all : List Nat
deriving DecidableEq, Repr

/-- The operands a replayed chain reads in place of its registers (R374, R383): slot with words per lane, uniforms, tags. -/
structure Captured where
  slots : List (Nat × List TWord)
  uniforms : List TWord
  /-- tags of slots 0 to 4 of a frame (R374). -/
  tags : List (BitVec 8)
deriving DecidableEq, Repr

/-- A replay entry to execute (R383): its chain's address, mask and captured operands. -/
structure Replay where
  pc : Nat
  words : List Word
  mask : Mask
  sid : Nat
  cap : Captured
deriving DecidableEq, Repr

/-- Trap codes (R375). -/
inductive TrapCode where
  | illegal | priv | brtarget | chain | rchk | empty | format | domain | mask | spbound | page | prot | poison
  | barinv | lwait | revoked | align | stack | trapi | brk | unpack
deriving DecidableEq, Repr

/-- A trap with what its frame records (R374, R375): ADDR, INFO, CAUSE, and the lanes that met the condition (none: every
lane of the mask that is not a helper lane). -/
structure Trap where
  code : TrapCode
  addr : Nat := 0
  info : Nat := 0
  cause : Nat := 0
  lanes : Option Mask := none
deriving DecidableEq, Repr

/-- A chain being executed: its group, strand and mask, the words with their addresses, how many are done, the address
after it, captured operands of a replay, whether it is a replay entry (R88, R90, R383) or a waiting instruction that runs
again by itself (R191), and whether this pass only checks (an atomic of the chain performs nothing, R90). -/
structure Issue where
  grp : Nat
  sid : Nat
  mask : Mask
  pc : Nat
  words : List (Instr × Nat)
  raw : List Word
  pos : Nat
  next : Nat
  cap : Option Captured
  replay : Bool
  alone : Bool
  dry : Bool
  /-- lanes to which a replay restricts the word of the chain that had failing lanes (R90, R256). -/
  only : Option Mask := none
  /-- ages of the group and the strand when the chain was selected: a chain that is held or waits has not issued (R190). -/
  ages : Nat × Nat := (0, 0)
deriving DecidableEq, Repr

/-- A trap that waits for a free lighter frame: the trap, the chain to replay with its mask, chain position, pipe, PC and strand
(R350, R373). -/
structure TrapWait where
  trap : Trap
  chain : Option (Issue × Mask)
  pos : Nat
  pipe : Nat
  pc : Nat
  sid : Nat
deriving DecidableEq, Repr

inductive GStatus where
  | live
  /-- TRAPPED with its frame at a physical address (R373). -/
  | trapped (frame : Nat)
  /-- saved with its block, or stopped by a context that enters FAULTED. -/
  | saved
  | retired
deriving DecidableEq, Repr

/-- What makes a group a lighter (R347): its read, burst index, place. -/
structure Lighter where
  cmd : Nat
  burst : Nat
  place : Nat
  group : Nat
deriving DecidableEq, Repr

/-- The event state of a group (R222, R206, R215). -/
structure Events where
  enable : BitVec 6
  pend : BitVec 6
  svc : Option Nat
  info : BitVec 19
  /-- INFO per event number of pending events. -/
  infos : List (BitVec 19)
  /-- EV_BARRIER arming: block and offset. -/
  arm : Option (Nat × Nat)
  /-- scope of the BTRY that armed it last (R283). -/
  armScope : Scope := .group
  /-- scope of the arming of the pending EV_BARRIER: the widest when several are one pending event (R221, R283). -/
  pendScope : Scope := .group
deriving DecidableEq, Repr

/-- A group or a lighter (R166, R175, R347). Per-lane registers are held by operand name: 0-55 V, 56-59 X, 60-61 L. -/
structure Group where
  ctx : Nat
  grid : Nat
  block : Nat
  gid : Nat
  width : Nat
  nregs : Nat
  core : Nat
  slot : Nat
  /-- lane offset of the group in its slot (R176). -/
  offset : Nat
  image : Nat
  regs : List Reg
  p : List Mask
  g : List TWord
  fpc : BitVec 32
  domctl : BitVec 32
  finj : BitVec 32
  ht : List TWord
  evec : BitVec 32
  deadline : BitVec 32
  clockHi : Word
  matcfg : BitVec 32
  ev : Events
  stack : List Entry
  nextSid : Nat
  helper : Mask
  age : Nat
  pending : Map Pending
  lastb : BitVec 16
  open_ : List Batch
  members : List Nat
  status : GStatus
  /-- the strand whose trap is in the frame (R373, R383). -/
  trapSid : Nat
  /-- a trap of a lighter that waits for a free frame (R350). -/
  waitTrap : Option TrapWait
  replay : List Replay
  /-- fences that the group's next memory instruction waits for: scope, release, acquire (R257). -/
  fences : List (Scope × Bool × Bool) := []
  lighter : Option Lighter
deriving DecidableEq, Repr

/-! ### Grids, blocks, commands -/

inductive GridState where
  | queued | waiting | starting | running | draining | done | failed
deriving DecidableEq, Repr

/-- A grid (R162, R167): its record words, the code header, the bank image and the uniform image as read at STARTING. -/
structure Grid where
  ctx : Nat
  queue : Nat
  entry : Nat
  order : Nat
  state : GridState
  record : List TWord
  header : List TWord
  bank : List TWord
  uni : List TWord
  next : Nat
  gangs : Nat
  retired : Nat
  refused : Bool
  depOk : Bool
  /-- the page fault the distributor waits for: context and address of the page, and its own address (R167). -/
  waits : Option (Nat × Nat × Nat)
  /-- the address whose fault was resolved by TLBINV.ABORT (R167, R293). -/
  abortedVa : Option Nat
  /-- a failure that waits for the write of its header: its code (R168). -/
  failing : Option Nat
  /-- refusals whose header is still to be written (R167, R173). -/
  refusing : Nat
  /-- replay: gang boundaries and PLACE of the grid's LAUNCH entry (R440). -/
  plan : List Word := []
  /-- recording: the record and the digests of a LAUNCH entry that is still to be appended; the cores of the gangs placed, block by
  block (R439). -/
  logHead : List Word := []
  placed : List (List (List Nat)) := []
deriving DecidableEq, Repr

/-- An accumulator tile: words (row by row, sparse: absent is 0 with residue 0), tag, sticky flags NV OF UF NX (R299). -/
structure Tile where
  words : Map TWord
  tag : BitVec 8
  tflag : BitVec 4
deriving DecidableEq, Repr

/-- A B-store slot: the image's words by number (absent is 0), tag (R299, R313). -/
structure BSlot where
  words : Map TWord
  tag : BitVec 8
deriving DecidableEq, Repr

inductive BlockState where
  | live | saving | saved | retired
deriving DecidableEq, Repr

/-- A block (R164, R226): cores in its order, scratchpad by word number (absent words are wiped). -/
structure Block where
  ctx : Nat
  grid : Nat
  index : Nat
  gang : Nat
  gangSize : Nat
  inGang : Nat
  die : Nat
  cores : List Nat
  scratch : Nat
  spad : Map TWord
  image : Nat
  state : BlockState
  /-- lighter frames in use: number and lighter (R369). -/
  lframes : Map Nat
  /-- saved: tiles and slots of its engines by core number, its bursts that wait in berths, its retirement-tracker work
  (R193, R311, R372). -/
  engines : Map (Map Tile × Map BSlot)
  bursts : List (Nat × Nat × List TWord)
  tracks : List (List Nat)
deriving DecidableEq, Repr

inductive CmdKind where
  | tcopy | tstore | xcopy | hread | qgath | qred | qcvt | qunpk | qtload | nput | nget | natom | buoy
  /-- an entry of ENQ.Q with a KIND that names no quay command (R388, R393). -/
  | bad
deriving DecidableEq, Repr

/-- QSTATE (R388), with the suspensions by fault and by save told apart. -/
inductive QState where
  | pending | running | suspended | stopped | done
deriving DecidableEq, Repr

/-- A command of an engine queue with its operands as read at issue (R336, R354, R388, R412). (DESIGN CHOICE, log 13) -/
structure Cmd where
  kind : CmdKind
  ctx : Nat
  group : Nat
  block : Nat
  queue : Nat
  entry : Nat
  batch : Nat
  state : QState
  /-- the named barrier: block and offset (R211, R388), and whether completion is one arrival on it. -/
  barrier : Option (Nat × Nat)
  arrive : Bool
  orphan : Bool
  /-- records as read at issue: destination first. -/
  recs : List (List TWord)
  /-- uniform operands as read at issue, by the command's own order. -/
  ops : List Word
  /-- register run of XCOPY as read at issue, with tags. -/
  run : List (BitVec 8 × List TWord)
  shadow : Option Nat
  /-- sectors, lines or bursts done. -/
  sectors : List Nat
  /-- bursts requested and not returned; bursts retired; order of birth (R346). -/
  asked : List Nat
  retired : List Nat
  births : List Nat
  /-- unpacker state: table state, bit offset, output bytes (R362); for HREAD the next burst to request (R346), first. -/
  unp : Nat × Nat × Nat
  /-- completion status: code, REASON, SATCNT, word 2, BYTES (R337, R360). -/
  code : Nat
  reason : Nat
  count : Nat
  poisoned : Nat
  bytes : Nat
  reported : Bool
  errMark : Bool
  /-- issued before the handle's PUBLISH (R258). -/
  prior : Bool
  /-- the page whose fault suspends the command: context, address, ACCESS (R296). -/
  fault : Option (Nat × Nat × Nat)
  /-- the quay engine that runs the command, from 1, four to a stack; 0: none (R16, R352). -/
  engine : Nat := 0
  /-- bursts of a read to request again, once a burst berth is free (R346). -/
  again : List Nat := []
  /-- arrival of the bursts that wait in berths: burst and a rising number (R346, R351). -/
  arrivals : List (Nat × Nat) := []
  /-- the unpack table as a QUNPK found it at its first symbol (R361). -/
  table : List Word := []
  /-- sectors that its group has stored to since its issue: a drop by LASTUSE leaves them (R233). -/
  later : List Nat := []
deriving DecidableEq, Repr

/-! ### Contexts -/

inductive CtxState where
  | created | loading | running | yielding | saved | faulted | killed | wiped
deriving DecidableEq, Repr

/-- Residency handle states (R235). -/
inductive HState where
  | free | active | demoted
deriving DecidableEq, Repr

structure Handle where
  state : HState
  lo : Nat
  hi : Nat
  pri : Nat
  order : Nat
deriving DecidableEq, Repr

/-- Shadow handle states (R258). -/
inductive ShState where
  | free | open_ | publishing | broken | draining
deriving DecidableEq, Repr

/-- A shadow: footprint byte ranges, pages taken with frame and the leaf's ADDR then, and the producer that
waits for its status: group and pending result (R258, R259, R295). Its writers are the commands that name it. -/
structure Shadow where
  state : ShState
  foot : List (Nat × Nat)
  pages : List (Nat × Nat × Nat)
  waiter : Option (Nat × Nat)
deriving DecidableEq, Repr

/-- A request parked in a fault berth (R291): group, access kind, page, and how it goes on when the fault is resolved. -/
structure Parked where
  core : Nat
  group : Nat
  ctx : Nat
  va : Nat
  /-- ACCESS of R292: 0 read, 1 write, 2 atomic, 3 fetch. -/
  access : Nat
  /-- the address as the lane gave it: it differs from `va` when the page of an exporting context faulted (R404). -/
  ova : Nat
  /-- the walk or the store: the instruction with its captured address and data per lane. -/
  lane : Nat
  words : List TWord
  size : Nat
  instr : Option Instr
  slots : List Nat
  pendingId : Nat
  /-- resolve count sampled when the walk started (R294). -/
  count : Nat
  /-- waits for a berth: all 512 of the core are taken. -/
  waiting : Bool
  /-- requested and not yet performed: a CDONE's OR (R173). It is in no berth. -/
  flight : Bool
  /-- SOURCE of the fault-queue entry that is due when it parks (R292). -/
  source : Nat := 0
  /-- the access carried LU; sectors that its group has stored to since, which its drop leaves (R233). -/
  lu : Bool := false
  later : List Nat := []
deriving DecidableEq, Repr

/-- A context: its context record (R365) and what the device keeps for it (R234, R258, R292 to R294, R369 to R377).
fqWait, tqWait and logWait hold the words of ring entries that wait for room. -/
structure Ctx where
  owner : Nat
  state : CtxState
  priv : Bool
  buoy : Bool
  debug : Bool
  super : Nat
  ptRoot : Nat
  saveBase : Nat
  ngimg : Nat
  nbimg : Nat
  fqBase : Nat
  fqSize : Nat
  tqBase : Nat
  tqSize : Nat
  shPool : Nat
  shSize : Nat
  statusVa : Nat
  deadline : Nat
  bimgOff : Nat
  qdBase : Nat
  resolve : Nat
  handles : Map Handle
  shadows : Map Shadow
  fqSeq : Nat
  tqSeq : Nat
  logSeq : Nat
  /-- replay: inputs compared with the log so far (R440). -/
  logIn : Nat
  fqWait : List (List Word)
  tqWait : List (List Word)
  logWait : List (List Word)
  /-- faults already reported: page and kind (R292). -/
  reported : List (Nat × Nat)
  preq : Bool
  preqAt : Nat
  gimgs : List Nat
  bimgs : List Nat
  /-- engine queues whose buoy returned (R377, R392); engines quiet. -/
  buoyed : List Nat
  quiet : Bool
  /-- clk since which the head of a launch queue waits (R390). -/
  headSince : Map Nat
  /-- priority gained by a launch queue whose head waits (R390). -/
  boost : Map Nat
  /-- replay: LAUNCH entries of the log taken so far (R440). -/
  logTaken : Nat
  /-- replay: BURSTS entries used up so far, by queue entry address (R440). -/
  logBorn : Map Nat := []
  /-- retired entries above PROGRESS, by queue (R387). -/
  retiredAbove : Map (List Nat)
  /-- supervisor mode recorded for a frame while the context did not run (R383): group and mode. -/
  modes : Map Nat
  /-- TLBINV effects on its requests that wait for the context's restore (R298): base, pages, mode, in order. -/
  tlbDue : List (Nat × Nat × Nat)
  /-- EV_REVOKE to raise at restore: berth (R409). -/
  revokes : List Nat
  wiping : Bool
deriving DecidableEq, Repr

/-! ### Cores, matrix engines -/

/-- One product of a queue entry: tile, slot, first accumulator row, stream rows M, HD, the A rows that are fed, the words
of their scale records, and the survival word (R305, R314, R315). -/
structure MatPart where
  tile : Nat
  slot : Nat
  m0 : Nat
  rows : Nat
  hd : Nat
  a : List (List TWord)
  scales : List (List TWord)
  surv : TWord
deriving DecidableEq, Repr

/-- A queue entry of the matrix engine with its scratchpad operands as read at issue (R310): a B image with its scale image
for Q4; the product of an MMA or those of an MMAG, with configuration and SAT; a row read, with the pending result of its
group; a zeroed tile. -/
inductive MatEntry where
  | loadB (slot : Nat) (tag : BitVec 8) (image : List TWord) (scale : Option (List TWord))
  | mma (parts : List MatPart) (cfg : BitVec 32) (sat : Bool)
  | mread (grp pend : Nat)
  | mzero (tile : Nat)
deriving DecidableEq, Repr

/-- A cached translation: context, level, virtual base of what the entry covers, the entry (R290). -/
structure TlbEntry where
  ctx : Nat
  level : Nat
  base : Nat
  entry : BitVec 64
deriving DecidableEq, Repr

/-- A core (R176, R224, R291, R344). -/
structure Core where
  l1 : Cache
  /-- instruction-cache lines: context and line number with its words (R81). -/
  icache : List (Nat × Nat × List Word)
  /-- cached layout records: context, address, words (R237). -/
  records : List (Nat × Nat × List TWord)
  /-- slots reserved for lighters, by grid (R176). -/
  reserved : Map (List Nat)
  /-- retirement tracker entries: owning block and the work under it: command ids and parked requests (R193). -/
  tracker : Map (Nat × List Nat)
  claim : Option Nat
  tiles : Map Tile
  bslots : Map BSlot
  queue : List MatEntry
  /-- bursts waiting for a place, in order of arrival: command, burst index, words (R346). -/
  berths : List (Nat × Nat × List TWord)
  /-- open HREADs (R344). -/
  hreads : List Nat
deriving DecidableEq, Repr

/-! ### Ring, link, management -/

/-- A flit in a stop's buffer: its 80 bytes, the failed sends over its link, whether it waits to be sent again, the
destination stop, and its place in a packet: packet, index (0 the header), data flits of the packet (R394 to R397). -/
structure Flit where
  bytes : List Byte
  fails : Nat
  resend : Bool
  dest : Nat
  pkt : Nat
  index : Nat
  len : Nat
deriving DecidableEq, Repr

/-- A packet to send: destination stop, owner, kind, address, byte masks, operand, data sectors with residues (R395). -/
structure Packet where
  src : Nat
  dest : Nat
  owner : Nat
  kind : Nat
  addr : Nat
  masks : List (BitVec 64)
  operand : BitVec 128
  data : List (List TWord)
  /-- stored bytes and check bytes of a sector that comes from DRAM, one for each data flit (R77). -/
  raw : List (List Byte × List Nat) := []
deriving DecidableEq, Repr

/-- The hawser ring (R394 to R397): packets waiting per stop, buffers per stop and direction, sequence numbers, failed
links, packets delivered. -/
structure Ring where
  waiting : Map (List Packet)
  /-- key 2 * stop + direction (0 rising, 1 falling): flits that the next stop has not acknowledged. -/
  links : Map (List Flit)
  seq : Map Nat
  failed : List Nat
  /-- the packet whose later flits are still to follow those that went on over a link (R394). -/
  passing : Map Nat := []
  /-- flits of packets that are not whole yet, by packet and index. -/
  parts : Map (Map (List Byte))
  /-- stop, header and decoded sectors of packets delivered. -/
  arrived : List (Nat × List Byte × List (List TWord))
deriving DecidableEq, Repr

/-- A pilot key of a channel as its receiver keeps it: association number, next packet number, packet numbers seen in the
replay window (R399). -/
structure Pilot where
  an : Nat
  pn : Nat
  seen : List Nat
deriving DecidableEq, Repr

/-- An owner's channel on a port (R399, R410): its key, the old key while it is still accepted, the replay window, closed. -/
structure Channel where
  key : Pilot
  old : Option Pilot
  window : Nat
  closed : Bool
  /-- a frame has come under the new key; messages sent before the new key was installed (R399). -/
  seenNew : Bool := false
  sentAt : Nat := 0
deriving DecidableEq, Repr

/-- Counters of an owner on a port (R410). -/
structure Counters where
  dropped : Nat
  icv : Nat
  refused : Nat
  closures : Nat
deriving DecidableEq, Repr

/-- Berth states (R403). -/
inductive BState where
  | free | opened | revoking | stale
deriving DecidableEq, Repr

/-- A berth record (R401) with the state of its revocation and shadow (R405, R407). -/
structure Berth where
  base : Nat
  size : Nat
  owner : Nat
  import_ : Bool
  shadowed : Bool
  perm : BitVec 3
  state : BState
  ctx : Nat
  peers : BitVec 16
  gen : Nat
  path : Nat
  rid : Nat
  rkey : Word
  retired : Bool
  /-- a revocation in progress: CLOSE, request block context and address, old key, in force. -/
  revoke : Option (Bool × Nat × Nat × Word × Bool)
  /-- the shadow of the whole window, while it holds unpublished writes (R405). -/
  shadow : Option Shadow
  /-- queue pairs that carried an accepted operation since the last notice (R407). -/
  used : List Nat
deriving DecidableEq, Repr

/-- A path (R402): owner, port, usable. -/
structure Path where
  owner : Nat
  port : Nat
  usable : Bool
deriving DecidableEq, Repr

/-- What a queue pair is for (R400). -/
inductive QpUse where
  | launch (ctx : Nat)
  | management
  | peer
deriving DecidableEq, Repr

structure QueuePair where
  owner : Nat
  port : Nat
  use : QpUse
deriving DecidableEq, Repr

/-- A BOPEN or BREVOKE passed to the harbour master (R415): context, block address, open or revoke, request words. -/
structure HmReq where
  ctx : Nat
  addr : Nat
  open_ : Bool
  words : List Word
deriving DecidableEq, Repr

/-- The life-cycle state (R435). -/
inductive Lcs where
  | manufacture | provisioned | deployed | debug | retired
deriving DecidableEq, Repr

/-- The failure report (R433): its fields, the key that signs it (1 identity, 2 manufacturing) and the signature. -/
structure Report where
  step : Nat
  lcs : Lcs
  unit : UnitKind
  number : Nat
  detail : Word
  boots : Nat
  digest : List Byte
  sigKey : Nat
  sig : List Byte
deriving DecidableEq, Repr

/-- Answers on the management port (R430, R432, R433, R435, R437). -/
inductive MgmtMsg where
  | busy | hold | ready | ok | denied | badCert
  | report (r : Report)
  | certificate (bytes : List Byte)
  /-- part serial number, identity key, signature. -/
  | certRequest (serial : List Byte) (key : Nat) (sig : List Byte)
  /-- part serial number, life-cycle state, manufacturing key, signature. -/
  | identity (serial : List Byte) (lcs : Lcs) (key : Nat) (sig : List Byte)
deriving DecidableEq, Repr

/-- What the network engine and the harbour master send on Ethernet (R389, R400, R404, R405, R407, R436). -/
inductive NetMsg where
  /-- the answer to an owner's request, on its management endpoint's queue pair. -/
  | status (qp : Nat) (code : Nat)
  /-- the attestation report and its signature, on the endpoint the request came to. -/
  | attestation (qp : Nat) (bytes : List Byte)
  /-- a congestion notification for a marked frame (R398). -/
  | cnp (qp : Nat)
  | ack (qp : Nat)
  | nakInvalid (qp : Nat)
  | nakAccess (qp : Nat)
  | nakRevoked (qp : Nat)
  | rnr (qp : Nat)
  | readData (qp : Nat) (data : List Byte)
  | atomicOld (qp : Nat) (old : BitVec 64)
  | notice (qp : Nat) (key : Word)
  /-- an operation on a window of another device: 0 read, 1 write, 2 fetch and add, 3 compare and swap, 4 publishing write. -/
  | rdma (path op : Nat) (rkey : Word) (offset len : Nat) (data : List TWord)
  /-- one write of the bytes of a sector that a mask names, from the sector's offset (R236). -/
  | rdmaSector (path : Nat) (rkey : Word) (offset : Nat) (bytes : BitVec 64) (data : List TWord)
deriving DecidableEq, Repr

/-- Bring-up (R430, R432): off, the steps done so far, safe hold, ready. -/
inductive Bring where
  | off
  | steps (done : Nat)
  | hold
  | ready
deriving DecidableEq, Repr

/-- Fuses and flash of the management domain (R433, R434, R435, R437): they survive reset and power loss. -/
structure Fuses where
  lcs : Lcs
  change : Option Lcs
  rollback : Nat
  boots : Nat
  serial : List Byte
  identity : Option Nat
  operator : Option Nat
  certificate : Option (List Byte)
  /-- the vendor's public key (R434, R437). -/
  vendor : List Byte := List.replicate 64 0
deriving DecidableEq, Repr

/-- Counts of corrected and uncorrectable storage errors, by kind and die (R72). -/
structure ErrCount where
  kind : Nat
  die : Nat
  corrected : Nat
  uncorrectable : Nat
deriving DecidableEq, Repr

/-! ### The machine -/

/-- Everything the spec gives the module. -/
structure Machine where
  bring : Bring
  fuses : Fuses
  digest : List Byte
  report : Option Report
  mgmtOut : List MgmtMsg
  /-- power domains up, 0 management, 1 memory and ring, 2 network; and compute dies in reset (R27, R28). -/
  domains : List Nat
  dieReset : List Nat
  /-- dies on which the distributor places nothing (R28). -/
  diesClosed : List Nat
  supplyLost : Bool
  throttled : Bool
  clock : Nat
  thr : Map Nat
  owners : List Nat
  chans : Map Channel
  counters : Map Counters
  qps : Map QueuePair
  paths : Map Path
  portLost : List Nat
  shared : List (Nat × Nat)
  errs : List ErrCount
  berths : Map Berth
  hmReqs : List HmReq
  netOut : List NetMsg
  ctxs : Map Ctx
  grids : Map Grid
  blocks : Map Block
  groups : Map Group
  cmds : Map Cmd
  cores : Map Core
  parked : Map Parked
  mem : Mem
  /-- translation caches, by core, or 1000 and the engine code for an engine (R290). -/
  tlb : Map (List TlbEntry)
  ring : Ring
  nextId : Nat
  /-- how many words another device has returned: their values are free (DESIGN CHOICE, log 7). -/
  netCount : Nat
  /-- round-robin position of the distributor over contexts (R391). -/
  robin : Nat
  /-- clk at which EV_TIMER was last raised (R221). -/
  timerAt : Nat
  /-- placements of recorded grids, by the number that PLACE holds: per gang and block its cores (R439). The part keeps them over
  resets, as it keeps its fuses, so that a log stays good for it (DESIGN CHOICE, log 50). -/
  placements : Map (List (List (List Nat))) := []
deriving DecidableEq, Repr

/-- A step of another agent that is to come: the event and its operands (DESIGN CHOICE, log 1). -/
structure Input where
  event : Instr
  arg : Arg
deriving DecidableEq, Repr

/-- The state: the machine; the chain being executed and the machine as that chain reads it (R90); the operands of the
event being taken and the events to come (the model's own input, DESIGN CHOICE, log 1). -/
structure State where
  cur : Machine
  issue : Option Issue
  pre : Option Machine
  input : Arg
  agenda : List Input
deriving DecidableEq, Repr

/-- Why a step stops with a fault. -/
inductive Fault where
  /-- An instruction word was executed while no strand issues it: raised by the meanings of instruction words only, and
  never reached by `step`. Safe: no step goes on. -/
  | noIssue
deriving DecidableEq, Repr

/-- Why an instruction has no meaning. -/
inductive Refusal where
  /-- The instruction has no meaning in this model: raised by an arm of `exec`. Safe: no step goes on. -/
  | notModelled (mnemonic : String)
deriving DecidableEq, Repr

def Dram.empty : Dram :=
  { bytes := [], check := [], act := [], alert := [], alerts := [], queued := [], postponed := [], lastReq := [], asleep := [] }

def Mem.empty : Mem := { dram := Dram.empty, msc := [], presence := [], die := [], recent := [] }

def Ring.empty : Ring := { waiting := [], links := [], seq := [], failed := [], parts := [], arrived := [] }

def Core.empty : Core :=
  { l1 := [], icache := [], records := [], reserved := [], tracker := [], claim := none, tiles := [], bslots := [],
    queue := [], berths := [], hreads := [] }

/-- The fuses of a part as manufactured (DESIGN CHOICE, log 3). -/
def Fuses.blank : Fuses :=
  { lcs := .manufacture, change := none, rollback := 0, boots := 0, serial := List.replicate 16 0, identity := none,
    operator := none, certificate := none }

/-- The module with every volatile state as a device reset leaves it, before bring-up (R430): all domains in reset. (DESIGN CHOICE, log 3) -/
def Machine.afterReset (f : Fuses) : Machine :=
  { bring := .off, fuses := f, digest := [], report := none, mgmtOut := [], domains := [],
    dieReset := List.range 12, diesClosed := [], supplyLost := false, throttled := false, clock := 0, thr := [],
    owners := [], chans := [], counters := [], qps := [], paths := [], portLost := [], shared := [], errs := [],
    berths := [], hmReqs := [], netOut := [], ctxs := [], grids := [], blocks := [], groups := [], cmds := [],
    cores := [], parked := [], mem := Mem.empty, tlb := [], ring := Ring.empty, nextId := 0, netCount := 0, robin := 0, timerAt := 0 }

/-- The machine right after reset: bring-up not begun (R430), the fuses as DESIGN CHOICE, log 3 names them. -/
def State.reset : State :=
  { cur := Machine.afterReset Fuses.blank, issue := none, pre := none, input := .none, agenda := [] }

end Sys2Proof.Machine
end

