-- ==== Sys2Proof/Machine/Base.lean ====
section
/-! DEFINITION. Helpers the whole machine uses: finite maps, bit masks over lanes, words and bytes. -/

namespace Sys2Proof.Machine

open Sys2Proof

/-! ### Maps: lists with keys strictly rising -/

def Map.get {α : Type} (m : Map α) (k : Nat) : Option α :=
  match m with
  | [] => none
  | (j, a) :: r => if j = k then some a else Map.get r k

def Map.getD {α : Type} (m : Map α) (k : Nat) (d : α) : α := (Map.get m k).getD d

/-- Insert or replace, keys kept rising. -/
def Map.set {α : Type} (m : Map α) (k : Nat) (a : α) : Map α :=
  match m with
  | [] => [(k, a)]
  | (j, b) :: r => if k < j then (k, a) :: (j, b) :: r else if k = j then (k, a) :: r else (j, b) :: Map.set r k a

def Map.del {α : Type} (m : Map α) (k : Nat) : Map α := m.filter (fun e => e.1 != k)

def Map.keys {α : Type} (m : Map α) : List Nat := m.map (·.1)

/-- Apply to the entry at k when there is one. -/
def Map.upd {α : Type} (m : Map α) (k : Nat) (f : α → α) : Map α :=
  match Map.get m k with
  | some a => Map.set m k (f a)
  | none => m

def Map.has {α : Type} (m : Map α) (k : Nat) : Bool := (Map.get m k).isSome

/-- Store a value that unlisted keys read as d: writing d removes the entry. -/
def Map.put {α : Type} [DecidableEq α] (m : Map α) (k : Nat) (a d : α) : Map α :=
  if a = d then Map.del m k else Map.set m k a

/-- Keys strictly rising from a bound. -/
def Map.risingFrom {α : Type} : Nat → Map α → Bool
  | _, [] => true
  | b, (k, _) :: r => decide (b ≤ k) && Map.risingFrom (k + 1) r

def Map.rising {α : Type} (m : Map α) : Bool := Map.risingFrom 0 m

/-! ### Lists of registers and words -/

def listSet {α : Type} (l : List α) (n : Nat) (a : α) : List α := l.set n a

def wordAt (l : List TWord) (n : Nat) : TWord := l.getD n TWord.zero

/-! ### Lane masks -/

def lane (m : Mask) (l : Nat) : Bool := m.getLsbD l

def laneBit (l : Nat) : Mask := BitVec.ofNat 128 (2 ^ l)

/-- The mask of the first w lanes. -/
def widthMask (w : Nat) : Mask := BitVec.ofNat 128 (2 ^ w - 1)

/-- The lanes of a mask, ascending. -/
def lanesOf (m : Mask) : List Nat := (List.range 128).filter (lane m)

def maskOf (ls : List Nat) : Mask := BitVec.ofNat 128 (ls.foldl (fun a l => a ||| 2 ^ l) 0)

/-- The lanes below w for which f holds. -/
def maskWhere (w : Nat) (f : Nat → Bool) : Mask := maskOf ((List.range w).filter f)

/-! ### Words and bytes -/

/-- The n bytes of a number, little-endian (R5). -/
def bytesOf (n v : Nat) : List Byte := (List.range n).map fun i => BitVec.ofNat 8 (v / 256 ^ i)

/-- The number of a list of bytes, little-endian (R5). -/
def natOfBytes : List Byte → Nat
  | [] => 0
  | b :: r => b.toNat + 256 * natOfBytes r

def wordBytes (w : Word) : List Byte := bytesOf 4 w.toNat

/-- Byte k of a word. -/
def byteOf (w : Word) (k : Nat) : Byte := BitVec.ofNat 8 (w.toNat / 256 ^ k)

def wordOfBytes (b : List Byte) : Word := BitVec.ofNat 32 (natOfBytes b)

/-- Bits [hi:lo] as a number. -/
def bits (v hi lo : Nat) : Nat := v / 2 ^ lo % 2 ^ (hi + 1 - lo)

/-- A number read as a signed value of n bits. -/
def sext (n v : Nat) : Int :=
  let u := v % 2 ^ n
  if u < 2 ^ (n - 1) then (u : Int) else (u : Int) - (2 ^ n : Nat)

/-- The word of an integer, modulo 2^32. -/
def wordOfInt (i : Int) : Word := BitVec.ofInt 32 i

def ceilDiv (a b : Nat) : Nat := (a + b - 1) / b

/-- Replace bytes [k ..] of a word. -/
def wordSetByte (w : Word) (k : Nat) (b : Byte) : Word :=
  let v := w.toNat
  BitVec.ofNat 32 (v - (v / 256 ^ k % 256) * 256 ^ k + b.toNat * 256 ^ k)

/-- A byte stored into a word: the residue changes by the difference of the bytes; poison stays (R66). -/
def setWordByte (t : TWord) (k : Nat) (b : Byte) : TWord :=
  let r := if t.res = 15#4 then 15#4
    else BitVec.ofNat 4 ((t.res.toNat + 30 - (byteOf t.data k).toNat % 15 + b.toNat) % 15)
  { data := wordSetByte t.data k b, res := r }

/-- Merge the bytes of a word that a writer stored into the word that receives them (R272): whole words move with their
residue, single bytes by R66, and a poisoned source poisons. -/
def mergeWord (old new : TWord) (dirty : Nat → Bool) : TWord :=
  if dirty 0 && dirty 1 && dirty 2 && dirty 3 then new
  else
    let t := (List.range 4).foldl (fun a k => if dirty k then setWordByte a k (byteOf new.data k) else a) old
    if new.res = 15#4 && (dirty 0 || dirty 1 || dirty 2 || dirty 3) then { t with res := 15#4 } else t

/-- A 64-bit value as its two words, low word first (R5, R57). -/
def words64 (v : Nat) : List Word := [BitVec.ofNat 32 v, BitVec.ofNat 32 (v / 2 ^ 32)]

/-- The value of two words, low word first. -/
def nat64 (lo hi : Word) : Nat := lo.toNat + hi.toNat * 2 ^ 32

/-- sext(a, 64) added to a 64-bit base (R99). -/
def addr64 (base : Nat) (off : Word) (shift : Nat) : Nat :=
  ((base : Int) + off.toInt * (2 ^ shift : Nat)).emod (2 ^ 64 : Nat) |>.toNat

/-- Insert without repetition, ascending. -/
def insertNat (n : Nat) : List Nat → List Nat
  | [] => [n]
  | m :: r => if n < m then n :: m :: r else if n = m then m :: r else m :: insertNat n r

end Sys2Proof.Machine
end

