-- ==== Sys2Proof/Machine/Line.lean ====
section
/-! DEFINITION. The line code of DRAM sectors: the shortened Reed-Solomon code RS(88,80) of R73 to R75, and the CRC-32C
of the hawser ring (R395). -/

namespace Sys2Proof.Machine

open Sys2Proof

/-- Multiply by x in GF(2^8) with the field polynomial 0x11D (R73). -/
def gfX (a : Nat) : Nat := if a * 2 < 256 then a * 2 else (a * 2) ^^^ 0x11D

/-- Multiplication in the field. -/
def gfMul (a b : Nat) : Nat :=
  ((List.range 8).foldl (fun (s : Nat × Nat) i => (gfX s.1, if b.testBit i then s.2 ^^^ s.1 else s.2)) (a, 0)).2

/-- Powers of a field element. -/
def gfPow (a : Nat) : Nat → Nat
  | 0 => 1
  | n + 1 => gfMul (gfPow a n) a

/-- Inverse in the field: a^254. -/
def gfInv (a : Nat) : Nat :=
  let a2 := gfMul a a
  let a4 := gfMul a2 a2
  let a8 := gfMul a4 a4
  let a16 := gfMul a8 a8
  let a32 := gfMul a16 a16
  let a64 := gfMul a32 a32
  let a128 := gfMul a64 a64
  gfMul a2 (gfMul a4 (gfMul a8 (gfMul a16 (gfMul a32 (gfMul a64 a128)))))

/-- α^n, α = x. -/
def gfAlpha (n : Nat) : Nat := (List.range (n % 255)).foldl (fun a _ => gfX a) 1

/-- Value of a polynomial (lowest coefficient first) at a point. -/
def polyEval (p : List Nat) (x : Nat) : Nat := p.foldr (fun c a => gfMul a x ^^^ c) 0

def polyAdd : List Nat → List Nat → List Nat
  | [], q => q
  | p, [] => p
  | a :: p, b :: q => (a ^^^ b) :: polyAdd p q

def polyScale (c : Nat) (p : List Nat) : List Nat := p.map (gfMul c)

def polyMul : List Nat → List Nat → List Nat
  | [], _ => []
  | a :: p, q => polyAdd (polyScale a q) (0 :: polyMul p q)

/-- g(x) = (x - α^0)(x - α^1) ... (x - α^7) (R73). -/
def rsGen : List Nat := (List.range 8).foldl (fun g i => polyMul g [gfAlpha i, 1]) [1]

/-- One step of the division by g(x): the remainder, lowest coefficient first, takes the next message symbol. -/
def rsStep (rem : List Nat) (sym : Nat) : List Nat :=
  let top := rem.getD 7 0 ^^^ sym
  let shifted := 0 :: rem.take 7
  polyAdd shifted (polyScale top (rsGen.take 8))

/-- check(x) := m(x) x^8 mod g(x), for the message symbols of positions 8 to 87 (R74). -/
def rsCheck (msg : List Nat) : List Nat := (msg.reverse).foldl rsStep (List.replicate 8 0)

/-- The eight virtual residue bytes of a sector's residues (R73). -/
def residueBytes (res : List Nat) : List Nat :=
  (List.range 8).map fun v => res.getD (2 * v) 0 + 16 * res.getD (2 * v + 1) 0

/-- Positions 8 to 87 of a sector: reserved zeros, virtual residues, data (R73). -/
def rsMessage (data : List Byte) (resid : List Nat) : List Nat :=
  List.replicate 8 0 ++ resid ++ data.map (·.toNat)

/-- The check bytes of a sector as the controller encodes it (R74): residues as stored; for a poisoned word the residue
of its data, and virtual byte 0 inverted when `invert` and any word is poison. -/
def encodeSector (words : List TWord) (invert : Bool) : List Byte × List Nat :=
  let data := words.flatMap fun t => wordBytes t.data
  let res := words.map fun t => if t.poisoned then (resOf t.data).toNat else t.res.toNat
  let rb := residueBytes res
  let rb' := if invert && words.any (·.poisoned) then (rb.set 0 (rb.getD 0 0 ^^^ 255)) else rb
  (data, rsCheck (rsMessage data rb'))

/-- State of the Berlekamp-Massey iteration: C, B, L, m, b. -/
structure BmState where
  c : List Nat
  b : List Nat
  l : Nat
  m : Nat
  d : Nat
deriving DecidableEq, Repr

def bmStep (syn : List Nat) (s : BmState) (n : Nat) : BmState :=
  let d := (List.range (s.l + 1)).foldl (fun a i => a ^^^ gfMul (s.c.getD i 0) (syn.getD (n - i) 0)) 0
  if d = 0 then { s with m := s.m + 1 }
  else
    let c' := polyAdd s.c (List.replicate s.m 0 ++ polyScale (gfMul d (gfInv s.d)) s.b)
    if 2 * s.l ≤ n then { c := c', b := s.c, l := n + 1 - s.l, m := 1, d := d }
    else { s with c := c', m := s.m + 1 }

/-- What the decoder finds: no error, up to four errors with position and value, or more (R75). -/
inductive RsResult where
  | clean
  | errors (es : List (Nat × Nat))
  | failed
deriving DecidableEq, Repr

/-- Decode the 88 symbols with up to 4 symbol errors (R75). -/
def rsDecode (sym : List Nat) : RsResult :=
  let syn := (List.range 8).map fun j => polyEval sym (gfAlpha j)
  if syn.all (· == 0) then .clean
  else
    let s := (List.range 8).foldl (bmStep syn) { c := [1], b := [1], l := 0, m := 1, d := 1 }
    let pos := (List.range 88).filter fun i => polyEval s.c (gfInv (gfAlpha i)) == 0
    if s.l > 4 || pos.length != s.l then .failed
    else
      let omega := (polyMul syn s.c).take 8
      -- formal derivative: odd coefficients only
      let der := (List.range (s.c.length - 1)).map fun i => if i % 2 = 0 then s.c.getD (i + 1) 0 else 0
      let es := pos.map fun i =>
        let xi := gfInv (gfAlpha i)
        (i, gfMul (gfAlpha i) (gfMul (polyEval omega xi) (gfInv (polyEval der xi))))
      let fixed := es.foldl (fun (l : List Nat) e => l.set e.1 (l.getD e.1 0 ^^^ e.2)) sym
      if (List.range 8).all fun j => polyEval fixed (gfAlpha j) == 0 then .errors es else .failed

/-- Words of 64 data bytes with regenerated residues. -/
def sectorWords (data : List Byte) : List TWord :=
  (List.range 16).map fun k => TWord.of (wordOfBytes ((data.drop (4 * k)).take 4))

/-- Read a sector back from its 64 data and 8 check bytes (R75): the words, and whether it was corrected or poisoned. -/
inductive LineRead where
  | ok (words : List TWord)
  | corrected (words : List TWord)
  | poison (words : List TWord)
deriving DecidableEq, Repr

def decodeSector (data : List Byte) (check : List Nat) : LineRead :=
  -- the zero sector with zero check bytes is a code word (R243)
  if data.all (· == 0) && check.all (· == 0) then .ok (List.replicate 16 TWord.zero)
  else
  let words := sectorWords data
  let rb := residueBytes (words.map fun t => t.res.toNat)
  match rsDecode (check ++ rsMessage data rb) with
  | .clean => .ok words
  | .errors es =>
    if es.any fun e => decide (8 ≤ e.1) && decide (e.1 < 24) then .poison (words.map TWord.poison)
    else
      let data' := es.foldl
        (fun (d : List Byte) e => if e.1 < 24 then d else d.set (e.1 - 24) (d.getD (e.1 - 24) 0 ^^^ BitVec.ofNat 8 e.2)) data
      .corrected (sectorWords data')
  | .failed => .poison (words.map TWord.poison)

/-- The residue of a word is that of its data, or the word is poison. -/
def intact (t : TWord) : Bool := t.poisoned || t.good

/-- The words of a sector as the receiving stop of the ring decodes them: a residue that is not its data's is a virtual error, and every
word of the sector is poisoned; poisoned words travel in PMASK (R75, R77). (DEDUCED, log 71) -/
def crossed (ws : List TWord) : List TWord := if ws.all intact then ws else ws.map TWord.poison

/-- CRC-32C over bytes, polynomial 0x1EDC6F41 bit-reflected, initial and final value all ones (R395; PRESUMED, log 12). -/
def crcByte (crc : Nat) (b : Byte) : Nat :=
  (List.range 8).foldl (fun c _ => if c % 2 = 1 then (c / 2) ^^^ 0x82F63B78 else c / 2) (crc ^^^ b.toNat)

/-- PRESUMED, log 12. -/
def crc32c (bs : List Byte) : Nat := (bs.foldl crcByte 0xFFFFFFFF) ^^^ 0xFFFFFFFF

end Sys2Proof.Machine
end

