-- ==== Sys2Proof/Machine/Memory.lean ====
section
/-! DEFINITION. The memory hierarchy by physical address (R224 to R243): DRAM behind the line code, memory-side caches
with the directory, die caches, L1, and the actions of releases and acquires on them. -/

namespace Sys2Proof.Machine

open Sys2Proof

/-- Bytes of all DRAM: 36 stacks of 64 GiB (R225). -/
def dramTop : Nat := 36 * 2 ^ 36

/-- n bytes from a physical address reach past the end of memory (R225). (DEDUCED, log 65) -/
def noMemory (pa n : Nat) : Bool := decide (dramTop < pa + n)

/-! ### Pieces of the machine -/

def Machine.core (m : Machine) (k : Nat) : Core := Map.getD m.cores k Core.empty

def Machine.setCore (m : Machine) (k : Nat) (c : Core) : Machine := { m with cores := Map.set m.cores k c }

def Machine.updCore (m : Machine) (k : Nat) (f : Core → Core) : Machine := m.setCore k (f (m.core k))

def Machine.updGroup (m : Machine) (k : Nat) (f : Group → Group) : Machine := { m with groups := Map.upd m.groups k f }

def Machine.updBlock (m : Machine) (k : Nat) (f : Block → Block) : Machine := { m with blocks := Map.upd m.blocks k f }

def Machine.updCtx (m : Machine) (k : Nat) (f : Ctx → Ctx) : Machine := { m with ctxs := Map.upd m.ctxs k f }

def Machine.updGrid (m : Machine) (k : Nat) (f : Grid → Grid) : Machine := { m with grids := Map.upd m.grids k f }

def Machine.updCmd (m : Machine) (k : Nat) (f : Cmd → Cmd) : Machine := { m with cmds := Map.upd m.cmds k f }

def Machine.withMem (m : Machine) (f : Mem → Mem) : Machine := { m with mem := f m.mem }

def Machine.withDram (m : Machine) (f : Dram → Dram) : Machine :=
  { m with mem := { m.mem with dram := f m.mem.dram } }

/-- The die of a core: 48 cores per die (R164). -/
def dieOfCore (core : Nat) : Nat := core / 48

def stackOf (pa : Nat) : Nat := pa / 2 ^ 36

/-- Count a storage error (R72): kind by the rows of R72 and of R75. (DEDUCED, log 70) -/
def Machine.countErr (m : Machine) (kind die : Nat) (fixed : Bool) : Machine :=
  let hit := fun (e : ErrCount) => e.kind == kind && e.die == die
  let old := (m.errs.find? hit).getD { kind := kind, die := die, corrected := 0, uncorrectable := 0 }
  let new := if fixed then { old with corrected := old.corrected + 1 }
    else { old with uncorrectable := old.uncorrectable + 1 }
  { m with errs := new :: m.errs.filter fun e => !hit e }

/-! ### DRAM -/

/-- Pseudo-channel number of an address: stack, PCH (R225). -/
def pchOf (pa : Nat) : Nat := stackOf pa * 64 + bits pa 13 8

def bankOf (pa : Nat) : Nat := bits pa 19 16

def rowOf (pa : Nat) : Nat := bits pa 35 20

def bankKey (pch bank : Nat) : Nat := pch * 16 + bank

def rowKey (pch bank row : Nat) : Nat := bankKey pch bank * 65536 + row

/-- THR of a stack, 2048 by default (R241). -/
def Machine.thrOf (m : Machine) (stack : Nat) : Nat := Map.getD m.thr stack 2048

/-- Neighbours that exist, in the order of the refresh-management commands (R239). -/
def neighbours (row : Nat) : List Nat :=
  (if 2 ≤ row then [row - 2] else []) ++ (if 1 ≤ row then [row - 1] else [])
    ++ (if row + 1 < 65536 then [row + 1] else []) ++ (if row + 2 < 65536 then [row + 2] else [])

/-- An alert takes its place: those raised in the same clk are served lower bank first (R240). -/
def insertAlert (a : Nat × Nat × Nat × Nat) : List (Nat × Nat × Nat × Nat) → List (Nat × Nat × Nat × Nat)
  | [] => [a]
  | b :: r => if b.1 == a.1 && b.2.1 == a.2.1 && decide (a.2.2.1 < b.2.2.1) then a :: b :: r else b :: insertAlert a r

/-- A bank takes no request from the raising of its alert to the close of its window (R240). -/
def Dram.blocked (d : Dram) (pch bank : Nat) : Bool :=
  (match Map.get d.alert pch with
    | some (b, _, _) => b == bank
    | none => false) || d.alerts.any fun a => a.2.1 == pch && a.2.2.1 == bank

/-- One activation of a row: the counter rises and saturates; at THR the stack raises an alert for the row (R239). -/
def Dram.activate (d : Dram) (thr clk pch bank row : Nat) : Dram :=
  let k := rowKey pch bank row
  let n := min (Map.getD d.act k 0 + 1) 65535
  { d with
    act := Map.set d.act k n
    alerts := if thr ≤ n then insertAlert (clk, pch, bank, row) d.alerts else d.alerts }

/-- A request reaches its bank: it opens its row with one activation, or waits while the bank is in back-off. The
pseudo-channel leaves self-refresh and its idle timer restarts (R238, R240, R242). -/
def Machine.dramTouch (m : Machine) (pa : Nat) : Machine :=
  let pch := pchOf pa
  let bank := bankOf pa
  m.withDram fun d =>
    let d := if d.blocked pch bank then
        { d with queued := Map.set d.queued (bankKey pch bank) (Map.getD d.queued (bankKey pch bank) [] ++ [rowOf pa]) }
      else d.activate (m.thrOf (stackOf pa)) m.clock pch bank (rowOf pa)
    { d with lastReq := Map.set d.lastReq pch m.clock, asleep := d.asleep.filter (· != pch) }

/-- The requests that waited for a bank go on in order, until one raises an alert (R240). -/
def Dram.release (d : Dram) (thr clk pch bank : Nat) : List Nat → Dram
  | [] => { d with queued := Map.del d.queued (bankKey pch bank) }
  | r :: rest =>
    let d := d.activate thr clk pch bank r
    if d.blocked pch bank then { d with queued := Map.put d.queued (bankKey pch bank) rest [] }
    else d.release thr clk pch bank rest

/-- The canonical form of memory: addresses strictly rising, no entry equal to what an unlisted address reads as. -/
def Memory.wf (bytes : List Host.Cell) : Bool := Map.rising bytes && bytes.all fun c => c.2 != 0

/-- DRAM lists its bytes in canonical form. -/
def Dram.wf (d : Dram) : Bool := Memory.wf d.bytes

/-- One byte of DRAM. What an unlisted address reads as: 0, the wiped byte (R243). -/
def Dram.byte (d : Dram) (a : Nat) : Byte := Map.getD d.bytes a 0

def Dram.setByte (d : Dram) (a : Nat) (b : Byte) : Dram := { d with bytes := Map.put d.bytes a b 0 }

def Dram.sectorBytes (d : Dram) (sn : Nat) : List Byte := (List.range 64).map fun i => d.byte (sn * 64 + i)

def Dram.checkBytes (d : Dram) (sn : Nat) : List Nat :=
  let c := (Map.getD d.check sn 0).toNat
  (List.range 8).map fun i => c / 256 ^ i % 256

/-- The words of a sector as DRAM holds them, through the line code (R75). -/
def Machine.dramDecode (m : Machine) (sn : Nat) : List TWord × Machine :=
  let d := m.mem.dram
  match decodeSector (d.sectorBytes sn) (d.checkBytes sn) with
  | .ok ws => (ws, m)
  | .corrected ws => (ws, m.countErr 8 (stackOf (sn * 64) / 3) true)
  | .poison ws => (ws, m.countErr 8 (stackOf (sn * 64) / 3) false)

/-- Read a sector: one request (R75, R238). -/
def Machine.dramRead (m : Machine) (sn : Nat) : List TWord × Machine := (m.dramTouch (sn * 64)).dramDecode sn

/-- Write a whole sector with its line code (R74). -/
def Machine.dramWrite (m : Machine) (sn : Nat) (ws : List TWord) : Machine :=
  let m := m.dramTouch (sn * 64)
  let e := encodeSector ws true
  m.withDram fun d =>
    let d := (List.range 64).foldl (fun d i => d.setByte (sn * 64 + i) (e.1.getD i 0)) d
    { d with check := Map.put d.check sn (BitVec.ofNat 64 (natOfBytes (e.2.map (BitVec.ofNat 8)))) 0 }

/-! ### Sectors -/

def allDirty : BitVec 64 := BitVec.ofNat 64 (2 ^ 64 - 1)

/-- Merge the dirty bytes of one sector into another (R272). -/
def mergeSector (old new : List TWord) (dirty : BitVec 64) : List TWord :=
  (List.range 16).map fun k =>
    mergeWord (wordAt old k) (wordAt new k) fun b => dirty.getLsbD (4 * k + b)

/-! ### Sets, priorities and replacement (R224, R231) -/

/-- Ways of a set in every cache. (DESIGN CHOICE, log 76) -/
def cacheWays : Nat := 16

/-- The set of a line: 1024 lines of an L1, 393216 of a die cache, 131072 of each stack's memory-side cache. (DESIGN CHOICE, log 76) -/
def setOf : CacheLevel → Nat → Nat
  | .l1 _, line => line % 64
  | .die _, line => line % 24576
  | .msc, line => line / 2 ^ 28 * 8192 + line % 8192

/-- The cache that holds a line, as a key of `Mem.recent`. -/
def cacheKey : CacheLevel → Nat → Nat
  | .l1 core, _ => core
  | .die d, _ => 1000 + d
  | .msc, line => 2000 + line / 2 ^ 28

/-- The lines of a cache, each once. -/
def Cache.lines (c : Cache) : List Nat :=
  c.foldr (fun e r => if r.head? == some (e.1 / 4) then r else e.1 / 4 :: r) []

/-- The lines a cache holds in the set of a line. (DESIGN CHOICE, log 76) -/
def Cache.setLines (c : Cache) (k : CacheLevel) (line : Nat) : List Nat := c.lines.filter fun l => setOf k l == setOf k line

/-- The PRI recorded with a line. -/
def Cache.linePri (c : Cache) (line : Nat) : Option Nat :=
  (List.range 4).findSome? fun i => (Map.get c (line * 4 + i)).map (·.pri)

/-- PRI 3 is capped at three quarters of a set's ways (R231). -/
def Cache.capped (c : Cache) (k : CacheLevel) (line pri : Nat) : Nat :=
  if pri = 3 ∧ 3 * cacheWays ≤ 4 * ((c.setLines k line).filter fun l => l != line && c.linePri l == some 3).length then 2 else pri

/-- Hold a sector: its PRI is recorded with its line (R231). -/
def Cache.record (c : Cache) (k : CacheLevel) (sn : Nat) (s : Sector) : Cache :=
  let p := c.capped k (sn / 4) s.pri
  (List.range 4).foldl (fun c i => if sn / 4 * 4 + i = sn then c else Map.upd c (sn / 4 * 4 + i) fun x => { x with pri := p, low := s.low })
    (Map.set c sn { s with pri := p })

/-- A line becomes the most recently used of its cache (R231). -/
def Mem.use (e : Mem) (k : CacheLevel) (line : Nat) : Mem :=
  let r := Map.getD e.recent (cacheKey k line) []
  if r.head? = some line then e
  else { e with recent := Map.set e.recent (cacheKey k line) (line :: r.filter (· != line)) }

def Mem.dieCache (e : Mem) (d : Nat) : Cache := Map.getD e.die d []

def Machine.cacheAt (m : Machine) : CacheLevel → Cache
  | .l1 core => (m.core core).l1
  | .die d => m.mem.dieCache d
  | .msc => m.mem.msc

/-- A sector enters, or is used in, a cache. -/
def Machine.mscPut (m : Machine) (sn : Nat) (s : Sector) : Machine :=
  m.withMem fun e => ({ e with msc := e.msc.record .msc sn s } : Mem).use .msc (sn / 4)

def Machine.diePut (m : Machine) (d sn : Nat) (s : Sector) : Machine :=
  m.withMem fun e => ({ e with die := Map.set e.die d ((e.dieCache d).record (.die d) sn s) } : Mem).use (.die d) (sn / 4)

def Machine.l1Put (m : Machine) (core sn : Nat) (s : Sector) : Machine :=
  (m.updCore core fun c => { c with l1 := c.l1.record (.l1 core) sn s }).withMem fun e => e.use (.l1 core) (sn / 4)

/-- A sector with a PRI that every level from here down records. -/
def sectorOf (words : List TWord) (dirty : BitVec 64) (pri : Nat) : Sector := { words := words, dirty := dirty, pri := pri, low := pri }

/-! ### The memory-side cache and the directory -/

/-- The sector of the home memory-side cache, read from DRAM when absent; its PRI becomes that of the access (R231). -/
def Machine.mscRead (m : Machine) (sn pri : Nat) : List TWord × Machine :=
  match Map.get m.mem.msc sn with
  | some s => (s.words, m.mscPut sn (sectorOf s.words s.dirty pri))
  | none =>
    let (ws, m) := m.dramRead sn
    (ws, m.mscPut sn (sectorOf ws 0 pri))

/-- A 256-byte burst: the sectors that are absent come with one request (R238). -/
def Machine.mscBurst (m : Machine) (line pri : Nat) : List TWord × Machine :=
  let m := if (List.range 4).all fun i => Map.has m.mem.msc (line * 4 + i) then m else m.dramTouch (line * 256)
  (List.range 4).foldl (fun (s : List TWord × Machine) i =>
    match Map.get s.2.mem.msc (line * 4 + i) with
    | some x => (s.1 ++ x.words, s.2.mscPut (line * 4 + i) (sectorOf x.words x.dirty pri))
    | none =>
      let (ws, m) := s.2.dramDecode (line * 4 + i)
      (s.1 ++ ws, m.mscPut (line * 4 + i) (sectorOf ws 0 pri))) ([], m)

/-- The PRI of the device's own accesses by physical address: that recorded with the line, else 2. (DESIGN CHOICE, log 76) -/
def Machine.homePri (m : Machine) (sn : Nat) : Nat := (m.mem.msc.linePri (sn / 4)).getD 2

/-- A sector is the recording control block of a context: whether the context runs or yields (R438). -/
def Machine.logSector (m : Machine) (sn : Nat) : Option Bool :=
  (m.ctxs.find? fun (e : Nat × Ctx) =>
    e.2.state != .killed && e.2.state != .wiped && (e.2.saveBase + 0x20000) / 64 == sn).map fun e =>
      e.2.state == .running || e.2.state == .yielding

/-- The bytes that a software write changes: none of the recording control block of a context that runs or yields, and of another's
only its RW fields LOGBASE, LOGSIZE, MODE and HEAD (R438). (DEDUCED, log 59) -/
def Machine.logGuard (m : Machine) (sn : Nat) (dirty : BitVec 64) : BitVec 64 :=
  match m.logSector sn with
  | none => dirty
  | some true => 0
  | some false => dirty &&& BitVec.ofNat 64 (2 ^ 13 - 1 + 255 * 2 ^ 16)

/-- The words of a software write: beside MODE the bits of its byte in a recording control block are RO (R438). (DEDUCED, log 59) -/
def Machine.logKeep (m : Machine) (sn : Nat) (ws : List TWord) (pri : Nat) : List TWord :=
  match m.logSector sn with
  | none => ws
  | some _ =>
    let old := byteOf (wordAt (m.mscRead sn pri).1 3).data 0
    ws.set 3 (setWordByte (wordAt ws 3) 0 ((byteOf (wordAt ws 3).data 0 &&& 3#8) ||| (old &&& 0xFC#8)))

/-- Bytes are merged into the home's sector (R272). -/
def Machine.mscMerge (m : Machine) (sn : Nat) (ws : List TWord) (dirty : BitVec 64) (pri : Nat) : Machine :=
  let (old, m) := m.mscRead sn pri
  let was := ((Map.get m.mem.msc sn).map (·.dirty)).getD 0
  m.mscPut sn (sectorOf (mergeSector old ws dirty) (dirty ||| was) pri)

def Machine.dieDrop (m : Machine) (d sn : Nat) : Machine :=
  m.withMem fun e => { e with die := Map.set e.die d (Map.del (e.dieCache d) sn) }

/-- Take a sector from one die cache into the home, dirty bytes merged, and drop it there (R228). -/
def Machine.recall (m : Machine) (d sn : Nat) : Machine :=
  match Map.get (m.mem.dieCache d) sn with
  | none => m
  | some s =>
    let dirty := m.logGuard sn s.dirty
    (if dirty = 0 then m else m.mscMerge sn (m.logKeep sn s.words s.pri) dirty s.pri).dieDrop d sn

/-- A sector that its home sends to a stop: over the ring when the stop is another one than that of its stack (R77, R394). (DEDUCED, log 71) -/
def ringWords (stop sn : Nat) (ws : List TWord) : List TWord := if stackOf (sn * 64) / 3 = stop then ws else crossed ws

/-- A die cache's copy of a sector takes the bytes that the home has received from another die; its own dirty bytes stay
(R272). -/
def Machine.refresh (m : Machine) (d sn : Nat) : Machine :=
  match Map.get (m.mem.dieCache d) sn, Map.get m.mem.msc sn with
  | some s, some h => m.withMem fun e => { e with
      die := Map.set e.die d (Map.set (e.dieCache d) sn { s with words := mergeSector (ringWords d sn h.words) s.words s.dirty }) }
  | _, _ => m

/-- The home invalidates the copies of a line in every die cache but `keep`; each first writes its dirty sectors back, and the
kept copy takes those bytes (R228, R272). -/
def Machine.invalidateLine (m : Machine) (line : Nat) (keep : Option Nat) : Machine :=
  let v := Map.getD m.mem.presence line 0
  let ds := (List.range 12).filter fun d => v.getLsbD d && keep != some d
  let dirty := (List.range 4).filter fun i => ds.any fun d =>
    ((Map.get (m.mem.dieCache d) (line * 4 + i)).map (·.dirty)).getD 0 != 0
  let m := ds.foldl (fun m d => (List.range 4).foldl (fun m i => m.recall d (line * 4 + i)) m) m
  let m := match keep with
    | some d => dirty.foldl (fun (m : Machine) i => m.refresh d (line * 4 + i)) m
    | none => m
  let kept : BitVec 12 := match keep with
    | some d => if v.getLsbD d then BitVec.ofNat 12 (2 ^ d) else 0
    | none => 0
  m.withMem fun e => { e with presence := Map.put e.presence line kept 0 }

/-- A write performed at the home: every die's copy of the line is invalidated, then the bytes are merged (R228, R229,
R272). -/
def Machine.homeMerge (m : Machine) (sn : Nat) (ws : List TWord) (dirty : BitVec 64) (pri : Nat) : Machine :=
  (m.invalidateLine (sn / 4) none).mscMerge sn ws dirty pri

/-! ### Die caches and L1 -/

/-- A die cache writes the dirty bytes of a sector back to the home and keeps it clean (R228). -/
def Machine.dieWriteBack (m : Machine) (d sn : Nat) : Machine :=
  match Map.get (m.mem.dieCache d) sn with
  | none => m
  | some s =>
    if s.dirty = 0 then m else
    let m := (m.invalidateLine (sn / 4) (some d)).mscMerge sn (m.logKeep sn s.words s.pri) (m.logGuard sn s.dirty) s.pri
    m.withMem fun e => { e with die := Map.set e.die d (Map.set (e.dieCache d) sn
      { s with words := ((Map.get e.msc sn).map fun h => ringWords d sn h.words).getD s.words, dirty := 0 }) }

/-- Read a sector through a die cache, which takes a copy of what the home holds (R228; DESIGN CHOICE, log 5). -/
def Machine.dieRead (m : Machine) (d sn pri : Nat) : List TWord × Machine :=
  match Map.get (m.mem.dieCache d) sn with
  | some s => (s.words, m.diePut d sn (sectorOf s.words s.dirty pri))
  | none =>
    let (ws, m) := m.mscRead sn pri
    let ws := ringWords d sn ws
    (ws, (m.diePut d sn (sectorOf ws 0 pri)).withMem fun e => { e with
      presence := Map.put e.presence (sn / 4) (Map.getD e.presence (sn / 4) 0 ||| BitVec.ofNat 12 (2 ^ d)) 0 })

/-- Write bytes into a die cache, which takes the line for writing: other dies' copies are invalidated (R228). -/
def Machine.dieMerge (m : Machine) (d sn : Nat) (ws : List TWord) (dirty : BitVec 64) (pri : Nat) : Machine :=
  let (old, m) := (m.invalidateLine (sn / 4) (some d)).dieRead d sn pri
  let was := ((Map.get (m.mem.dieCache d) sn).map (·.dirty)).getD 0
  m.diePut d sn (sectorOf (mergeSector old ws dirty) (was ||| dirty) pri)

/-- Read a sector through a core's L1, which takes a copy: `priL1` is recorded there, `pri` below (R227, R234).
(DESIGN CHOICE, log 5) (DESIGN CHOICE, log 9) -/
def Machine.l1Read (m : Machine) (core sn priL1 pri : Nat) : List TWord × Machine :=
  match Map.get (m.core core).l1 sn with
  | some s => (s.words, m.l1Put core sn { s with pri := priL1, low := pri })
  | none =>
    let (ws, m) := m.dieRead (dieOfCore core) sn pri
    (ws, m.l1Put core sn { words := ws, dirty := 0, pri := priL1, low := pri })

/-- A plain store writes into L1 and marks its bytes dirty (R227). (DESIGN CHOICE, log 9) -/
def Machine.l1Merge (m : Machine) (core sn : Nat) (ws : List TWord) (dirty : BitVec 64) (priL1 pri : Nat) : Machine :=
  let (old, m) := m.l1Read core sn priL1 pri
  let was := ((Map.get (m.core core).l1 sn).map (·.dirty)).getD 0
  m.l1Put core sn { words := mergeSector old ws dirty, dirty := was ||| dirty, pri := priL1, low := pri }

/-- Write one L1 sector's dirty bytes to the die cache; the sector stays clean (R230). -/
def Machine.l1WriteBack (m : Machine) (core sn : Nat) : Machine :=
  match Map.get (m.core core).l1 sn with
  | none => m
  | some s =>
    if s.dirty = 0 then m else
    let m := m.dieMerge (dieOfCore core) sn s.words s.dirty s.low
    m.updCore core fun c => { c with l1 := Map.set c.l1 sn { s with dirty := 0 } }

def Machine.l1Drop (m : Machine) (core sn : Nat) : Machine := m.updCore core fun c => { c with l1 := Map.del c.l1 sn }

/-! ### Release and acquire actions (R230) -/

def scopeBeyond (sc : Scope) (cores : Nat) : Bool :=
  match sc with
  | .group => false
  | .block => decide (1 < cores)
  | _ => true

def scopeAtDevice : Scope → Bool
  | .device | .fabric => true
  | _ => false

/-- Every dirty L1 sector of the core goes to the die cache (R230). -/
def Machine.flushL1 (m : Machine) (core : Nat) : Machine :=
  (Map.keys (m.core core).l1).foldl (fun m sn => m.l1WriteBack core sn) m

/-- Every dirty die-cache sector goes to its home (R230). -/
def Machine.flushDie (m : Machine) (d : Nat) : Machine :=
  (Map.keys (m.mem.dieCache d)).foldl (fun m sn => m.dieWriteBack d sn) m

/-- Release at a scope by a core whose block spans `cores` cores (R230). -/
def Machine.release (m : Machine) (core : Nat) (sc : Scope) (cores : Nat) : Machine :=
  if scopeBeyond sc cores then
    let m := m.flushL1 core
    if scopeAtDevice sc then m.flushDie (dieOfCore core) else m
  else m

/-- Acquire at a scope: dirty sectors are written back, then the L1 is invalidated (R230). (DESIGN CHOICE, log 5) -/
def Machine.acquire (m : Machine) (core : Nat) (sc : Scope) (cores : Nat) : Machine :=
  if scopeBeyond sc cores then
    let m := m.flushL1 core
    m.updCore core fun c => { c with l1 := [] }
  else m

/-! ### Word accesses by physical address -/

def byteMaskAt (off n : Nat) : BitVec 64 := BitVec.ofNat 64 ((2 ^ n - 1) * 2 ^ off)

/-- A sector image with one word at its place. -/
def sectorWith (k : Nat) (t : TWord) : List TWord := (List.replicate 16 TWord.zero).set k t

/-- Read one word at the home: engines, the walker, the network engine (R229). -/
def Machine.homeWord (m : Machine) (pa : Nat) : TWord × Machine :=
  let (ws, m) := m.mscRead (pa / 64) (m.homePri (pa / 64))
  (wordAt ws (pa % 64 / 4), m)

/-- Write one whole word at the home. -/
def Machine.setHomeWord (m : Machine) (pa : Nat) (t : TWord) : Machine :=
  m.homeMerge (pa / 64) (sectorWith (pa % 64 / 4) t) (byteMaskAt (pa % 64 / 4 * 4) 4) (m.homePri (pa / 64))

def Machine.homeWords (m : Machine) (pa n : Nat) : List TWord × Machine :=
  (List.range n).foldl (fun (s : List TWord × Machine) i =>
    let (t, m) := s.2.homeWord (pa + 4 * i)
    (s.1 ++ [t], m)) ([], m)

def Machine.setHomeWords (m : Machine) (pa : Nat) (ts : List TWord) : Machine :=
  (ts.foldl (fun (s : Nat × Machine) t => (s.1 + 4, s.2.setHomeWord s.1 t)) (pa, m)).2

/-- The 64-bit value at an address of the home. -/
def Machine.homeNat64 (m : Machine) (pa : Nat) : Nat × Machine :=
  let (a, m) := m.homeWord pa
  let (b, m) := m.homeWord (pa + 4)
  (nat64 a.data b.data, m)

/-- Write words formed by the device, with the residues of their data. -/
def Machine.setHomeData (m : Machine) (pa : Nat) (ws : List Word) : Machine := m.setHomeWords pa (ws.map TWord.of)

/-- Evict one sector from a memory-side cache: a dirty one is written to DRAM (R229). -/
def Machine.mscEvict (m : Machine) (sn : Nat) : Machine :=
  match Map.get m.mem.msc sn with
  | none => m
  | some s =>
    let m := if s.dirty = 0 then m else m.dramWrite sn s.words
    m.withMem fun e => { e with msc := Map.del e.msc sn }

/-- Write one dirty sector of a memory-side cache to DRAM; it stays, clean (R265). -/
def Machine.mscClean (m : Machine) (sn : Nat) : Machine :=
  match Map.get m.mem.msc sn with
  | none => m
  | some s =>
    if s.dirty = 0 then m else
    (m.dramWrite sn s.words).withMem fun e => { e with msc := Map.set e.msc sn { s with dirty := 0 } }

/-- Drop the line of a sector without write-back from a core's L1 and its die cache (R232). (DEDUCED, log 35) -/
def Machine.dropCopies (m : Machine) (core sn : Nat) : Machine :=
  (List.range 4).foldl (fun m i => (m.l1Drop core (sn / 4 * 4 + i)).dieDrop (dieOfCore core) (sn / 4 * 4 + i)) m

/-- Drop the line of a sector without write-back from a core's L1, its die cache and the home (R232). (DEDUCED, log 35) -/
def Machine.dropLine (m : Machine) (core sn : Nat) : Machine :=
  (List.range 4).foldl (fun m i => m.withMem fun e => { e with msc := Map.del e.msc (sn / 4 * 4 + i) }) (m.dropCopies core sn)

/-- The same, but for sectors that the dropping agent has stored to since the access that carried LU (R233). (DEDUCED, log 35) -/
def Machine.dropLineBut (m : Machine) (core sn : Nat) (keep : List Nat) : Machine :=
  ((List.range 4).filter fun i => !keep.contains (sn / 4 * 4 + i)).foldl (fun m i =>
    let n := sn / 4 * 4 + i
    ((m.l1Drop core n).dieDrop (dieOfCore core) n).withMem fun e => { e with msc := Map.del e.msc n }) m

/-- The sectors of a line that its agent has stored to since go to the home, before what else its copies hold is dropped (R232,
R233). (DEDUCED, log 35) -/
def Machine.saveSectors (m : Machine) (core sn : Nat) (keep : List Nat) : Machine :=
  ((List.range 4).filter fun i => keep.contains (sn / 4 * 4 + i)).foldl (fun m i =>
    (m.l1WriteBack core (sn / 4 * 4 + i)).dieWriteBack (dieOfCore core) (sn / 4 * 4 + i)) m

/-! ### Eviction (R228, R231) -/

/-- A die that holds no sector of a line is not in its presence vector. -/
def Machine.clearPresence (m : Machine) (d line : Nat) : Machine :=
  if (List.range 4).any fun i => Map.has (m.mem.dieCache d) (line * 4 + i) then m
  else m.withMem fun e => { e with
    presence := Map.put e.presence line (Map.getD e.presence line 0 &&& ~~~ BitVec.ofNat 12 (2 ^ d)) 0 }

/-- A line leaves a cache, its dirty sectors written to the next level (R228, R229). -/
def Machine.evictLine (m : Machine) (k : CacheLevel) (line : Nat) : Machine :=
  let sns := (List.range 4).map fun i => line * 4 + i
  match k with
  | .l1 core => sns.foldl (fun m sn => (m.l1WriteBack core sn).l1Drop core sn) m
  | .die d => (sns.foldl (fun m sn => (m.dieWriteBack d sn).dieDrop d sn) m).clearPresence d line
  | .msc => sns.foldl (fun m sn => m.mscEvict sn) m

/-- The line that leaves the set of a line next: lowest PRI first, and of those the least recently used (R231). (DESIGN CHOICE, log 76) -/
def Machine.victim (m : Machine) (k : CacheLevel) (line : Nat) : Option Nat :=
  let c := m.cacheAt k
  let ls := c.setLines k line
  let low := ls.foldl (fun p l => min p ((c.linePri l).getD 0)) 3
  let ls := ls.filter fun l => (c.linePri l).getD 0 == low
  let used := Map.getD m.mem.recent (cacheKey k line) []
  match ls.find? fun l => !used.contains l with
  | some l => some l
  | none => used.reverse.find? fun l => ls.contains l

/-- A set that holds more lines than it has ways, by one of its lines. -/
def Cache.overfull (c : Cache) (k : CacheLevel) : Option Nat :=
  if c.length ≤ cacheWays then none
  else c.lines.find? fun l => decide (cacheWays < (c.setLines k l).length)

/-- A cache evicts until no set holds more lines than it has ways. -/
def Machine.trimCache (k : CacheLevel) : Nat → Machine → Machine
  | 0, m => m
  | n + 1, m =>
    match (m.cacheAt k).overfull k with
    | none => m
    | some l => match m.victim k l with
      | some v => Machine.trimCache k n (m.evictLine k v)
      | none => m

/-- Every cache makes room for what a step brought in: the L1s, then the die caches, then the memory-side caches; an
instruction cache keeps its 1024 most recently used lines (R17, R224, R231). (DESIGN CHOICE, log 76) -/
def Machine.makeRoom (m : Machine) : Machine :=
  let trim := fun (m : Machine) (k : CacheLevel) => Machine.trimCache k (m.cacheAt k).length m
  let m := (Map.keys m.cores).foldl (fun m c => trim m (.l1 c)) m
  let m := (Map.keys m.mem.die).foldl (fun m d => trim m (.die d)) m
  let m := trim m .msc
  if m.cores.all fun e => decide (e.2.icache.length ≤ 1024) then m
  else { m with cores := m.cores.map fun e => (e.1, { e.2 with icache := e.2.icache.take 1024 }) }

/-- The four granules of a row, by the key of its counter (R225). -/
def rowSpans (k : Nat) : List Nat :=
  (List.range 4).map fun g => k / 2 ^ 26 * 2 ^ 36 + k % 65536 * 2 ^ 20 + k / 65536 % 16 * 65536 + g * 16384 + k / 2 ^ 20 % 64 * 256

/-- Wipe a range of physical memory, 64-byte aligned: zero words with residue 0, caches of the region and the activation
counters of its rows cleared (R243). -/
def Machine.wipe (m : Machine) (lo size : Nat) : Machine :=
  let hit := fun (sn : Nat) => decide (lo ≤ sn * 64) && decide (sn * 64 < lo + size)
  let m := { m with cores := m.cores.map fun (e : Nat × Core) => (e.1, { e.2 with l1 := e.2.l1.filter fun s => !hit s.1 }) }
  m.withMem fun e => { e with
    msc := e.msc.filter fun s => !hit s.1
    die := e.die.map fun (d : Nat × Cache) => (d.1, d.2.filter fun s => !hit s.1)
    dram := { e.dram with
      bytes := e.dram.bytes.filter fun b => !(decide (lo ≤ b.1) && decide (b.1 < lo + size))
      check := e.dram.check.filter fun c => !hit c.1
      act := e.dram.act.filter fun c => !(rowSpans c.1).any fun a => decide (lo < a + 256) && decide (a < lo + size) } }

end Sys2Proof.Machine
end

