-- ==== Sys2Proof/Machine/Page.lean ====
section
/-! DEFINITION. Translation (R285 to R290), the fault queue and the trap queue as rings in memory (R292, R376), parking
of faulting requests (R291, R294). -/

namespace Sys2Proof.Machine

open Sys2Proof

/-- Kinds of access (R289, and ACCESS of R292). -/
inductive Access where
  | read | write | atomic | fetch
deriving DecidableEq, Repr

def Access.code : Access → Nat
  | .read => 0
  | .write => 1
  | .atomic => 2
  | .fetch => 3

/-- Causes of a PROT frame (R288). -/
inductive ProtCause where
  | malformed | permission | outside | poison
deriving DecidableEq, Repr

def ProtCause.code : ProtCause → Nat
  | .malformed => 1
  | .permission => 2
  | .outside => 3
  | .poison => 4

/-- What a translation gives (R286 to R289). -/
inductive Xlat where
  | ok (pa : Nat) (pri : Nat)
  /-- a page of a berth: number and offset in its window. -/
  | berth (b : Nat) (off : Nat)
  /-- the device status page of a privileged context (R366): offset. -/
  | status (off : Nat)
  | notValid (level : Nat)
  | prot (level : Nat) (cause : ProtCause)
deriving DecidableEq, Repr

/-- Address bits below a page or node of a level: 16, 21, 30, 39, 48 (R286). -/
def levelShift : Nat → Nat
  | 0 => 16
  | 1 => 21
  | 2 => 30
  | 3 => 39
  | _ => 48

/-- Index of an address in the node of a level (R286). -/
def levelIndex (level va : Nat) : Nat :=
  if level = 0 then bits va 20 16 else va / 2 ^ levelShift level % 512

/-- Fields of a table entry (R287). -/
def pteV (e : Nat) : Bool := e.testBit 0
def pteLeaf (e : Nat) : Bool := e.testBit 1
def pteR (e : Nat) : Bool := e.testBit 2
def pteW (e : Nat) : Bool := e.testBit 3
def pteX (e : Nat) : Bool := e.testBit 4
def pteS (e : Nat) : Bool := e.testBit 5
def ptePri (e : Nat) : Nat := bits e 7 6
def pteAddr (e : Nat) : Nat := bits e 41 12 * 4096
def pteBerth (e : Nat) : Nat := bits e 59 48

/-- A valid entry of a level is malformed (R286 to R288). (DEDUCED, log 41) -/
def pteMalformed (level e : Nat) : Bool :=
  let size := 2 ^ levelShift level
  bits e 11 8 != 0 || bits e 47 42 != 0 || bits e 63 60 != 0 ||
  (if pteLeaf e then
      decide (2 < level) || (pteAddr e % size != 0) || (pteS e && level != 0) ||
      (pteBerth e == 0 && decide (dramTop < pteAddr e + size))
    else level == 0 || bits e 7 2 != 0 || pteBerth e != 0 || decide (dramTop < pteAddr e + 4096))

/-- Translations a core caches: 2048 leaves and 256 nodes (R290). -/
def tlbLeaves : Nat := 2048
def tlbNodes : Nat := 256

/-- The first leaves and nodes of a list of translations, at most so many of each. -/
def tlbKeep : Nat → Nat → List TlbEntry → List TlbEntry
  | _, _, [] => []
  | l, n, e :: r =>
    if pteLeaf e.entry.toNat then (if l = 0 then tlbKeep 0 n r else e :: tlbKeep (l - 1) n r)
    else if n = 0 then tlbKeep l 0 r else e :: tlbKeep l (n - 1) r

/-- Cache a translation: the newest are kept (R290). (DESIGN CHOICE, log 76) -/
def Machine.cachePte (m : Machine) (key : Nat) (e : TlbEntry) : Machine :=
  let l := e :: Map.getD m.tlb key []
  { m with tlb := Map.set m.tlb key (if l.length ≤ tlbNodes then l else tlbKeep tlbLeaves tlbNodes l) }

/-- Read an entry of a node: from the translation cache, else by physical address at the home, and cached when V = 1
(R286, R290). none when its low word is poison, or V = 1 and its high word is (R288). (DEDUCED, log 41) -/
def Machine.readPte (m : Machine) (key ctx node level va : Nat) : Option Nat × Machine :=
  let base := va / 2 ^ levelShift level
  let cache := Map.getD m.tlb key []
  match cache.find? fun t => t.ctx == ctx && t.level == level && t.base == base with
  | some t => (some t.entry.toNat, m)
  | none =>
    let a := node + 8 * levelIndex level va
    let (lo, m) := m.homeWord a
    let (hi, m) := m.homeWord (a + 4)
    let e := nat64 lo.data hi.data
    if lo.poisoned then (none, m)
    else if !pteV e then (some e, m)
    else if hi.poisoned then (none, m)
    else (some e, m.cachePte key { ctx := ctx, level := level, base := base, entry := BitVec.ofNat 64 e })

/-- Where a walk ends: the leaf entry with its level, or why it stops (R286, R288). -/
inductive Walk where
  | leaf (level e : Nat)
  | notValid (level : Nat)
  | malformed (level : Nat)
  | poison (level : Nat)
deriving DecidableEq, Repr

/-- The walk from a level downward (R286). -/
def Machine.walk (m : Machine) (key ctx : Nat) (va : Nat) : Nat → Nat → Walk × Machine
  | level, node =>
    match m.readPte key ctx node level va with
    | (none, m) => (.poison level, m)
    | (some e, m) =>
      if !pteV e then (.notValid level, m)
      else if pteMalformed level e then (.malformed level, m)
      else if pteLeaf e then (.leaf level e, m)
      else match level with
        | 0 => (.malformed 0, m)
        | l + 1 => Machine.walk m key ctx va l (pteAddr e)

/-- Whether an entry allows an access (R289). -/
def pteAllows (e : Nat) : Access → Bool
  | .read => pteR e
  | .write => pteW e
  | .atomic => pteR e && pteW e
  | .fetch => pteX e

/-- Translate an address of a context for an access (R285 to R290, R366). (DEDUCED, log 41) -/
def Machine.translate (m : Machine) (key ctx : Nat) (va : Nat) (k : Access) : Xlat × Machine :=
  match Map.get m.ctxs ctx with
  | none => (.prot 4 .permission, m)
  | some c =>
    if 2 ^ 57 ≤ va then (.prot 4 .outside, m)
    else if c.priv && va / 65536 == c.statusVa / 65536 then
      (if k = .read then .status (va % 65536) else .prot 0 .permission, m)
    else
      match Machine.walk m key ctx va 4 c.ptRoot with
      | (.notValid l, m) => (.notValid l, m)
      | (.malformed l, m) => (.prot l .malformed, m)
      | (.poison l, m) => (.prot l .poison, m)
      | (.leaf l e, m) =>
        if !pteAllows e k then (.prot l .permission, m)
        else
          let off := va % 2 ^ levelShift l
          if pteBerth e = 0 then (.ok (pteAddr e + off) (ptePri e), m)
          else (.berth (pteBerth e) (pteAddr e + off), m)

/-- The leaf of an address as PROBE and the shadow unit see it, without caching. (DEDUCED, log 57) -/
def Machine.probe (m : Machine) (ctx va : Nat) : Walk × Machine :=
  match Map.get m.ctxs ctx with
  | none => (.notValid 4, m)
  | some c => (Machine.walk { m with tlb := [] } 0 ctx va 4 c.ptRoot).1 |> fun w => (w, m)

/-- Key of an engine's translation cache by the SOURCE code of R292 and the engine's number: a core's copy engine 2, a
quay engine 3, the network engine 4, the distributor 5 (R290). -/
def engineKey (source n : Nat) : Nat := 1000 * source + n

/-- The PRI of an access in the die and memory-side caches: the ACTIVE handle set last that covers a byte of the address's line,
else its own (R234). (DESIGN CHOICE, log 76) -/
def Machine.handlePri (m : Machine) (ctx va dflt : Nat) : Nat :=
  match Map.get m.ctxs ctx with
  | none => dflt
  | some c =>
    (c.handles.foldl (fun (best : Option Handle) (e : Nat × Handle) =>
      let h := e.2
      if h.state == .active && decide (h.lo / 256 ≤ va / 256) && decide (va / 256 ≤ h.hi / 256) &&
          (match best with
            | some b => decide (b.order < h.order)
            | none => true) then some h else best) none |>.map (·.pri)).getD dflt

/-- A word of the device status page: THR of stack k at 0x40 + 4k (R241). -/
def Machine.statusPage (m : Machine) (off : Nat) : TWord :=
  if 0x40 ≤ off ∧ off < 0x40 + 4 * 36 then TWord.of (BitVec.ofNat 32 (m.thrOf ((off - 0x40) / 4)))
  else TWord.of (Config.statusWord (off / 4))

/-! ### Rings in memory (R292, R376) -/

/-- Append a 32-byte entry to the ring at a physical base; none when the ring is full. -/
def Machine.ringAppend (m : Machine) (base size : Nat) (ws : List Word) : Option Machine :=
  let (head, m) := m.homeNat64 base
  let (tail, m) := m.homeNat64 (base + 8)
  if size ≤ tail - head then none
  else
    let m := m.setHomeData (base + 16 + 32 * (tail % size)) ws
    some (m.setHomeData (base + 8) (words64 (tail + 1)))

/-- A fault-queue entry: its first three words as they wait, then EPOCH, reserved and SEQ as appended (R292). -/
def fqEntry (ws : List Word) (epoch seq : Nat) : List Word :=
  ws.take 3 ++ [BitVec.ofNat 32 epoch, 0, 0] ++ words64 seq

/-- Append the waiting fault-queue entries that fit (R292). -/
def Machine.drainFaultQueue (m : Machine) (ctx : Nat) : Machine :=
  match Map.get m.ctxs ctx with
  | none => m
  | some c =>
    c.fqWait.foldl (fun m ws =>
      match Map.get m.ctxs ctx with
      | none => m
      | some c =>
        match m.ringAppend c.fqBase c.fqSize (fqEntry ws c.resolve c.fqSeq) with
        | none => m
        | some m => m.updCtx ctx fun c => { c with fqSeq := c.fqSeq + 1, fqWait := c.fqWait.drop 1 }) m

/-- Append a fault-queue entry, or leave it waiting for room (R292). -/
def Machine.faultEntry (m : Machine) (ctx va kind access source code : Nat) : Machine :=
  let ws := words64 va ++ [BitVec.ofNat 32 (kind + 256 * access + 65536 * source + 16777216 * code)]
  (m.updCtx ctx fun c => { c with fqWait := c.fqWait ++ [ws] }).drainFaultQueue ctx

/-- Report a page that faults, once per page and kind until it is resolved (R292). (DEDUCED, log 41) -/
def Machine.reportFault (m : Machine) (ctx va kind access source : Nat) : Machine :=
  match Map.get m.ctxs ctx with
  | none => m
  | some c =>
    let key := (va / 65536, kind)
    if c.reported.contains key then m
    else (m.updCtx ctx fun c => { c with reported := key :: c.reported }).faultEntry ctx va kind access source 0

/-- Fault berths of a core (R17, R291). -/
def faultBerths : Nat := 512

/-- A block holds its cores. -/
def Block.placed (b : Block) : Bool := b.state == .live || b.state == .saving

/-- Fault berths of a core in use: the requests of a saved block are in its save area (R372). -/
def Machine.faultsHeld (m : Machine) (core : Nat) : Nat :=
  (m.parked.filter fun (e : Nat × Parked) => e.2.core == core && !e.2.waiting && !e.2.flight &&
    (match (Map.get m.groups e.2.group).bind fun g => Map.get m.blocks g.block with
      | some b => b.state != .saved
      | none => true)).length

/-- Park a faulting request under its number: it takes a berth of its core, and its page is reported, or it waits for one (R291,
R292). -/
def Machine.parkAs (m : Machine) (k : Nat) (r : Parked) (source : Nat) : Machine :=
  let r := { r with waiting := decide (faultBerths ≤ m.faultsHeld r.core), source := source }
  let m := { m with parked := Map.set m.parked k r }
  if r.waiting then m else m.reportFault r.ctx r.va 1 r.access source

/-- Park a new request. -/
def Machine.parkRequest (m : Machine) (r : Parked) (source : Nat) : Machine :=
  ({ m with nextId := m.nextId + 1 } : Machine).parkAs m.nextId r source

/-! ### The trap queue (R376) -/

def Machine.drainTrapQueue (m : Machine) (ctx : Nat) : Machine :=
  match Map.get m.ctxs ctx with
  | none => m
  | some c =>
    c.tqWait.foldl (fun m ws =>
      match Map.get m.ctxs ctx with
      | none => m
      | some c =>
        match m.ringAppend c.tqBase c.tqSize (ws ++ words64 c.tqSeq) with
        | none => m
        | some m => m.updCtx ctx fun c => { c with tqSeq := c.tqSeq + 1, tqWait := c.tqWait.drop 1 }) m

/-- Append a trap-queue entry: FRAME, CODE, KIND, BLOCK, GROUPID, SEQ (R376). -/
def Machine.trapEntry (m : Machine) (ctx frame code kind block gid : Nat) : Machine :=
  let ws := words64 frame ++ [BitVec.ofNat 32 (code + 256 * kind), BitVec.ofNat 32 block, BitVec.ofNat 32 gid, 0]
  (m.updCtx ctx fun c => { c with tqWait := c.tqWait ++ [ws] }).drainTrapQueue ctx

end Sys2Proof.Machine
end

