-- ==== Sys2Proof/Machine/Operands.lean ====
section
/-! DEFINITION. The operands of instruction words: which registers, uniform words and literals a word reads, which
registers and predicates it writes (R88, R91 to R99, R245), its pipe (R89) and whether it may be chained (R119). -/

namespace Sys2Proof.Machine

open Sys2Proof

/-- A source of a word: register number 0 to 61 by its operand name (R91), 62 for Z, 63 for a literal, 64 + n for Gn; the
literal; and whether a read of an empty register waits (R92). -/
structure SrcRef where
  code : Nat
  lit : Word
  wait : Bool
deriving DecidableEq, Repr

/-- What a word reads and writes: sources in slot order (R374), destination registers, predicates, uniform registers,
and further registers it names. -/
structure Uses where
  srcs : List SrcRef := []
  dst : List Nat := []
  pd : List (Fin 8) := []
  us : List Nat := []
  more : List Nat := []
deriving DecidableEq, Repr

def srcRef (s : Src) (w : Bool) : SrcRef :=
  match s with
  | .k l => { code := 63, lit := l, wait := true }
  | s => { code := s.code, lit := 0, wait := w }

def rsrcRef (s : RSrc) (w : Bool) : SrcRef :=
  match s with
  | .op s => srcRef s w
  | .g n => { code := 64 + n.val, lit := 0, wait := true }

def rsrcUs : RSrc → List Nat
  | .g n => [n.val]
  | .op _ => []

def zkRef : ZK → SrcRef
  | .z => { code := 62, lit := 0, wait := true }
  | .k l => { code := 63, lit := l, wait := true }

def nsrcRef : NSrc → SrcRef
  | .g n => { code := 64 + n.val, lit := 0, wait := true }
  | .z => { code := 62, lit := 0, wait := true }
  | .k l => { code := 63, lit := l, wait := true }

def nsrcUs : NSrc → List Nat
  | .g n => [n.val]
  | _ => []

def msrcRef : MSrc → SrcRef
  | .g n => { code := 64 + n.val, lit := 0, wait := true }
  | .k l => { code := 63, lit := l, wait := true }

def msrcUs : MSrc → List Nat
  | .g n => [n.val]
  | .k _ => []

def dstRef (d : Dst) : SrcRef := { code := d.code, lit := 0, wait := true }

def ldstRef (d : LDst) : SrcRef := { code := d.code, lit := 0, wait := true }

def vxRef (d : VX) (w : Bool) : SrcRef := { code := d.code, lit := 0, wait := w }

/-- A write to Z is a write of no register (R88). -/
def dstSlots : Dst → List Nat
  | .z => []
  | d => [d.code]

def vxSlots (d : VX) : List Nat := [d.code]

def ldstSlots (n : Nat) : LDst → List Nat
  | .v r => List.range' r.val n
  | .z => []

/-- A run of n V registers. -/
def runRefs (r n : Nat) (w : Bool) : List SrcRef :=
  (List.range' r n).map fun c => { code := c, lit := 0, wait := w }

def srcRunRefs (n : Nat) : Src → List SrcRef
  | .v r => runRefs r.val n true
  | .z => List.replicate n { code := 62, lit := 0, wait := true }
  | s => [srcRef s true]

def ldstRunRefs (n : Nat) : LDst → List SrcRef
  | .v r => runRefs r.val n true
  | .z => List.replicate n { code := 62, lit := 0, wait := true }

/-- G(2n), G(2n+1) (R99). -/
def pairRegs (g : Fin 16) : List Nat := [2 * g.val, 2 * g.val + 1]

/-- G(4n) to G(4n+3) (R314, R328, R340). -/
def quadRegs (g : Fin 8) : List Nat := [4 * g.val, 4 * g.val + 1, 4 * g.val + 2, 4 * g.val + 3]

def launchRefs (a : Fin 28 ⊕ Fin 16) (w : Bool) : List SrcRef :=
  match a with
  | .inl v => runRefs (2 * v.val) 2 w
  | .inr _ => []

def launchUs (a : Fin 28 ⊕ Fin 16) : List Nat :=
  match a with
  | .inl _ => []
  | .inr g => [2 * g.val, 2 * g.val + 1]

def usesRR (third : Bool) (f : RR) : Uses :=
  { srcs := [rsrcRef f.a f.wa, rsrcRef f.b f.wb] ++ (if third then [dstRef f.d] else []), dst := dstSlots f.d, pd := [], us := rsrcUs f.a ++ rsrcUs f.b }

def usesRS (third : Bool) (f : RS) : Uses :=
  { srcs := [srcRef f.a f.wa, srcRef f.b f.wb] ++ (if third then [dstRef f.d] else []), dst := dstSlots f.d, pd := [], us := [] }

def usesR1 (f : R1) : Uses :=
  { srcs := [srcRef f.a f.wa], dst := dstSlots f.d, pd := [], us := [] }

def usesCmpF (f : CmpF) : Uses :=
  { srcs := [rsrcRef f.a f.wa, rsrcRef f.b f.wb], dst := [], pd := [f.p], us := rsrcUs f.a ++ rsrcUs f.b }

def usesSelF (f : SelF) : Uses :=
  { srcs := [srcRef f.a f.wa, srcRef f.b f.wb], dst := dstSlots f.d, pd := [], us := [] }

def usesMovkF (f : MovkF) : Uses :=
  { srcs := [], dst := dstSlots f.d, pd := [], us := [] }

def usesBmixF (f : BmixF) : Uses :=
  { srcs := [srcRef f.a true, srcRef f.b true, dstRef f.d], dst := dstSlots f.d, pd := [], us := [] }

def usesRI (reads : Bool) (f : RI) : Uses :=
  { srcs := if reads then [⟨f.d.val, 0, true⟩] else [], dst := [f.d.val], pd := [], us := [], more := [f.d.val] }

def usesShliF (f : ShliF) : Uses :=
  { srcs := [⟨f.d.val, 0, true⟩], dst := [f.d.val], pd := [], us := [], more := [f.d.val] }

def usesFcmpF (f : FcmpF) : Uses :=
  { srcs := [rsrcRef f.a f.wa, rsrcRef f.b f.wb], dst := [], pd := [f.p], us := rsrcUs f.a ++ rsrcUs f.b }

def usesRQ (f : RQ) : Uses :=
  { srcs := [srcRef f.a f.w, srcRef f.b f.w, srcRef f.e f.w], dst := dstSlots f.d, pd := [], us := [] }

/-- Slot 1 stands for the bank word; the old D is operand C (R69, R374). -/
def usesFmakF (f : FmakF) : Uses :=
  { srcs := [srcRef f.a f.wa, { code := 62, lit := 0, wait := true }, dstRef f.d], dst := dstSlots f.d, pd := [], us := [] }

def usesCvtF (f : CvtF) : Uses :=
  { srcs := [srcRef f.a f.w], dst := dstSlots f.d, pd := [], us := [] }

def usesCvtqQF (f : CvtqQF) : Uses :=
  { srcs := runRefs f.a.val 8 true ++ [⟨56, 0, true⟩], dst := vxSlots f.d ++ [57], pd := [], us := [], more := List.range' f.a.val 8 }

def usesCvtqXF (f : CvtqXF) : Uses :=
  { srcs := [srcRef f.a true, ⟨56, 0, true⟩], dst := List.range' f.d.val 8, pd := [], us := [], more := List.range' f.d.val 8 }

def usesPackF (f : PackF) : Uses :=
  { srcs := runRefs f.a.val f.tgt.count true, dst := dstSlots f.d, pd := [], us := [], more := List.range' f.a.val f.tgt.count }

def usesUnpkF (f : UnpkF) : Uses :=
  { srcs := [srcRef f.a true], dst := List.range' f.d.val f.fr.count, pd := [], us := [], more := List.range' f.d.val f.fr.count }

def usesQxchF (f : QxchF) : Uses :=
  { srcs := [vxRef f.a f.w], dst := vxSlots f.d, pd := [], us := [] }

def usesQbrdF (f : QbrdF) : Uses :=
  { srcs := [vxRef f.a f.w], dst := vxSlots f.d, pd := [], us := [] }

def usesXlaneF (f : XlaneF) : Uses :=
  { srcs := [vxRef f.a f.w, vxRef f.d f.w], dst := vxSlots f.d, pd := [], us := [] }

def usesPollQF (f : PollQF) : Uses :=
  { srcs := [], dst := [], pd := [f.p], us := [] }

def usesPollSF (f : PollSF) : Uses :=
  { srcs := [], dst := [], pd := [f.p], us := [] }

def usesPollWF (f : PollWF) : Uses :=
  { srcs := [], dst := vxSlots f.d, pd := [], us := [] }

def usesRedgF (f : RedgF) : Uses :=
  { srcs := [vxRef f.a f.w], dst := vxSlots f.d, pd := [], us := [] }

def usesTagrF (f : TagrF) : Uses :=
  { srcs := [srcRef f.a true], dst := dstSlots f.d, pd := [], us := [] }

def usesTagwF (f : TagwF) : Uses :=
  { srcs := [vxRef f.d true], dst := vxSlots f.d, pd := [], us := [] }

def usesSrdF (f : SrdF) : Uses :=
  { srcs := [], dst := dstSlots f.d, pd := [], us := [] }

def usesPlopF (f : PlopF) : Uses :=
  { srcs := [], dst := [], pd := [f.p], us := [] }

def usesLdF (f : LdF) : Uses :=
  { srcs := [srcRef f.a true], dst := ldstSlots f.t.run f.d, pd := [], us := pairRegs f.g }

def usesStF (f : StF) : Uses :=
  { srcs := [srcRef f.a true] ++ srcRunRefs f.t.run f.s, dst := [], pd := [], us := pairRegs f.g }

def usesLdaF (f : LdaF) : Uses :=
  { srcs := [srcRef f.a true], dst := ldstSlots (if f.dw then 2 else 1) f.d, pd := [], us := pairRegs f.g }

def usesStlF (f : StlF) : Uses :=
  { srcs := [srcRef f.a true] ++ srcRunRefs (if f.dw then 2 else 1) f.s, dst := [], pd := [], us := pairRegs f.g }

def usesPrefF (f : PrefF) : Uses :=
  { srcs := [srcRef f.a true], dst := [], pd := [], us := pairRegs f.g }

def usesHsetF (f : HsetF) : Uses :=
  { srcs := [zkRef f.a, ldstRef f.d], dst := ldstSlots 1 f.d, pd := [], us := pairRegs f.g }

def usesHdemF (f : HdemF) : Uses :=
  { srcs := [ldstRef f.d], dst := ldstSlots 1 f.d, pd := [], us := [] }

def usesHdropF (f : HdropF) : Uses :=
  { srcs := [ldstRef f.d], dst := ldstSlots 1 f.d, pd := [], us := [] }

def usesLrfF (f : LrfF) : Uses :=
  { srcs := [zkRef f.a], dst := [], pd := [], us := pairRegs f.g }

def usesWaitvF (f : WaitvF) : Uses :=
  { srcs := [zkRef f.a, srcRef f.s true], dst := [], pd := [], us := pairRegs f.g }

def usesAtomF (run dn : Nat) (f : AtomF) : Uses :=
  { srcs := [srcRef f.a true] ++ ldstRunRefs run f.d, dst := ldstSlots dn f.d, pd := [], us := pairRegs f.g, more := ldstSlots run f.d }

def usesRedF (f : RedF) : Uses :=
  { srcs := [srcRef f.a true, srcRef f.s true], dst := [], pd := [], us := pairRegs f.g }

def usesBarS (f : BarS) : Uses :=
  { srcs := [zkRef f.a, srcRef f.s true], dst := [], pd := [], us := pairRegs f.g }

def usesBarD (reads : Bool) (f : BarD) : Uses :=
  { srcs := [zkRef f.a] ++ (if reads then [dstRef f.d] else []), dst := dstSlots f.d, pd := [], us := pairRegs f.g }

def usesBwaitF (f : BwaitF) : Uses :=
  { srcs := [zkRef f.a, srcRef f.s true], dst := [], pd := [], us := pairRegs f.g }

def usesBinvF (f : BinvF) : Uses :=
  { srcs := [zkRef f.a], dst := [], pd := [], us := pairRegs f.g }

def usesFenceF (_f : FenceF) : Uses :=
  { srcs := [], dst := [], pd := [], us := [] }

def usesShadowF (f : ShadowF) : Uses :=
  { srcs := [zkRef f.a], dst := ldstSlots 1 f.d, pd := [], us := pairRegs f.g }

def usesPubF (f : PubF) : Uses :=
  { srcs := [srcRef f.a true], dst := ldstSlots 1 f.d, pd := [], us := [] }

def usesDiscF (f : DiscF) : Uses :=
  { srcs := [srcRef f.a true], dst := ldstSlots 1 f.d, pd := [], us := [] }

def usesMflushF (f : MflushF) : Uses :=
  { srcs := [zkRef f.a, srcRef f.s true], dst := [], pd := [], us := pairRegs f.g }

def usesC0 (_f : C0) : Uses :=
  { srcs := [], dst := [], pd := [], us := [] }

def usesCwaitF (f : CwaitF) : Uses :=
  { srcs := [srcRef f.a true], dst := [], pd := [f.p], us := pairRegs f.g }

def usesBraF (_f : BraF) : Uses :=
  { srcs := [], dst := [], pd := [], us := [] }

def usesBrcF (_f : BrcF) : Uses :=
  { srcs := [], dst := [], pd := [], us := [] }

def usesBrvF (f : BrvF) : Uses :=
  { srcs := [srcRef f.a f.w], dst := [], pd := [], us := [] }

def usesBrmF (_f : BrmF) : Uses :=
  { srcs := [], dst := [], pd := [], us := [] }

def usesJoutF (_f : JoutF) : Uses :=
  { srcs := [], dst := [], pd := [], us := [] }

def usesElectF (f : ElectF) : Uses :=
  { srcs := [], dst := [], pd := [f.p], us := [] }

def usesNapF (f : NapF) : Uses :=
  { srcs := [nsrcRef f.s], dst := [], pd := [], us := nsrcUs f.s }

def usesMloadbF (f : MloadbF) : Uses :=
  { srcs := [], dst := [], pd := [], us := if f.fmt == .q4 then [f.g.val, f.g.val + 1] else [f.g.val] }

def usesMmaF (f : MmaF) : Uses :=
  { srcs := [], dst := [], pd := [], us := quadRegs f.g }

def usesMmagF (f : MmagF) : Uses :=
  { srcs := [], dst := [], pd := [], us := quadRegs f.g }

def usesMreadF (w : Nat) (f : MreadF) : Uses :=
  let run := List.range' f.d.val (128 / w * (if f.two then 2 else 1))
  { srcs := [], dst := run, pd := [], us := [], more := run }

def usesMzeroF (_f : MzeroF) : Uses :=
  { srcs := [], dst := [], pd := [], us := [] }

def usesMcfgF (f : McfgF) : Uses :=
  { srcs := [msrcRef f.s], dst := [], pd := [], us := msrcUs f.s }

def usesTcopyF (f : TcopyF) : Uses :=
  { srcs := [], dst := [], pd := [], us := pairRegs f.gr ++ pairRegs f.gs ++ (if f.nb then [] else pairRegs f.gq) ++ quadRegs f.gc }

def usesXcopyF (n : Nat) (f : XcopyF) : Uses :=
  { srcs := runRefs f.a.val n true, dst := [], pd := [], us := [f.gt.val] }

def usesHreadF (f : HreadF) : Uses :=
  { srcs := [], dst := [], pd := [], us := pairRegs f.gr ++ quadRegs f.gc ++ pairRegs f.gh ++ (if f.bar then pairRegs f.gq else []) }

def usesBatchF (f : BatchF) : Uses :=
  { srcs := [], dst := dstSlots f.d, pd := [], us := [] }

def usesWaitbF (f : WaitbF) : Uses :=
  { srcs := [rsrcRef f.s f.w], dst := [], pd := [], us := rsrcUs f.s }

def usesHstF (f : HstF) : Uses :=
  { srcs := runRefs f.a.val 8 true, dst := [], pd := [], us := pairRegs f.gb ++ quadRegs f.gc }

def usesHldF (f : HldF) : Uses :=
  { srcs := [], dst := List.range' f.d.val 8, pd := [], us := pairRegs f.gb ++ quadRegs f.gc }

def usesHfwdF (f : HfwdF) : Uses :=
  { srcs := [vxRef f.a f.w], dst := vxSlots f.d, pd := [], us := [] }

def usesHrecF (f : HrecF) : Uses :=
  { srcs := [vxRef f.a f.w], dst := vxSlots f.d, pd := [], us := [] }

def usesHthrF (f : HthrF) : Uses :=
  { srcs := [vxRef f.a f.w], dst := vxSlots f.d, pd := [], us := [] }

def usesHbiasF (f : HbiasF) : Uses :=
  { srcs := [dstRef f.d, rsrcRef f.b f.w], dst := dstSlots f.d, pd := [], us := rsrcUs f.b }

def usesQuayF (f : QuayF) : Uses :=
  { srcs := [], dst := [], pd := [], us := pairRegs f.gd ++ (if f.bar then pairRegs f.gq else []) }

def usesQtlF (f : QtlF) : Uses :=
  { srcs := [], dst := [], pd := [], us := pairRegs f.gt ++ [f.gc.val] }

def usesNputF (f : NputF) : Uses :=
  { srcs := [], dst := [], pd := [], us := pairRegs f.gl ++ pairRegs f.gr ++ [f.gn.val] }

def usesNgetF (f : NgetF) : Uses :=
  { srcs := [], dst := [], pd := [], us := pairRegs f.gl ++ pairRegs f.gr ++ [f.gn.val] }

def usesNatomF (f : NatomF) : Uses :=
  { srcs := [], dst := [], pd := [], us := pairRegs f.gl ++ pairRegs f.gr ++ (match f.op with
      | .add => (quadRegs f.gv).take 2
      | .cas => quadRegs f.gv) }

def usesBreqF (f : BreqF) : Uses :=
  { srcs := [], dst := [], pd := [], us := pairRegs f.ga }

def usesEnqF (f : EnqF) : Uses :=
  { srcs := [], dst := [], pd := [f.p], us := pairRegs f.ga }

def usesLaunchF (f : LaunchF) : Uses :=
  { srcs := launchRefs f.a f.w, dst := [], pd := [f.p], us := launchUs f.a }

def usesTrapF (_f : TrapF) : Uses :=
  { srcs := [], dst := [], pd := [], us := [] }

def usesRettF (f : RettF) : Uses :=
  { srcs := [], dst := [], pd := [f.p], us := pairRegs f.gf }

def usesSwrF (f : SwrF) : Uses :=
  { srcs := [srcRef f.a true], dst := [], pd := [], us := [] }

def usesSaveptF (_f : SaveptF) : Uses :=
  { srcs := [], dst := [], pd := [], us := [] }

def usesProbeF (f : ProbeF) : Uses :=
  { srcs := runRefs (2 * f.a.val) 2 f.w, dst := [2 * f.d.val, 2 * f.d.val + 1], pd := [], us := [] }

def usesTlbF (f : TlbF) : Uses :=
  { srcs := [], dst := [], pd := [], us := pairRegs f.gb ++ pairRegs f.gc }

/-- What an instruction word reads and writes, for a group of width w (events: nothing). -/
def usesOf (w : Nat) : Instr → Uses
  | .add f => usesRR false f
  | .addSat f => usesRS false f
  | .sub f => usesRR false f
  | .subSat f => usesRS false f
  | .addc f => { usesRR false f with pd := [6] }
  | .subb f => { usesRR false f with pd := [6] }
  | .neg f => usesR1 f
  | .abs f => usesR1 f
  | .sad f => usesRR true f
  | .mov f => usesR1 f
  | .mul f => usesRR false f
  | .mulh f => usesRR false f
  | .mulhU f => usesRS false f
  | .mad f => usesRR true f
  | .madh f => usesRR true f
  | .min f => usesRR false f
  | .minU f => usesRS false f
  | .max f => usesRR false f
  | .maxU f => usesRS false f
  | .dot4 f => usesRR true f
  | .dot4Sat f => usesRS true f
  | .dot4U f => usesRR true f
  | .dot4USat f => usesRS true f
  | .and f => usesRR false f
  | .or f => usesRR false f
  | .xor f => usesRR false f
  | .andn f => usesRR false f
  | .popc f => usesR1 f
  | .clz f => usesR1 f
  | .brev f => usesR1 f
  | .shl f => usesRR false f
  | .shr f => usesRR false f
  | .sar f => usesRR false f
  | .rol f => usesRR false f
  | .ror f => usesRR false f
  | .bfx f => usesRR false f
  | .bfi f => usesRR true f
  | .fshl f => usesRR true f
  | .fshr f => usesRR true f
  | .lea1 f => usesRR false f
  | .lea2 f => usesRR false f
  | .lea3 f => usesRR false f
  | .lea4 f => usesRR false f
  | .cmpEq f => usesCmpF f
  | .cmpNe f => usesCmpF f
  | .cmpLt f => usesCmpF f
  | .cmpLe f => usesCmpF f
  | .cmpLtU f => usesCmpF f
  | .cmpLeU f => usesCmpF f
  | .sel f => usesSelF f
  | .movk f => usesMovkF f
  | .bmix f => usesBmixF f
  | .movi f => usesRI false f
  | .addi f => usesRI true f
  | .andi f => usesRI true f
  | .ori f => usesRI true f
  | .xori f => usesRI true f
  | .shli f => usesShliF f
  | .fadd f => usesRR false f
  | .fsub f => usesRR false f
  | .fmul f => usesRR false f
  | .fmin f => usesRR false f
  | .fminNum f => usesRS false f
  | .fmax f => usesRR false f
  | .fmaxNum f => usesRS false f
  | .fcmp f => usesFcmpF f
  | .fint f => usesR1 f
  | .pfma f => usesRR true f
  | .faddRn f => usesRR false f
  | .faddRz f => usesRR false f
  | .faddRd f => usesRR false f
  | .faddRu f => usesRR false f
  | .fsubRn f => usesRR false f
  | .fsubRz f => usesRR false f
  | .fsubRd f => usesRR false f
  | .fsubRu f => usesRR false f
  | .fmulRn f => usesRR false f
  | .fmulRz f => usesRR false f
  | .fmulRd f => usesRR false f
  | .fmulRu f => usesRR false f
  | .fintRn f => usesR1 f
  | .fintRz f => usesR1 f
  | .fintRd f => usesR1 f
  | .fintRu f => usesR1 f
  | .pfmaRn f => usesRR true f
  | .pfmaRz f => usesRR true f
  | .pfmaRd f => usesRR true f
  | .pfmaRu f => usesRR true f
  | .frcp f => usesR1 f
  | .frsq f => usesR1 f
  | .fsqrt f => usesR1 f
  | .fexp2 f => usesR1 f
  | .flog2 f => usesR1 f
  | .fsin f => usesR1 f
  | .fcos f => usesR1 f
  | .fma f => usesRQ f
  | .fmaRn f => usesRQ f
  | .fmaRz f => usesRQ f
  | .fmaRd f => usesRQ f
  | .fmaRu f => usesRQ f
  | .fmak f => usesFmakF f
  | .cvt f => usesCvtF f
  | .cvtqQ f => usesCvtqQF f
  | .cvtqX f => usesCvtqXF f
  | .pack f => usesPackF f
  | .unpk f => usesUnpkF f
  | .faddi f => usesRI true f
  | .fmuli f => usesRI true f
  | .qxch f => usesQxchF f
  | .qbrd f => usesQbrdF f
  | .xlane f => usesXlaneF f
  | .pollQuorum f => usesPollQF f
  | .pollSame f => usesPollSF f
  | .pollCount f => usesPollWF f
  | .pollRank f => usesPollWF f
  | .pollMap f => usesPollWF f
  | .redg f => usesRedgF f
  | .tagr f => usesTagrF f
  | .tagw f => usesTagwF f
  | .srd f => usesSrdF f
  | .plop f => usesPlopF f
  | .ld f => usesLdF f
  | .st f => usesStF f
  | .lda f => usesLdaF f
  | .stl f => usesStlF f
  | .lds f => usesLdF f
  | .sts f => usesStF f
  | .pref f => usesPrefF f
  | .hset f => usesHsetF f
  | .hdem f => usesHdemF f
  | .hdrop f => usesHdropF f
  | .lrflush f => usesLrfF f
  | .waitv f => usesWaitvF f
  | .atomAdd f => usesAtomF 1 1 f
  | .atomMin f => usesAtomF 1 1 f
  | .atomMax f => usesAtomF 1 1 f
  | .atomMinU f => usesAtomF 1 1 f
  | .atomMaxU f => usesAtomF 1 1 f
  | .atomFadd f => usesAtomF 1 1 f
  | .atomExch f => usesAtomF 1 1 f
  | .atomCas f => usesAtomF 2 1 f
  | .atomAnd f => usesAtomF 1 1 f
  | .atomOr f => usesAtomF 1 1 f
  | .atomXor f => usesAtomF 1 1 f
  | .atomAddD f => usesAtomF 2 2 f
  | .atomExchD f => usesAtomF 2 2 f
  | .atomCasD f => usesAtomF 4 2 f
  | .atomsAdd f => usesAtomF 1 1 f
  | .atomsMin f => usesAtomF 1 1 f
  | .atomsMax f => usesAtomF 1 1 f
  | .atomsMinU f => usesAtomF 1 1 f
  | .atomsMaxU f => usesAtomF 1 1 f
  | .atomsFadd f => usesAtomF 1 1 f
  | .atomsExch f => usesAtomF 1 1 f
  | .atomsCas f => usesAtomF 2 1 f
  | .redAdd f => usesRedF f
  | .redMin f => usesRedF f
  | .redMax f => usesRedF f
  | .redMinU f => usesRedF f
  | .redMaxU f => usesRedF f
  | .redFadd f => usesRedF f
  | .redAnd f => usesRedF f
  | .redOr f => usesRedF f
  | .binit f => usesBarS f
  | .bexpect f => usesBarS f
  | .barrive f => usesBarD false f
  | .bwait f => usesBwaitF f
  | .btry f => usesBarD true f
  | .binval f => usesBinvF f
  | .binitForce f => usesBarS f
  | .fence f => usesFenceF f
  | .shadow f => usesShadowF f
  | .publish f => usesPubF f
  | .discard f => usesDiscF f
  | .mflush f => usesMflushF f
  | .cdone f => usesC0 f
  | .cwait f => usesCwaitF f
  | .bra f => usesBraF f
  | .brc f => usesBrcF f
  | .call f => usesBraF f
  | .brv f => usesBrvF f
  | .brm f => usesBrmF f
  | .ret f => usesC0 f
  | .jout f => usesJoutF f
  | .elect f => usesElectF f
  | .yield f => usesC0 f
  | .nap f => usesNapF f
  | .tail f => usesC0 f
  | .exit f => usesC0 f
  | .evret f => usesC0 f
  | .evon f => usesNapF f
  | .mloadb f => usesMloadbF f
  | .mma f => usesMmaF f
  | .mmag f => usesMmagF f
  | .mread f => usesMreadF w f
  | .mzero f => usesMzeroF f
  | .mcfg f => usesMcfgF f
  | .tcopy f => usesTcopyF f
  | .tstore f => usesTcopyF f
  | .xcopy f => usesXcopyF 1 f
  | .hread f => usesHreadF f
  | .batch f => usesBatchF f
  | .waitb f => usesWaitbF f
  | .hst f => usesHstF f
  | .hld f => usesHldF f
  | .hldx f => usesHldF f
  | .hfwd f => usesHfwdF f
  | .hrec f => usesHrecF f
  | .hthr f => usesHthrF f
  | .hbias f => usesHbiasF f
  | .qgath f => usesQuayF f
  | .qred f => usesQuayF f
  | .qcvt f => usesQuayF f
  | .qunpk f => usesQuayF f
  | .qtload f => usesQtlF f
  | .nput f => usesNputF f
  | .nget f => usesNgetF f
  | .natom f => usesNatomF f
  | .bopen f => usesBreqF f
  | .brevoke f => usesBreqF f
  | .enqL f => usesEnqF f
  | .enqQ f => usesEnqF f
  | .launch f => usesLaunchF f
  | .trap f => usesTrapF f
  | .rettResume f => usesRettF f
  | .rettSkip f => usesRettF f
  | .rettEnd f => usesRettF f
  | .rettFault f => usesRettF f
  | .swr f => usesSwrF f
  | .savept f => usesSaveptF f
  | .probe f => usesProbeF f
  | .tlbinv f => usesTlbF f
  | .tlbinvR f => usesTlbF f
  | .tlbinvAbort f => usesTlbF f
  | .brk f => usesTrapF f
  | .bringUp => {}
  | .stackTraining => {}
  | .ringLoopback => {}
  | .phyLoopback => {}
  | .sramBist => {}
  | .residueCheckerTest => {}
  | .clockStart => {}
  | .resetRequest => {}
  | .readFailureReport => {}
  | .readIdentity => {}
  | .provisioningRequest => {}
  | .deployRequest => {}
  | .debugRequest => {}
  | .retireRequest => {}
  | .installCertificate => {}
  | .attestationRequest => {}
  | .createContext => {}
  | .loadContext => {}
  | .startContext => {}
  | .resumeContext => {}
  | .killContext => {}
  | .openQueue => {}
  | .closeQueue => {}
  | .setDeadline => {}
  | .openPath => {}
  | .closePath => {}
  | .pilotKeyRotation => {}
  | .setThr => {}
  | .schedulerDeschedule => {}
  | .deadlineExpiry => {}
  | .blockSave => {}
  | .contextSaved => {}
  | .schedulerRestore => {}
  | .contextWiped => {}
  | .computeDieReset => {}
  | .takeLaunchEntry => {}
  | .launchQueueAging => {}
  | .dependencePoll => {}
  | .gridStarting => {}
  | .placeGang => {}
  | .blockRetire => {}
  | .gridDrained => {}
  | .issueSelect => {}
  | .eventEntry => {}
  | .clockWrap => {}
  | .loadDataReturn => {}
  | .napExpiry => {}
  | .waitvReread => {}
  | .cwaitReread => {}
  | .batchComplete => {}
  | .retirementTrackerDrain => {}
  | .queueHeadReread => {}
  | .faultBerthFreed => {}
  | .tlbinvEffectComplete => {}
  | .engineTakeEntry => {}
  | .buoyReturn => {}
  | .engineQuiet => {}
  | .copySectorDelivered => {}
  | .tstoreSectorWritten => {}
  | .xcopyDelivery => {}
  | .commandCompletion => {}
  | .publishSwap => {}
  | .hreadBurstRequest => {}
  | .hreadBurstReturn => {}
  | .lighterBirth => {}
  | .hreadCompletion => {}
  | .qunpkSymbol => {}
  | .quayCommandRun => {}
  | .matrixEntryDone => {}
  | .mreadDataArrival => {}
  | .cdoneOrPerform => {}
  | .directoryInvalidate => {}
  | .cacheEviction => {}
  | .dramWrite => {}
  | .dramRead => {}
  | .rowAlert => {}
  | .refreshManagementCommand => {}
  | .backoffWindowClose => {}
  | .regularRefresh => {}
  | .selfRefreshEntry => {}
  | .ringPacketInject => {}
  | .ringFlitReceive => {}
  | .ringFlitResend => {}
  | .ethernetFrameReceive => {}
  | .roceLaunchSend => {}
  | .rdmaWrite => {}
  | .rdmaWritePublish => {}
  | .rdmaRead => {}
  | .rdmaAtomic => {}
  | .revocationNoticeReceive => {}
  | .roceRetryExhausted => {}
  | .portLossOfSignal => {}
  | .berthRevokeInForce => {}
  | .berthRevokeDone => {}
  | .bopenAnswer => {}
  | .powerLoss => {}
  | .computeDieResetExit => {}
  | .storageError => {}
  | .instructionLineArrival => {}
  | .powerLimit => {}
  | .createOwner => {}
  | .counterClear => {}
  | .berthPageReassign => {}

/-- Pipe codes (R89). -/
def pipeOf (i : Instr) : Nat :=
  match i.head? with
  | none => 3
  | some n =>
    let m := fld n 25 6
    if m < 0x10 then 0
    else if m < 0x20 then 1
    else if 0x28 ≤ m ∧ m ≤ 0x35 then 2
    else if (0x36 ≤ m ∧ m ≤ 0x3B) ∨ m = 0x3F then 3
    else 4

/-- The chain bit (R82). -/
def chainBit (i : Instr) : Bool :=
  match i.head? with
  | some n => bit n 31
  | none => false

/-- Instructions whose entry forbids chaining (R119). -/
def noChain : Instr → Bool
  | .brm _ | .call _ | .ret _ | .brv _ | .tail _ | .exit _ | .yield _ | .nap _ | .evret _ | .trap _ | .rettResume _
  | .rettSkip _ | .rettEnd _ | .rettFault _ | .brk _ | .savept _ | .swr _ => true
  | _ => false

/-- Privileged instructions: RETT, TLBINV and MFLUSH (R118). SWR is privileged by register. -/
def privileged : Instr → Bool
  | .rettResume _ | .rettSkip _ | .rettEnd _ | .rettFault _ | .tlbinv _ | .tlbinvR _ | .tlbinvAbort _ | .mflush _ => true
  | _ => false

/-- Whether a word names a constant-bank word (RK format, R97). -/
def namesBank : Instr → Bool
  | .movk _ | .fmak _ => true
  | _ => false

/-- Every V register a word names, as source or destination: a run goes on past V55 and names no X register (R148, R316). -/
def vregsOf (u : Uses) : List Nat := (u.srcs.map (·.code) ++ u.dst).filter (· < 56) ++ u.more

/-- The words up to and with one of a chain may stand in it (R88): distinct pipes, no register or predicate written twice (P7
is no predicate), no BRM and no word that forbids chaining. -/
def chainOk (w : Nat) (is : List Instr) : Bool :=
  let ds := is.flatMap fun i => (usesOf w i).dst
  let ps := (is.flatMap fun i => (usesOf w i).pd).filter (· != 7)
  let pipes := is.map pipeOf
  decide ((pipes.eraseDups).length = pipes.length) && decide (ds.eraseDups.length = ds.length) &&
  decide (ps.eraseDups.length = ps.length) && !is.any noChain

/-- The position of the first word that may not stand in the chain; a single word is never checked (R88, R375). (DEDUCED, log 32) -/
def chainFault (w : Nat) (is : List Instr) : Option Nat :=
  if is.length ≤ 1 then none else (List.range is.length).find? fun n => !chainOk w (is.take (n + 1))

end Sys2Proof.Machine
end

