-- ==== Sys2Proof/Machine/Shadow.lean ====
section
/-! DEFINITION. Shadows (R258, R260, R295): the shadow pool, the first write to a page, the swap; and the places that an
address names, pages of berths included (R401 to R409). -/

namespace Sys2Proof.Machine

open Sys2Proof

/-! ### The shadow pool (R295) -/

/-- Take the frame at HEAD of the pool; none when it is empty. (DEDUCED, log 34) -/
def Machine.poolTake (m : Machine) (c : Ctx) : Option (Nat × Machine) :=
  let (head, m) := m.homeNat64 c.shPool
  let (tail, m) := m.homeNat64 (c.shPool + 8)
  if tail = head then none
  else
    let (f, m) := m.homeNat64 (c.shPool + 16 + 8 * (head % max 1 c.shSize))
    some (f, m.setHomeData c.shPool (words64 (head + 1)))

/-- Append a frame at TAIL of the pool. (DEDUCED, log 34) -/
def Machine.poolPut (m : Machine) (c : Ctx) (f : Nat) : Machine :=
  let (tail, m) := m.homeNat64 (c.shPool + 8)
  (m.setHomeData (c.shPool + 16 + 8 * (tail % max 1 c.shSize)) (words64 f)).setHomeData (c.shPool + 8) (words64 (tail + 1))

/-- The L0 entry that maps an address: where it stands and its value; none when the walk ends elsewhere. -/
def Machine.leafSlot (m : Machine) (va : Nat) : Nat → Nat → Option (Nat × Nat)
  | level, node =>
    let a := node + 8 * levelIndex level va
    let (lo, m) := m.homeWord a
    let (hi, _) := m.homeWord (a + 4)
    let e := nat64 lo.data hi.data
    if lo.poisoned || hi.poisoned || !pteV e || pteMalformed level e then none
    else match level with
      | 0 => some (a, e)
      | l + 1 => if pteLeaf e then none else m.leafSlot va l (pteAddr e)

/-- Copy a 64 KiB page as performed at DEVICE scope (R258). What L1s still hold of the frame from an earlier use is dropped, so
that no read of the new mapping meets it (R260). -/
def Machine.copyPage (m : Machine) (src dst : Nat) : Machine :=
  let m := { m with cores := m.cores.map fun (e : Nat × Core) =>
    (e.1, { e.2 with l1 := e.2.l1.filter fun s => s.1 / 1024 != dst / 65536 }) }
  (List.range 1024).foldl (fun m i =>
    let pri := m.homePri (src / 64 + i)
    let (ws, m) := m.mscRead (src / 64 + i) pri
    m.homeMerge (dst / 64 + i) ws allDirty pri) m

/-- What finding the shadow frame of a page gives. -/
inductive ShFrame where
  | frame (f : Nat) (sh : Shadow) (m : Machine)
  | notValid
  | noFrame
  | prot (level : Nat) (cause : ProtCause)

/-- The frame of a page of an open shadow: taken and filled at the first write, which needs W and S (R258, R285, R289, R295); a page
of a berth has no frame. (DEDUCED, log 79) -/
def Machine.shadowFrame (m : Machine) (key ctx : Nat) (c : Ctx) (sh : Shadow) (va : Nat) : ShFrame :=
  let page := va / 65536
  match sh.pages.find? fun p => p.1 == page with
  | some p => .frame p.2.1 sh m
  | none =>
    if 2 ^ 57 ≤ va then .prot 4 .outside
    else match Machine.walk m key ctx va 4 c.ptRoot with
    | (.notValid _, _) => .notValid
    | (.malformed l, _) => .prot l .malformed
    | (.poison l, _) => .prot l .poison
    | (.leaf l e, m) =>
      if !pteW e || !pteS e || pteBerth e != 0 then .prot l .permission
      else match m.poolTake c with
        | none => .noFrame
        | some (f, m) => .frame f { sh with pages := sh.pages ++ [(page, f, pteAddr e)] } (m.copyPage (pteAddr e) f)

/-- Return the frames of a shadow to the pool (R295). -/
def Machine.freeFrames (m : Machine) (c : Ctx) (sh : Shadow) : Machine :=
  sh.pages.foldl (fun m p => m.poolPut c p.2.1) m

/-- Drop every cached translation of some 64 KiB pages of a context (R295, R298). -/
def Machine.dropPages (m : Machine) (ctx : Nat) (hit : Nat → Nat → Bool) : Machine :=
  { m with tlb := m.tlb.map fun (e : Nat × List TlbEntry) =>
      (e.1, e.2.filter fun t => !(t.ctx == ctx && hit (t.base * 2 ^ levelShift t.level) (2 ^ levelShift t.level))) }

/-- The swap of a publication (R260, R295): none when a written page's leaf has changed. -/
def Machine.swap (m : Machine) (ctx : Nat) (c : Ctx) (sh : Shadow) : Option Machine :=
  let slots := sh.pages.map fun p => (p, m.leafSlot (p.1 * 65536) 4 c.ptRoot)
  let ok := slots.all fun s => match s.2 with
    | some (_, e) => pteS e && pteBerth e == 0 && pteAddr e == s.1.2.2
    | none => false
  if !ok then none
  else
    let m := slots.foldl (fun m s => match s.2 with
      | some (a, e) => (m.setHomeData a (words64 (e - pteAddr e + s.1.2.1))).poolPut c s.1.2.2
      | none => m) m
    some (m.dropPages ctx fun base size => sh.pages.any fun p => decide (base ≤ p.1 * 65536) && decide (p.1 * 65536 < base + size))

/-! ### Places -/

/-- What an address names for an access (R285 to R290, R404, R406). -/
inductive Place where
  | pa (pa pri : Nat)
  /-- the device status page (R366). -/
  | status (off : Nat)
  /-- memory of an exporting context on this device, with the berth and the window offset (R405). -/
  | window (b pa off : Nat)
  /-- a window on another device: path, key, offset (R402). -/
  | remote (path : Nat) (rkey : Word) (off : Nat)
  /-- a page that is not valid, of a context. -/
  | fault (ctx va source : Nat)
  | prot (level : Nat) (cause : ProtCause)
  /-- refused with the REVOKED status; the local berth number (R406). -/
  | revoked (b : Nat)
deriving DecidableEq, Repr

def permBit : Access → Nat
  | .read => 0
  | .write => 1
  | .atomic => 2
  | .fetch => 3

/-- The key of an export berth (R402). -/
def berthKey (owner b gen : Nat) : Word := BitVec.ofNat 32 (owner * 2 ^ 28 + b * 2 ^ 16 + gen)

/-- Why the network engine refuses an operation on an export berth (R404): checks 3 and 5, or check 4. -/
inductive Refuse where
  | access | revoked
deriving DecidableEq, Repr

/-- Checks 3 to 5 of R404 on an operation of owner o under a key; while the berth is REVOKING the old key is accepted until the
revocation is in force (R407). (DEDUCED, log 31) -/
def Machine.berthCheck (m : Machine) (o b : Nat) (key : Word) (k : Access) (off size : Nat) : Option Refuse :=
  match Map.get m.berths b with
  | none => some .access
  | some r =>
    if r.import_ || key.toNat / 2 ^ 28 != r.owner then some .access
    else
      let current := key == berthKey r.owner b r.gen && r.state == .opened
      let old := match r.revoke with
        | some (_, _, _, oldKey, inForce) => key == oldKey && !inForce && r.state == .revoking
        | none => false
      if !(current || old) then some .revoked
      else if !(o == r.owner || r.peers.getLsbD o) || !r.perm.getLsbD (permBit k) || decide (r.size < off + size) then
        some .access
      else none

/-- Translate an offset of an export berth's window through the exporting context's table (R404); a page that fails R288 or R289
is PROT. -/
def Machine.exportPlace (m : Machine) (b off : Nat) (k : Access) : Place × Machine :=
  match Map.get m.berths b with
  | none => (.revoked b, m)
  | some r =>
    match m.translate (engineKey 4 0) r.ctx (r.base + off) k with
    | (.ok pa _, m) => (.window b pa off, m)
    | (.notValid _, m) => (.fault r.ctx (r.base + off) 4, m)
    | (.prot l e, m) => (.prot l e, m)
    | (_, m) => (.prot 0 .permission, m)

/-- GEN rises; a number whose GEN would wrap is retired (R403). (DEDUCED, log 55) -/
def Berth.nextGen (r : Berth) : Berth := if r.gen = 65535 then { r with retired := true } else { r with gen := r.gen + 1 }

/-- Raise an event in a group (R221): a pending event keeps one pending bit, its INFO is updated. -/
def Group.raise (g : Group) (ev info : Nat) : Group :=
  if g.lighter.isSome || g.status == .retired then g
  else { g with ev := { g.ev with
      pend := g.ev.pend ||| BitVec.ofNat 6 (2 ^ ev)
      infos := (List.range 6).map fun i => if i = ev then BitVec.ofNat 19 info else g.ev.infos.getD i 0 } }

/-- A context that holds groups on the device. -/
def Ctx.resident (c : Ctx) : Bool := c.state == .running || c.state == .yielding

/-- An import berth becomes STALE: EV_REVOKE in every group of every resident context of its owner; saved contexts take
it when they are restored (R403, R409). -/
def Machine.stale (m : Machine) (b : Nat) : Machine :=
  match Map.get m.berths b with
  | none => m
  | some r =>
    if !(r.import_ && r.state == .opened) then m else
    let m := { m with berths := Map.set m.berths b { r with state := .stale } }
    let own := fun (ctx : Nat) => match Map.get m.ctxs ctx with
      | some c => c.owner == r.owner
      | none => false
    let resident := fun (ctx : Nat) => ((Map.get m.ctxs ctx).map (·.resident)).getD false
    { m with
      groups := m.groups.map fun (e : Nat × Group) => if own e.2.ctx && resident e.2.ctx then (e.1, e.2.raise 5 b) else e
      ctxs := m.ctxs.map fun (e : Nat × Ctx) =>
        if e.2.owner == r.owner && e.2.state == .saved then (e.1, { e.2 with revokes := e.2.revokes ++ [b] }) else e }

/-- The berth on this device whose window a berth number names, by its exporting context's number of it (R401, R406). -/
def Machine.exporterOf (m : Machine) (b : Nat) : Option Nat :=
  match Map.get m.berths b with
  | some r => if !r.import_ then some b else if r.path = 0xFFFF then some r.rid else none
  | none => none

/-- Where an access of an owner's context to a berth page goes (R406). -/
def Machine.berthPlace (m : Machine) (o b off size : Nat) (k : Access) : Place × Machine :=
  match Map.get m.berths b with
  | none => (.prot 0 .permission, m)
  | some r =>
    if r.owner != o || r.state == .free then (.prot 0 .permission, m)
    else if !r.import_ then
      -- the owner's own export: its key is the berth's own
      let key := match r.revoke with
        | some (_, _, _, oldKey, false) => oldKey
        | _ => berthKey r.owner b r.gen
      match m.berthCheck o b key k off size with
      | some _ => (.revoked b, m)
      | none => m.exportPlace b off k
    else if r.state == .stale then (.revoked b, m)
    else if r.path = 0xFFFF then
      match m.berthCheck o r.rid r.rkey k off size with
      | some .revoked => (.revoked b, m.stale b)
      | some .access => (.revoked b, m)
      | none => match m.exportPlace r.rid off k with
        | (.revoked _, m) => (.revoked b, m)
        | p => p
    else
      match Map.get m.paths r.path with
      | some p =>
        if p.usable && p.owner == o then
          -- the other device performs the operation, or refuses it (R404, R408)
          let n := { m with netCount := m.netCount + 1 }
          match Config.netRefusal m.netCount with
          | none => (.remote r.path r.rkey off, n)
          | some rev => (.revoked b, if rev then n.stale b else n)
        else (.revoked b, m.stale b)
      | none => (.revoked b, m.stale b)

/-- The place of an address of a context. -/
def Machine.place (m : Machine) (key ctx va size : Nat) (k : Access) (source : Nat) : Place × Machine :=
  match m.translate key ctx va k with
  | (.ok pa pri, m) => (.pa pa pri, m)
  | (.status off, m) => (.status off, m)
  | (.notValid _, m) => (.fault ctx va source, m)
  | (.prot l c, m) => (.prot l c, m)
  | (.berth b off, m) => m.berthPlace (((Map.get m.ctxs ctx).map (·.owner)).getD 16) b off size k

/-! ### Reading and writing a place at the home -/

/-- Words another device returns (R406; DESIGN CHOICE, log 7). (DESIGN CHOICE, log 75) -/
def Machine.netWords (m : Machine) (n : Nat) : List TWord × Machine :=
  ((List.range n).map fun i => TWord.of (Config.netWord (m.netCount + i)), { m with netCount := m.netCount + n })

def Machine.send (m : Machine) (x : NetMsg) : Machine := { m with netOut := m.netOut ++ [x] }

/-- The PRI of an access to an export berth's window: the greater of its own and the entry's, or that of an ACTIVE handle of the
exporting context (R231, R234, R287). (DESIGN CHOICE, log 76) -/
def Machine.windowPri (m : Machine) (b off own : Nat) : Nat :=
  match Map.get m.berths b with
  | none => own
  | some r =>
    let va := r.base + off
    m.handlePri r.ctx va (match (m.probe r.ctx va).1 with
      | .leaf _ e => max own (ptePri e)
      | _ => own)

/-- The PRI of an access that states none: a record, a table, an operation of another device. (DESIGN CHOICE, log 76) -/
def plainPri : Nat := 2

/-- The PRI at which an access to a place is recorded (R231, R234, R287). -/
def Machine.placePri (m : Machine) (ctx va : Nat) (p : Place) (own : Nat) : Nat :=
  match p with
  | .pa _ leaf => m.handlePri ctx va (max own leaf)
  | .window b _ off => m.windowPri b off own
  | _ => own

/-- The physical address of a place in memory of this device. -/
def Place.homePa (p : Place) : Option Nat :=
  match p with
  | .pa a _ => some a
  | .window _ a _ => some a
  | _ => none

/-- Read n words at the home, recorded at a PRI. -/
def Machine.homeWordsPri (m : Machine) (a pri : Nat) : Nat → List TWord × Machine
  | 0 => ([], m)
  | n + 1 =>
    let (ws, m) := m.homeWordsPri a pri n
    let (s, m) := m.mscRead ((a + 4 * n) / 64) pri
    (ws ++ [wordAt s ((a + 4 * n) % 64 / 4)], m)

/-- Read n words at a place, at the point of coherence and recorded at a PRI (R229, R231, R405); none where nothing can be read. -/
def Machine.readPlace (m : Machine) (p : Place) (n pri : Nat) : Option (List TWord × Machine) :=
  match p with
  | .pa a _ => some (m.homeWordsPri (a / 4 * 4) pri n)
  | .window _ a _ => some (m.homeWordsPri (a / 4 * 4) pri n)
  | .status off => some ((List.range n).map fun i => m.statusPage (off / 4 * 4 + 4 * i), m)
  | .remote path rkey off =>
    let (ws, m) := m.netWords n
    some (ws, m.send (.rdma path 0 rkey off (4 * n) []))
  | _ => none

/-- The sector image and byte mask of a write of n bytes at an address, the words in their places. -/
def placedWords (a : Nat) (ws : List TWord) : List TWord :=
  (List.range 16).map fun k => if k < a % 64 / 4 then TWord.zero else wordAt ws (k - a % 64 / 4)

/-- Write bytes at the home by physical address: words cover the bytes from the address's word on. -/
def Machine.homeBytes (m : Machine) (a n : Nat) (ws : List TWord) (pri : Nat) : Machine :=
  m.homeMerge (a / 64) (m.logKeep (a / 64) (placedWords a ws) pri) (m.logGuard (a / 64) (byteMaskAt (a % 64) n)) pri

/-- What a write of a window's bytes needs: nothing, or a page resolved, or it is refused (R405). -/
inductive Wrote where
  | done (m : Machine)
  | fault (ctx va kind : Nat)
  | refused
  /-- the window's shadow is BROKEN, and nothing is written. -/
  | gone (m : Machine)

/-- The berth writes into a shadow. -/
def Machine.shadowedBerth (m : Machine) (b : Nat) : Bool := ((Map.get m.berths b).map (·.shadowed)).getD false

/-- What a berth's window has not published is lost: its shadow is BROKEN (R258, R296, R405). (DEDUCED, log 79) -/
def Machine.breakWindow (m : Machine) (b : Nat) : Machine :=
  { m with berths := Map.upd m.berths b fun r => { r with shadow := r.shadow.map fun s => { s with state := .broken } } }

/-- A write to a page of a context fails for good: the windows whose shadow it was to reach are BROKEN (R296). (DEDUCED, log 79) -/
def Machine.breakAt (m : Machine) (ctx va : Nat) : Machine :=
  m.berths.foldl (fun (m : Machine) (e : Nat × Berth) =>
    if !e.2.import_ && e.2.ctx == ctx && decide (e.2.base ≤ va) && decide (va < e.2.base + e.2.size) then m.breakWindow e.1 else m) m

/-- Write n bytes of an export berth's window: at the home, or into the berth's shadow, which a page that must not be shadowed
makes BROKEN and which then takes no write (R258, R405). (DEDUCED, log 79) -/
def Machine.writeWindow (m : Machine) (b pa off n : Nat) (ws : List TWord) (pri : Nat) : Wrote :=
  match Map.get m.berths b with
  | none => .refused
  | some r =>
    if !r.shadowed then .done (m.homeBytes pa n ws pri)
    else match Map.get m.ctxs r.ctx with
      | none => .refused
      | some c =>
        let sh := r.shadow.getD { state := .open_, foot := [(r.base, r.size)], pages := [], waiter := none }
        if sh.state != .open_ then .gone m
        else match m.shadowFrame (engineKey 4 0) r.ctx c sh (r.base + off) with
        | .frame f sh m =>
          .done ((({ m with berths := Map.set m.berths b { r with shadow := some sh } }) : Machine).homeBytes (f + (r.base + off) % 65536) n ws pri)
        | .notValid => .fault r.ctx (r.base + off) 1
        | .noFrame => .fault r.ctx (r.base + off) 2
        | .prot _ _ => .gone { m with berths := Map.set m.berths b { r with shadow := some { sh with state := .broken } } }

/-- Publish a SHADOWED window (R405): whether nothing was discarded, and the machine. A BROKEN shadow is discarded (R258).
(DEDUCED, log 79) -/
def Machine.publishes (m : Machine) (b : Nat) : Bool × Machine :=
  match Map.get m.berths b with
  | none => (true, m)
  | some r =>
    match r.shadow, Map.get m.ctxs r.ctx with
    | some sh, some c =>
      let m := { m with berths := Map.set m.berths b { r with shadow := none } }
      match (if sh.state = .open_ then m.swap r.ctx c sh else none) with
      | some m => (true, m)
      | none => (false, m.freeFrames c sh)
    | _, _ => (true, m)

def Machine.publishWindow (m : Machine) (b : Nat) : Machine := (m.publishes b).2

/-- Drop what a SHADOWED window has not published (R403, R407). -/
def Machine.dropWindow (m : Machine) (b : Nat) : Machine :=
  match Map.get m.berths b with
  | none => m
  | some r =>
    match r.shadow, Map.get m.ctxs r.ctx with
    | some sh, some c => ({ m with berths := Map.set m.berths b { r with shadow := none } } : Machine).freeFrames c sh
    | _, _ => m

/-- The exports of a context that leaves RUNNING, YIELDING and SAVED are closed (R403). A revocation in progress is still
answered. (DEDUCED, log 68) -/
def Machine.closeExports (m : Machine) (ctx : Nat) : Machine :=
  m.berths.foldl (fun (m : Machine) (e : Nat × Berth) =>
    if !e.2.import_ && e.2.ctx == ctx && (e.2.state == .opened || e.2.state == .revoking) then
      let m := m.dropWindow e.1
      { m with berths := Map.upd m.berths e.1 fun r =>
          { r.nextGen with state := .free, revoke := r.revoke.map fun x => (true, x.2) } }
    else m) m

end Sys2Proof.Machine
end

