-- ==== Sys2Proof/Machine/Ops.lean ====
section
/-! DEFINITION. The operations the meanings are written over: reading operands and uniform words, checks by residue,
writing registers, predicates and the last-result file, parking, taking a trap and coming back from one (R14, R51 to
R71, R91 to R93, R372 to R376, R383). -/

namespace Sys2Proof.Machine

open Sys2Proof

/-! ### Traps -/

def TrapCode.num : TrapCode → Nat
  | .illegal => 1
  | .priv => 2
  | .brtarget => 3
  | .chain => 4
  | .rchk => 5
  | .empty => 6
  | .format => 7
  | .domain => 8
  | .mask => 9
  | .spbound => 10
  | .page => 11
  | .prot => 12
  | .poison => 13
  | .barinv => 14
  | .lwait => 15
  | .revoked => 16
  | .align => 17
  | .stack => 18
  | .trapi => 19
  | .brk => 20
  | .unpack => 21

/-- A parked request of a lane of an instruction: no fetch, record read, or burst of an HREAD. -/
def Parked.ofLane (r : Parked) : Bool :=
  match r.instr with
  | none | some .hreadBurstRequest => false
  | _ => !r.flight

/-- Accesses of a group are parked or in flight: a release waits until nothing the group issued before it is (R250, R257, R270).
(DEDUCED, log 28) -/
def Machine.groupParked (m : Machine) (gk : Nat) : Bool :=
  m.parked.any fun e => e.2.group == gk && (e.2.ofLane || e.2.flight)

/-- A synchronising read of a group is parked: an acquire that follows it waits for it (R270). (DEDUCED, log 28) -/
def Machine.syncReadParked (m : Machine) (gk : Nat) : Bool :=
  m.parked.any fun e => e.2.group == gk && e.2.ofLane && match e.2.instr with
    | some (.lda _) => true
    | some i => e.2.access == 2 && (match i with
      | .redAdd _ | .redMin _ | .redMax _ | .redMinU _ | .redMaxU _ | .redFadd _ | .redAnd _ | .redOr _ | .cdone _ => false
      | _ => true)
    | none => false

/-- What an instruction word does: trap, with the machine that holds what the chain has done all the same (a partial
effect of R256, a cleared injection) and the mask of the replay; be held at issue, so that nothing of the chain happens
(R179); wait at issue for a page with the strand parked, so that nothing of the chain happens yet (R86, R291); or be
done. -/
inductive Act where
  | trap (t : Trap) (base : Machine) (mask : Mask)
  | hold
  | wait (why : ParkWhy) (base : Machine)
  | done (m : Machine)

/-! ### The word being executed -/

/-- The context of one instruction word: the machine being built, the machine and the group as the chain reads them
(R90), the issue, the word, what it uses, its address, and where its captured operands start. -/
structure W where
  m : Machine
  m0 : Machine
  g : Group
  gk : Nat
  is : Issue
  instr : Instr
  u : Uses
  addr : Nat
  slot0 : Nat
  us0 : Nat

def W.mask (w : W) : Mask := w.is.mask

/-- The lanes of the mask that are not helper lanes. -/
def W.real (w : W) : Mask := w.is.mask &&& ~~~ w.g.helper

def W.isHelper (w : W) (l : Nat) : Bool := lane w.g.helper l

/-- The leader: the lowest lane of the mask that is not a helper lane (R214). -/
def W.leader (w : W) : Option Nat := (lanesOf w.real).head?

/-- Every lane of the group's width is in the mask. -/
def W.fullMask (w : W) : Bool := w.mask &&& widthMask w.g.width == widthMask w.g.width

def W.trapAt (w : W) (t : Trap) : Act := .trap t w.m0 w.is.mask

/-- The word has a memory effect that must wait until every other word of its chain has passed its checks (R90). -/
def isAtomic (i : Instr) : Bool :=
  match i with
  | .atomAdd _ | .atomMin _ | .atomMax _ | .atomMinU _ | .atomMaxU _ | .atomFadd _ | .atomExch _ | .atomCas _
  | .atomAnd _ | .atomOr _ | .atomXor _ | .atomAddD _ | .atomExchD _ | .atomCasD _ | .atomsAdd _ | .atomsMin _
  | .atomsMax _ | .atomsMinU _ | .atomsMaxU _ | .atomsFadd _ | .atomsExch _ | .atomsCas _ | .redAdd _ | .redMin _
  | .redMax _ | .redMinU _ | .redMaxU _ | .redFadd _ | .redAnd _ | .redOr _ => true
  | _ => false

/-- The word may perform some of its lanes and fail the others: an atomic, or a load or store whose lanes a berth refuses (R256,
R406). (DEDUCED, log 24) -/
def failsLanes (i : Instr) : Bool :=
  match i with
  | .ld _ | .lda _ | .st _ | .stl _ => true
  | i => isAtomic i

/-- The issue as a word of it sees it: a word of a replayed chain that had failing lanes runs under the mask it is restricted to
(R90, R256). (DEDUCED, log 24) -/
def Issue.restricted (is : Issue) (i : Instr) : Issue :=
  match is.only with
  | some m => if failsLanes i then { is with mask := m } else is
  | none => is

/-- The word context of the next word of the chain being issued. -/
def State.word (s : State) (i : Instr) : Option W :=
  match s.issue, s.pre with
  | some is, some m0 =>
    match Map.get m0.groups is.grp with
    | none => none
    | some g =>
      let us := (is.words.take is.pos).map fun e => usesOf g.width e.1
      some {
        m := s.cur, m0 := m0, g := g, gk := is.grp, is := is.restricted i, instr := i, u := usesOf g.width i
        addr := ((is.words[is.pos]?).map (·.2)).getD is.pc
        slot0 := (us.map fun u => u.srcs.length).sum
        us0 := (us.map fun u => u.us.length).sum }
  | _, _ => none

/-! ### Reading -/

def emptyReg (width : Nat) : Reg := { tag := 0, lanes := List.replicate width TWord.zero, empty := 0 }

/-- A per-lane register by operand number 0 to 61. -/
def Group.reg (g : Group) (n : Nat) : Reg := g.regs.getD n (emptyReg g.width)

/-- A uniform register, or the captured word of a replay (R374). -/
def W.uni (w : W) (n : Nat) : TWord :=
  let own := wordAt w.g.g n
  match w.is.cap with
  | none => own
  | some c => match w.u.us.idxOf? n with
    | some i => (c.uniforms[w.us0 + i]?).getD own
    | none => own

/-- The words of a source reference in the group's registers. -/
def Group.refWords (g : Group) (uni : Nat → TWord) (r : SrcRef) : List TWord :=
  if r.code < 62 then (g.reg r.code).lanes
  else if r.code = 62 then List.replicate g.width TWord.zero
  else if r.code = 63 then List.replicate g.width (TWord.of r.lit)
  else List.replicate g.width (uni (r.code - 64))

def zRef : SrcRef := { code := 62, lit := 0, wait := true }

def W.ref (w : W) (k : Nat) : SrcRef := w.u.srcs.getD k zRef

/-- Source k of the word, one word per lane: captured when the chain is replayed (R383), else from the register. -/
def W.src (w : W) (k : Nat) : List TWord :=
  let own := w.g.refWords w.uni (w.ref k)
  match w.is.cap with
  | none => own
  | some c => ((c.slots.find? fun e => e.1 == w.slot0 + k).map (·.2)).getD own

def W.srcAt (w : W) (k l : Nat) : TWord := wordAt (w.src k) l

/-- The tag of source k; none for Z, K and uniform sources, which have the tag the instruction expects (R51). -/
def W.tag (w : W) (k : Nat) : Option (BitVec 8) :=
  let r := w.ref k
  let own := (w.g.reg r.code).tag
  if r.code < 62 then some (match w.is.cap with
    | some c => (c.tags[w.slot0 + k]?).getD own
    | none => own)
  else none

/-- A predicate in a lane: P7 reads 1 (R100). -/
def Group.pred (g : Group) (p : Fin 8) (l : Nat) : Bool :=
  if p = 7 then true else lane (g.p.getD p.val 0) l

def W.pred (w : W) (p : Fin 8) (l : Nat) : Bool := w.g.pred p l

/-- The 64-bit value of a uniform pair G(2n), G(2n+1) (R99). -/
def W.pair (w : W) (n : Nat) : Nat := nat64 (w.uni (2 * n)).data (w.uni (2 * n + 1)).data

/-! ### Checks -/

/-- EMPTY: a source read with wait bit 0 finds its V register empty in a lane it reads (R92). -/
def W.checkEmpty (w : W) (lanes : Mask) : Option Trap :=
  w.u.srcs.findSome? fun r =>
    let e := (w.g.reg r.code).empty &&& lanes
    if r.code < 56 && !r.wait && e != 0 then some { code := .empty, info := r.code, lanes := some e } else none

/-- Which values carry a stored residue: registers and uniform words do; Z and K do not (R58). -/
def SrcRef.stored (r : SrcRef) : Bool := r.code != 62 && r.code != 63

/-- The operand check over values given per slot (R58): POISON first, then RCHK with cause OPERAND. (DEDUCED, log 15) -/
def operandCheck (real : Mask) (vals : List (Nat × List TWord)) : Option Trap :=
  let bad := fun (f : TWord → Bool) => maskOf ((lanesOf real).filter fun l => vals.any fun v => f (wordAt v.2 l))
  let p := bad TWord.poisoned
  let first := fun (f : TWord → Bool) => ((vals.find? fun v => (lanesOf real).any fun l => f (wordAt v.2 l)).map (·.1)).getD 0
  if p != 0 then some { code := .poison, info := first TWord.poisoned, lanes := some p }
  else
    let r := bad fun t => !t.good
    if r != 0 then
      some { code := .rchk, cause := min 3 (1 + first fun t => !t.good), lanes := some r }
    else none

/-- The operand check on the given source slots of a word. (DEDUCED, log 15) (DEDUCED, log 18) -/
def W.checkSrcs (w : W) (ks : List Nat) : Option Trap :=
  operandCheck w.real ((ks.filter fun k => (w.ref k).stored).map fun k => (k, w.src k))

/-- The operand check on uniform words (R58; slot 0 stands for them, DEDUCED, log 15). -/
def W.checkUni (w : W) (gs : List Nat) : Option Trap :=
  if w.real = 0 then none
  else
    if gs.any fun n => (w.uni n).poisoned then some { code := .poison }
    else if gs.any fun n => !(w.uni n).good then some { code := .rchk, cause := 1 }
    else none

/-- First trap of a list of checks. -/
def firstTrap (l : List (Option Trap)) : Option Trap := l.findSome? id

/-! ### Tags (R51, R52) -/

def fmtOfTag (t : BitVec 8) : Nat := t.toNat % 16

def domOfTag (t : BitVec 8) : Nat := t.toNat / 16

def tagOf (fmt dom : Nat) : BitVec 8 := BitVec.ofNat 8 (dom * 16 + fmt)

/-- FORMAT and DOMAIN traps name the slot and the offending tag (R375). (DEDUCED, log 15) -/
def formatTrap (k : Nat) (t : BitVec 8) : Trap := { code := .format, info := k + 256 * t.toNat }

/-- DEDUCED, log 15. -/
def domainTrap (k : Nat) (t : BitVec 8) : Trap := { code := .domain, info := k + 256 * t.toNat }

/-- The FMT check: every typed source's FMT is among those the instruction takes (R51). -/
def W.checkFmt (w : W) (ks : List Nat) (ok : Nat → Nat → Bool) : Option Trap :=
  ks.findSome? fun k => match w.tag k with
    | some t => if ok k (fmtOfTag t) then none else some (formatTrap k t)
    | none => none

/-- DOM of a typed linear instruction: all register sources agree (R51). -/
def W.commonDom (w : W) (ks : List Nat) : Except Trap Nat :=
  let ts := ks.filterMap fun k => (w.tag k).map fun t => (k, t)
  match ts with
  | [] => .ok 0
  | (_, t) :: r => match r.find? fun e => domOfTag e.2 != domOfTag t with
    | some (k, t') => .error (domainTrap k t')
    | none => .ok (domOfTag t)

/-- DOM of a non-linear instruction: every source has DOM 0 (R51). -/
def W.zeroDom (w : W) (ks : List Nat) : Option Trap :=
  ks.findSome? fun k => match w.tag k with
    | some t => if domOfTag t = 0 then none else some (domainTrap k t)
    | none => none

/-- The logical rule of R52 over the register sources; an expected tag follows the other register source (R51). -/
def W.logicalTag (w : W) (ks : List Nat) : BitVec 8 :=
  match ks.filterMap w.tag with
  | [] => 0
  | t :: r => if r.all (· == t) then t else 0

/-- The tag of a moved source: BITS/0 for a source that is no register (R51). -/
def W.moveTag (w : W) (k : Nat) : BitVec 8 := (w.tag k).getD 0

/-! ### Writing -/

def W.upd (w : W) (f : Group → Group) : W := { w with m := w.m.updGroup w.gk f }

/-- Write lanes of a per-lane register with its tag: a write that does not cover the group and changes the tag makes it
BITS/0 (R52). -/
def Group.writeReg (g : Group) (slot : Nat) (mask : Mask) (f : Nat → TWord) (tag : BitVec 8) : Group :=
  let r := g.reg slot
  let lanes := (List.range g.width).map fun l => if lane mask l then f l else wordAt r.lanes l
  let covers := mask &&& widthMask g.width == widthMask g.width
  let t := if covers || r.tag == tag then tag else 0
  { g with regs := g.regs.set slot { r with lanes := lanes, tag := t } }

/-- The last-result file: L0 moves to L1, the result enters L0; a helper lane leaves it unchanged (R93). (DEDUCED, log 25) -/
def Group.pushLast (g : Group) (mask : Mask) (f : Nat → TWord) (tag : BitVec 8) : Group :=
  let mask := mask &&& ~~~ g.helper
  let l0 := g.reg 60
  let g := g.writeReg 61 mask (fun l => wordAt l0.lanes l) l0.tag
  g.writeReg 60 mask f tag

/-- A result word: register (a write to Z writes none) and last-result file. -/
def Group.writeResult (g : Group) (slots : List Nat) (mask : Mask) (f : Nat → TWord) (tag : BitVec 8) : Group :=
  let g := slots.foldl (fun g s => g.writeReg s mask f tag) g
  g.pushLast mask f tag

def W.writeResult (w : W) (slots : List Nat) (f : Nat → TWord) (tag : BitVec 8) : W :=
  w.upd fun g => g.writeResult slots w.mask f tag

/-- Write a predicate in the lanes of a mask: a write to P7 is discarded (R120). -/
def Group.writePred (g : Group) (p : Fin 8) (mask : Mask) (f : Nat → Bool) : Group :=
  if p = 7 then g
  else
    let old := g.p.getD p.val 0
    let new := maskWhere 128 fun l => if lane mask l then f l else lane old l
    { g with p := g.p.set p.val new }

def W.writePred (w : W) (p : Fin 8) (f : Nat → Bool) : W := w.upd fun g => g.writePred p w.mask f

/-- Ages as another group has them (R190). -/
def Group.agesFrom (g h : Group) : Group :=
  let stack := g.stack.map fun x => { x with age := ((h.stack.find? fun y => y.sid == x.sid).map (·.age)).getD x.age }
  { g with age := h.age, stack := stack }

/-- Ages as another machine has them (R190). -/
def Machine.agesFrom (m n : Machine) : Machine :=
  { m with groups := m.groups.map fun (e : Nat × Group) => (e.1, ((Map.get n.groups e.1).map e.2.agesFrom).getD e.2) }

/-- The word is done. -/
def W.done (w : W) : Act := .done w.m

/-! ### Fault injection (R70, R71) -/

def finjLane (v : BitVec 32) : Nat := bits v.toNat 6 0
def finjBit (v : BitVec 32) : Nat := bits v.toNat 12 7
def finjPipe (v : BitVec 32) : Nat := bits v.toNat 15 13
def finjOneShot (v : BitVec 32) : Bool := v.getLsbD 16
def finjEn (v : BitVec 32) : Bool := v.getLsbD 17

/-- The injection strikes this word: armed on its pipe, its lane active and no helper lane (R71). (DEDUCED, log 16) -/
def W.struck (w : W) : Bool :=
  let v := w.g.finj
  finjEn v && finjPipe v == pipeOf w.instr && decide (finjLane v < w.g.width) && lane w.mask (finjLane v) &&
  !w.isHelper (finjLane v) && decide (finjBit v < 36)

/-- A word with the bit of FINJ flipped, of its data or of its predicted residue. (DEDUCED, log 16) (DEDUCED, log 17) -/
def flipWord (v : BitVec 32) (t : TWord) : TWord :=
  let b := finjBit v
  if b < 32 then { t with data := t.data ^^^ BitVec.ofNat 32 (2 ^ b) }
  else { t with res := t.res ^^^ BitVec.ofNat 4 (2 ^ (b - 32)) }

/-- The word and residue of a lane with the injection applied. (DEDUCED, log 16) (DEDUCED, log 17) -/
def W.inject (w : W) (l : Nat) (t : TWord) : TWord :=
  if w.struck && l == finjLane w.g.finj then flipWord w.g.finj t else t

def clearShot (g : Group) : Group :=
  if finjOneShot g.finj then { g with finj := g.finj &&& ~~~ (BitVec.ofNat 32 (2 ^ 17)) } else g

/-- A one-shot injection clears EN at the write-back of the word it struck. (DEDUCED, log 16) -/
def W.shot (w : W) : W := if w.struck then w.upd clearShot else w

/-- The same for a word that alters a result in some lanes only: with no word loaded in LANE nothing is injected. (DEDUCED, log 16) -/
def W.shotIn (w : W) (lanes : Mask) : W := if lane lanes (finjLane w.g.finj) then w.shot else w

/-- A trap of a struck word clears EN too. (DEDUCED, log 16) -/
def W.trapShot (w : W) (t : Trap) : Act :=
  .trap t (if w.struck then w.m0.updGroup w.gk clearShot else w.m0) w.is.mask

/-! ### Checked results -/

/-- A result word with its predicted residue, per lane, goes through injection and the result check (R58): RCHK with
cause RESULT in a lane that is not a helper; poison in a helper lane that failed a check or consumed poison (R68). (DESIGN CHOICE, log 6) -/
def W.checkResults (w : W) (poisonIn : Nat → Bool) (f : Nat → TWord) : Except Trap (List TWord) :=
  let outs := (List.range w.g.width).map fun l => w.inject l (f l)
  let fails := fun l => (wordAt outs l).res != resOf (wordAt outs l).data
  let bad := maskOf ((lanesOf w.real).filter fails)
  if bad != 0 then .error { code := .rchk, cause := 0, lanes := some bad }
  else .ok ((List.range w.g.width).map fun l =>
    let t := wordAt outs l
    if w.isHelper l && (fails l || poisonIn l) then t.poison else t)

/-- A helper lane consumes poison or a mismatching word in the given slots (R68). (DEDUCED, log 39) -/
def W.helperBad (w : W) (ks : List Nat) (l : Nat) : Bool :=
  w.isHelper l && ks.any fun k => (w.ref k).stored && !(w.srcAt k l).good

/-- Operand check, then the result words with their predicted residues, then write-back into one destination. -/
def W.tryResult (w : W) (ks : List Nat) (slots : List Nat) (tag : BitVec 8) (f : Nat → TWord) : Except Act W :=
  match w.checkSrcs ks with
  | some t => .error (w.trapAt t)
  | none =>
    match w.checkResults (w.helperBad ks) f with
    | .error t => .error (w.trapShot t)
    | .ok outs => .ok ((w.writeResult slots (wordAt outs) tag).shot)

def W.checkedResult (w : W) (ks : List Nat) (slots : List Nat) (tag : BitVec 8) (f : Nat → TWord) : Act :=
  match w.tryResult ks slots tag f with
  | .error a => a
  | .ok w => w.done

/-- A predicate result recomputed by class D (R62): an injected flip of the bit fails the check; it has no predicted
residue to flip. A helper lane that consumes poison writes the bit computed from the data bits, since a predicate holds no
poison (R68). (DEDUCED, log 17) (DESIGN CHOICE, log 77) -/
def W.checkedPred (w : W) (ks : List Nat) (p : Fin 8) (f : Nat → Bool) : Act :=
  match w.checkSrcs ks with
  | some t => w.trapAt t
  | none =>
    let bit := fun (l : Nat) => TWord.of (if f l then 1#32 else 0#32)
    if w.struck && finjBit w.g.finj == 0 then
      w.trapShot { code := .rchk, cause := 0, lanes := some (laneBit (finjLane w.g.finj)) }
    else ((w.writePred p fun l => (bit l).data == 1#32).shot).done

/-- The predicate of an instruction that no check class covers, with an injection on its bit (R71). (DEDUCED, log 17) (DEDUCED, log 16) -/
def W.movedPred (w : W) (p : Fin 8) (f : Nat → Bool) : W :=
  (w.writePred p fun l => f l != (w.struck && finjBit w.g.finj == 0 && l == finjLane w.g.finj)).shot

/-- A class M result: the word with its residue, poison included; no check (R64). -/
def W.movedResult (w : W) (slots : List Nat) (tag : BitVec 8) (f : Nat → TWord) : Act :=
  ((w.writeResult slots (fun l => w.inject l (f l)) tag).shot).done

/-! ### Strands -/

def Group.entry (g : Group) (sid : Nat) : Option Entry := g.stack.find? fun e => e.sid == sid

def Group.updEntry (g : Group) (sid : Nat) (f : Entry → Entry) : Group :=
  { g with stack := g.stack.map fun e => if e.sid == sid then f e else e }

/-- Park the executing strand, or the strands a branch of the same chain made of it, in this word (R188): it runs again
when its wait is abandoned (R191). -/
def W.park (w : W) (why : ParkWhy) : W :=
  w.upd fun g => { g with stack := g.stack.map fun e =>
    if e.kind == .path && (e.sid == w.is.sid || decide (w.g.nextSid ≤ e.sid)) then
      { e with park := some { why := why, instr := w.instr, pc := w.addr, alone := true } }
    else e }

/-- Copies and quay commands: their parked read of a record is a boundary for events and pre-emption (R336, R354). -/
def readsRecord : Instr → Bool
  | .tcopy _ | .tstore _ | .hread _ | .qgath _ | .qred _ | .qcvt _ | .qunpk _ | .qtload _ => true
  | _ => false

/-- Abandon a parked wait: the instruction runs again from its start (R191). Other faults in flight stay. -/
def abandonEntry (e : Entry) : Entry :=
  match e.park with
  | some p => match p.why with
    | .fetch _ => e
    | .read _ => if readsRecord p.instr then { e with park := some { p with why := .again } } else e
    | .bad _ => e
    | .barinv => e
    | _ => { e with park := some { p with why := .again } }
  | none => e

/-! ### Taking a trap (R373 to R376) -/

/-- Physical address of a group's trap frame (R369). -/
def groupFrame (c : Ctx) (image : Nat) : Nat := c.saveBase + 0x40000 + 0x40000 * image

/-- Physical address of a lighter frame (R369). -/
def lighterFrame (c : Ctx) (bimage i : Nat) : Nat :=
  c.saveBase + 0x800000 * (c.bimgOff + bimage) + 0x600000 + 0x10000 * i

/-- The frame header (R374). -/
def frameHeader (t : Trap) (chain pipe nreplay ctx owner pc block gid : Nat) (lighter : Option Lighter) (lanes : Mask)
    (qentry : Nat) : List Word :=
  let n := fun (v : Nat) => BitVec.ofNat 32 v
  [ n (t.code.num + 256 * t.cause + 65536 * chain + 16777216 * pipe)
  , n (nreplay + 256 * (if lighter.isSome then 1 else 0) + 16777216)
  , n (ctx + 256 * owner), 0 ] ++ words64 pc ++ words64 t.addr ++ words64 t.info ++
  [ n block, n gid ] ++ ((List.range 4).map fun i => n (lanes.toNat / 2 ^ (32 * i))) ++
  words64 qentry ++ [ n ((lighter.map (·.burst)).getD 0), 0 ]

/-- The fixed part of a replay entry: chain, mask, captured uniform words, tags (R374). -/
def replayHead (pc : Nat) (raw : List Word) (mask : Mask) (uniforms : List TWord) (tags : List (BitVec 8)) : List Word :=
  let n := fun (v : Nat) => BitVec.ofNat 32 v
  let pad := fun (k : Nat) (l : List Word) => (l ++ List.replicate k 0).take k
  words64 pc ++ [n (min 8 raw.length), 0] ++ pad 8 raw ++ ((List.range 4).map fun i => n (mask.toNat / 2 ^ (32 * i)))
    ++ pad 8 (uniforms.map (·.data))
    ++ [n ((List.range 8).foldl (fun a i => a + (wordAt uniforms i).res.toNat * 16 ^ i) 0)]
    ++ [n (((List.range 4).foldl (fun a i => a + (tags.getD i 0).toNat * 256 ^ i) 0)), n ((tags.getD 4 0).toNat)]

/-- The operands a chain reads, in slot order, at most five (R374). -/
def capturedSlots (g : Group) (is : Issue) : List (SrcRef × List TWord) :=
  let us := is.words.flatMap fun e => (usesOf g.width e.1).srcs
  let own := us.map fun r => (r, g.refWords (wordAt g.g) r)
  let all := (List.range own.length).map fun k =>
    let e := own.getD k (zRef, [])
    match is.cap with
    | none => e
    | some c => (e.1, ((c.slots.find? fun x => x.1 == k).map (·.2)).getD e.2)
  all.take 5

def capturedUniforms (g : Group) (is : Issue) : List TWord :=
  let us := is.words.flatMap fun e => (usesOf g.width e.1).us
  match is.cap with
  | none => (us.map fun n => wordAt g.g n).take 8
  | some c => ((List.range us.length).map fun i => (c.uniforms[i]?).getD (wordAt g.g (us.getD i 0))).take 8

/-- Write a replay entry: chain, mask, uniform words and tags, reserved bytes zero, then the operand slots with their residues
(R374). -/
def Machine.writeEntry (m : Machine) (base pc : Nat) (raw : List Word) (mask : Mask) (uniforms : List TWord)
    (tags : List (BitVec 8)) (slots : List (List TWord)) : Machine :=
  let m := m.setHomeData base (replayHead pc raw mask uniforms tags)
  let m := m.setHomeData (base + 0x6C) (List.replicate 5 0)
  let m := m.setHomeData (base + 0xC40) (List.replicate 48 0)
  (slots.zipIdx).foldl (fun m e =>
    let m := m.setHomeData (base + 0x100 + 512 * e.2) (e.1.map (·.data))
    m.setHomeData (base + 0xB00 + 64 * e.2) ((List.range (ceilDiv e.1.length 8)).map fun k =>
      BitVec.ofNat 32 ((List.range 8).foldl (fun a j => a + (wordAt e.1 (8 * k + j)).res.toNat * 16 ^ j) 0))) m

/-- Address of replay entry i of a frame (R374). -/
def replayAddr (frame i : Nat) : Nat := frame + 0x100 + 0xD00 * i

/-- Write replay entry `i` of a frame with the chain and its captured operands (R374). (DEDUCED, log 24) -/
def Machine.writeReplay (m : Machine) (frame i : Nat) (g : Group) (is : Issue) (mask : Mask) : Machine :=
  let slots := capturedSlots g is
  let own := slots.map fun e => if e.1.code < 62 then (g.reg e.1.code).tag else 0
  let tags := match is.cap with
    | some c => (own.zipIdx).map fun e => (c.tags[e.2]?).getD e.1
    | none => own
  m.writeEntry (replayAddr frame i) is.pc is.raw mask (capturedUniforms g is) tags (slots.map (·.2))

/-- Write replay entry `i` of a frame with a chain that still waited in the group's replay queue (R373, R374). -/
def Machine.writeKept (m : Machine) (frame i : Nat) (r : Replay) : Machine :=
  m.writeEntry (replayAddr frame i) r.pc r.words r.mask r.cap.uniforms r.cap.tags
    ((List.range 5).map fun k => ((r.cap.slots.find? fun x => x.1 == k).map (·.2)).getD [])

/-- The words of a long-latency producer arrive in some lanes: data, residue, tag and full bits together (R52, R179). The
tag covers the group when the producer's mask does. (DEDUCED, log 25) -/
def Group.deliverReg (g : Group) (slot : Nat) (lanes cover : Mask) (ws : List TWord) (tag : BitVec 8) : Group :=
  let r := g.reg slot
  let covers := cover &&& widthMask g.width == widthMask g.width
  { g with regs := g.regs.set slot {
      lanes := (List.range g.width).map fun l => if lane lanes l then wordAt ws l else wordAt r.lanes l
      tag := if covers || r.tag == tag then tag else 0
      empty := r.empty &&& ~~~ lanes } }

/-- Deliver what has arrived of a producer; an MREAD is delivered by its own event (R316), and lanes whose requests are
parked stay empty (R291). (DESIGN CHOICE, log 4) (DEDUCED, log 25) -/
def Group.deliver (g : Group) (pid : Nat) : Group :=
  match Map.get g.pending pid with
  | none => g
  | some p =>
    if p.mread.isSome then g
    else
      let now := p.lanes &&& ~~~ p.parked
      let g := (p.slots.zip p.words).foldl (fun g e => g.deliverReg e.1 now p.mask e.2 p.tag) g
      { g with pending := if p.lanes &&& p.parked = 0 then Map.del g.pending pid
                          else Map.set g.pending pid { p with lanes := p.lanes &&& p.parked } }

def Group.deliverAll (g : Group) : Group := (Map.keys g.pending).foldl (fun g pid => g.deliver pid) g

/-- Stop a group as a forced save does: what is in flight lands and its parked waits are abandoned (R372). -/
def stopGroup (g : Group) : Group :=
  let g := g.deliverAll
  { g with stack := g.stack.map abandonEntry }

/-- A strand's parked fetch or read still waits. -/
def Group.awaitsRead (g : Group) (sid : Nat) : Bool :=
  g.stack.any fun e => e.sid == sid && (match e.park with
    | some p => match p.why with
      | .fetch _ | .read _ => true
      | _ => false
    | none => false)

/-- Requests of strands that no longer wait for them leave their berths: their instruction reads again from the start (R336). -/
def Machine.dropReads (m : Machine) (gk : Nat) : Machine :=
  { m with parked := m.parked.filter fun (e : Nat × Parked) =>
      !(e.2.group == gk && e.2.instr.isNone && (match Map.get m.groups gk with
        | some g => !g.awaitsRead e.2.pendingId
        | none => false)) }

/-- The context enters FAULTED: every group is stopped and saved, and its exports close (R367, R373, R403). Its blocks are
saved by BLOCK_SAVE. -/
def Machine.faultContext (m : Machine) (ctx : Nat) : Machine :=
  let m := (m.updCtx ctx fun c => { c with state := .faulted }).closeExports ctx
  { m with groups := m.groups.map fun e =>
      if e.2.ctx == ctx && e.2.status == .live then (e.1, { stopGroup e.2 with status := .saved }) else e }

/-- Address of entry n of queue q of a context, by the descriptor at QDBASE (R384, R385). -/
def Machine.queueEntryAddr (m : Machine) (c : Ctx) (q n : Nat) : Nat :=
  let (base, m) := m.homeNat64 (c.qdBase + 64 * q)
  let (size, _) := m.homeWord (c.qdBase + 64 * q + 8)
  base + 64 * (n % max 1 size.data.toNat)

/-- The frame a group or lighter traps into: its group image's frame, or the lowest free lighter frame of its block
(R369, R373). none while every lighter frame is full. -/
def Machine.frameFor (m : Machine) (c : Ctx) (g : Group) : Option (Nat × Option Nat) :=
  match g.lighter with
  | none => some (groupFrame c g.image, none)
  | some _ =>
    match Map.get m.blocks g.block with
    | none => none
    | some b =>
      match (List.range 32).find? fun i => !Map.has b.lframes i with
      | none => none
      | some i => some (lighterFrame c b.image i, some i)

/-- The trap frame of a group or lighter, which is written whether or not the context has a supervisor (R14, R374): the
header, for a chain that will be replayed its replay entry, and behind it what is left of the group's replay queue.
(DEDUCED, log 22) -/
def Machine.writeFrame (m : Machine) (frame : Nat) (g : Group) (c : Ctx) (t : Trap) (is : Option (Issue × Mask))
    (chain pipe pc sid : Nat) : Machine :=
  let lanes := match t.lanes with
    | some l => l
    | none => match g.entry sid with
      | some e => e.mask &&& ~~~ g.helper
      | none => 0
  let bidx := ((Map.get m.blocks g.block).map (·.index)).getD 0
  let qentry := match g.lighter with
    | some l => match Map.get m.cmds l.cmd with
      | some cmd => m.queueEntryAddr c cmd.queue cmd.entry
      | none => 0
    | none => 0
  let gid := match g.lighter with
    | some l => ((Map.get m.groups l.group).map (·.gid)).getD g.gid
    | none => g.gid
  let head := if is.isSome then 1 else 0
  let kept := g.replay.take (16 - head)
  let m := m.setHomeData frame
    (frameHeader t chain pipe (head + kept.length) g.ctx c.owner pc bidx gid g.lighter lanes qentry)
  let m := match is with
    | some (i, mask) => m.writeReplay frame 0 g i mask
    | none => m
  (kept.zipIdx).foldl (fun m e => m.writeKept frame (head + e.2) e.1) m

/-- Deliver a trap of a group (R373): its issue stops and what is in flight lands; the frame; then, after a release at DEVICE scope, the trap-queue entry and TRAPPED or, without a supervisor, the
context FAULTED with the chain at the head of the group's replay queue; or, for a lighter whose block has no free frame,
the lighter waits in its trap. `is` holds the chain to replay with its mask (none for the traps whose frame has NREPLAY 0 and for TRAP and BREAK);
`pc` is the frame's PC. (DEDUCED, log 22) -/
def Machine.takeTrap (m : Machine) (gk : Nat) (t : Trap) (is : Option (Issue × Mask)) (chain pipe pc : Nat) (sid : Nat) :
    Machine :=
  match Map.get m.groups gk with
  | none => m
  | some g =>
    match Map.get m.ctxs g.ctx with
    | none => m
    | some c =>
      match m.frameFor c g with
      | none => m.updGroup gk fun g => { g.deliverAll with
          waitTrap := some { trap := t, chain := is, pos := chain, pipe := pipe, pc := pc, sid := sid } }
      | some (frame, li) =>
        -- a save area that lies past the end of memory takes no write (R367)
        let lost := noMemory frame 65536
        let m := if lost then m else m.writeFrame frame g c t is chain pipe pc sid
        if lost || c.super = 0xFF then
          let rep := match is with
            | some (i, mask) => [{ pc := i.pc, words := i.raw, mask := mask, sid := sid, cap := (i.cap.getD { slots := [], uniforms := [], tags := [] }) : Replay }]
            | none => []
          (m.updGroup gk fun g => { g with replay := rep ++ g.replay }).faultContext g.ctx
        else
          let m := match li with
            | some i => m.updBlock g.block fun b => { b with lframes := Map.set b.lframes i gk }
            | none => m
          let m := m.updGroup gk fun g => { g.deliverAll with status := .trapped frame, trapSid := sid }
          let m := m.release g.core .device (((Map.get m.blocks g.block).map fun b => b.cores.length).getD 1)
          let bidx := ((Map.get m.blocks g.block).map (·.index)).getD 0
          let gid := match g.lighter with
            | some l => ((Map.get m.groups l.group).map (·.gid)).getD g.gid
            | none => g.gid
          m.trapEntry g.ctx frame t.code.num (if g.lighter.isSome then 1 else 0) bidx gid

/-- A lighter of a block that waits in its trap takes it, once a frame is free (R350, R373). -/
def Machine.nextTrap (m : Machine) (blk : Nat) : Machine :=
  match m.groups.findSome? fun (e : Nat × Group) =>
      if e.2.block == blk && e.2.status == .live then e.2.waitTrap.map fun w => (e.1, w) else none with
  | some (gk, w) =>
    (m.updGroup gk fun g => { g with waitTrap := none }).takeTrap gk w.trap w.chain w.pos w.pipe w.pc w.sid
  | none => m

/-- TRAP and BREAK are performed: their frame has no replay entry and names the next instruction (R373, R374). -/
def performedTrap : TrapCode → Bool
  | .trapi => true
  | .brk => true
  | _ => false

/-! ### What a word does to the state -/

/-- A held chain: nothing of it happens, and its strand is not ready until something changes (R179, R188). -/
def holdState (s : State) (is : Issue) (m0 : Machine) : State :=
  { s with
    cur := m0.updGroup is.grp fun g =>
      { (g.updEntry is.sid fun e => { e with held := true, age := is.ages.2 }) with age := is.ages.1 }
    issue := none, pre := none }

/-- The issue with one more word of the chain done. -/
def State.nextWord (s : State) : Option Issue := s.issue.map fun is => { is with pos := is.pos + 1 }

/-- The act of a word as a state: done, held, or trapped (R14, R90, R373). -/
def applyAct (s : State) (w : W) (a : Act) : State :=
  match a with
  | .done m => { s with cur := m, issue := s.nextWord }
  | .hold => holdState s w.is w.m0
  | .wait why base =>
    { s with
      cur := { base with clock := s.cur.clock, netCount := max base.netCount s.cur.netCount }.updGroup w.gk fun g =>
        { (g.updEntry w.is.sid fun e => { e with
            park := some { why := why, instr := w.instr, pc := w.addr, alone := w.is.alone }, age := w.is.ages.2 }) with age := w.is.ages.1 }
      issue := none, pre := none }
  | .trap t base mask =>
    let pipe := pipeOf w.instr
    -- the lanes that a word of the chain has performed are not replayed (R256)
    let mask := if failsLanes w.instr then mask else w.is.only.getD mask
    -- an injection that struck an earlier word of the chain is used up (R71)
    let finj := ((Map.get s.cur.groups w.gk).map (·.finj)).getD 0
    let base := base.updGroup w.gk fun g => { g with finj := g.finj &&& finj }
    let base := base.updGroup w.gk fun g => g.updEntry w.is.sid fun e => { e with pc := w.is.next, park := none, entered := false }
    let base := ({ base with clock := s.cur.clock, netCount := max base.netCount s.cur.netCount } : Machine).agesFrom s.cur
    let base := if w.is.replay then base.updGroup w.gk fun g => { g with replay := g.replay.drop 1 } else base
    let m :=
      if performedTrap t.code then base.takeTrap w.gk t none w.is.pos pipe w.is.next w.is.sid
      else base.takeTrap w.gk t (some (w.is, mask)) w.is.pos pipe w.is.pc w.is.sid
    { s with cur := m, issue := none, pre := none }

/-- Run an instruction word: a fault when no strand is issuing. -/
def runWord (i : Instr) (s : State) (f : W → Act) : Host.Outcome State Fault Refusal :=
  match s.word i with
  | none => .fault .noIssue
  | some w => .next (applyAct s w (f w))

/-- Run an event: the machine it leaves; an event that no row names leaves it unchanged (R8). -/
def runEvent (s : State) (f : Machine → Arg → Option Machine) : Host.Outcome State Fault Refusal :=
  match f s.cur s.input with
  | some m => .next { s with cur := m }
  | none => .next s

/-- The checks common to the words of a group: a check that fails traps. -/
def W.guard (w : W) (t : Option Trap) (k : Act) : Act :=
  match t with
  | some t => w.trapAt t
  | none => k

/-- LWAIT for a lighter (R348). -/
def W.lwait (w : W) : Option Trap := if w.g.lighter.isSome then some { code := .lwait } else none

/-- MASK unless every lane of the width is in the mask. -/
def W.needFull (w : W) : Option Trap := if w.fullMask then none else some { code := .mask }

/-- The context of the group. -/
def W.ctx (w : W) : Option Ctx := Map.get w.m0.ctxs w.g.ctx

def W.block (w : W) : Option Block := Map.get w.m0.blocks w.g.block

/-- Cores the block spans (R230). -/
def W.blockCores (w : W) : Nat := (w.block.map fun b => b.cores.length).getD 1

/-- Release at a scope for the group's accesses (R230). -/
def W.release (w : W) (sc : Scope) : W := { w with m := w.m.release w.g.core sc w.blockCores }

def W.acquire (w : W) (sc : Scope) : W := { w with m := w.m.acquire w.g.core sc w.blockCores }

end Sys2Proof.Machine
end

