-- ==== Sys2Proof/Machine/Flags.lean ====
section
/-! DEFINITION. Residue predictions of classes A and S (R60, R61), saturation (R31), the flags and fields of FPC (R37). -/

namespace Sys2Proof.Machine

open Sys2Proof

/-! ### Residues -/

/-- A residue from an integer: its class modulo 15 (R55). -/
def res15 (i : Int) : BitVec 4 := BitVec.ofNat 4 (i.emod 15).toNat

/-- The stored residue of a word as a number. -/
def rn (t : TWord) : Int := t.res.toNat

def wn (t : TWord) : Nat := t.data.toNat

/-- A result word with its predicted residue. (DESIGN CHOICE, log 6) -/
def predicted (v : Nat) (p : Int) : TWord := { data := BitVec.ofNat 32 v, res := res15 p }

/-- A result of class D, F or C: the prediction is recomputed apart from the main unit (R62, R63; DESIGN CHOICE, log 6). -/
def recomputed (v : Word) : TWord := TWord.of v

/-- A + B + ci (R60). -/
def addRes (a b : TWord) (ci : Nat) : TWord :=
  let t := wn a + wn b + ci
  predicted t (rn a + rn b + ci - (t / 2 ^ 32 : Nat))

/-- A − B − bi (R60). -/
def subRes (a b : TWord) (bi : Nat) : TWord :=
  let bo : Nat := if wn a < wn b + bi then 1 else 0
  predicted (wn a + bo * 2 ^ 32 - (wn b + bi)) (rn a - rn b - bi + bo)

/-- The low word of A·B + C with the residue row of MUL and MAD (R60). -/
def mulLow (a b c : TWord) : TWord :=
  let t := wn a * wn b + wn c
  predicted t (rn a * rn b + rn c - (t / 2 ^ 32 % 15 : Nat))

/-- The high word of A·B + C, unsigned (R60). -/
def mulHigh (a b c : TWord) : TWord :=
  let t := wn a * wn b + wn c
  predicted (t / 2 ^ 32) (rn a * rn b + rn c - (t % 2 ^ 32 % 15 : Nat))

def signBit (w : Word) : Nat := w.toNat / 2 ^ 31

/-- The signed high word (R60, row MULH signed). -/
def mulHighSigned (a b : TWord) : TWord :=
  let p := (a.data.toInt * b.data.toInt).emod (2 ^ 64 : Nat)
  let d := BitVec.ofNat 32 (p.toNat / 2 ^ 32)
  let l := p.toNat % 2 ^ 32
  { data := d
    res := res15 ((rn a - signBit a.data) * (rn b - signBit b.data) - (l % 15 : Nat) + signBit d) }

/-- LEA (R124). -/
def leaRes (a b : TWord) (s : Nat) : TWord :=
  let h := wn b / 2 ^ (32 - s)
  let sh := wn b * 2 ^ s % 2 ^ 32
  let t := wn a + sh
  predicted t (rn a + rn b * (2 ^ s : Nat) - (h % 15 : Nat) - (t / 2 ^ 32 : Nat))

/-- 2^k mod 15 and its inverse (R61). -/
def pow2r (k : Nat) : Int := (2 ^ (k % 4) : Nat)
def pow8r (k : Nat) : Int := (8 ^ (k % 4) % 15 : Nat)

/-- SHL by k (R61). -/
def shlRes (a : TWord) (k : Nat) : TWord :=
  let t := wn a * 2 ^ k
  predicted t (rn a * pow2r k - (t / 2 ^ 32 % 15 : Nat))

/-- SHR by k (R61). -/
def shrRes (a : TWord) (k : Nat) : TWord :=
  predicted (wn a / 2 ^ k) ((rn a - (wn a % 2 ^ k % 15 : Nat)) * pow8r k)

/-- SAR by k (R61). -/
def sarRes (a : TWord) (k : Nat) : TWord :=
  { data := a.data.sshiftRight k
    res := res15 ((rn a - signBit a.data - (wn a % 2 ^ k % 15 : Nat)) * pow8r k + signBit a.data) }

/-- ROL by k (R61). -/
def rolRes (a : TWord) (k : Nat) : TWord :=
  { data := a.data.rotateLeft k, res := res15 (rn a * pow2r k) }

/-- ROR by k (R61). -/
def rorRes (a : TWord) (k : Nat) : TWord :=
  { data := a.data.rotateRight k, res := res15 (rn a * pow8r k) }

/-- FSHL of {A, B} by k (R61, R129). -/
def fshlRes (a b : TWord) (k : Nat) : TWord :=
  let h := wn a / 2 ^ (32 - k)
  let l := wn b / 2 ^ (32 - k)
  predicted (wn a * 2 ^ k + l) (rn a * pow2r k - (h % 15 : Nat) + (l % 15 : Nat))

/-- FSHR of {A, B} by k (R61, R129). -/
def fshrRes (a b : TWord) (k : Nat) : TWord :=
  let l := wn b % 2 ^ k
  let h := wn a % 2 ^ k
  predicted (wn b / 2 ^ k + h * 2 ^ (32 - k)) ((rn b - (l % 15 : Nat)) * pow8r k + (h % 15 : Nat) * pow2r (32 - k))

/-- Field position and length of a descriptor word (R130). -/
def fieldPos (d : Word) : Nat := d.toNat % 32
def fieldLen (d : Word) : Nat := min (bits d.toNat 9 5 + 1) (32 - fieldPos d)

/-- BFX: SHR by the position with the bits outside the field as the shifted-out term, then the sign extension (R130). -/
def bfxRes (a d : TWord) : TWord :=
  let p := fieldPos d.data
  let n := fieldLen d.data
  let f := wn a / 2 ^ p % 2 ^ n
  let out := wn a - f * 2 ^ p
  let s : Nat := if d.data.getLsbD 10 && f.testBit (n - 1) then 1 else 0
  predicted (f + s * (2 ^ 32 - 2 ^ n)) ((rn a - (out % 15 : Nat)) * pow8r p + s * (1 - (2 ^ n : Nat)))

/-- BFI into c (R130). -/
def bfiRes (a d c : TWord) : TWord :=
  let p := fieldPos d.data
  let n := fieldLen d.data
  let low := wn a % 2 ^ n
  let dropped := wn a - low
  let cleared := wn c / 2 ^ p % 2 ^ n * 2 ^ p
  predicted (wn c - cleared + low * 2 ^ p)
    (rn c - (cleared % 15 : Nat) + (rn a - (dropped % 15 : Nat)) * pow2r p)

/-- A clamped result: the clamp constant, recomputed (R123, R126). -/
def clampInt (lo hi v : Int) : Int := if v < lo then lo else if hi < v then hi else v

def minI32 : Int := -(2 ^ 31 : Nat)
def maxI32 : Int := (2 ^ 31 - 1 : Nat)

/-- The four bytes of a word, signed or unsigned. -/
def bytes4 (signed : Bool) (w : Word) : List Int :=
  (List.range 4).map fun k => if signed then (byteOf w k).toInt else ((byteOf w k).toNat : Int)

def zipSum (f : Int → Int → Int) (a b : List Int) : Int := ((a.zip b).map fun e => f e.1 e.2).sum

/-- SAD into c (R126). -/
def sadRes (a b c : TWord) : TWord :=
  let s := zipSum (fun x y => (x - y).natAbs) (bytes4 false a.data) (bytes4 false b.data)
  let t : Int := wn c + s
  { data := wordOfInt t, res := res15 (rn c + s - t / (2 ^ 32 : Nat)) }

/-- DOT4 into c (R126). -/
def dotRes (signed sat : Bool) (a b c : TWord) : TWord :=
  let s := zipSum (· * ·) (bytes4 signed a.data) (bytes4 signed b.data)
  let r := zipSum (fun x y => x.emod 15 * y.emod 15) (bytes4 signed a.data) (bytes4 signed b.data)
  let c' : Int := if signed && sat then c.data.toInt else wn c
  let t := c' + s
  if sat then
    let lo := if signed then minI32 else 0
    let hi := if signed then maxI32 else (2 ^ 32 - 1 : Nat)
    if t < lo || hi < t then recomputed (wordOfInt (clampInt lo hi t))
    else
      let d := wordOfInt t
      { data := d, res := res15 (rn c + r - (((wn c : Int) + s - d.toNat) / (2 ^ 32 : Nat))) }
  else { data := wordOfInt t, res := res15 (rn c + r - t / (2 ^ 32 : Nat)) }

/-- ADD.SAT and SUB.SAT: v is the exact signed result, t the wrapped one with its prediction (R123). -/
def satRes (v : Int) (t : TWord) : TWord :=
  if v < minI32 || maxI32 < v then recomputed (wordOfInt (clampInt minI32 maxI32 v)) else t

/-! ### FPC (R37, R38) -/

/-- Sticky flags NV, DZ, OF, UF, NX as bits 0 to 4: FPC bits 4 to 8. -/
abbrev FFlags := BitVec 5

def fNV : FFlags := 1
def fDZ : FFlags := 2
def fOF : FFlags := 4
def fUF : FFlags := 8
def fNX : FFlags := 16

/-- Flags are set by OR (R38). -/
def Group.orFlags (g : Group) (f : FFlags) : Group :=
  { g with fpc := g.fpc ||| BitVec.ofNat 32 (f.toNat * 16) }

def W.orFlags (w : W) (f : FFlags) : W := if f = 0 then w else w.upd fun g => g.orFlags f

/-- The rounding modes of R35. -/
inductive Rm where
  | rn | rz | rd | ru
deriving DecidableEq, Repr

/-- FPC.RM (R37). -/
def rmOfCode : Nat → Rm
  | 0 => .rn
  | 1 => .rz
  | 2 => .rd
  | _ => .ru

def Group.rm (g : Group) : Rm := rmOfCode (bits g.fpc.toNat 1 0)

def Group.ftz (g : Group) : Bool := g.fpc.getLsbD 2

/-- The mode of a word: its modifier, else FPC.RM at issue (R36). -/
def W.rm (w : W) (r : RSel) : Rm :=
  match r with
  | .fpc => w.g.rm
  | .rn => .rn
  | .rz => .rz
  | .rd => .rd
  | .ru => .ru

/-! ### Integer formats (R30) -/

/-- The integer word family: BITS, I32, N32, I64 half (R121). -/
def intFamily (f : Nat) : Bool := f == 0 || f == 1 || f == 2 || f == 13

/-- FMT codes (R49). -/
def fmtI32 : Nat := 1
def fmtN32 : Nat := 2
def fmtF32 : Nat := 3

end Sys2Proof.Machine
end

