-- ==== Sys2Proof/Machine/Numbers.lean ====
section
/-! DEFINITION. The float formats and Q4 (R32 to R35, R39 to R48): values are exact, as sign, magnitude and power of two,
and are rounded once. -/

namespace Sys2Proof.Machine

open Sys2Proof

/-- A float format: exponent width, fraction width, bias, infinities (R32). -/
structure FloatFmt where
  ew : Nat
  fw : Nat
  bias : Nat
  inf : Bool
deriving DecidableEq, Repr

def fmF32 : FloatFmt := ⟨8, 23, 127, true⟩
def fmF16 : FloatFmt := ⟨5, 10, 15, true⟩
def fmB16 : FloatFmt := ⟨8, 7, 127, true⟩
def fmE4M3 : FloatFmt := ⟨4, 3, 7, false⟩
def fmE5M2 : FloatFmt := ⟨5, 2, 15, true⟩

/-- A number: NaN (signalling or not), an infinity, or (−1)^s · m · 2^e with a signed zero (R33). -/
inductive Num where
  | nan (sig : Bool)
  | inf (s : Bool)
  | fin (s : Bool) (m : Nat) (e : Int)
deriving DecidableEq, Repr

def FloatFmt.signAt (f : FloatFmt) : Nat := f.ew + f.fw

/-- Encoding of +∞ (or of E4M3's NaN) without the sign. -/
def FloatFmt.infBits (f : FloatFmt) : Nat := if f.inf then (2 ^ f.ew - 1) * 2 ^ f.fw else 2 ^ (f.ew + f.fw) - 1

def FloatFmt.maxBits (f : FloatFmt) : Nat := f.infBits - 1

/-- The canonical NaN (R32). -/
def FloatFmt.nanBits (f : FloatFmt) : Nat :=
  if f.inf then f.infBits + 2 ^ (f.fw - 1) else f.infBits

/-- Decode an encoding (R33). -/
def FloatFmt.decode (f : FloatFmt) (v : Nat) : Num :=
  let s := v.testBit f.signAt
  let e := v / 2 ^ f.fw % 2 ^ f.ew
  let r := v % 2 ^ f.fw
  if f.inf && e == 2 ^ f.ew - 1 then
    if r = 0 then .inf s else .nan (!r.testBit (f.fw - 1))
  else if !f.inf && v % 2 ^ f.signAt == f.infBits then .nan false
  else if e = 0 then .fin s r (1 - f.bias - f.fw)
  else .fin s (2 ^ f.fw + r) ((e : Int) - f.bias - f.fw)

/-- FTZ on an input: a subnormal F32, F16 or B16 reads as a zero of its sign; never E4M3 or E5M2 (R39). -/
def FloatFmt.ftzApplies (f : FloatFmt) : Bool := f == fmF32 || f == fmF16 || f == fmB16

def FloatFmt.input (f : FloatFmt) (ftz : Bool) (v : Nat) : Num :=
  match f.decode v with
  | .fin s m e => if ftz && f.ftzApplies && decide (m < 2 ^ f.fw) then .fin s 0 e else .fin s m e
  | n => n

/-- m · 2^(−n) rounded to an integer; whether it was inexact (R35). -/
def roundShift (rm : Rm) (s : Bool) (m : Nat) (n : Int) : Nat × Bool :=
  if n ≤ 0 then (m * 2 ^ (-n).toNat, false)
  else
    let k := n.toNat
    let q := m / 2 ^ k
    let t := m % 2 ^ k
    if t = 0 then (q, false)
    else
      let up := match rm with
        | .rn => decide (2 ^ (k - 1) < t) || (t == 2 ^ (k - 1) && q % 2 == 1)
        | .rz => false
        | .rd => s
        | .ru => !s
      (if up then q + 1 else q, true)

def withSign (f : FloatFmt) (s : Bool) (v : Nat) : Nat := if s then v + 2 ^ f.signAt else v

/-- The result of an overflow (R35, R149): sat replaces ±∞ by ±max. (DEDUCED, log 36) -/
def FloatFmt.overflow (f : FloatFmt) (rm : Rm) (sat s : Bool) : Nat :=
  let toInf := match rm with
    | .rn => true
    | .rz => false
    | .rd => s
    | .ru => !s
  if toInf && !sat then (if f.inf then withSign f s f.infBits else f.nanBits) else withSign f s f.maxBits

/-- Round a number into a format once (R35, R39, R40, R149): bits and flags. (DEDUCED, log 36) -/
def FloatFmt.round (f : FloatFmt) (rm : Rm) (ftz sat : Bool) (x : Num) : Nat × FFlags :=
  match x with
  | .nan sig => (f.nanBits, if sig then fNV else 0)
  | .inf s =>
    if f.inf then (withSign f s f.infBits, 0)
    -- E4M3 has no infinity: clamped, with OF and NX, or its NaN (R149)
    else if sat then (withSign f s f.maxBits, fOF ||| fNX) else (f.nanBits, 0)
  | .fin s 0 _ => (withSign f s 0, 0)
  | .fin s m e =>
    let top : Int := (Nat.log2 m : Int) + e
    let emin : Int := 1 - f.bias
    let sub : Int := emin - f.fw
    let q := max (top - f.fw) sub
    let (r, ix) := roundShift rm s m (q - e)
    let v := (q - sub).toNat * 2 ^ f.fw + r
    if f.infBits ≤ v then (f.overflow rm sat s, fOF ||| fNX)
    else if ftz && f.ftzApplies && decide (v < 2 ^ f.fw) && v != 0 then (withSign f s 0, fUF ||| fNX)
    else
      let tiny := decide (top < emin - 1) ||
        (top == emin - 1 && (roundShift rm s m (top - f.fw - e)).1 != 2 ^ (f.fw + 1))
      (withSign f s v, (if ix then fNX else 0) ||| (if ix && tiny then fUF else 0))

/-! ### Exact operations (R35, R40) -/

def Num.neg : Num → Num
  | .nan g => .nan g
  | .inf s => .inf (!s)
  | .fin s m e => .fin (!s) m e

/-- Signed magnitude as an integer multiple of 2^k, for k at or below the exponent. -/
def scaled (s : Bool) (m : Nat) (e k : Int) : Int :=
  let v : Int := (m * 2 ^ (e - k).toNat : Nat)
  if s then -v else v

/-- An exact integer multiple of 2^k as a number; a zero takes the given sign. -/
def Num.ofInt (v k : Int) (zs : Bool) : Num :=
  if v = 0 then .fin zs 0 k else .fin (decide (v < 0)) v.natAbs k

/-- Exact sum; an invalid ∞ − ∞ is a signalling NaN to the rounding (it sets NV) (R35, R40). -/
def Num.add (rm : Rm) (x y : Num) : Num :=
  match x, y with
  | .nan a, .nan b => .nan (a || b)
  | .nan a, _ => .nan a
  | _, .nan b => .nan b
  | .inf s, .inf t => if s = t then .inf s else .nan true
  | .inf s, _ => .inf s
  | _, .inf t => .inf t
  | .fin s m e, .fin t n f =>
    let k := min e f
    let zs := if m = 0 ∧ n = 0 ∧ s = t then s else rm == .rd
    Num.ofInt (scaled s m e k + scaled t n f k) k zs

/-- Exact product (R40). -/
def Num.mul (x y : Num) : Num :=
  match x, y with
  | .nan a, .nan b => .nan (a || b)
  | .nan a, _ => .nan a
  | _, .nan b => .nan b
  | .inf s, .inf t => .inf (s != t)
  | .inf s, .fin t m _ => if m = 0 then .nan true else .inf (s != t)
  | .fin s m _, .inf t => if m = 0 then .nan true else .inf (s != t)
  | .fin s m e, .fin t n f => .fin (s != t) (m * n) (e + f)

/-- a · b + c: an invalid product sets NV even beside a NaN addend (R40). -/
def Num.fma (rm : Rm) (a b c : Num) : Num :=
  match Num.mul a b, c with
  | .nan g, .nan h => .nan (g || h)
  | p, c => Num.add rm p c

/-- Half of a number, exactly. -/
def Num.half : Num → Num
  | .fin s m e => .fin s m (e - 1)
  | n => n

/-! ### Order (R41, R145) -/

def Num.isNan : Num → Bool
  | .nan _ => true
  | _ => false

def Num.isSig : Num → Bool
  | .nan g => g
  | _ => false

/-- A number that is no NaN as an integer multiple of 2^k, infinities beyond all. -/
def Num.key (k : Int) : Num → Int
  | .nan _ => 0
  | .inf s => if s then -(2 ^ 4096 : Nat) else (2 ^ 4096 : Nat)
  | .fin s m e => scaled s m e k

def Num.exp : Num → Int
  | .fin _ _ e => e
  | _ => 0

/-- x < y, and x = y, for numbers that are no NaN; the zeros are equal. -/
def Num.lt (x y : Num) : Bool :=
  let k := min x.exp y.exp
  decide (x.key k < y.key k)

def Num.eq (x y : Num) : Bool :=
  let k := min x.exp y.exp
  decide (x.key k = y.key k)

def Num.sign : Num → Bool
  | .nan _ => false
  | .inf s => s
  | .fin s _ _ => s

/-- Whether FMIN takes the first of two numbers (R41, R144): −0 is below +0, equals of one sign give the first. -/
def Num.minFirst (x y : Num) : Bool := x.lt y || (x.eq y && (x.sign || !y.sign))

def Num.maxFirst (x y : Num) : Bool := y.lt x || (x.eq y && (!x.sign || y.sign))

/-- FMIN and FMAX on encodings of a format: bits and flags; `num` is the .NUM form (R41). -/
def FloatFmt.minMax (f : FloatFmt) (ftz isMin num : Bool) (a b : Nat) : Nat × FFlags :=
  let x := f.input ftz a
  let y := f.input ftz b
  let nv : FFlags := if x.isSig || y.isSig then fNV else 0
  let pick := fun (n : Num) (v : Nat) => match n with
    | .fin s 0 _ => withSign f s 0
    | _ => v
  if x.isNan && y.isNan then (f.nanBits, nv)
  else if x.isNan then (if num then pick y b else f.nanBits, nv)
  else if y.isNan then (if num then pick x a else f.nanBits, nv)
  else if (if isMin then x.minFirst y else x.maxFirst y) then (pick x a, nv) else (pick y b, nv)

/-- FCMP (R145): the relation, and whether NV is set. -/
def fcmp (c : FCond) (x y : Num) : Bool × FFlags :=
  let un := x.isNan || y.isNan
  let r := match c with
    | .eq => !un && x.eq y
    | .ne => un || !x.eq y
    | .lt => !un && x.lt y
    | .le => !un && (x.lt y || x.eq y)
    | .gt => !un && y.lt x
    | .ge => !un && (y.lt x || x.eq y)
    | .un => un
  (r, if x.isSig || y.isSig then fNV else 0)

/-! ### Conversions (R42) -/

/-- An integer format: width and signedness (R30). -/
structure IntFmt where
  n : Nat
  signed : Bool
deriving DecidableEq, Repr

def IntFmt.lo (f : IntFmt) : Int := if f.signed then -(2 ^ (f.n - 1) : Nat) else 0
def IntFmt.hi (f : IntFmt) : Int := if f.signed then (2 ^ (f.n - 1) - 1 : Nat) else (2 ^ f.n - 1 : Nat)

def IntFmt.read (f : IntFmt) (v : Nat) : Int := if f.signed then sext f.n v else (v % 2 ^ f.n : Nat)

def IntFmt.bitsOf (f : IntFmt) (i : Int) : Nat := (i.emod (2 ^ f.n : Nat)).toNat

/-- A number rounded to an integer; whether it differs (R42). -/
def roundToInt (rm : Rm) (s : Bool) (m : Nat) (e : Int) : Int × Bool :=
  let (r, ix) := roundShift rm s m (-e)
  (if s then -(r : Int) else r, ix)

/-- Float to integer: saturates with NV, a NaN gives 0 with NV, an inexact result sets NX (R42). -/
def IntFmt.ofNum (f : IntFmt) (rm : Rm) : Num → Nat × FFlags
  | .nan _ => (0, fNV)
  | .inf s => (f.bitsOf (if s then f.lo else f.hi), fNV)
  | .fin s m e =>
    if 0 < e ∧ 0 < m ∧ f.n < e then (f.bitsOf (if s then f.lo else f.hi), fNV)
    else
      let (v, ix) := roundToInt rm s m e
      if v < f.lo then (f.bitsOf f.lo, fNV)
      else if f.hi < v then (f.bitsOf f.hi, fNV)
      else (f.bitsOf v, if ix then fNX else 0)

/-- A format of one element of CVT (R148). -/
inductive ElFmt where
  | flt (f : FloatFmt)
  | int (f : IntFmt)
deriving DecidableEq, Repr

/-- The element format of a FMT code; none for BITS, Q4, I64 half. -/
def elFmt : Fmt → Option ElFmt
  | .i32 => some (.int ⟨32, true⟩)
  | .n32 => some (.int ⟨32, false⟩)
  | .f32 => some (.flt fmF32)
  | .f16 => some (.flt fmF16)
  | .b16 => some (.flt fmB16)
  | .i16 => some (.int ⟨16, true⟩)
  | .n16 => some (.int ⟨16, false⟩)
  | .e4m3 => some (.flt fmE4M3)
  | .e5m2 => some (.flt fmE5M2)
  | .i8 => some (.int ⟨8, true⟩)
  | .n8 => some (.int ⟨8, false⟩)
  | _ => none

def ElFmt.width : ElFmt → Nat
  | .flt f => f.signAt + 1
  | .int f => f.n

/-- One element converted (R42, R149). -/
def convEl (src dst : ElFmt) (rm : Rm) (ftz sat : Bool) (v : Nat) : Nat × FFlags :=
  match src, dst with
  | .flt a, .flt b => b.round rm ftz sat (a.input ftz v)
  | .flt a, .int b => b.ofNum rm (a.input ftz v)
  | .int a, .flt b => b.round rm ftz sat (Num.ofInt (a.read v) 0 false)
  | .int a, .int b =>
    let i := a.read v
    (b.bitsOf (if sat then clampInt b.lo b.hi i else i), 0)

/-- Element j of a word, n bits wide (R34). -/
def elAt (w n j : Nat) : Nat := w / 2 ^ (n * j) % 2 ^ n

/-- A word of elements n bits wide. -/
def packEls (n : Nat) (l : List Nat) : Nat := (l.zipIdx.map fun e => e.1 % 2 ^ n * 2 ^ (n * e.2)).sum

def orAll (l : List FFlags) : FFlags := l.foldl (· ||| ·) 0

/-- CVT of a word (R148). -/
def convWord (src dst : ElFmt) (rm : Rm) (ftz sat : Bool) (w : Nat) : Nat × FFlags :=
  let n := min (32 / src.width) (32 / dst.width)
  let rs := (List.range n).map fun j => convEl src dst rm ftz sat (elAt w src.width j)
  (packEls dst.width (rs.map (·.1)), orAll (rs.map (·.2)))

/-! ### Q4 blocks (R43 to R48) -/

/-- Code value as an integer multiple of 2^(−3), with the sign of a zero code (R46). -/
def codeNum (ty : QType) (c : Nat) : Num :=
  let s := c.testBit 3
  let i := c % 8
  match ty with
  | .uni => Num.ofInt (sext 4 c) 0 false
  | .e2m1 => .fin s ([0, 1, 2, 3, 4, 6, 8, 12].getD i 0) (-1)
  | .pow2 => .fin s (if i = 0 then 0 else 2 ^ (i - 1)) (-3)
  | .hyb => .fin s (if i < 4 then i else 2 ^ (i - 2)) 0

/-- Value of a code in a block of exponent E (R46). -/
def q4Num (ty : QType) (e : Int) (c : Nat) : Num :=
  match codeNum ty c with
  | .fin s m k => .fin s m (k + e)
  | n => n

/-- A block's decoded scale record (R45, R47): null, or type and exponent, or malformed. -/
inductive QScale where
  | null
  | ok (ty : QType) (e : Int)
  | malformed
deriving DecidableEq, Repr

def qtypeOf : Nat → QType
  | 0 => .uni
  | 1 => .e2m1
  | 2 => .pow2
  | _ => .hyb

def qtypeCode : QType → Nat
  | .uni => 0
  | .e2m1 => 1
  | .pow2 => 2
  | .hyb => 3

/-- Decode n scale records from the bytes at p with running exponent e (R45). -/
def decodeScales (byte : Nat → Nat) : Nat → Nat → Int → List QScale
  | 0, _, _ => []
  | n + 1, p, e =>
    let s := byte p
    let ty := qtypeOf (s / 64 % 4)
    let delta := sext 4 (s / 4 % 16)
    let bad := s % 4 != 0
    if delta = -8 then
      let a := sext 8 (byte (p + 1))
      if a = -128 then (if bad then QScale.malformed else .null) :: decodeScales byte n (p + 2) e
      else (if bad then QScale.malformed else .ok ty a) :: decodeScales byte n (p + 2) a
    else
      let e' := e + delta
      (if bad || decide (e' < -127) || decide (127 < e') then QScale.malformed else .ok ty e')
        :: decodeScales byte n (p + 1) e'

/-- Distance of a code's value from m · 2^(k) in units of 2^(min), as used to choose the nearest code (R48). -/
def codeDist (ty : QType) (s : Bool) (m : Nat) (k : Int) (c : Nat) : Int × Int :=
  match codeNum ty c with
  | .fin s' m' k' =>
    let u := min k k'
    (scaled s m k u - scaled s' m' k' u, u)
  | _ => (0, 0)

/-- Codes in order of magnitude of the sign given (R46). -/
def codesOf (ty : QType) (s : Bool) : List Nat :=
  match ty with
  | .uni => if s then [0, 15, 14, 13, 12, 11, 10, 9, 8] else [0, 1, 2, 3, 4, 5, 6, 7]
  | _ => (List.range 8).map fun i => if s && i != 0 then i + 8 else i

/-- Quantise an element by 2^S: the code and whether it counts as saturated (R48). A negative element of the uniform type saturates
below -8, which is a code value, and not below -7. (DESIGN CHOICE, log 77) -/
def quantise (ty : QType) (sc : Int) (x : Num) : Nat × Bool :=
  match x with
  | .nan _ => (0, true)
  | .inf s => ((codesOf ty s).getLastD 0, true)
  | .fin s m e =>
    let k := e - sc
    let cs := codesOf ty s
    let last := cs.getLastD 0
    -- magnitudes in units of 2^(min k (-3)), capped so that no huge number is formed
    if 64 < k ∧ m ≠ 0 then (last, true)
    else
      let u := min k (-3)
      let v : Nat := m * 2 ^ (k - u).toNat
      let mag := fun (c : Nat) => match codeNum ty c with
        | .fin _ m' k' => m' * 2 ^ (k' - u).toNat
        | _ => 0
      if mag last < v then (last, true)
      else
        let d := fun (c : Nat) => ((mag c : Int) - v).natAbs
        let best := cs.foldl (fun b c =>
          if d c < d b then c else if d c = d b && c % 2 == 0 && b % 2 == 1 then c else b) 0
        (best, false)

/-- The scale record of a block with exponent byte S (R48): scale byte, absolute byte, E after. -/
def scaleRecord (ty : QType) (run s : Int) : Nat × Option Nat × Int :=
  let t := qtypeCode ty * 64
  if s = -128 then (t + 8 * 4, some 0x80, run)
  else
    let d := s - run
    if -7 ≤ d ∧ d ≤ 7 then (t + (d.emod 16).toNat * 4, none, s)
    else (t + 8 * 4, some (s.emod 256).toNat, s)

end Sys2Proof.Machine
end

