-- ==== Sys2Proof/Machine/Approx.lean ====
section
/-! DEFINITION. The approximate functions of R146: exact cases, special inputs, and everywhere else a free value that is
held to the function's bound (DESIGN CHOICE, log 7). The exact value a bound is measured from is computed to more than 55 bits. -/

namespace Sys2Proof.Machine

open Sys2Proof

/-- The functions in the order of R111. -/
inductive ApproxFn where
  | rcp | rsq | sqrt | exp2 | log2 | sin | cos
deriving DecidableEq, Repr

def ApproxFn.num : ApproxFn → Nat
  | .rcp => 0
  | .rsq => 1
  | .sqrt => 2
  | .exp2 => 3
  | .log2 => 4
  | .sin => 5
  | .cos => 6

/-- Fixed-point precision. -/
def fxP : Nat := 120
def fxOne : Nat := 2 ^ fxP
/-- ln 2 and 2π in units of 2^(−120). -/
def fxLn2 : Nat := 921350637599661305226344307672478454
def fxTau : Nat := 8351785813007552717653752915327115494

/-- Integer square root, by bits from the top: the greatest r with r · r ≤ n, r below 2^k. -/
def isqrt (n : Nat) : Nat → Nat → Nat
  | 0, r => r
  | k + 1, r => let c := r + 2 ^ k; if c * c ≤ n then isqrt n k c else isqrt n k r

/-- The sum of a Taylor series whose next term is the last one times t / d, at 2^(−120). -/
def taylor (t : Nat) (step : Nat → Nat) (neg : Bool) : Nat → Nat → Int → Int
  | 0, _, _ => 0
  | k + 1, i, term =>
    let next := term * t / ((fxOne * step i : Nat) : Int)
    term + taylor t step neg k (i + 1) (if neg then -next else next)

/-- 2^f for 0 ≤ f < 1, at 2^(−120). -/
def fxExp2 (f : Nat) : Nat := (taylor (f * fxLn2 / fxOne) (fun i => i + 1) false 36 0 fxOne).toNat

/-- Fraction bits of log₂ of a number in [1, 2), by squaring. -/
def fxLogBits : Nat → Nat → Nat → Nat
  | 0, _, acc => acc
  | k + 1, x, acc =>
    let y := x * x / fxOne
    if 2 * fxOne ≤ y then fxLogBits k (y / 2) (2 * acc + 1) else fxLogBits k y (2 * acc)

/-- sin and cos of 2π·r for 0 ≤ r < 1/4, at 2^(−120). -/
def fxSin (r : Nat) : Int :=
  let t := r * fxTau / fxOne
  taylor (t * t / fxOne) (fun i => (2 * i + 2) * (2 * i + 3)) true 24 0 t
def fxCos (r : Nat) : Int :=
  let t := r * fxTau / fxOne
  taylor (t * t / fxOne) (fun i => (2 * i + 1) * (2 * i + 2)) true 24 0 fxOne

/-- The value the bound is measured from: exactly (true) or to more than 55 bits. -/
def approxTarget (fn : ApproxFn) (s : Bool) (m : Nat) (e : Int) : Num × Bool :=
  match fn with
  | .rcp =>
    let k := Nat.log2 m + 90
    (.fin s (2 ^ k / m) (-(k : Int) - e), m == 2 ^ Nat.log2 m)
  | .rsq =>
    let k := Nat.log2 m + 180
    let k := if (k + e) % 2 = 0 then k else k + 1
    let q := 2 ^ k / m
    let r := isqrt q 110 0
    (.fin false r ((-(k : Int) - e) / 2), m == 2 ^ Nat.log2 m && (Nat.log2 m + e) % 2 == 0)
  | .sqrt =>
    let k : Nat := if e % 2 = 0 then 160 else 161
    let v := m * 2 ^ k
    let r := isqrt v 110 0
    (.fin false r ((e - k) / 2), r * r == v)
  | .exp2 =>
    let v := scaled s m e (min e 0)
    let d : Nat := 2 ^ (-(min e 0)).toNat
    let i := v / (d : Int)
    let f := (v % (d : Int)).toNat * fxOne / d
    (.fin false (fxExp2 f) (i - fxP), v % (d : Int) == 0 && decide (-149 ≤ i))
  | .log2 =>
    let l := Nat.log2 m
    let x := m * fxOne / 2 ^ l
    let i : Int := l + e
    let v := i * (2 ^ 64 : Nat) + fxLogBits 64 x 0
    (Num.ofInt v (-64) false, m == 2 ^ l)
  | .sin | .cos =>
    let d : Nat := 2 ^ (-(min e 0)).toNat
    let r0 := m * 2 ^ (max e 0).toNat % d
    let q := 4 * r0 / d
    let r := (4 * r0 % d) * fxOne / (4 * d)
    let q := if fn = .cos then q + 1 else q
    let v := if q % 2 = 0 then fxSin r else fxCos r
    let v := if 2 ≤ q % 4 then -v else v
    let v := if s && fn == .sin then -v else v
    (Num.ofInt v (-(fxP : Int)) false, 4 * r0 % d == 0)

/-- Whether a result lies within `units` units of 2^u of a value (R146); the value's own error is allowed for. (DESIGN CHOICE, log 7) -/
def within (y c : Num) (units : Nat) (u : Int) : Bool :=
  let y := match y with
    | .inf s => Num.fin s 1 128
    | y => y
  match y, c with
  | .fin s m e, .fin t n f =>
    let b := min (min e f) (u - 30)
    decide ((scaled s m e b - scaled t n f b).natAbs ≤ units * 2 ^ (u - b).toNat + 2 ^ (u - 30 - b).toNat)
  | _, _ => false

/-- ulp of a value in F32, as a power of two (R146). -/
def ulpExp : Num → Int
  | .fin _ m e => max ((Nat.log2 m : Int) + e - 23) (-149)
  | _ => 0

/-- The bound of R146: units and unit. -/
def approxBound (fn : ApproxFn) (x c : Num) : Nat × Int :=
  match fn with
  | .rcp | .sqrt => (1, ulpExp c)
  | .rsq | .exp2 => (2, ulpExp c)
  | .log2 => if !x.lt (.fin false 1 (-1)) && !(Num.fin false 1 1).lt x then (1, -22) else (2, ulpExp c)
  | .sin | .cos => (1, -22)

/-- A result for a finite nonzero operand that R146 lists no special value for. (DESIGN CHOICE, log 7) (DEDUCED, log 36) -/
def approxGeneral (fn : ApproxFn) (ftz : Bool) (w : Word) (s : Bool) (m : Nat) (e : Int) : Nat × FFlags :=
  let x := Num.fin s m e
  let (c, ex) := approxTarget fn s m e
  let (r, fl) := fmF32.round .rn ftz false c
  -- a power of two whose reciprocal is not normal has no exact case
  let ex := ex && !(fn == .rcp && (decide (r % 2 ^ 31 < 2 ^ 23) || decide (fmF32.infBits ≤ r % 2 ^ 31)))
  if ex then (r, fl &&& (fOF ||| fUF))
  else
    let free := (Config.approx (fn.num + if ftz then 16 else 0) w).toNat
    let (n, u) := approxBound fn x c
    let y := if within (fmF32.decode free) c n u then free else (fmF32.round .rn false false c).1
    let mag := y % 2 ^ 31
    if mag = 0 then (0, fUF)
    else if fmF32.infBits ≤ mag then (y, fOF)
    else if mag < 2 ^ 23 then
      -- a flushed result keeps its sign (R39), but for FSIN and FCOS, whose zeros are +0
      (if !ftz then y else if fn == .sin || fn == .cos then 0 else y - mag, fUF)
    else (y, 0)

/-- An approximate function of an F32 word (R146, R147): bits and flags, never NX. -/
def approxF32 (fn : ApproxFn) (ftz : Bool) (w : Word) : Nat × FFlags :=
  let neg : Nat := 2 ^ 31
  let inf := fmF32.infBits
  match fmF32.input ftz w.toNat with
  | .nan sig => (fmF32.nanBits, if sig then fNV else 0)
  | .inf s => match fn with
    | .rcp => (if s then neg else 0, 0)
    | .rsq => if s then (fmF32.nanBits, fNV) else (0, 0)
    | .sqrt => if s then (fmF32.nanBits, fNV) else (inf, 0)
    | .exp2 => if s then (0, 0) else (inf, fOF)
    | .log2 => if s then (fmF32.nanBits, fNV) else (inf, 0)
    | .sin | .cos => (fmF32.nanBits, fNV)
  | .fin s 0 _ => match fn with
    | .rcp | .rsq => (if s then neg + inf else inf, fDZ)
    | .sqrt | .sin => (if s then neg else 0, 0)
    | .exp2 | .cos => (0x3F800000, 0)
    | .log2 => (neg + inf, fDZ)
  | .fin s m e => match fn with
    | .rsq | .sqrt | .log2 =>
      if s then (fmF32.nanBits, fNV) else approxGeneral fn ftz w s m e
    | .exp2 =>
      let x := Num.fin s m e
      if !x.lt (.fin false 1 7) then (inf, fOF)
      else if x.lt (.fin true 150 0) then (0, fUF)
      else approxGeneral fn ftz w s m e
    | _ => approxGeneral fn ftz w s m e

end Sys2Proof.Machine
end

