-- ==== Sys2Proof/Machine/Transform.lean ====
section
/-! DEFINITION. The Haar transform of segments and registers (R319 to R323), the implied reconstruction of DOMCTL.AUTO
(R327), and the checks every typed instruction makes before its operand check (R51, R122, R140). -/

namespace Sys2Proof.Machine

open Sys2Proof

/-! ### One segment (R320) -/

/-- One node of the forward transform: average and detail. -/
def fwdNode (el : ElFmt) (rm : Rm) (ftz : Bool) (a b : Nat) : (Nat × FFlags) × (Nat × FFlags) :=
  match el with
  | .flt f =>
    let x := f.input ftz a
    let y := f.input ftz b
    (f.round rm ftz false (Num.add rm x y).half, f.round rm ftz false (Num.add rm x y.neg).half)
  | .int f =>
    let d := f.bitsOf (f.read a - f.read b)
    let s := f.bitsOf (f.read b + (⟨f.n, true⟩ : IntFmt).read d / 2)
    ((s, 0), (d, 0))

/-- One node of the inverse transform. -/
def invNode (el : ElFmt) (rm : Rm) (ftz : Bool) (s d : Nat) : (Nat × FFlags) × (Nat × FFlags) :=
  match el with
  | .flt f =>
    let x := f.input ftz s
    let y := f.input ftz d
    (f.round rm ftz false (Num.add rm x y), f.round rm ftz false (Num.add rm x y.neg))
  | .int f =>
    let b := f.bitsOf (f.read s - (⟨f.n, true⟩ : IntFmt).read d / 2)
    let a := f.bitsOf (f.read d + f.read b)
    ((a, 0), (b, 0))

/-- Flags of the positions of a segment, joined with those of its first positions. -/
def joinFlags (fl first : List FFlags) : List FFlags :=
  (fl.zipIdx).map fun e => e.1 ||| first.getD e.2 0

/-- Forward transform of depth D: the details of finer levels stand after the coarser ones (R319); the flags of every
rounding stand at the position it is written to. -/
def fwdSeg (el : ElFmt) (rm : Rm) (ftz : Bool) : Nat → List Nat → List Nat × List FFlags
  | 0, x => (x, x.map fun _ => 0)
  | d + 1, x =>
    let r := (List.range (x.length / 2)).map fun i => fwdNode el rm ftz (x.getD (2 * i) 0) (x.getD (2 * i + 1) 0)
    let (c, f) := fwdSeg el rm ftz d (r.map (·.1.1))
    (c ++ r.map (·.2.1), joinFlags (r.map (·.1.2)) f ++ r.map (·.2.2))

/-- Inverse transform: `d` levels are left, `c` holds what is rebuilt, with its flags, and `x` the whole segment. -/
def invSeg (el : ElFmt) (rm : Rm) (ftz : Bool) (x : List Nat) : Nat → List Nat → List FFlags → List Nat × List FFlags
  | 0, c, f => (c, f)
  | d + 1, c, f =>
    let n := c.length
    let r := (List.range n).map fun i => invNode el rm ftz (c.getD i 0) (x.getD (n + i) 0)
    invSeg el rm ftz x d (r.flatMap fun e => [e.1.1, e.2.1]) (joinFlags (r.flatMap fun e => [e.1.2, e.2.2]) f)

/-- Transform a segment of words, each element of the words by itself; flags by position. -/
def transformWords (inv : Bool) (el : ElFmt) (rm : Rm) (ftz : Bool) (d : Nat) (ws : List Nat) : List Nat × List FFlags :=
  let n := el.width
  let rs := (List.range (32 / n)).map fun j =>
    let x := ws.map fun w => elAt w n j
    if inv then invSeg el rm ftz x d (x.take 1) [0] else fwdSeg el rm ftz d x
  ((List.range ws.length).map fun i => packEls n (rs.map fun r => r.1.getD i 0),
    (List.range ws.length).map fun i => orAll (rs.map fun r => r.2.getD i 0))

/-- Segments of 2^d positions of a register. -/
def segments (d : Nat) (ws : List TWord) : List (List TWord) :=
  (List.range (ws.length / 2 ^ d)).map fun k => (ws.drop (k * 2 ^ d)).take (2 ^ d)

/-- Transform a register by segments (R321): poison in a segment makes all of it poison, a mismatching word makes all of it
mismatch, so that the operand check of the consumer finds it (R327). Each segment with its flags by position. -/
def transformReg (inv : Bool) (el : ElFmt) (rm : Rm) (ftz : Bool) (d : Nat) (ws : List TWord) :
    List (List TWord × List FFlags) :=
  (segments d ws).map fun s =>
    let r := transformWords inv el rm ftz d (s.map wn)
    let out := r.1.map fun v => TWord.of (BitVec.ofNat 32 v)
    if s.any TWord.poisoned then (out.map TWord.poison, [])
    else if s.any fun t => !t.good then (out.map fun t => { t with res := res15 (rn t + 1) }, [])
    else (out, r.2)

/-- The element format of a tag's FMT, with the format that BITS is taken as. -/
def elOfCode (dflt : ElFmt) (fmt : Nat) : Option ElFmt :=
  match fmt with
  | 0 => some dflt
  | 1 | 2 | 13 => some (.int ⟨32, true⟩)
  | 3 => some (.flt fmF32)
  | 4 => some (.flt fmF16)
  | 5 => some (.flt fmB16)
  | 6 | 7 => some (.int ⟨16, true⟩)
  | 8 => some (.flt fmE4M3)
  | 9 => some (.flt fmE5M2)
  | 11 | 12 => some (.int ⟨8, true⟩)
  | _ => none

def elI32 : ElFmt := .int ⟨32, true⟩
def elF32 : ElFmt := .flt fmF32

/-! ### DOMCTL.AUTO (R327) -/

def W.auto (w : W) : Bool := w.g.domctl.getLsbD 0

def W.srcDom (w : W) (k : Nat) : Nat := ((w.tag k).map domOfTag).getD 0

/-- Replace source k by the words of an operand latch. -/
def W.latch (w : W) (k : Nat) (ws : List TWord) : W :=
  let c := w.is.cap.getD { slots := [], uniforms := [], tags := [] }
  { w with is := { w.is with cap := some { c with slots := (w.slot0 + k, ws) :: c.slots } } }

/-- AUTOCNT rises by 1 and saturates. (DEDUCED, log 37) -/
def autoCount (v : BitVec 32) : BitVec 32 :=
  if v.toNat / 65536 = 65535 then v else v + 65536

/-- The flags of the positions from a lane on that a mask holds: helper lanes set none (R38). (DEDUCED, log 37) -/
def lanesFlags (real : Mask) (lane0 : Nat) (fl : List FFlags) : FFlags :=
  orAll (fl.zipIdx.map fun e => if lane real (lane0 + e.2) then e.1 else 0)

/-- The flags of the segments of a register. (DEDUCED, log 37) -/
def segFlags (d : Nat) (real : Mask) (rs : List (List TWord × List FFlags)) : FFlags :=
  orAll (rs.zipIdx.map fun e => lanesFlags real (e.2 * 2 ^ d) e.1.2)

/-- The implied reconstruction of source k. (DEDUCED, log 37) -/
def W.reconstruct (w : W) (dflt : ElFmt) (k : Nat) : W :=
  let d := w.srcDom k
  if d = 0 then w
  else
    match elOfCode dflt (fmtOfTag ((w.tag k).getD 0)) with
    | none => w
    | some el =>
      let rs := transformReg true el w.g.rm w.g.ftz d (w.src k)
      let w := w.latch k (rs.flatMap (·.1))
      (w.upd fun g => { g with domctl := autoCount g.domctl }).orFlags (segFlags d w.real rs)

/-- EMPTY over the sources of a word; a source to be reconstructed is read in every lane (R92, R327). -/
def W.emptyTrap (w : W) (all : Nat → Bool) : Option Trap :=
  (w.u.srcs.zipIdx).findSome? fun (e : SrcRef × Nat) =>
    let lanes := if all e.2 then widthMask w.g.width else w.real
    let x := (w.g.reg e.1.code).empty &&& lanes
    if e.1.code < 56 && !e.1.wait && x != 0 then
      some { code := .empty, info := e.1.code, lanes := some x }
    else none

/-- DOMAIN of a non-linear word with AUTO = 1: a depth the register cannot carry, or a format without a transform. (DEDUCED, log 37) -/
def W.autoTrap (w : W) (dflt : Nat → ElFmt) (ks : List Nat) : Option Trap :=
  ks.findSome? fun k =>
    let t := (w.tag k).getD 0
    if w.srcDom k = 0 then none
    else if 2 ^ w.srcDom k ≤ w.g.width && (elOfCode (dflt k) (fmtOfTag t)).isSome then none
    else some (domainTrap k t)

/-- EMPTY, FORMAT and DOMAIN of a typed word over its typed sources; the word with reconstructed sources in their latches,
and the DOM of the result (R51, R122, R140, R327). FORMAT and DOMAIN are conditions of the register: a strand of helper lanes only
traps them too. (DESIGN CHOICE, log 77) -/
def W.typed (w : W) (ks : List Nat) (ok : Nat → Nat → Bool) (dflt : Nat → ElFmt) (linear : Bool) : Except Trap (W × Nat) :=
  let auto := !linear && w.auto
  match w.emptyTrap fun k => auto && ks.contains k && w.srcDom k != 0 with
  | some t => .error t
  | none =>
    match w.checkFmt ks ok with
    | some t => .error t
    | none =>
      if linear then
        match w.commonDom ks with
        | .error t => .error t
        | .ok d => .ok (w, d)
      else if auto then
        match w.autoTrap dflt ks with
        | some t => .error t
        | none => .ok (ks.foldl (fun w k => w.reconstruct (dflt k) k) w, 0)
      else
        match w.zeroDom ks with
        | some t => .error t
        | none => .ok (w, 0)

/-- The checks of an untyped word: EMPTY alone (R51: tag-agnostic). -/
def W.untyped (w : W) : Option Trap := w.emptyTrap fun _ => false

end Sys2Proof.Machine
end

