-- ==== Sys2Proof/Machine/Integer.lean ====
section
/-! DEFINITION. The integer instructions (R121 to R137). -/

namespace Sys2Proof.Machine

open Sys2Proof

/-! ### Shared operations -/

/-- The family rule: the FMT of A when it is I32, N32 or I64 half, else I32 (R121). -/
def W.familyFmt (w : W) : Nat :=
  match w.tag 0 with
  | some t => if fmtOfTag t = 2 ∨ fmtOfTag t = 13 then fmtOfTag t else fmtI32
  | none => fmtI32

/-- A typed integer instruction over sources of the integer word family (R121, R122). -/
def W.intResult (w : W) (ks : List Nat) (linear : Bool) (fmt : W → Nat) (slots : List Nat) (f : W → Nat → TWord) :
    Act :=
  match w.typed ks (fun _ t => intFamily t) (fun _ => elI32) linear with
  | .error t => w.trapAt t
  | .ok (w', dom) => w'.checkedResult ks slots (tagOf (fmt w) dom) (f w')

/-- ADDC and SUBB: a result, and the carry or borrow in P6 (R123); P6 of a helper lane that consumes poison or a mismatching word is
that of the data bits (R68). (DESIGN CHOICE, log 77) -/
def W.limbResult (w : W) (slots : List Nat) (f : W → Nat → TWord) (carry : W → Nat → Bool) : Act :=
  match w.typed [0, 1] (fun _ t => intFamily t) (fun _ => elI32) false with
  | .error t => w.trapAt t
  | .ok (w', _) =>
    match w'.tryResult [0, 1] slots (tagOf w.familyFmt 0) (f w') with
    | .error a => a
    | .ok v => (v.writePred 6 (carry w')).done

/-- SAD and DOT4: byte sources of one packed format and an accumulator of the integer word family (R126). A BITS byte source in
the Haar domain is reconstructed as four signed 8-bit elements (R327). (DESIGN CHOICE, log 77) -/
def W.byteResult (w : W) (code fmt : Nat) (slots : List Nat) (f : W → Nat → TWord) : Act :=
  match w.typed [0, 1, 2] (fun k t => if k < 2 then t == code || t == 0 else intFamily t)
      (fun k => if k < 2 then .int ⟨8, true⟩ else elI32) false with
  | .error t => w.trapAt t
  | .ok (w', _) => w'.checkedResult [0, 1, 2] slots (tagOf fmt 0) (f w')

/-- A tag-agnostic instruction with a checked result (R121, R131). -/
def W.plainResult (w : W) (ks : List Nat) (tag : BitVec 8) (slots : List Nat) (f : Nat → TWord) : Act :=
  match w.untyped with
  | some t => w.trapAt t
  | none => w.checkedResult ks slots tag f

/-- tag(A); an A that is no register has the tag of the instruction's other register source (R51), of BFI, FSHL and FSHR the first
of B and the old D that is a register. (DESIGN CHOICE, log 77) -/
def W.tagA (w : W) (ks : List Nat) : BitVec 8 := (ks.filterMap w.tag).headD 0

/-- A class M result without a check (R64). -/
def W.moveResult (w : W) (tag : BitVec 8) (slots : List Nat) (f : Nat → TWord) : Act :=
  match w.untyped with
  | some t => w.trapAt t
  | none => w.movedResult slots tag f

/-- CMP: a typed comparison into a predicate (R132). -/
def W.cmpResult (w : W) (p : Fin 8) (f : Word → Word → Bool) : Act :=
  match w.typed [0, 1] (fun _ t => intFamily t) (fun _ => elI32) false with
  | .error t => w.trapAt t
  | .ok (w', _) => w'.checkedPred [0, 1] p fun l => f (w'.srcAt 0 l).data (w'.srcAt 1 l).data

def W.a (w : W) (l : Nat) : TWord := w.srcAt 0 l
def W.b (w : W) (l : Nat) : TWord := w.srcAt 1 l
def W.c (w : W) (l : Nat) : TWord := w.srcAt 2 l

/-- The shift amount of a word: bits [4:0] (R129). -/
def shiftOf (t : TWord) : Nat := t.data.toNat % 32

def isUniform : RSrc → Bool
  | .g _ => true
  | .op _ => false

def signedMin (a b : TWord) : TWord := if b.data.slt a.data then b else a
def signedMax (a b : TWord) : TWord := if a.data.slt b.data then b else a
def unsignedMin (a b : TWord) : TWord := if b.data.ult a.data then b else a
def unsignedMax (a b : TWord) : TWord := if a.data.ult b.data then b else a

/-- ABS: A when A[31] = 0 with its own residue, else 0 − A (R123). -/
def absRes (a : TWord) : TWord := if a.data.getLsbD 31 then subRes TWord.zero a 0 else a

/-- Number of 1 bits, and of leading 0 bits (R128). -/
def popcount (w : Word) : Nat := ((List.range 32).filter fun i => w.getLsbD i).length
def leadingZeros (w : Word) : Nat := if w = 0 then 32 else 31 - Nat.log2 w.toNat

/-- Bit i to bit 31 − i (R128). -/
def reverseBits (w : Word) : Word :=
  BitVec.ofNat 32 (((List.range 32).filter fun i => w.getLsbD i).foldl (fun a i => a + 2 ^ (31 - i)) 0)

/-- A truth table applied to three words bit by bit (R110). -/
def bmix (lut : BitVec 8) (a b c : Word) : Word :=
  BitVec.ofNat 32 (((List.range 32).filter fun i =>
    lut.getLsbD ((if a.getLsbD i then 1 else 0) + (if b.getLsbD i then 2 else 0) + (if c.getLsbD i then 4 else 0))).foldl
      (fun x i => x + 2 ^ i) 0)

/-- Sign-extended and zero-extended immediates, with the residue of the value as it enters the operand latch (R58, R137). -/
def immS (i : BitVec 20) : TWord := TWord.of (i.signExtend 32)
def immZ (i : BitVec 20) : TWord := TWord.of (i.zeroExtend 32)

/-- Word n of the grid's constant bank, with the residue formed as it enters the operand latch (R58, R97). -/
def W.bankWord (w : W) (n : Nat) : TWord :=
  TWord.of (wordAt (((Map.get w.m0.grids w.g.grid).map (·.bank)).getD []) n).data

/-! ### The instructions -/

/-- ADD (R123). -/
def execAdd (f : RR) (s : State) : Host.Outcome State Fault Refusal :=
  runWord (.add f) s fun w => w.intResult [0, 1] true W.familyFmt (dstSlots f.d) fun w l => addRes (w.a l) (w.b l) 0

/-- ADD.SAT (R123). -/
def execAddSat (f : RS) (s : State) : Host.Outcome State Fault Refusal :=
  runWord (.addSat f) s fun w => w.intResult [0, 1] false (fun _ => fmtI32) (dstSlots f.d) fun w l =>
    satRes ((w.a l).data.toInt + (w.b l).data.toInt) (addRes (w.a l) (w.b l) 0)

/-- SUB (R123). -/
def execSub (f : RR) (s : State) : Host.Outcome State Fault Refusal :=
  runWord (.sub f) s fun w => w.intResult [0, 1] true W.familyFmt (dstSlots f.d) fun w l => subRes (w.a l) (w.b l) 0

/-- SUB.SAT (R123). -/
def execSubSat (f : RS) (s : State) : Host.Outcome State Fault Refusal :=
  runWord (.subSat f) s fun w => w.intResult [0, 1] false (fun _ => fmtI32) (dstSlots f.d) fun w l =>
    satRes ((w.a l).data.toInt - (w.b l).data.toInt) (subRes (w.a l) (w.b l) 0)

/-- ADDC: carry in and out through P6 (R123). -/
def execAddc (f : RR) (s : State) : Host.Outcome State Fault Refusal :=
  runWord (.addc f) s fun w => w.limbResult (dstSlots f.d) (fun w l => addRes (w.a l) (w.b l) (if w.pred 6 l then 1 else 0))
    fun w l => decide (2 ^ 32 ≤ wn (w.a l) + wn (w.b l) + (if w.pred 6 l then 1 else 0))

/-- SUBB: borrow in and out through P6 (R123). -/
def execSubb (f : RR) (s : State) : Host.Outcome State Fault Refusal :=
  runWord (.subb f) s fun w => w.limbResult (dstSlots f.d) (fun w l => subRes (w.a l) (w.b l) (if w.pred 6 l then 1 else 0))
    fun w l => decide (wn (w.a l) < wn (w.b l) + (if w.pred 6 l then 1 else 0))

/-- NEG (R123). -/
def execNeg (f : R1) (s : State) : Host.Outcome State Fault Refusal :=
  runWord (.neg f) s fun w => w.intResult [0] true W.familyFmt (dstSlots f.d) fun w l => subRes TWord.zero (w.a l) 0

/-- ABS (R123). -/
def execAbs (f : R1) (s : State) : Host.Outcome State Fault Refusal :=
  runWord (.abs f) s fun w => w.intResult [0] false (fun _ => fmtI32) (dstSlots f.d) fun w l => absRes (w.a l)

/-- SAD (R126). -/
def execSad (f : RR) (s : State) : Host.Outcome State Fault Refusal :=
  runWord (.sad f) s fun w => w.byteResult 12 fmtN32 (dstSlots f.d) fun w l => sadRes (w.a l) (w.b l) (w.c l)

/-- MOV: data, residue and tag, poison included (R135). -/
def execMov (f : R1) (s : State) : Host.Outcome State Fault Refusal :=
  runWord (.mov f) s fun w => w.moveResult (w.moveTag 0) (dstSlots f.d) w.a

/-- MUL: linear when one source is uniform (R121, R125). -/
def execMul (f : RR) (s : State) : Host.Outcome State Fault Refusal :=
  runWord (.mul f) s fun w => w.intResult [0, 1] (isUniform f.a || isUniform f.b) W.familyFmt (dstSlots f.d) fun w l =>
    mulLow (w.a l) (w.b l) TWord.zero

/-- MULH, signed (R125). -/
def execMulh (f : RR) (s : State) : Host.Outcome State Fault Refusal :=
  runWord (.mulh f) s fun w => w.intResult [0, 1] false (fun _ => fmtI32) (dstSlots f.d) fun w l => mulHighSigned (w.a l) (w.b l)

/-- MULH.U (R125). -/
def execMulhU (f : RS) (s : State) : Host.Outcome State Fault Refusal :=
  runWord (.mulhU f) s fun w => w.intResult [0, 1] false (fun _ => fmtN32) (dstSlots f.d) fun w l => mulHigh (w.a l) (w.b l) TWord.zero

/-- MAD (R125). -/
def execMad (f : RR) (s : State) : Host.Outcome State Fault Refusal :=
  runWord (.mad f) s fun w => w.intResult [0, 1, 2] false W.familyFmt (dstSlots f.d) fun w l => mulLow (w.a l) (w.b l) (w.c l)

/-- MADH, unsigned (R125). -/
def execMadh (f : RR) (s : State) : Host.Outcome State Fault Refusal :=
  runWord (.madh f) s fun w => w.intResult [0, 1, 2] false (fun _ => fmtN32) (dstSlots f.d) fun w l => mulHigh (w.a l) (w.b l) (w.c l)

/-- MIN (R127). -/
def execMin (f : RR) (s : State) : Host.Outcome State Fault Refusal :=
  runWord (.min f) s fun w => w.intResult [0, 1] false (fun _ => fmtI32) (dstSlots f.d) fun w l => signedMin (w.a l) (w.b l)

/-- MIN.U (R127). -/
def execMinU (f : RS) (s : State) : Host.Outcome State Fault Refusal :=
  runWord (.minU f) s fun w => w.intResult [0, 1] false (fun _ => fmtN32) (dstSlots f.d) fun w l => unsignedMin (w.a l) (w.b l)

/-- MAX (R127). -/
def execMax (f : RR) (s : State) : Host.Outcome State Fault Refusal :=
  runWord (.max f) s fun w => w.intResult [0, 1] false (fun _ => fmtI32) (dstSlots f.d) fun w l => signedMax (w.a l) (w.b l)

/-- MAX.U (R127). -/
def execMaxU (f : RS) (s : State) : Host.Outcome State Fault Refusal :=
  runWord (.maxU f) s fun w => w.intResult [0, 1] false (fun _ => fmtN32) (dstSlots f.d) fun w l => unsignedMax (w.a l) (w.b l)

/-- DOT4 (R126). -/
def execDot4 (f : RR) (s : State) : Host.Outcome State Fault Refusal :=
  runWord (.dot4 f) s fun w => w.byteResult 11 fmtI32 (dstSlots f.d) fun w l => dotRes true false (w.a l) (w.b l) (w.c l)

/-- DOT4.SAT (R126). -/
def execDot4Sat (f : RS) (s : State) : Host.Outcome State Fault Refusal :=
  runWord (.dot4Sat f) s fun w => w.byteResult 11 fmtI32 (dstSlots f.d) fun w l => dotRes true true (w.a l) (w.b l) (w.c l)

/-- DOT4.U (R126). -/
def execDot4U (f : RR) (s : State) : Host.Outcome State Fault Refusal :=
  runWord (.dot4U f) s fun w => w.byteResult 12 fmtN32 (dstSlots f.d) fun w l => dotRes false false (w.a l) (w.b l) (w.c l)

/-- DOT4.U.SAT (R126). -/
def execDot4USat (f : RS) (s : State) : Host.Outcome State Fault Refusal :=
  runWord (.dot4USat f) s fun w => w.byteResult 12 fmtN32 (dstSlots f.d) fun w l => dotRes false true (w.a l) (w.b l) (w.c l)

/-- AND (R131). -/
def execAnd (f : RR) (s : State) : Host.Outcome State Fault Refusal :=
  runWord (.and f) s fun w => w.plainResult [0, 1] (w.logicalTag [0, 1]) (dstSlots f.d) fun l => recomputed ((w.a l).data &&& (w.b l).data)

/-- OR (R131). -/
def execOr (f : RR) (s : State) : Host.Outcome State Fault Refusal :=
  runWord (.or f) s fun w => w.plainResult [0, 1] (w.logicalTag [0, 1]) (dstSlots f.d) fun l => recomputed ((w.a l).data ||| (w.b l).data)

/-- XOR (R131). -/
def execXor (f : RR) (s : State) : Host.Outcome State Fault Refusal :=
  runWord (.xor f) s fun w => w.plainResult [0, 1] (w.logicalTag [0, 1]) (dstSlots f.d) fun l => recomputed ((w.a l).data ^^^ (w.b l).data)

/-- ANDN (R131). -/
def execAndn (f : RR) (s : State) : Host.Outcome State Fault Refusal :=
  runWord (.andn f) s fun w => w.plainResult [0, 1] (w.logicalTag [0, 1]) (dstSlots f.d) fun l => recomputed ((w.a l).data &&& ~~~ (w.b l).data)

/-- POPC (R128). -/
def execPopc (f : R1) (s : State) : Host.Outcome State Fault Refusal :=
  runWord (.popc f) s fun w => w.plainResult [0] (tagOf fmtI32 0) (dstSlots f.d) fun l =>
    recomputed (BitVec.ofNat 32 (popcount (w.a l).data))

/-- CLZ (R128). -/
def execClz (f : R1) (s : State) : Host.Outcome State Fault Refusal :=
  runWord (.clz f) s fun w => w.plainResult [0] (tagOf fmtI32 0) (dstSlots f.d) fun l =>
    recomputed (BitVec.ofNat 32 (leadingZeros (w.a l).data))

/-- BREV (R128). -/
def execBrev (f : R1) (s : State) : Host.Outcome State Fault Refusal :=
  runWord (.brev f) s fun w => w.plainResult [0] (w.tagA [0]) (dstSlots f.d) fun l => recomputed (reverseBits (w.a l).data)

/-- SHL (R129). -/
def execShl (f : RR) (s : State) : Host.Outcome State Fault Refusal :=
  runWord (.shl f) s fun w => w.plainResult [0, 1] (w.tagA [0, 1]) (dstSlots f.d) fun l => shlRes (w.a l) (shiftOf (w.b l))

/-- SHR (R129). -/
def execShr (f : RR) (s : State) : Host.Outcome State Fault Refusal :=
  runWord (.shr f) s fun w => w.plainResult [0, 1] (w.tagA [0, 1]) (dstSlots f.d) fun l => shrRes (w.a l) (shiftOf (w.b l))

/-- SAR (R129). -/
def execSar (f : RR) (s : State) : Host.Outcome State Fault Refusal :=
  runWord (.sar f) s fun w => w.plainResult [0, 1] (w.tagA [0, 1]) (dstSlots f.d) fun l => sarRes (w.a l) (shiftOf (w.b l))

/-- ROL (R129). -/
def execRol (f : RR) (s : State) : Host.Outcome State Fault Refusal :=
  runWord (.rol f) s fun w => w.plainResult [0, 1] (w.tagA [0, 1]) (dstSlots f.d) fun l => rolRes (w.a l) (shiftOf (w.b l))

/-- ROR (R129). -/
def execRor (f : RR) (s : State) : Host.Outcome State Fault Refusal :=
  runWord (.ror f) s fun w => w.plainResult [0, 1] (w.tagA [0, 1]) (dstSlots f.d) fun l => rorRes (w.a l) (shiftOf (w.b l))

/-- BFX (R130). -/
def execBfx (f : RR) (s : State) : Host.Outcome State Fault Refusal :=
  runWord (.bfx f) s fun w => w.plainResult [0, 1] (w.tagA [0, 1]) (dstSlots f.d) fun l => bfxRes (w.a l) (w.b l)

/-- BFI (R130). -/
def execBfi (f : RR) (s : State) : Host.Outcome State Fault Refusal :=
  runWord (.bfi f) s fun w => w.plainResult [0, 1, 2] (w.tagA [0, 1, 2]) (dstSlots f.d) fun l => bfiRes (w.a l) (w.b l) (w.c l)

/-- FSHL (R129). -/
def execFshl (f : RR) (s : State) : Host.Outcome State Fault Refusal :=
  runWord (.fshl f) s fun w => w.plainResult [0, 1, 2] (w.tagA [0, 1, 2]) (dstSlots f.d) fun l =>
    fshlRes (w.a l) (w.b l) (shiftOf (w.c l))

/-- FSHR (R129). -/
def execFshr (f : RR) (s : State) : Host.Outcome State Fault Refusal :=
  runWord (.fshr f) s fun w => w.plainResult [0, 1, 2] (w.tagA [0, 1, 2]) (dstSlots f.d) fun l =>
    fshrRes (w.a l) (w.b l) (shiftOf (w.c l))

/-- LEA.1 (R124). -/
def execLea1 (f : RR) (s : State) : Host.Outcome State Fault Refusal :=
  runWord (.lea1 f) s fun w => w.intResult [0, 1] false W.familyFmt (dstSlots f.d) fun w l => leaRes (w.a l) (w.b l) 1

/-- LEA.2 (R124). -/
def execLea2 (f : RR) (s : State) : Host.Outcome State Fault Refusal :=
  runWord (.lea2 f) s fun w => w.intResult [0, 1] false W.familyFmt (dstSlots f.d) fun w l => leaRes (w.a l) (w.b l) 2

/-- LEA.3 (R124). -/
def execLea3 (f : RR) (s : State) : Host.Outcome State Fault Refusal :=
  runWord (.lea3 f) s fun w => w.intResult [0, 1] false W.familyFmt (dstSlots f.d) fun w l => leaRes (w.a l) (w.b l) 3

/-- LEA.4 (R124). -/
def execLea4 (f : RR) (s : State) : Host.Outcome State Fault Refusal :=
  runWord (.lea4 f) s fun w => w.intResult [0, 1] false W.familyFmt (dstSlots f.d) fun w l => leaRes (w.a l) (w.b l) 4

/-- CMP.EQ (R132). -/
def execCmpEq (f : CmpF) (s : State) : Host.Outcome State Fault Refusal :=
  runWord (.cmpEq f) s fun w => w.cmpResult f.p fun a b => a == b

/-- CMP.NE (R132). -/
def execCmpNe (f : CmpF) (s : State) : Host.Outcome State Fault Refusal :=
  runWord (.cmpNe f) s fun w => w.cmpResult f.p fun a b => a != b

/-- CMP.LT (R132). -/
def execCmpLt (f : CmpF) (s : State) : Host.Outcome State Fault Refusal :=
  runWord (.cmpLt f) s fun w => w.cmpResult f.p fun a b => a.slt b

/-- CMP.LE (R132). -/
def execCmpLe (f : CmpF) (s : State) : Host.Outcome State Fault Refusal :=
  runWord (.cmpLe f) s fun w => w.cmpResult f.p fun a b => a.sle b

/-- CMP.LT.U (R132). -/
def execCmpLtU (f : CmpF) (s : State) : Host.Outcome State Fault Refusal :=
  runWord (.cmpLtU f) s fun w => w.cmpResult f.p fun a b => a.ult b

/-- CMP.LE.U (R132). -/
def execCmpLeU (f : CmpF) (s : State) : Host.Outcome State Fault Refusal :=
  runWord (.cmpLeU f) s fun w => w.cmpResult f.p fun a b => a.ule b

/-- SEL (R133). -/
def execSel (f : SelF) (s : State) : Host.Outcome State Fault Refusal :=
  runWord (.sel f) s fun w => w.plainResult [0, 1] (w.logicalTag [0, 1]) (dstSlots f.d) fun l => if w.pred f.p l then w.a l else w.b l

/-- MOVK (R136). -/
def execMovk (f : MovkF) (s : State) : Host.Outcome State Fault Refusal :=
  runWord (.movk f) s fun w => w.moveResult 0 (dstSlots f.d) fun _ => w.bankWord f.k.val

/-- BMIX (R110, R131). -/
def execBmix (f : BmixF) (s : State) : Host.Outcome State Fault Refusal :=
  runWord (.bmix f) s fun w => w.plainResult [0, 1, 2] (w.logicalTag [0, 1, 2]) (dstSlots f.d) fun l =>
    recomputed (bmix f.lut (w.a l).data (w.b l).data (w.c l).data)

/-- MOVI (R137). -/
def execMovi (f : RI) (s : State) : Host.Outcome State Fault Refusal :=
  runWord (.movi f) s fun w => w.moveResult 0 [f.d.val] fun _ => immS f.imm

/-- ADDI (R137). -/
def execAddi (f : RI) (s : State) : Host.Outcome State Fault Refusal :=
  runWord (.addi f) s fun w => w.intResult [0] false W.familyFmt [f.d.val] fun w l => addRes (w.a l) (immS f.imm) 0

/-- ANDI (R137). -/
def execAndi (f : RI) (s : State) : Host.Outcome State Fault Refusal :=
  runWord (.andi f) s fun w => w.plainResult [0] (w.tagA [0]) [f.d.val] fun l =>
    recomputed ((w.a l).data &&& (immS f.imm).data)

/-- ORI (R137). -/
def execOri (f : RI) (s : State) : Host.Outcome State Fault Refusal :=
  runWord (.ori f) s fun w => w.plainResult [0] (w.tagA [0]) [f.d.val] fun l =>
    recomputed ((w.a l).data ||| (immZ f.imm).data)

/-- XORI (R137). -/
def execXori (f : RI) (s : State) : Host.Outcome State Fault Refusal :=
  runWord (.xori f) s fun w => w.plainResult [0] (w.tagA [0]) [f.d.val] fun l =>
    recomputed ((w.a l).data ^^^ (immZ f.imm).data)

/-- SHLI (R137). -/
def execShli (f : ShliF) (s : State) : Host.Outcome State Fault Refusal :=
  runWord (.shli f) s fun w => w.plainResult [0] (w.tagA [0]) [f.d.val] fun l => shlRes (w.a l) f.k.val

/-- PLOP (R134). -/
def execPlop (f : PlopF) (s : State) : Host.Outcome State Fault Refusal :=
  runWord (.plop f) s fun w => w.checkedPred [] f.p fun l =>
    f.lut.getLsbD ((if w.pred f.a l then 2 else 0) + (if w.pred f.b l then 1 else 0))

end Sys2Proof.Machine
end

