-- ==== Sys2Proof/Machine/Float.lean ====
section
/-! DEFINITION. The float instructions, conversions and packing (R138 to R152). -/

namespace Sys2Proof.Machine

open Sys2Proof

/-! ### Shared operations -/

/-- One result word of several: where it goes, in which lanes, with which tag (R150, R152). -/
structure ResultWord where
  slots : List Nat
  mask : Mask
  tag : BitVec 8
  words : Nat → TWord
  /-- the helper lanes in which the word consumes poison or a mismatching word (R68). -/
  bad : Nat → Bool

/-- Operand checks given, then every result word checked before any is written, in order (R58, R93); a run of registers enters the
last-result file ascending, so that L0 holds the last. (DESIGN CHOICE, log 77) -/
def W.tryMany (w : W) (operands : Option Trap) (rs : List ResultWord) : Except Act W :=
  match operands with
  | some t => .error (w.trapAt t)
  | none =>
    match rs.findSome? fun r => match w.checkResults r.bad r.words with
        | .error t => some t
        | .ok _ => none with
    | some t => .error (w.trapShot t)
    | none => .ok ((rs.foldl (fun v r => match w.checkResults r.bad r.words with
        | .error _ => v
        | .ok outs => v.upd fun g => g.writeResult r.slots r.mask (wordAt outs) r.tag) w).shot)

/-- The flags that the lanes of a mask set: helper lanes set none (R38). -/
def W.laneFlags (w : W) (f : Nat → FFlags) : FFlags := orAll ((lanesOf w.real).map f)

/-- A float result per lane: bits and flags; a typed instruction of F32 sources unless told otherwise (R138 to R141). -/
def W.floatTyped (w : W) (ks : List Nat) (ok : Nat → Nat → Bool) (dflt : ElFmt) (linear : Bool) (fmt : Nat)
    (slots : List Nat) (f : W → Nat → Nat × FFlags) : Act :=
  match w.typed ks ok (fun _ => dflt) linear with
  | .error t => w.trapAt t
  | .ok (w', dom) =>
    match w'.tryResult ks slots (tagOf fmt dom) fun l => recomputed (BitVec.ofNat 32 (f w' l).1) with
    | .error a => a
    | .ok v => (v.orFlags (w.laneFlags fun l => (f w' l).2)).done

def okF32 (_ : Nat) (f : Nat) : Bool := f == 3 || f == 0

def W.floatResult (w : W) (ks : List Nat) (linear : Bool) (slots : List Nat) (f : W → Nat → Nat × FFlags) : Act :=
  w.floatTyped ks okF32 elF32 linear fmtF32 slots f

/-- A source word as an F32 number: FTZ on inputs (R39). -/
def W.num (w : W) (t : TWord) : Num := fmF32.input w.g.ftz t.data.toNat

/-- Round an exact F32 result (R35, R39). -/
def W.roundF32 (w : W) (rm : Rm) (x : Num) : Nat × FFlags := fmF32.round rm w.g.ftz false x

def W.faddLane (w : W) (rm : Rm) (l : Nat) : Nat × FFlags := w.roundF32 rm (Num.add rm (w.num (w.a l)) (w.num (w.b l)))
def W.fsubLane (w : W) (rm : Rm) (l : Nat) : Nat × FFlags :=
  w.roundF32 rm (Num.add rm (w.num (w.a l)) (w.num (w.b l)).neg)
def W.fmulLane (w : W) (rm : Rm) (l : Nat) : Nat × FFlags := w.roundF32 rm (Num.mul (w.num (w.a l)) (w.num (w.b l)))
def W.fmaLane (w : W) (rm : Rm) (a b c : TWord) : Nat × FFlags :=
  w.roundF32 rm (Num.fma rm (w.num a) (w.num b) (w.num c))

/-- FMUL is linear when one source is uniform or K (R139). -/
def scalar : RSrc → Bool
  | .g _ => true
  | .op (.k _) => true
  | .op _ => false

/-- FINT (R144). -/
def fint (rm : Rm) (x : Num) : Nat × FFlags :=
  match x with
  | .fin s m e =>
    let (r, ix) := roundShift rm s m (-e)
    ((fmF32.round .rz false false (.fin s r 0)).1, if ix then fNX else 0)
  | n => fmF32.round .rz false false n

def W.fintLane (w : W) (rm : Rm) (l : Nat) : Nat × FFlags := fint rm (w.num (w.a l))

/-- The operating format of PFMA: the first FMT of A, B, D that is not BITS, else F16×2 (R143). -/
def W.pairFmt (w : W) : Nat :=
  (([0, 1, 2].filterMap w.tag).map fmtOfTag |>.find? (· != 0)).getD 4

def pairFloat (code : Nat) : FloatFmt := if code = 5 then fmB16 else fmF16

/-- PFMA in one lane: each half fused and rounded by itself (R143). -/
def pfma (f : FloatFmt) (rm : Rm) (ftz : Bool) (a b c : Nat) : Nat × FFlags :=
  let rs := (List.range 2).map fun j =>
    f.round rm ftz false (Num.fma rm (f.input ftz (elAt a 16 j)) (f.input ftz (elAt b 16 j)) (f.input ftz (elAt c 16 j)))
  (packEls 16 (rs.map (·.1)), orAll (rs.map (·.2)))

/-- PFMA (R143); where the operating format is neither F16x2 nor B16x2 the first failing slot is named: slot 0, with the tag it has.
(DESIGN CHOICE, log 77) -/
def W.pfmaAct (w : W) (rm : Rm) (slots : List Nat) : Act :=
  let op := w.pairFmt
  w.floatTyped [0, 1, 2] (fun _ t => (op == 4 || op == 5) && (t == op || t == 0)) (.flt (pairFloat op)) false op slots
    fun w l => pfma (pairFloat op) rm w.g.ftz (wn (w.a l)) (wn (w.b l)) (wn (w.c l))

def W.minMaxAct (w : W) (isMin num : Bool) (slots : List Nat) : Act :=
  w.floatResult [0, 1] false slots fun w l => fmF32.minMax w.g.ftz isMin num (wn (w.a l)) (wn (w.b l))

def W.approxAct (w : W) (fn : ApproxFn) (slots : List Nat) : Act :=
  w.floatResult [0] false slots fun w l => approxF32 fn w.g.ftz (w.a l).data

/-- FCMP: class D into a predicate, NV for a signalling NaN (R145). -/
def W.fcmpAct (w : W) (c : FCond) (p : Fin 8) : Act :=
  match w.typed [0, 1] okF32 (fun _ => elF32) false with
  | .error t => w.trapAt t
  | .ok (w', _) =>
    let r := fun l => fcmp c (w'.num (w'.a l)) (w'.num (w'.b l))
    match w'.checkedPred [0, 1] p fun l => (r l).1 with
    | .done m => .done (m.updGroup w.gk fun g => g.orFlags (w.laneFlags fun l => (r l).2))
    | a => a

/-- An F32 immediate (R98). -/
def immF (i : BitVec 20) : TWord := TWord.of (BitVec.ofNat 32 (i.toNat * 4096))

/-- CVT (R148). -/
def W.cvtAct (w : W) (src dst : Fmt) (rm : Rm) (sat : Bool) (slots : List Nat) : Act :=
  match elFmt src, elFmt dst with
  | some a, some b =>
    let linear := match a, b with
      | .flt _, .flt _ => !sat
      | _, _ => false
    w.floatTyped [0] (fun _ t => t == src.code || t == 0) a linear dst.code slots
      fun w l => convWord a b rm w.g.ftz sat (wn (w.a l))
  | _, _ => w.trapAt { code := .illegal }

/-- The source element of PACK.TO: F32 for a float, a word taken signed or unsigned for an integer (R150). -/
def packSource : ElFmt → ElFmt
  | .flt _ => elF32
  | .int f => .int ⟨32, f.signed⟩

/-- PACK: register A + j becomes element j, saturating, by FPC.RM (R150). (DEDUCED, log 36) -/
def W.packAct (w : W) (tgt : Fmt) (slots : List Nat) : Act :=
  match elFmt tgt with
  | none => w.trapAt { code := .illegal }
  | some b =>
    let a := packSource b
    let n := 32 / b.width
    let ok := fun (_ t : Nat) => match b with
      | .flt _ => t == 3 || t == 0
      | .int _ => intFamily t
    w.floatTyped (List.range n) ok a false tgt.code slots fun w l =>
      let rs := (List.range n).map fun j => convEl a b w.g.rm w.g.ftz true (wn (w.srcAt j l))
      (packEls b.width (rs.map (·.1)), orAll (rs.map (·.2)))

/-- UNPK: element j becomes a word of register D + j, keeping the DOM (R150). -/
def W.unpkAct (w : W) (fr : Fmt) (d : Nat) : Act :=
  match elFmt fr with
  | none => w.trapAt { code := .illegal }
  | some a =>
    match w.typed [0] (fun _ t => t == fr.code || t == 0) (fun _ => a) true with
    | .error t => w.trapAt t
    | .ok (w, dom) =>
      let b : ElFmt := packSource a
      let fmt := match b with
        | .flt _ => fmtF32
        | .int f => if f.signed then fmtI32 else fmtN32
      let r := fun (j l : Nat) => convEl a b w.g.rm w.g.ftz false (elAt (wn (w.a l)) a.width j)
      let n := 32 / a.width
      match w.tryMany (w.checkSrcs [0]) ((List.range n).map fun j =>
          { slots := [d + j], mask := w.mask, tag := tagOf fmt dom, bad := w.helperBad [0]
            words := fun l => recomputed (BitVec.ofNat 32 (r j l).1) }) with
      | .error a => a
      | .ok v => (v.orFlags (w.laneFlags fun l => orAll ((List.range n).map fun j => (r j l).2))).done

/-- MASK of CVTQ: a quad of the mask with a lane outside it (R152). -/
def W.quadMask (w : W) : Option Trap :=
  if (lanesOf w.mask).all fun l => (List.range 4).all fun j => lane w.mask (l / 4 * 4 + j) then none
  else some { code := .mask }

/-- The block word of a lane: X0 of the quad's first lane (R151). (DEDUCED, log 40) -/
def W.blockWord (w : W) (k l : Nat) : TWord := w.srcAt k (l / 4 * 4)

/-- The operand check of CVTQ: its typed sources, and X0 as the quad reads it. (DEDUCED, log 40) -/
def W.checkBlock (w : W) (n : Nat) : Option Trap :=
  operandCheck w.real (((List.range n).filter fun k => (w.ref k).stored).map (fun k => (k, w.src k)) ++
    [(n, (List.range w.g.width).map (w.blockWord n))])

/-- A helper lane of CVTQ consumes a bad word of its own sources, or the bad block word of its quad (R68, R152). -/
def W.blockBad (w : W) (n l : Nat) : Bool :=
  w.helperBad (List.range n) l || w.isHelper l && !(w.blockWord n l).good

/-- The X1 word of a helper first lane consumes the elements of all four lanes (R68, R152). -/
def W.scaleBad (w : W) (n l : Nat) : Bool :=
  w.isHelper l && (!(w.blockWord n l).good ||
    (List.range 4).any fun j => (List.range n).any fun k => (w.ref k).stored && !(w.srcAt k (l / 4 * 4 + j)).good)

/-- One block quantised by R48: the codes of the 32 elements with the saturation count, and the X1 word. -/
def quantBlock (ty : QType) (x0 : Word) (els : List Num) : List Nat × Word :=
  let s := sext 8 (bits x0.toNat 7 0)
  let ein := sext 8 (bits x0.toNat 15 8)
  let (sc, ab, eo) := scaleRecord ty ein s
  let qs := if s = -128 then els.map fun _ => (0, false) else els.map (quantise ty s)
  let satc := (qs.filter (·.2)).length
  (qs.map (·.1), BitVec.ofNat 32 (sc + (ab.getD 0) * 256 + (if ab.isSome then 65536 else 0) + satc * 2 ^ 18 +
    (eo.emod 256).toNat * 2 ^ 24))

/-- CVTQ.Q (R152). X1 enters the last-result file after the D word, in the first lanes of quads; it is computed from the data bits and
is not poison where only a helper lane of the quad has a bad element. (DESIGN CHOICE, log 77) -/
def W.cvtqQAct (w : W) (ty : QType) (slots : List Nat) : Act :=
  match w.typed (List.range 8) okF32 (fun _ => elF32) false with
  | .error t => w.trapAt t
  | .ok (w, _) =>
    match w.quadMask with
    | some t => w.trapAt t
    | none =>
      let blk := fun (q : Nat) => quantBlock ty (w.srcAt 8 (4 * q)).data ((List.range 32).map fun e =>
        fmF32.decode (wn (w.srcAt (e % 8) (4 * q + e / 8))))
      let firsts := w.mask &&& maskWhere 128 fun l => l % 4 == 0
      match w.tryMany (w.checkBlock 8)
          [ { slots := slots, mask := w.mask, tag := tagOf 10 0, bad := w.blockBad 8
              words := fun l => recomputed (BitVec.ofNat 32 (packEls 4 (((blk (l / 4)).1.drop (8 * (l % 4))).take 8))) }
          , { slots := [57], mask := firsts, tag := 0, bad := w.scaleBad 8, words := fun l => recomputed (blk (l / 4)).2 } ] with
      | .error a => a
      | .ok v => v.done

/-- CVTQ.X (R152). -/
def W.cvtqXAct (w : W) (ty : QType) (d : Nat) : Act :=
  match w.typed [0] (fun _ t => t == 10 || t == 0) (fun _ => elF32) false with
  | .error t => w.trapAt t
  | .ok (w, _) =>
    match w.quadMask with
    | some t => w.trapAt t
    | none =>
      let r := fun (i l : Nat) =>
        let e := sext 8 (bits (w.blockWord 1 l).data.toNat 7 0)
        if e = -128 then (0, (0 : FFlags))
        else w.roundF32 w.g.rm (q4Num ty e (elAt (wn (w.a l)) 4 i))
      match w.tryMany (w.checkBlock 1) ((List.range 8).map fun i =>
          { slots := [d + i], mask := w.mask, tag := tagOf fmtF32 0, bad := w.blockBad 1
            words := fun l => recomputed (BitVec.ofNat 32 (r i l).1) }) with
      | .error a => a
      | .ok v => (v.orFlags (w.laneFlags fun l => orAll ((List.range 8).map fun i => (r i l).2))).done

/-! ### The instructions -/

/-- FADD (R141). -/
def execFadd (f : RR) (s : State) : Host.Outcome State Fault Refusal :=
  runWord (.fadd f) s fun w => w.floatResult [0, 1] true (dstSlots f.d) fun v l => v.faddLane (w.g.rm) l

/-- FSUB (R141). -/
def execFsub (f : RR) (s : State) : Host.Outcome State Fault Refusal :=
  runWord (.fsub f) s fun w => w.floatResult [0, 1] true (dstSlots f.d) fun v l => v.fsubLane (w.g.rm) l

/-- FMUL (R141). -/
def execFmul (f : RR) (s : State) : Host.Outcome State Fault Refusal :=
  runWord (.fmul f) s fun w => w.floatResult [0, 1] (scalar f.a || scalar f.b) (dstSlots f.d) fun v l => v.fmulLane (w.g.rm) l

/-- FINT (R144). -/
def execFint (f : R1) (s : State) : Host.Outcome State Fault Refusal :=
  runWord (.fint f) s fun w => w.floatResult [0] false (dstSlots f.d) fun v l => v.fintLane (w.g.rm) l

/-- PFMA (R143). -/
def execPfma (f : RR) (s : State) : Host.Outcome State Fault Refusal :=
  runWord (.pfma f) s fun w => w.pfmaAct (w.g.rm) (dstSlots f.d)

/-- FMA (R142). -/
def execFma (f : RQ) (s : State) : Host.Outcome State Fault Refusal :=
  runWord (.fma f) s fun w => w.floatResult [0, 1, 2] false (dstSlots f.d) fun v l => v.fmaLane (w.g.rm) (v.a l) (v.b l) (v.c l)

/-- FADD.RN (R141). -/
def execFaddRn (f : RR) (s : State) : Host.Outcome State Fault Refusal :=
  runWord (.faddRn f) s fun w => w.floatResult [0, 1] true (dstSlots f.d) fun v l => v.faddLane (.rn) l

/-- FSUB.RN (R141). -/
def execFsubRn (f : RR) (s : State) : Host.Outcome State Fault Refusal :=
  runWord (.fsubRn f) s fun w => w.floatResult [0, 1] true (dstSlots f.d) fun v l => v.fsubLane (.rn) l

/-- FMUL.RN (R141). -/
def execFmulRn (f : RR) (s : State) : Host.Outcome State Fault Refusal :=
  runWord (.fmulRn f) s fun w => w.floatResult [0, 1] (scalar f.a || scalar f.b) (dstSlots f.d) fun v l => v.fmulLane (.rn) l

/-- FINT.RN (R144). -/
def execFintRn (f : R1) (s : State) : Host.Outcome State Fault Refusal :=
  runWord (.fintRn f) s fun w => w.floatResult [0] false (dstSlots f.d) fun v l => v.fintLane (.rn) l

/-- PFMA.RN (R143). -/
def execPfmaRn (f : RR) (s : State) : Host.Outcome State Fault Refusal :=
  runWord (.pfmaRn f) s fun w => w.pfmaAct (.rn) (dstSlots f.d)

/-- FMA.RN (R142). -/
def execFmaRn (f : RQ) (s : State) : Host.Outcome State Fault Refusal :=
  runWord (.fmaRn f) s fun w => w.floatResult [0, 1, 2] false (dstSlots f.d) fun v l => v.fmaLane (.rn) (v.a l) (v.b l) (v.c l)

/-- FADD.RZ (R141). -/
def execFaddRz (f : RR) (s : State) : Host.Outcome State Fault Refusal :=
  runWord (.faddRz f) s fun w => w.floatResult [0, 1] true (dstSlots f.d) fun v l => v.faddLane (.rz) l

/-- FSUB.RZ (R141). -/
def execFsubRz (f : RR) (s : State) : Host.Outcome State Fault Refusal :=
  runWord (.fsubRz f) s fun w => w.floatResult [0, 1] true (dstSlots f.d) fun v l => v.fsubLane (.rz) l

/-- FMUL.RZ (R141). -/
def execFmulRz (f : RR) (s : State) : Host.Outcome State Fault Refusal :=
  runWord (.fmulRz f) s fun w => w.floatResult [0, 1] (scalar f.a || scalar f.b) (dstSlots f.d) fun v l => v.fmulLane (.rz) l

/-- FINT.RZ (R144). -/
def execFintRz (f : R1) (s : State) : Host.Outcome State Fault Refusal :=
  runWord (.fintRz f) s fun w => w.floatResult [0] false (dstSlots f.d) fun v l => v.fintLane (.rz) l

/-- PFMA.RZ (R143). -/
def execPfmaRz (f : RR) (s : State) : Host.Outcome State Fault Refusal :=
  runWord (.pfmaRz f) s fun w => w.pfmaAct (.rz) (dstSlots f.d)

/-- FMA.RZ (R142). -/
def execFmaRz (f : RQ) (s : State) : Host.Outcome State Fault Refusal :=
  runWord (.fmaRz f) s fun w => w.floatResult [0, 1, 2] false (dstSlots f.d) fun v l => v.fmaLane (.rz) (v.a l) (v.b l) (v.c l)

/-- FADD.RD (R141). -/
def execFaddRd (f : RR) (s : State) : Host.Outcome State Fault Refusal :=
  runWord (.faddRd f) s fun w => w.floatResult [0, 1] true (dstSlots f.d) fun v l => v.faddLane (.rd) l

/-- FSUB.RD (R141). -/
def execFsubRd (f : RR) (s : State) : Host.Outcome State Fault Refusal :=
  runWord (.fsubRd f) s fun w => w.floatResult [0, 1] true (dstSlots f.d) fun v l => v.fsubLane (.rd) l

/-- FMUL.RD (R141). -/
def execFmulRd (f : RR) (s : State) : Host.Outcome State Fault Refusal :=
  runWord (.fmulRd f) s fun w => w.floatResult [0, 1] (scalar f.a || scalar f.b) (dstSlots f.d) fun v l => v.fmulLane (.rd) l

/-- FINT.RD (R144). -/
def execFintRd (f : R1) (s : State) : Host.Outcome State Fault Refusal :=
  runWord (.fintRd f) s fun w => w.floatResult [0] false (dstSlots f.d) fun v l => v.fintLane (.rd) l

/-- PFMA.RD (R143). -/
def execPfmaRd (f : RR) (s : State) : Host.Outcome State Fault Refusal :=
  runWord (.pfmaRd f) s fun w => w.pfmaAct (.rd) (dstSlots f.d)

/-- FMA.RD (R142). -/
def execFmaRd (f : RQ) (s : State) : Host.Outcome State Fault Refusal :=
  runWord (.fmaRd f) s fun w => w.floatResult [0, 1, 2] false (dstSlots f.d) fun v l => v.fmaLane (.rd) (v.a l) (v.b l) (v.c l)

/-- FADD.RU (R141). -/
def execFaddRu (f : RR) (s : State) : Host.Outcome State Fault Refusal :=
  runWord (.faddRu f) s fun w => w.floatResult [0, 1] true (dstSlots f.d) fun v l => v.faddLane (.ru) l

/-- FSUB.RU (R141). -/
def execFsubRu (f : RR) (s : State) : Host.Outcome State Fault Refusal :=
  runWord (.fsubRu f) s fun w => w.floatResult [0, 1] true (dstSlots f.d) fun v l => v.fsubLane (.ru) l

/-- FMUL.RU (R141). -/
def execFmulRu (f : RR) (s : State) : Host.Outcome State Fault Refusal :=
  runWord (.fmulRu f) s fun w => w.floatResult [0, 1] (scalar f.a || scalar f.b) (dstSlots f.d) fun v l => v.fmulLane (.ru) l

/-- FINT.RU (R144). -/
def execFintRu (f : R1) (s : State) : Host.Outcome State Fault Refusal :=
  runWord (.fintRu f) s fun w => w.floatResult [0] false (dstSlots f.d) fun v l => v.fintLane (.ru) l

/-- PFMA.RU (R143). -/
def execPfmaRu (f : RR) (s : State) : Host.Outcome State Fault Refusal :=
  runWord (.pfmaRu f) s fun w => w.pfmaAct (.ru) (dstSlots f.d)

/-- FMA.RU (R142). -/
def execFmaRu (f : RQ) (s : State) : Host.Outcome State Fault Refusal :=
  runWord (.fmaRu f) s fun w => w.floatResult [0, 1, 2] false (dstSlots f.d) fun v l => v.fmaLane (.ru) (v.a l) (v.b l) (v.c l)

/-- FMIN (R144). -/
def execFmin (f : RR) (s : State) : Host.Outcome State Fault Refusal :=
  runWord (.fmin f) s fun w => w.minMaxAct true false (dstSlots f.d)

/-- FMIN.NUM (R144). -/
def execFminNum (f : RS) (s : State) : Host.Outcome State Fault Refusal :=
  runWord (.fminNum f) s fun w => w.minMaxAct true true (dstSlots f.d)

/-- FMAX (R144). -/
def execFmax (f : RR) (s : State) : Host.Outcome State Fault Refusal :=
  runWord (.fmax f) s fun w => w.minMaxAct false false (dstSlots f.d)

/-- FMAX.NUM (R144). -/
def execFmaxNum (f : RS) (s : State) : Host.Outcome State Fault Refusal :=
  runWord (.fmaxNum f) s fun w => w.minMaxAct false true (dstSlots f.d)

/-- FCMP (R145). -/
def execFcmp (f : FcmpF) (s : State) : Host.Outcome State Fault Refusal :=
  runWord (.fcmp f) s fun w => w.fcmpAct f.cond f.p

/-- FRCP (R146). -/
def execFrcp (f : R1) (s : State) : Host.Outcome State Fault Refusal :=
  runWord (.frcp f) s fun w => w.approxAct .rcp (dstSlots f.d)

/-- FRSQ (R146). -/
def execFrsq (f : R1) (s : State) : Host.Outcome State Fault Refusal :=
  runWord (.frsq f) s fun w => w.approxAct .rsq (dstSlots f.d)

/-- FSQRT (R146). -/
def execFsqrt (f : R1) (s : State) : Host.Outcome State Fault Refusal :=
  runWord (.fsqrt f) s fun w => w.approxAct .sqrt (dstSlots f.d)

/-- FEXP2 (R146). -/
def execFexp2 (f : R1) (s : State) : Host.Outcome State Fault Refusal :=
  runWord (.fexp2 f) s fun w => w.approxAct .exp2 (dstSlots f.d)

/-- FLOG2 (R146). -/
def execFlog2 (f : R1) (s : State) : Host.Outcome State Fault Refusal :=
  runWord (.flog2 f) s fun w => w.approxAct .log2 (dstSlots f.d)

/-- FSIN (R146). -/
def execFsin (f : R1) (s : State) : Host.Outcome State Fault Refusal :=
  runWord (.fsin f) s fun w => w.approxAct .sin (dstSlots f.d)

/-- FCOS (R146). -/
def execFcos (f : R1) (s : State) : Host.Outcome State Fault Refusal :=
  runWord (.fcos f) s fun w => w.approxAct .cos (dstSlots f.d)

/-- FMAK: D × A + bank word (R142). -/
def execFmak (f : FmakF) (s : State) : Host.Outcome State Fault Refusal :=
  runWord (.fmak f) s fun w => w.floatResult [0, 2] false (dstSlots f.d) fun v l => v.fmaLane (w.rm f.rm) (v.c l) (v.a l) (v.bankWord f.k.val)

/-- FADDI (R142). -/
def execFaddi (f : RI) (s : State) : Host.Outcome State Fault Refusal :=
  runWord (.faddi f) s fun w => w.floatResult [0] false [f.d.val] fun v l =>
    v.roundF32 v.g.rm (Num.add v.g.rm (v.num (v.a l)) (v.num (immF f.imm)))

/-- FMULI (R142). -/
def execFmuli (f : RI) (s : State) : Host.Outcome State Fault Refusal :=
  runWord (.fmuli f) s fun w => w.floatResult [0] true [f.d.val] fun v l => v.roundF32 v.g.rm (Num.mul (v.num (v.a l)) (v.num (immF f.imm)))

/-- CVT (R148, R149). -/
def execCvt (f : CvtF) (s : State) : Host.Outcome State Fault Refusal :=
  runWord (.cvt f) s fun w => w.cvtAct f.fr f.tgt (w.rm f.rnd) f.sat (dstSlots f.d)

/-- CVTQ.Q (R151, R152). -/
def execCvtqQ (f : CvtqQF) (s : State) : Host.Outcome State Fault Refusal :=
  runWord (.cvtqQ f) s fun w => w.cvtqQAct f.ty (vxSlots f.d)

/-- CVTQ.X (R151, R152). -/
def execCvtqX (f : CvtqXF) (s : State) : Host.Outcome State Fault Refusal :=
  runWord (.cvtqX f) s fun w => w.cvtqXAct f.ty f.d.val

/-- PACK (R150). -/
def execPack (f : PackF) (s : State) : Host.Outcome State Fault Refusal :=
  runWord (.pack f) s fun w => w.packAct f.tgt (dstSlots f.d)

/-- UNPK (R150). -/
def execUnpk (f : UnpkF) (s : State) : Host.Outcome State Fault Refusal :=
  runWord (.unpk f) s fun w => w.unpkAct f.fr f.d.val

end Sys2Proof.Machine
end

