-- ==== Sys2Proof/Machine/Records.lean ====
section
/-! DEFINITION. Fields of the structures the manual lays out in memory: the launch record (R162) and the layout record's
readers build on one field reader. -/

namespace Sys2Proof.Machine

open Sys2Proof

/-- The field of n bytes at a byte offset of a structure given by its words (R5). -/
def fieldAt (ws : List TWord) (off n : Nat) : Nat :=
  natOfBytes ((List.range n).map fun i => byteOf (wordAt ws ((off + i) / 4)).data ((off + i) % 4))

def anyPoison (ws : List TWord) : Bool := ws.any TWord.poisoned

def anyBad (ws : List TWord) : Bool := ws.any fun t => !t.good

/-! ### The launch record (R162) -/

def recCode (r : List TWord) : Nat := fieldAt r 0x00 8
def recGridX (r : List TWord) : Nat := fieldAt r 0x08 4
def recGridY (r : List TWord) : Nat := fieldAt r 0x0C 4
def recGridZ (r : List TWord) : Nat := fieldAt r 0x10 4
def recBlockX (r : List TWord) : Nat := fieldAt r 0x14 2
def recBlockY (r : List TWord) : Nat := fieldAt r 0x16 2
def recBlockZ (r : List TWord) : Nat := fieldAt r 0x18 2
def recWidth (r : List TWord) : Nat := fieldAt r 0x1A 1
def recRegs (r : List TWord) : Nat := fieldAt r 0x1B 1
def recScratch (r : List TWord) : Nat := fieldAt r 0x1C 4
def recConst (r : List TWord) : Nat := fieldAt r 0x20 8
def recGangP (r : List TWord) : Nat := fieldAt r 0x28 2
def recGangF (r : List TWord) : Nat := fieldAt r 0x2A 2
def recLight (r : List TWord) : Nat := fieldAt r 0x2C 1
def recPrio (r : List TWord) : Nat := fieldAt r 0x2D 1
def recFlags (r : List TWord) : Nat := fieldAt r 0x2E 2
def recDepend (r : List TWord) : Nat := fieldAt r 0x30 8
def recDoneMap (r : List TWord) : Nat := fieldAt r 0x38 8

/-- Blocks of the grid, threads of a block, groups of a block (R162, R163). -/
def recBlocks (r : List TWord) : Nat := recGridX r * recGridY r * recGridZ r
def recThreads (r : List TWord) : Nat := recBlockX r * recBlockY r * recBlockZ r
def recGroups (r : List TWord) : Nat := recThreads r / max 1 (recWidth r)

/-- SCRATCH as used: rounded up to a multiple of 256 (R162). -/
def recScratchUsed (r : List TWord) : Nat := ceilDiv (recScratch r) 256 * 256

/-- Grid flag REC and UINIT (R162). -/
def recRec (r : List TWord) : Bool := (recFlags r).testBit 0
def recUinit (r : List TWord) : Bool := (recFlags r).testBit 1

/-- Coordinates of block b (R163). -/
def blockX (r : List TWord) (b : Nat) : Nat := b % max 1 (recGridX r)
def blockY (r : List TWord) (b : Nat) : Nat := b / max 1 (recGridX r) % max 1 (recGridY r)
def blockZ (r : List TWord) (b : Nat) : Nat := b / (max 1 (recGridX r) * max 1 (recGridY r))

end Sys2Proof.Machine
end

