-- ==== Sys2Proof/Machine/Lane.lean ====
section
/-! DEFINITION. Exchanges across lanes, votes, reductions over the group, tags and special registers (R153 to R160). -/

namespace Sys2Proof.Machine

open Sys2Proof

/-! ### Shared operations -/

/-- EMPTY of source k, read with wait bit 0, in the lanes given (R153). -/
def W.emptyIn (w : W) (k : Nat) (lanes : Mask) : Option Trap :=
  let r := w.ref k
  let e := (w.g.reg r.code).empty &&& lanes
  if r.code < 56 && !r.wait && e != 0 then some { code := .empty, info := r.code, lanes := some e } else none

/-- A move across lanes: lane l takes source lane `from l`, or zero (R153 to R155). -/
def W.exchange (w : W) (slots : List Nat) (pick : Nat → Option Nat) : Act :=
  match w.emptyIn 0 (maskOf ((lanesOf w.real).filterMap pick)) with
  | some t => w.trapAt t
  | none => w.movedResult slots (w.moveTag 0) fun l => match pick l with
    | some s => w.srcAt 0 s
    | none => TWord.zero

/-- The source lane of XLANE (R155). -/
def xlaneSource (mode : XlMode) (width l : Nat) (op : Word) : Option Nat :=
  let k := bits op.toNat 6 0
  let z := min (2 ^ bits op.toNat 10 8) width
  let c := l - l % z
  match mode with
  | .abs => some (c + k % z)
  | .rot => some (c + (l - c + k) % z)
  | .xor => some (c + (Nat.xor (l - c) k) % z)
  | .step =>
    let s : Int := (l : Int) + sext 7 k
    if (c : Int) ≤ s ∧ s < (c + z : Nat) then some s.toNat else none

/-- The votes of the voters: the lanes of the mask that are no helpers (R156). -/
def W.votes (w : W) (p : Fin 8) (n : Bool) : Mask := maskOf ((lanesOf w.real).filter fun l => w.pred p l != n)

def countLanes (m : Mask) : Nat := (lanesOf m).length

/-- POLL.QUORUM and POLL.SAME (R156). -/
def W.quorum (w : W) (v : Mask) (q : Nat) : Bool :=
  if q = 0 then v == w.real else decide (q ≤ countLanes v)

def W.same (w : W) (v : Mask) : Bool := v == w.real || v == 0

/-- The word forms of POLL: class D, N32/0, into L0 (R156). -/
def W.pollWord (w : W) (slots : List Nat) (f : Nat → Nat) : Act :=
  w.checkedResult [] slots (tagOf fmtN32 0) fun l => recomputed (BitVec.ofNat 32 (f l))

/-- Word l mod 4 of the vote map (R156). -/
def mapWord (v : Mask) (l : Nat) : Nat := v.toNat / 2 ^ (32 * (l % 4)) % 2 ^ 32

/-- The tree of R53: p[i] := round(p[i] + p[i + s]) for s = w/2 down to 1. -/
def fsumTree (rm : Rm) (ftz : Bool) : Nat → List Nat → List Nat × FFlags
  | 0, p => (p, 0)
  | k + 1, p =>
    let s := 2 ^ k
    let rs := (List.range s).map fun i =>
      fmF32.round rm ftz false (Num.add rm (fmF32.input ftz (p.getD i 0)) (fmF32.input ftz (p.getD (i + s) 0)))
    let (q, f) := fsumTree rm ftz k (rs.map (·.1))
    (q, orAll (rs.map (·.2)) ||| f)

/-- Fold FMIN or FMAX over voters; the first one alone is made canonical (R41, R157). (DEDUCED, log 38) -/
def fminFold (ftz isMin num : Bool) (idle : Nat) (vs : List Nat) : Nat × FFlags :=
  match vs with
  | [] => (idle, 0)
  | v :: r => r.foldl (fun (a : Nat × FFlags) x =>
      let (b, f) := fmF32.minMax ftz isMin num a.1 x
      (b, a.2 ||| f)) (fmF32.minMax ftz isMin num v v)

/-- REDG's result over the voters' words (R157): bits and flags. (DEDUCED, log 38) -/
def redg (op : RedgOp) (rm : Rm) (ftz : Bool) (width : Nat) (voter : Nat → Bool) (x : Nat → Word) : Nat × FFlags :=
  let vs := (List.range width).filter voter |>.map x
  let nats := vs.map (·.toNat)
  let fold := fun (f : Word → Word → Word) (i : Word) => ((vs.foldl f i).toNat, (0 : FFlags))
  match op with
  | .fadd =>
    let r := fsumTree rm ftz (Nat.log2 width) ((List.range width).map fun l => if voter l then (x l).toNat else 2 ^ 31)
    (r.1.getD 0 0, r.2)
  | .fmin => fminFold ftz true false fmF32.infBits nats
  | .fmax => fminFold ftz false false (2 ^ 31 + fmF32.infBits) nats
  | .fminNum => fminFold ftz true true fmF32.infBits nats
  | .fmaxNum => fminFold ftz false true (2 ^ 31 + fmF32.infBits) nats
  | .iadd => fold (· + ·) 0
  | .imin => fold (fun a b => if b.slt a then b else a) 0x7FFFFFFF
  | .imax => fold (fun a b => if a.slt b then b else a) 0x80000000
  | .umin => fold (fun a b => if b.ult a then b else a) 0xFFFFFFFF
  | .umax => fold (fun a b => if a.ult b then b else a) 0
  | .and => fold (· &&& ·) 0xFFFFFFFF
  | .or => fold (· ||| ·) 0
  | .xor => fold (· ^^^ ·) 0

/-- Kinds of REDG operations: float, integer with its result FMT, logical (R157). -/
def redgFmt : RedgOp → Option Nat
  | .fadd | .fmin | .fmax | .fminNum | .fmaxNum => some fmtF32
  | .iadd | .imin | .imax => some fmtI32
  | .umin | .umax => some fmtN32
  | .and | .or | .xor => none

def W.redgAct (w : W) (op : RedgOp) (slots : List Nat) : Act :=
  let fmt := redgFmt op
  let prep : Except Trap (W × BitVec 8) :=
    match fmt with
    | none => match w.untyped with
      | some t => .error t
      | none => .ok (w, w.moveTag 0)
    | some n =>
      match w.typed [0] (fun _ t => if n = fmtF32 then t == 3 || t == 0 else intFamily t)
          (fun _ => if n = fmtF32 then elF32 else elI32) false with
      | .error t => .error t
      | .ok (v, _) => .ok (v, tagOf n 0)
  match prep with
  | .error t => w.trapAt t
  | .ok (v, tag) =>
    match v.checkSrcs [0] with
    | some t => w.trapAt t
    | none =>
      let r := redg op w.g.rm w.g.ftz w.g.width (fun l => lane w.real l) fun l => (v.srcAt 0 l).data
      match v.checkResults (fun _ => false) fun _ => recomputed (BitVec.ofNat 32 r.1) with
      | .error t => w.trapShot t
      | .ok outs => (((v.writeResult slots (wordAt outs) tag).shot).orFlags (if w.real = 0 then 0 else r.2)).done

/-! ### Special registers (R159) -/

/-- EVPEND (R222). -/
def evpendWord (e : Events) : Nat :=
  e.pend.toNat + (match e.svc with
    | some n => 256 * n + 2048 + 8192 * e.info.toNat
    | none => 0)

def sregNat (m : Machine) (g : Group) (l : Nat) (r : SReg) : Nat :=
  let rc := ((Map.get m.grids g.grid).map (·.record)).getD []
  let b := ((Map.get m.blocks g.block).map (·.index)).getD 0
  match r with
  | .laneid => l
  | .groupid => g.gid
  | .width => g.width
  | .blockx => blockX rc b
  | .blocky => blockY rc b
  | .blockz => blockZ rc b
  | .gridx => recGridX rc
  | .gridy => recGridY rc
  | .gridz => recGridZ rc
  | .bdimx => recBlockX rc
  | .bdimy => recBlockY rc
  | .bdimz => recBlockZ rc
  | .fpc => g.fpc.toNat
  | .domctl => g.domctl.toNat
  | .finj => g.finj.toNat
  | .ht0 => (wordAt g.ht 0).data.toNat
  | .ht1 => (wordAt g.ht 1).data.toNat
  | .ht2 => (wordAt g.ht 2).data.toNat
  | .ht3 => (wordAt g.ht 3).data.toNat
  | .evec => g.evec.toNat
  | .evpend => evpendWord g.ev
  | .preq => if ((Map.get m.ctxs g.ctx).map (·.preq)).getD false then 1 else 0
  | .deadline => g.deadline.toNat
  | .clocklo => m.clock % 2 ^ 32
  | .clockhi => g.clockHi.toNat
  | .ctxid => g.ctx

/-- SRD: a read of CLOCKLO latches the high word of CLOCK (R160). -/
def W.srdAct (w : W) (slots : List Nat) (r : SReg) : Act :=
  let v := match r with
    | .clocklo => w.upd fun g => { g with clockHi := BitVec.ofNat 32 (w.m0.clock / 2 ^ 32) }
    | _ => w
  v.movedResult slots (tagOf fmtN32 0) fun l => TWord.of (BitVec.ofNat 32 (sregNat w.m0 w.g l r))

/-! ### The instructions -/

/-- QXCH (R154). -/
def execQxch (f : QxchF) (s : State) : Host.Outcome State Fault Refusal :=
  runWord (.qxch f) s fun w => w.exchange (vxSlots f.d) fun l =>
    some (Nat.xor l (match f.pat with
      | .h => 1
      | .v => 2
      | .d => 3))

/-- QBRD (R154). -/
def execQbrd (f : QbrdF) (s : State) : Host.Outcome State Fault Refusal :=
  runWord (.qbrd f) s fun w => w.exchange (vxSlots f.d) fun l => some (l / 4 * 4 + f.j.val)

/-- XLANE (R155). -/
def execXlane (f : XlaneF) (s : State) : Host.Outcome State Fault Refusal :=
  runWord (.xlane f) s fun w => 
    match w.emptyIn 1 w.real with
    | some t => w.trapAt t
    | none => w.exchange (vxSlots f.d) fun l => xlaneSource f.mode w.g.width l (w.srcAt 1 l).data

/-- POLL.QUORUM (R156). -/
def execPollQuorum (f : PollQF) (s : State) : Host.Outcome State Fault Refusal :=
  runWord (.pollQuorum f) s fun w => w.checkedPred [] f.p fun _ => w.quorum (w.votes f.s f.n) f.q.toNat

/-- POLL.SAME (R156). -/
def execPollSame (f : PollSF) (s : State) : Host.Outcome State Fault Refusal :=
  runWord (.pollSame f) s fun w => w.checkedPred [] f.p fun _ => w.same (w.votes f.s f.n)

/-- POLL.COUNT (R156). -/
def execPollCount (f : PollWF) (s : State) : Host.Outcome State Fault Refusal :=
  runWord (.pollCount f) s fun w => w.pollWord (vxSlots f.d) fun _ => countLanes (w.votes f.s f.n)

/-- POLL.RANK (R156). -/
def execPollRank (f : PollWF) (s : State) : Host.Outcome State Fault Refusal :=
  runWord (.pollRank f) s fun w => w.pollWord (vxSlots f.d) fun l => countLanes (w.votes f.s f.n &&& widthMask l)

/-- POLL.MAP (R156). -/
def execPollMap (f : PollWF) (s : State) : Host.Outcome State Fault Refusal :=
  runWord (.pollMap f) s fun w => w.pollWord (vxSlots f.d) fun l => mapWord (w.votes f.s f.n) l

/-- REDG (R157). -/
def execRedg (f : RedgF) (s : State) : Host.Outcome State Fault Refusal :=
  runWord (.redg f) s fun w => w.redgAct f.op (vxSlots f.d)

/-- TAGR (R158). -/
def execTagr (f : TagrF) (s : State) : Host.Outcome State Fault Refusal :=
  runWord (.tagr f) s fun w => w.movedResult (dstSlots f.d) (tagOf fmtN32 0) fun _ =>
    TWord.of (BitVec.ofNat 32 ((w.tag 0).getD 0).toNat)

/-- TAGW: the tag for the whole group, no data (R158). -/
def execTagw (f : TagwF) (s : State) : Host.Outcome State Fault Refusal :=
  runWord (.tagw f) s fun w => 
    ((w.upd fun g => { g with regs := g.regs.set f.d.code { g.reg f.d.code with tag := f.tag } })).done

/-- SRD (R159). -/
def execSrd (f : SrdF) (s : State) : Host.Outcome State Fault Refusal :=
  runWord (.srd f) s fun w => w.srdAct (dstSlots f.d) f.s

end Sys2Proof.Machine
end

