-- ==== Sys2Proof/Machine/Control.lean ====
section
/-! DEFINITION. Code lines and packets (R79 to R87), the reconvergence stack (R181 to R187), and the control-flow
instructions (R195 to R207). The stack is a list with its top first. -/

namespace Sys2Proof.Machine

open Sys2Proof

/-! ### Packets (R84, R85) -/

def packetIndex (a : Nat) : Nat := a / 128 * 10 + (a % 128 - 8) / 12

def packetAddr (i : Nat) : Nat := i / 10 * 128 + 8 + 12 * (i % 10)

/-- A packet at an offset; none past the ends of the 57-bit space (R100). -/
def packetAt (b : Nat) (off : Int) : Option Nat :=
  let i : Int := (b : Int) + off
  if i < 0 ∨ (2 ^ 50 * 10 : Nat) ≤ i then none else some (packetAddr i.toNat)

/-! ### Code lines (R79 to R81, R86) -/

def lineKind (l : List Word) : Nat := (l.getD 0 0).toNat / 2 ^ 30

def lineStart (l : List Word) (i : Nat) : Bool := (l.getD 0 0).toNat.testBit i

def lineTarget (l : List Word) (p : Nat) : Bool := (l.getD 1 0).toNat.testBit p

def lineBody (l : List Word) (i : Nat) : Word := l.getD (i + 2) 0

/-- The target check of R86: the packet may be entered, its first word begins an instruction, no padding line. -/
def targetOk (l : List Word) (va : Nat) : Bool :=
  let p := (va % 128 - 8) / 12
  decide (8 ≤ va % 128) && (va % 128 - 8) % 12 == 0 && lineKind l != 1 && lineTarget l p && lineStart l (3 * p)

/-- A header whose execution traps ILLEGAL whatever the target check says (R79, R87 order 1). (DEDUCED, log 19) -/
def headerBad (l : List Word) : Bool := decide (2 ≤ lineKind l) || decide (2 ^ 10 ≤ (l.getD 1 0).toNat)

/-- The entry table of a code header: KIND and OFFSET (R161). -/
def entryTable (header : List TWord) : List (Nat × Nat) :=
  (List.range (min 12 (fieldAt header 0x1C 2))).map fun i => (fieldAt header (0x20 + 8 * i) 1, fieldAt header (0x24 + 8 * i) 4)

/-- CODE of a grid. -/
def Machine.codeOf (m : Machine) (grid : Nat) : Nat := ((Map.get m.grids grid).map fun g => recCode g.record).getD 0

inductive Fetch where
  | line (l : List Word)
  | fault
  | prot (level : Nat) (cause : ProtCause)
deriving DecidableEq, Repr

/-- Fetch the line of an address through the instruction cache; a line that is absent is read whole (R81, R86, R289). (DESIGN CHOICE, log 14) -/
def Machine.fetchLine (m : Machine) (core ctx va : Nat) : Fetch × Machine :=
  let n := va / 128
  match (m.core core).icache.find? fun e => e.1 == ctx && e.2.1 == n with
  | some e => (.line e.2.2, m)
  | none =>
    match m.translate core ctx (n * 128) .fetch with
    | (.ok pa pri, m) =>
      let (a, m) := m.dieRead (dieOfCore core) (pa / 64) pri
      let (b, m) := m.dieRead (dieOfCore core) (pa / 64 + 1) pri
      let l := (a ++ b).map (·.data)
      (.line l, m.updCore core fun c => { c with icache := (ctx, n, l) :: c.icache })
    | (.notValid _, m) => (.fault, m)
    | (.prot l c, m) => (.prot l c, m)
    | (.berth _ _, m) => (.prot 0 .permission, m)
    | (.status _, m) => (.prot 0 .permission, m)

/-- INFO of a PROT frame (R375). -/
def protInfo (level : Nat) (cause : ProtCause) : Nat := level + 256 * cause.code

def protTrap (va level : Nat) (cause : ProtCause) : Trap := { code := .prot, addr := va, info := protInfo level cause }

/-- The failure mark of a strand for an address of a page (R293). -/
def badMark (e : Option Entry) (va : Nat) : Bool :=
  match e.bind (·.park) with
  | some { why := .bad v, .. } => v / 65536 == va / 65536
  | _ => false

/-- Park a fetch of a strand (R86, R291). -/
def Machine.parkFetch (m : Machine) (gk sid va : Nat) : Machine :=
  match Map.get m.groups gk with
  | none => m
  | some g =>
    let count := ((Map.get m.ctxs g.ctx).map (·.resolve)).getD 0
    m.parkRequest { core := g.core, group := gk, ctx := g.ctx, va := va, ova := va, access := 3, lane := 0, words := [], size := 128
                    instr := none, slots := [], pendingId := sid, count := count, waiting := false, flight := false }
      (if g.lighter.isSome then 1 else 0)

/-! ### The stack -/

/-- Entries below an entry, topmost first. -/
def Group.below (g : Group) (sid : Nat) : List Entry := (g.stack.dropWhile fun e => e.sid != sid).drop 1

def Group.above (g : Group) (sid : Nat) : List Entry := g.stack.takeWhile fun e => e.sid != sid

def notPath (e : Entry) : Bool := e.kind != .path

/-- The frames of an entry, nearest first (R181). -/
def Group.frames (g : Group) (sid : Nat) (mask : Mask) : List Entry :=
  (g.below sid).filter fun f => notPath f && ((f.out ||| f.mask) &&& mask) != 0

/-- Live PATH entries (R182). -/
def liveAux : List Entry → Nat → List Entry
  | [], _ => []
  | e :: r, k =>
    match e.kind with
    | .event => []
    | .path => if k = 0 then [] else e :: liveAux r (k - 1)
    | _ => liveAux r k

def Group.strands (g : Group) : List Entry := liveAux (g.stack.take 16) 4

/-- Greatest number of entries: a lighter's stack never spills (R187, R348). -/
def Group.stackLimit (g : Group) : Nat := if g.lighter.isSome then 16 else 256

/-- A JOIN or CALL whose OUT is zero resumes as a PATH; an entry whose MASK is zero is removed (R184, R186, R199). -/
def resumeEntry (e : Entry) : Entry :=
  if (e.kind == .join || e.kind == .call) && e.out == 0 then
    { e with kind := .path, entered := e.kind == .join, age := 0, held := false, park := none }
  else e

def Group.tidy (g : Group) : Group :=
  { g with stack := (g.stack.filter fun e => e.mask != 0).map resumeEntry }

def clearOut (m : Mask) (e : Entry) : Entry := { e with out := e.out &&& ~~~ m }

def clearBoth (m : Mask) (e : Entry) : Entry := { e with out := e.out &&& ~~~ m, mask := e.mask &&& ~~~ m }

/-- An entry arrives: its PC is the first word of its RPC's packet, and it waits in nothing (R184). -/
def arrives (e : Entry) : Bool :=
  e.kind == .path && e.park.isNone && (match e.rpc with
    | some r => e.pc == packetAddr r
    | none => false)

/-- One arrival, of the lowest arriving entry (R184). -/
def Group.arriveOnce (g : Group) : Option Group :=
  match g.stack.reverse.find? arrives with
  | none => none
  | some e =>
    let near := (g.frames e.sid e.mask).head?
    let stack := (g.stack.filter fun x => x.sid != e.sid).map fun x =>
      if (near.map (·.sid)) == some x.sid then resumeEntry (clearOut e.mask x) else x
    some { g with stack := stack }

def mergeable (e : Entry) : Bool := e.kind == .path && e.park.isNone && !e.held

/-- Merge one pair of strands (R185): the lower entry takes the union. A strand that its front end keeps from issue does not merge. -/
def mergeOnce (stalled : Entry → Bool) : List Entry → List Entry → Option (List Entry)
  | _, [] => none
  | live, e :: r =>
    let same := fun (x : Entry) => x.kind == .path && mergeable x && x.pc == e.pc && x.rpc == e.rpc &&
      (live.any fun y => y.sid == x.sid) && !stalled x
    let between := r.takeWhile fun x => x.kind == .path
    if mergeable e && live.any (fun y => y.sid == e.sid) && between.any same && !stalled e then
      match between.find? same with
      | some x => some (r.map fun y =>
          if y.sid == x.sid then
            { y with mask := y.mask ||| e.mask, age := max y.age e.age, entered := y.entered || e.entered }
          else y)
      | none => none
    else (mergeOnce stalled live r).map (e :: ·)

/-- Arrivals, then merges, until nothing more happens; at most n of them. -/
def Group.settle (g : Group) (stalled : Entry → Bool) : Nat → Group
  | 0 => g
  | n + 1 =>
    match g.arriveOnce with
    | some g => g.settle stalled n
    | none =>
      match mergeOnce stalled g.strands g.stack with
      | some st => ({ g with stack := st } : Group).settle stalled n
      | none => g

/-- Address of a spilled entry: number k from the bottom (R187, R369). -/
def spillAddr (c : Ctx) (image k : Nat) : Nat := groupFrame c image + 0x10000 + 64 * k

def kindCode : EKind → Nat
  | .path => 0
  | .join => 1
  | .call => 2
  | .event => 3

/-- The words of a spilled entry (R187). -/
def spillWords (e : Entry) : List Word :=
  let n := fun (v : Nat) => BitVec.ofNat 32 v
  words64 e.pc ++ words64 (match e.rpc with
    | some r => r
    | none => 2 ^ 64 - 1) ++
  ((List.range 4).map fun i => n (e.mask.toNat / 2 ^ (32 * i))) ++ ((List.range 4).map fun i => n (e.out.toNat / 2 ^ (32 * i)))
  ++ [n (kindCode e.kind + 256 * e.evno), 0, 0, 0]

/-- Write the entries below the 16 held ones to the spill area (R187). -/
def Machine.spill (m : Machine) (gk : Nat) : Machine :=
  match Map.get m.groups gk with
  | none => m
  | some g =>
    if g.stack.length ≤ 16 then m
    else match Map.get m.ctxs g.ctx with
      | none => m
      | some c =>
        ((g.stack.drop 16).reverse.zipIdx).foldl (fun m e => m.setHomeData (spillAddr c g.image e.2) (spillWords e.1)) m

/-- A change of a stack's length from `old` to `new` entries fails: too many entries, a spill write or a refill read that names no
memory, or a refill that reads poison (R187, R225). -/
def Machine.stackFails (m : Machine) (g : Group) (old new : Nat) : Bool :=
  decide (g.stackLimit < new) ||
  (match Map.get m.ctxs g.ctx with
  | none => false
  | some c =>
    (decide (16 < new) && decide (old < new) && noMemory (spillAddr c g.image (new - 17)) 64) ||
    (decide (16 < old) && decide (new < old) && (List.range (old - max 16 new)).any fun i =>
      let a := spillAddr c g.image (old - 17 - i)
      noMemory a 64 || (m.homeWords a 16).1.any TWord.poisoned))

/-- STACK: the stack is left as it was before the instruction (R187). -/
def W.stackTrap (w : W) (new : Nat) : Option Trap :=
  let old := w.g.stack.length
  if w.m0.stackFails w.g old new then some { code := .stack, info := old } else none

/-- Replace the stack; spilled entries are written out. -/
def W.setStack (w : W) (f : Group → Group) : W := { w with m := (w.m.updGroup w.gk f).spill w.gk }

/-! ### Targets of a branch (R86, R196) -/

/-- A lane set with its target: none for an offset out of the space (R183). -/
structure LaneSet where
  target : Option Nat
  mask : Mask
  /-- the address a target outside the space would have, as the frame records it. -/
  wild : Nat := 0
deriving DecidableEq, Repr

/-- The lane set of an offset in packets (R100, R197). -/
def laneSet (b : Nat) (off : Int) (mask : Mask) : LaneSet :=
  let i : Int := (b : Int) + off
  { target := packetAt b off, mask := mask, wild := ((i / 10 * 128 + 8 + 12 * (i % 10)) % (2 ^ 64 : Nat)).toNat }

inductive TargetState where
  | ok
  | bad
  | fault
  | fail (t : Trap)

/-- Look at the line of one target. A line with a bad header does not fail the branch: its execution traps ILLEGAL, since
the header checks come before the target check (R87). (DEDUCED, log 23) -/
def W.checkTarget (w : W) (t : Option Nat) : TargetState × W :=
  match t with
  | none => (.bad, w)
  | some va =>
    match w.m.fetchLine w.g.core w.g.ctx va with
    | (.line l, m) => (if headerBad l || targetOk l va then .ok else .bad, { w with m := m })
    | (.fault, m) =>
      (if badMark (w.g.entry w.is.sid) va then .fail { code := .page, addr := va } else .fault, { w with m := m })
    | (.prot l c, m) => (.fail (protTrap va l c), { w with m := m })

def TargetState.isBad : TargetState → Bool
  | .bad => true
  | _ => false

def TargetState.isFault : TargetState → Bool
  | .fault => true
  | _ => false

/-- DEDUCED, log 23. -/
def TargetState.failure : TargetState → Option Trap
  | .fail t => some t
  | _ => none

def TargetState.isOk : TargetState → Bool
  | .ok => true
  | _ => false

/-- Check every taken target (R86, R196): PROT before PAGE, then the wait for lines, then BRTARGET, each for the lanes that
are no helpers. It gives the sets whose targets hold, and the lanes of the sets of helpers alone whose target fails, which take the
fall-through (R180). (DEDUCED, log 23) -/
def W.checkTargets (w : W) (sets : List LaneSet) : Except Act (W × List LaneSet × Mask) :=
  let (rs, w) := sets.foldl (fun (a : List (LaneSet × TargetState) × W) s =>
    let (r, v) := a.2.checkTarget s.target
    (a.1 ++ [(s, r)], v)) ([], w)
  let real := fun (s : LaneSet) => s.mask &&& ~~~ w.g.helper
  let fails := rs.filterMap fun e => match e.2.failure with
    | some t => if real e.1 != 0 then some ({ t with lanes := some (real e.1) } : Trap) else none
    | none => none
  let fails := fails.filter (·.code == .prot) ++ fails.filter (·.code != .prot)
  match fails with
  | t :: r => .error (w.trapAt { t with
      lanes := some ((r.filter (·.code == t.code)).foldl (fun m x => m ||| x.lanes.getD 0) (t.lanes.getD 0)) })
  | [] =>
    match rs.find? fun e => e.2.isFault && real e.1 != 0 with
    | some e =>
      let va := e.1.target.getD 0
      .error (.wait (.fetch va) (w.m0.parkFetch w.gk w.is.sid va))
    | none =>
      match rs.filter fun e => e.2.isBad && real e.1 != 0 with
      | e :: r => .error (w.trapAt { code := .brtarget, addr := e.1.target.getD e.1.wild
                                     lanes := some (r.foldl (fun m x => m ||| real x.1) (real e.1)) })
      | [] => .ok (w, (rs.filter fun e => e.2.isOk).map (·.1),
          (rs.filter fun e => !e.2.isOk).foldl (fun m e => m ||| e.1.mask) 0)

/-- Lane sets with equal targets are merged into the first of them. (DEDUCED, log 32) -/
def mergeSets : List LaneSet → List LaneSet
  | [] => []
  | s :: r =>
    let same := r.filter fun t => t.target == s.target && (t.target.isSome || t.wild == s.wild)
    { s with mask := same.foldl (fun m t => m ||| t.mask) s.mask } :: (mergeSets r).filter fun t => !(t.target == s.target && (t.target.isSome || t.wild == s.wild))

/-- Divide a strand (R183). The executing strand's number stays with the lowest new path. (DEDUCED, log 32) -/
def divide (g : Group) (sid : Nat) (sets : List LaneSet) (next : Nat) (join : Option Nat) : Group :=
  match g.entry sid with
  | none => g
  | some e =>
    let mk := fun (k : Nat) (s : LaneSet) (rpc : Option Nat) =>
      { e with
        sid := if k = 0 then e.sid else g.nextSid + k
        pc := s.target.getD next, mask := s.mask, rpc := rpc, entered := false, age := 0, held := false }
    let pushes := match join with
      | none => false
      | some j => e.rpc != some j
    let rpc := if pushes then join else e.rpc
    let paths := (sets.zipIdx.map fun s => mk s.2 s.1 rpc).reverse
    let bottom := match join with
      | some j => if pushes then
          [{ e with sid := g.nextSid, kind := .join, pc := packetAddr j, out := e.mask, park := none, held := false }]
          else []
      | none => []
    { g with
      stack := g.above sid ++ paths ++ bottom ++ g.below sid
      nextSid := g.nextSid + sets.length + 1 }

/-- The lane sets of a branch, the fall-through set first (R183). -/
def branchSets (next : Nat) (fall : Mask) (taken : List LaneSet) : List LaneSet :=
  mergeSets ((if fall = 0 then [] else [{ target := some next, mask := fall }]) ++ taken)

/-- A join offset that reaches past the ends of the space traps BRTARGET in every lane that is no helper (R100, R196). -/
def W.joinTrap (w : W) (b : Nat) (j : Int) : Option Trap :=
  if j != 0 && (packetAt b j).isNone && w.real != 0 then
    some { code := .brtarget, addr := (laneSet b j w.real).wild, lanes := some w.real }
  else none

/-- A branch: lane sets given with their targets (R183). -/
def W.branch (w : W) (fall : Mask) (taken : List LaneSet) (j : Int) : Act :=
  let next := w.is.next
  let b := packetIndex w.addr
  let join := if j = 0 ∨ (packetAt b j).isNone = true then none else some ((b : Int) + j).toNat
  let pushes := match join with
    | none => false
    | some i => ((w.g.entry w.is.sid).bind (·.rpc)) != some i
  let raw := mergeSets (taken.filter fun s => s.mask != 0)
  let checked := w.checkTargets raw
  let sets := match checked with
    | .ok (_, ok, fell) => branchSets next (fall ||| fell) ok
    | .error _ => branchSets next fall raw
  match w.stackTrap (w.g.stack.length - 1 + sets.length + (if pushes then 1 else 0)) with
  | some t => w.trapAt t
  | none =>
    match checked with
    | .error a => a
    | .ok (w, _) => w.guard (w.joinTrap b j) (w.setStack fun g => divide g w.is.sid sets next join).done

def maskFor (w : W) (f : Nat → Bool) : Mask := maskOf ((lanesOf w.mask).filter f)

/-- The target of a B-format word (R100). -/
def targetOffset : Target → Int
  | .near t => t.toInt
  | .far w => w.toInt

/-- Insert into a falling list. -/
def insertDesc (n : Int) : List Int → List Int
  | [] => [n]
  | m :: r => if m < n then n :: m :: r else m :: insertDesc n r

/-- BRM: the first pair whose predicate holds (R198). -/
def W.brmTaken (w : W) (pairs : List BrmPair) (l : Nat) : Option Nat :=
  pairs.findIdx? fun p => w.pred p.p l != p.n

/-! ### Retirement (R193, R194) -/

/-- Work of a group that is not complete: commands (even numbers) and parked stores and atomics (odd numbers). -/
def Machine.outstanding (m : Machine) (gk : Nat) : List Nat :=
  (m.cmds.filterMap fun c => if c.2.group == gk && c.2.state != .done then some (2 * c.1) else none) ++
  (m.parked.filterMap fun p => if p.2.group == gk && (p.2.access == 1 || p.2.access == 2) then some (2 * p.1 + 1) else none)

def trackerEntries : Nat := 256

/-- The number that stands in a retirement tracker's entry for plain stores which caches of the core or its die still hold (R193). -/
def storesId : Nat := 2 ^ 64

/-- Stores of a core that are not performed at their home (R193, R425). (DEDUCED, log 79) -/
def Machine.unstored (m : Machine) (core : Nat) : List Nat :=
  if (m.core core).l1.any (fun e => e.2.dirty != 0) || (m.mem.dieCache (dieOfCore core)).any (fun e => e.2.dirty != 0) then [storesId] else []

/-- Retire a group (R193): everything of it is discarded, its outstanding work goes to the retirement tracker. A lighter
frees its place, and its burst is retired (R348). -/
def Machine.retireGroup (m : Machine) (gk : Nat) : Machine :=
  match Map.get m.groups gk with
  | none => m
  | some g =>
    let ids := m.outstanding gk ++ m.unstored g.core
    let burst := fun (p : Parked) => match p.instr with
      | some .hreadBurstRequest => true
      | _ => false
    let m := { m with parked := m.parked.filter fun (p : Nat × Parked) =>
      !(p.2.group == gk && (p.2.access == 0 || p.2.access == 3) && !burst p.2) }
    let m := if ids.isEmpty then m else
      { (m.updCore g.core fun c => { c with tracker := Map.set c.tracker m.nextId (g.block, ids) }) with nextId := m.nextId + 1 }
    let m := m.updGroup gk fun g => { g with
      status := .retired, stack := [], pending := [], open_ := [], replay := [], regs := [], p := []
      ev := { enable := 0, pend := 0, svc := none, info := 0, infos := [], arm := none } }
    match g.lighter with
    -- the last group of the grid's last block: DRAINING (R167)
    | none => m.updGrid g.grid fun r =>
        if r.state == .running && r.next == recBlocks r.record &&
            (m.groups.all fun (e : Nat × Group) => e.2.grid != g.grid || e.2.lighter.isSome || e.2.status == .retired) then
          { r with state := .draining }
        else r
    | some l =>
      -- its accesses are performed at BLOCK scope
      let cores := ((Map.get m.blocks g.block).map fun b => b.cores.length).getD 1
      (m.release g.core .block cores).updCmd l.cmd fun c => { c with retired := insertNat l.burst c.retired }

/-- TAIL and the last EXIT: held while the retirement tracker is full (R193), and in a lighter while a request of it is
parked (R348, R350). -/
def W.retire (w : W) : Act :=
  if decide (trackerEntries ≤ (w.m.core w.g.core).tracker.length) ||
      (w.g.lighter.isSome && w.m.parked.any fun e => e.2.group == w.gk) then .hold
  else ({ w with m := w.m.retireGroup w.gk }).done

/-- EXIT of lanes (R180, R204): the new helper mask, and the lanes that leave. -/
def exitLanes (g : Group) (exiting : Mask) : Mask × Mask :=
  let h := g.helper ||| exiting
  let present := g.stack.foldl (fun m e => m ||| e.mask) 0
  let gone := maskWhere g.width fun l => (List.range 4).all fun j =>
    lane h (l / 4 * 4 + j) || !lane present (l / 4 * 4 + j)
  (h &&& ~~~ gone, gone &&& present)

/-! ### Returns -/

/-- The JOIN frames between a strand and its nearest CALL, when an EVENT does not come first (R199). -/
def Group.callFrame (g : Group) (sid : Nat) (mask : Mask) : Option (List Nat × Nat) :=
  let fs := g.frames sid mask
  match fs.find? fun f => f.kind != .join with
  | some f => if f.kind == .call then some ((fs.takeWhile fun f => f.kind == .join).map (·.sid), f.sid) else none
  | none => none

/-- RET (R199). -/
def retStack (g : Group) (sid : Nat) (mask : Mask) (joins : List Nat) (call : Nat) : Group :=
  let st := (g.stack.filter fun (e : Entry) => e.sid != sid).map fun (e : Entry) =>
    if joins.contains e.sid then clearBoth mask e else if e.sid == call then clearOut mask e else e
  ({ g with stack := st } : Group).tidy

/-- JOUT (R200). -/
def joutStack (g : Group) (sid : Nat) (mask : Mask) (fs : List Entry) : Group :=
  let ids := fs.map (·.sid)
  let rpc := (fs.getLast?.map (·.rpc)).getD none
  let st := g.stack.map fun (e : Entry) =>
    if ids.contains e.sid then clearBoth mask e else if e.sid == sid then { e with rpc := rpc } else e
  ({ g with stack := st } : Group).tidy

/-- EVRET: the handler entry and the EVENT entry leave, the service mark clears (R207, R222). -/
def evretStack (g : Group) : Group :=
  { g with
    stack := (g.stack.dropWhile fun e => e.kind != .event).drop 1
    ev := { g.ev with svc := none, info := 0, arm := none } }

/-- Nested calls of a strand: CALL frames below it (R348). -/
def callDepth (g : Group) (sid : Nat) (mask : Mask) : Nat :=
  ((g.frames sid mask).filter fun f => f.kind == .call).length

/-! ### The instructions -/

/-- BRA (R197). -/
def execBra (f : BraF) (s : State) : Host.Outcome State Fault Refusal :=
  runWord (.bra f) s fun w =>
    w.branch 0 [laneSet (packetIndex w.addr) (targetOffset f.t) w.mask] 0

/-- BRC (R197). -/
def execBrc (f : BrcF) (s : State) : Host.Outcome State Fault Refusal :=
  runWord (.brc f) s fun w =>
    let t := maskFor w fun l => w.pred f.p l != f.n
    w.branch (w.mask &&& ~~~ t) [laneSet (packetIndex w.addr) (targetOffset f.t) t] f.j.toInt

/-- CALL (R199): a fifth nested CALL of a lighter traps LWAIT (R348). Where the target fails for a strand of helper lanes only, the
frame is pushed and the lanes go on at the next packet (R180). (DESIGN CHOICE, log 77) -/
def execCall (f : BraF) (s : State) : Host.Outcome State Fault Refusal :=
  runWord (.call f) s fun w =>
    if w.g.lighter.isSome && decide (4 ≤ callDepth w.g w.is.sid w.mask) then w.trapAt { code := .lwait }
    else match w.stackTrap (w.g.stack.length + 1) with
    | some t => w.trapAt t
    | none =>
      let b := packetIndex w.addr
      let set := laneSet b (targetOffset f.t) w.mask
      match w.checkTargets [set] with
      | .error a => a
      | .ok (w, ok, _) =>
        (w.setStack fun g => match g.entry w.is.sid with
          | none => g
          | some e => { g with
              stack := g.above e.sid ++ [{ e with pc := ((ok.head?.bind (·.target)).getD w.is.next), rpc := none, age := 0, entered := false }]
                ++ [{ e with sid := g.nextSid, kind := .call, pc := packetAddr (b + 1), out := e.mask, park := none }]
                ++ g.below e.sid
              nextSid := g.nextSid + 1 }).done

/-- BRV (R197): one lane set for each distinct target, the highest target lowest; a helper lane with a bad source branches by the data
bits. (DESIGN CHOICE, log 77) -/
def execBrv (f : BrvF) (s : State) : Host.Outcome State Fault Refusal :=
  runWord (.brv f) s fun w =>
    match w.untyped with
    | some t => w.trapAt t
    | none =>
      match w.checkSrcs [0] with
      | some t => w.trapAt t
      | none =>
        let b := packetIndex w.addr
        let t := maskFor w fun l => w.pred f.p l != f.n
        let offs := ((lanesOf t).map fun l => (w.srcAt 0 l).data.toInt).eraseDups
        let offs := offs.foldl (fun l o => insertDesc o l) []
        w.branch (w.mask &&& ~~~ t)
          (offs.map fun o => laneSet b o (maskFor w fun l => lane t l && (w.srcAt 0 l).data.toInt == o))
          f.j.toInt

/-- BRM (R198). -/
def execBrm (f : BrmF) (s : State) : Host.Outcome State Fault Refusal :=
  runWord (.brm f) s fun w =>
    let b := packetIndex w.addr
    let sets := (f.pairs.zipIdx.map fun p =>
      laneSet b p.1.off.toInt (maskFor w fun l => w.brmTaken f.pairs l == some p.2)).reverse
    w.branch (maskFor w fun l => (w.brmTaken f.pairs l).isNone) sets f.j.toInt

/-- RET (R199). -/
def execRet (f : C0) (s : State) : Host.Outcome State Fault Refusal :=
  runWord (.ret f) s fun w =>
    match w.g.callFrame w.is.sid w.mask with
    | none => w.trapAt { code := .stack, info := w.g.stack.length }
    | some (joins, call) =>
      let new := retStack w.g w.is.sid w.mask joins call
      match w.stackTrap new.stack.length with
      | some t => w.trapAt t
      | none => (w.setStack fun g => retStack g w.is.sid w.mask joins call).done

/-- JOUT (R200). -/
def execJout (f : JoutF) (s : State) : Host.Outcome State Fault Refusal :=
  runWord (.jout f) s fun w =>
    let fs := (w.g.frames w.is.sid w.mask).take f.n.val
    if decide (fs.length < f.n.val) || fs.any fun e => e.kind != .join then
      w.trapAt { code := .stack, info := w.g.stack.length }
    else
      match w.stackTrap (joutStack w.g w.is.sid w.mask fs).stack.length with
      | some t => w.trapAt t
      | none => (w.setStack fun g => joutStack g w.is.sid w.mask fs).done

/-- ELECT (R201). -/
def execElect (f : ElectF) (s : State) : Host.Outcome State Fault Refusal :=
  runWord (.elect f) s fun w => w.checkedPred [] f.p fun l => w.leader == some l

/-- YIELD: the ages of its strand and group become 0 (R202). -/
def execYield (f : C0) (s : State) : Host.Outcome State Fault Refusal :=
  runWord (.yield f) s fun w =>
    ((w.upd fun g => { g with age := 0 }).upd fun g => g.updEntry w.is.sid fun e => { e with age := 0 }).done

/-- The uniform or literal source of NAP and EVON, checked (R196). -/
def W.uniformSource (w : W) (k : Word → Act) : Act :=
  match w.lwait with
  | some t => w.trapAt t
  | none =>
    match w.checkSrcs [0] with
    | some t => w.trapAt t
    | none => k (w.srcAt 0 0).data

/-- NAP (R203). -/
def execNap (f : NapF) (s : State) : Host.Outcome State Fault Refusal :=
  runWord (.nap f) s fun w => w.uniformSource fun v => (w.park (.nap (w.m.clock + v.toNat % 2 ^ 20))).done

/-- TAIL (R205). -/
def execTail (f : C0) (s : State) : Host.Outcome State Fault Refusal :=
  runWord (.tail f) s fun w => w.retire

/-- EXIT (R204). -/
def execExit (f : C0) (s : State) : Host.Outcome State Fault Refusal :=
  runWord (.exit f) s fun w =>
    let (h, gone) := exitLanes w.g w.real
    let after := ({ w.g with helper := h, stack := w.g.stack.map (clearBoth gone) } : Group).tidy
    let left := (after.stack.foldl (fun m e => m ||| e.mask) 0) &&& ~~~ h
    if left = 0 then w.retire
    else match w.stackTrap after.stack.length with
      | some t => w.trapAt t
      | none => (w.setStack fun g => ({ g with helper := h, stack := g.stack.map (clearBoth gone) } : Group).tidy).done

/-- EVRET (R207). -/
def execEvret (f : C0) (s : State) : Host.Outcome State Fault Refusal :=
  runWord (.evret f) s fun w =>
    match w.lwait with
    | some t => w.trapAt t
    | none =>
      match w.g.stack.find? fun e => e.kind == .event with
      | none => w.trapAt { code := .stack, info := w.g.stack.length }
      | some ev =>
        let top := w.g.above ev.sid
        if top.length != 1 || (top.head?.map (·.sid)) != some w.is.sid || (top.head?.map (·.mask)) != some ev.mask then
          w.trapAt { code := .mask }
        else match w.stackTrap (w.g.stack.length - 2) with
          | some t => w.trapAt t
          | none => (w.setStack evretStack).done

/-- EVON (R206). -/
def execEvon (f : NapF) (s : State) : Host.Outcome State Fault Refusal :=
  runWord (.evon f) s fun w => w.uniformSource fun v =>
    (w.upd fun g => { g with ev := { g.ev with enable := BitVec.ofNat 6 v.toNat } }).done

end Sys2Proof.Machine
end

