-- ==== Sys2Proof/Machine/Layout.lean ====
section
/-! DEFINITION. Tensor layout records (R236, R237): fields, limits, addresses, the record cache. -/

namespace Sys2Proof.Machine

open Sys2Proof

/-- Fields of a layout record (R236). -/
structure Layout where
  base : Nat
  dim : List Nat
  fmt : Nat
  dom : Nat
  elembits : Nat
  flags : Nat
  stride : List Nat
  box : List Nat
  haxis : Nat
  hlevels : Nat
  hlayout : Nat
  hthrsel : Nat
  comp : Nat
  block : Nat
  scaleBase : Nat
  survBase : Nat
  berth : Nat
  rhandle : Nat
  mscPri : Nat
  lastUse : Nat
  oob : Nat
  seq : Nat
deriving DecidableEq, Repr

/-- DEDUCED, log 30. -/
def layoutOf (ws : List TWord) : Layout :=
  { base := fieldAt ws 0 8
    dim := (List.range 5).map fun k => fieldAt ws (0x08 + 4 * k) 4
    fmt := fieldAt ws 0x1C 1, dom := fieldAt ws 0x1D 1, elembits := fieldAt ws 0x1E 1, flags := fieldAt ws 0x1F 1
    stride := (List.range 4).map fun k => fieldAt ws (0x20 + 8 * k) 8
    box := (List.range 5).map fun k => fieldAt ws (0x40 + 2 * k) 2
    haxis := fieldAt ws 0x4A 1, hlevels := fieldAt ws 0x4B 1, hlayout := fieldAt ws 0x4C 1, hthrsel := fieldAt ws 0x4D 1
    comp := fieldAt ws 0x4E 1, block := fieldAt ws 0x4F 1, scaleBase := fieldAt ws 0x50 8, survBase := fieldAt ws 0x58 8
    berth := fieldAt ws 0x60 4, rhandle := fieldAt ws 0x64 4, mscPri := fieldAt ws 0x68 1, lastUse := fieldAt ws 0x69 1
    oob := fieldAt ws 0x6C 4, seq := fieldAt ws 0xB8 4 }

/-- ELEMBITS of a FMT code (R49); none for codes 0, 14 and 15. -/
def elemBits (fmt : Nat) : Option Nat :=
  if fmt = 0 || 13 < fmt then none
  else if fmt ≤ 3 || fmt = 13 then some 32
  else if fmt ≤ 7 then some 16
  else if fmt = 10 then some 4
  else some 8

/-- The address of a record and its words meet R236: aligned, no poison, every field within its limits, and the check
sum. BERTH is the consumer's. (DEDUCED, log 30) -/
def layoutOk (va : Nat) (ws : List TWord) : Bool :=
  let r := layoutOf ws
  let es := max 1 (r.elembits / 8)
  va % 64 == 0 && !anyPoison ws && (ws.map fun t => t.data.toNat).sum % 2 ^ 32 == 0 &&
  (fieldAt ws 0x6A 2 == 0) && ((List.range 18).all fun i => fieldAt ws (0x70 + 4 * i) 4 == 0) &&
  elemBits r.fmt == some r.elembits && r.flags == 0 && decide (r.dom ≤ 7) && r.dom == r.hlevels &&
  r.base % (if r.fmt = 10 then 16 else es) == 0 && r.stride.all (fun s => s % es == 0) && r.dim.all (fun d => decide (1 ≤ d)) &&
  ((r.box.zip r.dim).all fun e => decide (1 ≤ e.1) && decide (e.1 ≤ e.2)) &&
  decide (1 ≤ r.haxis) && decide (r.haxis ≤ 4) && decide (r.hlevels ≤ 7) && r.hlayout == 0 && decide (r.hthrsel ≤ 3) &&
  decide (r.comp ≤ 1) && (r.comp == 0 || r.fmt == 10) && r.block == (if r.comp = 1 then 32 else 0) &&
  (if r.comp = 1 then r.scaleBase % 8 == 0 else r.scaleBase == 0) &&
  (if r.hlevels != 0 then r.survBase % 8 == 0 else r.survBase == 0) &&
  (decide (r.rhandle ≤ 255) || r.rhandle == 0xFFFFFFFF) && decide (r.mscPri ≤ 3) && decide (r.lastUse ≤ 1)

/-- Address of the byte that holds an element: dim0 contiguous, Q4 elements two to a byte (R43, R236). -/
def Layout.addr (r : Layout) (i : List Nat) : Nat :=
  (r.base + i.getD 0 0 * r.elembits / 8 + ((List.range 4).map fun k => r.stride.getD k 0 * i.getD (k + 1) 0).sum) % 2 ^ 64

/-- An element lies inside DIM. -/
def Layout.inside (r : Layout) (i : List Nat) : Bool := (List.range 5).all fun k => decide (i.getD k 0 < r.dim.getD k 0)

/-- Coordinates of dim0 line n over dims 1 to 4 (R45). -/
def Layout.lineCoords (r : Layout) (n : Nat) : List Nat :=
  let d := fun k => max 1 (r.dim.getD k 1)
  [0, n % d 1, n / d 1 % d 2, n / (d 1 * d 2) % d 3, n / (d 1 * d 2 * d 3)]

def Layout.lines (r : Layout) : Nat := (r.dim.drop 1).foldl (· * ·) 1

/-- The index n of a line (R45). -/
def Layout.lineIndex (r : Layout) (i : List Nat) : Nat :=
  i.getD 1 0 + r.dim.getD 1 1 * (i.getD 2 0 + r.dim.getD 2 1 * (i.getD 3 0 + r.dim.getD 3 1 * i.getD 4 0))

/-- SLOT of R45. -/
def Layout.slot (r : Layout) : Nat := ceilDiv (2 * ceilDiv (r.dim.getD 0 1) 32) 8 * 8

/-- Address of the scale records of a line (R45). -/
def Layout.scaleAddr (r : Layout) (line : Nat) : Nat := (r.scaleBase + line * r.slot) % 2 ^ 64

/-- N of a Haar record (R319). -/
def Layout.segLen (r : Layout) : Nat := 2 ^ r.hlevels

/-- The group of a segment and strip (R324): coordinates with the Haar coordinate at its segment. -/
def Layout.groupAddr (r : Layout) (i : List Nat) (strip : Nat) : Nat :=
  let n := r.segLen
  let c := fun k => if k = r.haxis then i.getD k 0 / n else i.getD k 0
  let d := fun k => if k = r.haxis then r.dim.getD k 1 / n else r.dim.getD k 1
  let g := c 1 + d 1 * (c 2 + d 2 * (c 3 + d 3 * c 4))
  (r.survBase + (g * (r.dim.getD 0 1 / 8) + strip) * 32) % 2 ^ 64

/-- The limits of a Haar record (R324). -/
def Layout.haarOk (r : Layout) : Bool :=
  decide (1 ≤ r.hlevels) && [1, 3, 4, 5, 8, 9, 11].contains r.fmt && r.comp == 0 && r.dim.getD 0 0 % 8 == 0 &&
  r.dim.getD r.haxis 0 % r.segLen == 0 && decide (r.dim.getD 3 0 ≤ 65535) && decide (r.dim.getD 4 0 ≤ 65535) && r.berth == 0

/-- The footprint as byte ranges, address and length (R258). -/
def Layout.footprint (r : Layout) : List (Nat × Nat) :=
  let row := ceilDiv (r.dim.getD 0 1 * r.elembits) 8
  ((List.range r.lines).map fun n => (r.addr (r.lineCoords n), row)) ++
  (if r.comp = 1 then [(r.scaleBase, r.lines * r.slot)] else []) ++
  (if r.hlevels != 0 then [(r.survBase, r.lines / r.segLen * ceilDiv (r.dim.getD 0 1) 8 * 32)] else [])

/-- The 64 KiB pages of byte ranges. -/
def pagesOf (foot : List (Nat × Nat)) : List Nat :=
  foot.foldl (fun ps f =>
    if f.2 = 0 then ps
    else (List.range ((f.1 % 65536 + f.2 + 65535) / 65536)).foldl (fun ps i => insertNat (f.1 / 65536 + i) ps) ps) []

def inFoot (foot : List (Nat × Nat)) (a : Nat) : Bool := foot.any fun f => decide (f.1 ≤ a) && decide (a < f.1 + f.2)

/-- Lowest and highest byte of the elements (R262). -/
def Layout.span (r : Layout) : Nat × Nat :=
  let row := ceilDiv (r.dim.getD 0 1 * r.elembits) 8
  let starts := (List.range r.lines).map fun n => r.addr (r.lineCoords n)
  (starts.foldl min (r.base), (starts.foldl max (r.base)) + row - 1)

/-! ### Segments of a strip (R324, R328) -/

/-- Coordinates in the words G[c] to G[c+3] (R328). -/
def coordsOf (v : Nat → Nat) : List Nat := [v 0, v 1, v 2, bits (v 3) 15 0, bits (v 3) 31 16]

/-- A segment of a strip: first lane; the row addresses by tree position and the group's address when inside DIM. -/
structure Seg where
  lane0 : Nat
  rows : Option (List Nat × Nat)
deriving DecidableEq, Repr

/-- Coordinates with the Haar coordinate replaced. -/
def haarAt (r : Layout) (idx : List Nat) (h : Nat) : List Nat := idx.set r.haxis h

def Layout.segAt (r : Layout) (idx : List Nat) (lane0 : Nat) : Seg :=
  let h := idx.getD r.haxis 0 + lane0
  let n := r.segLen
  let last := haarAt r idx (h + n - 1)
  { lane0 := lane0
    rows := if r.inside last then
        some ((List.range n).map fun c => r.addr (haarAt r idx (h + c)), r.groupAddr (haarAt r idx h) (idx.getD 0 0 / 8))
      else none }

/-- Bytes of an element, words of a row of 8, elements of a word. -/
def Layout.es (r : Layout) : Nat := max 1 (r.elembits / 8)
def Layout.rowWords (r : Layout) : Nat := 2 * r.es
def Layout.perWord (r : Layout) : Nat := 4 / r.es

/-- The bytes of a segment, address and length: its group's words and its rows. -/
def Layout.segBytes (r : Layout) (s : Seg) : List (Nat × Nat) :=
  match s.rows with
  | some (rows, g) => (g, 32) :: rows.map fun a => (a, 4 * r.rowWords)
  | none => []

/-! ### The record cache (R237) -/

def recordEntries : Nat := 64

/-- What reading words of global memory for an instruction or an engine gives. -/
inductive Words where
  | ok (ws : List TWord) (m : Machine)
  /-- the page at an address is not valid: context and address of the page, source, machine. -/
  | fault (ctx va source : Nat) (m : Machine)
  | prot (va level : Nat) (cause : ProtCause)
  | revoked (b : Nat) (m : Machine)

/-- Read n words from an address of a context at the point of coherence, page by page: a word that is refused comes before a page
that faults (R338, R355). -/
def Machine.readWords (m : Machine) (key ctx va source : Nat) : Nat → Words
  | 0 => .ok [] m
  | n + 1 =>
    let a := (va + 4 * n) % 2 ^ 64
    match m.readWords key ctx va source n with
    | .ok ws m =>
      match m.place key ctx a 4 .read source with
      | (.fault c v s, m) => .fault c v s m
      | (.prot l c, _) => .prot a l c
      | (.revoked b, m) => .revoked b m
      | (p, m) => match m.readPlace p 1 (m.placePri ctx a p plainPri) with
        | some (w, m) => .ok (ws ++ w) m
        | none => .prot a 0 .permission
    | .fault c v s m =>
      match m.place key ctx a 4 .read source with
      | (.prot l c, _) => .prot a l c
      | (.revoked b, m) => .revoked b m
      | _ => .fault c v s m
    | r => r

/-- Read a record through the core's record cache (R237). (DEDUCED, log 30) -/
def Machine.readRecord (m : Machine) (core ctx va source : Nat) : Words :=
  match (m.core core).records.find? fun e => e.1 == ctx && e.2.1 == va with
  | some e => .ok e.2.2 m
  | none =>
    match (m.flushL1 core).readWords core ctx va source 48 with
    | .ok ws m =>
      .ok ws (m.updCore core fun c => { c with l1 := [], records := (ctx, va, ws) :: c.records.take (recordEntries - 1) })
    | r => r

/-- Park a read of an instruction that meets a page fault: nothing of its chain happens, and it runs again when the fault
is resolved (R291, R336). -/
def W.waitRead (w : W) (fctx fva source va : Nat) : Act :=
  match Map.get w.m0.groups w.gk with
  | none => .hold
  | some g =>
    if badMark (g.entry w.is.sid) va then w.trapAt { code := .page, addr := va }
    else
      let count := ((Map.get w.m0.ctxs fctx).map (·.resolve)).getD 0
      .wait (.read va) (w.m0.parkRequest
        { core := g.core, group := w.gk, ctx := fctx, va := fva, ova := va, access := 0, lane := 0, words := [], size := 4
          instr := none, slots := [], pendingId := w.is.sid, count := count, waiting := false, flight := false } source)

def Group.source (g : Group) : Nat := if g.lighter.isSome then 1 else 0

/-- The machine before the chain, with what refusals have told it: import berths that became STALE, and their events (R403, R409). -/
def W.anew (w : W) (m : Machine) : W :=
  { w with m := (m.berths.filter fun (e : Nat × Berth) => e.2.state == .stale).foldl (fun (m : Machine) (e : Nat × Berth) => m.stale e.1) w.m0 }

/-- A trap that may be a refusal: what it told of a berth stays. -/
def W.refusedAt (w : W) (m : Machine) (t : Trap) : Act := .trap t (w.anew m).m w.is.mask

/-- Read words for an instruction: they, or how the instruction ends. -/
def W.words (w : W) (va : Nat) (r : Words) : Except Act (List TWord × W) :=
  match r with
  | .ok ws m => .ok (ws, { w with m := m })
  | .fault c v s m => .error (({ w with m0 := { w.m0 with tlb := m.tlb } } : W).waitRead c v s va)
  | .prot a l c => .error (w.trapAt (protTrap a l c))
  | .revoked b m => .error (w.refusedAt m { code := .revoked, addr := va, info := b })

/-- A read of a later word of a chain gives what memory held before the chain (R90). -/
def W.asBefore (w : W) (r r0 : Words) : Words :=
  if w.is.pos = 0 then r
  else match r, r0 with
    | .ok _ m, .ok ws _ => .ok ws m
    | r, _ => r

def W.readRecord (w : W) (va : Nat) : Except Act (List TWord × W) :=
  let read := fun (m : Machine) => m.readRecord w.g.core w.g.ctx va w.g.source
  w.words va (w.asBefore (read w.m) (read w.m0))

/-- The words that an instruction reads after its release at DEVICE scope: the group's earlier stores are in them. -/
def W.readWords (w : W) (va n : Nat) : Except Act (List TWord × W) :=
  let read := fun (m : Machine) => m.readWords w.g.core w.g.ctx va w.g.source n
  w.words va (w.asBefore (read w.m) (read (w.m0.release w.g.core .device w.blockCores)))

end Sys2Proof.Machine
end

