-- ==== Sys2Proof/Machine/Access.lean ====
section
/-! DEFINITION. Accesses of an instruction to memory and scratchpad (R226, R244 to R250): addresses and their checks,
places of all lanes, one lane's read or write through the caches, long-latency results, requests that park. -/

namespace Sys2Proof.Machine

open Sys2Proof

/-! ### Scratchpad (R209, R226) -/

/-- The block and offset a scratchpad address names for an access of n bytes. (DEDUCED, log 27) -/
def Machine.spadAt (m : Machine) (blk q n : Nat) : Option (Nat × Nat) :=
  match Map.get m.blocks blk with
  | none => none
  | some b =>
    let sel := q / 2 ^ 32 % 65536
    let off := q % 2 ^ 32
    let ok := fun (x : Block) => x.state != .retired && decide (off + n ≤ x.scratch)
    if 2 ^ 48 ≤ q ∨ b.gangSize < sel then none
    else if sel = 0 then if ok b then some (blk, off) else none
    else
      match m.blocks.find? fun e => e.2.ctx == b.ctx && e.2.grid == b.grid && e.2.gang == b.gang && e.2.inGang + 1 == sel with
      | some e => if ok e.2 then some (e.1, off) else none
      | none => none

def Block.word (b : Block) (off : Nat) : TWord := Map.getD b.spad (off / 4) TWord.zero

def Block.setWord (b : Block) (off : Nat) (t : TWord) : Block := { b with spad := Map.put b.spad (off / 4) t TWord.zero }

/-- Physical address of a byte of a block's scratchpad image (R369). -/
def spadImage (c : Ctx) (image off : Nat) : Nat := c.saveBase + 0x800000 * (c.bimgOff + image) + off

/-- Where a saved block's scratchpad byte stands in memory (R218, R369). -/
def Machine.savedAt (m : Machine) (blk off : Nat) : Option Nat :=
  match Map.get m.blocks blk with
  | some b =>
    if b.state == .saved then (Map.get m.ctxs b.ctx).map fun c => spadImage c b.image off else none
  | none => none

/-- A scratchpad word, of the saved image while the block is saved. (DEDUCED, log 27) -/
def Machine.spadWord (m : Machine) (blk off : Nat) : TWord :=
  match m.savedAt blk off with
  | some pa => (m.homeWord pa).1
  | none => ((Map.get m.blocks blk).map (·.word off)).getD TWord.zero

/-- DEDUCED, log 27. -/
def Machine.setSpad (m : Machine) (blk off : Nat) (t : TWord) : Machine :=
  match m.savedAt blk off with
  | some pa => m.setHomeWord pa t
  | none => m.updBlock blk fun b => b.setWord off t

/-- Write n bytes of a scratchpad: whole words, or bytes of one word (R66). -/
def Machine.spadBytes (m : Machine) (blk off n : Nat) (ws : List TWord) : Machine :=
  if n < 4 then
    m.setSpad blk off (mergeWord (m.spadWord blk off) (wordAt ws 0) fun b => decide (off % 4 ≤ b) && decide (b < off % 4 + n))
  else (List.range (n / 4)).foldl (fun m i => m.setSpad blk (off + 4 * i) (wordAt ws i)) m

/-! ### Loads and stores by form (R248, R249) -/

def ldBytes : LdT → Nat
  | .i8 | .n8 => 1
  | .i16 | .n16 => 2
  | .w => 4
  | .d => 8
  | .q => 16

def ldTag : LdT → BitVec 8
  | .i8 | .i16 => 1
  | .n8 | .n16 => 2
  | _ => 0

def stBytes : StT → Nat
  | .b => 1
  | .h => 2
  | .w => 4
  | .d => 8
  | .q => 16

/-- A byte or half of a word: extended, with the residue of its bits; poison when the word fails verification (R65). -/
def subWord (n : Nat) (signed : Bool) (a : Nat) (t : TWord) : TWord :=
  let v := t.data.toNat / 256 ^ (a % 4) % 256 ^ n
  let w : Word := if signed then wordOfInt (sext (8 * n) v) else BitVec.ofNat 32 v
  if t.good then { data := w, res := BitVec.ofNat 4 (v % 15) } else { data := w, res := 15#4 }

/-- The words a load writes, of the memory words from the one that holds its address on. -/
def loadWords (t : LdT) (a : Nat) (ws : List TWord) : List TWord :=
  match t with
  | .i8 => [subWord 1 true a (wordAt ws 0)]
  | .n8 => [subWord 1 false a (wordAt ws 0)]
  | .i16 => [subWord 2 true a (wordAt ws 0)]
  | .n16 => [subWord 2 false a (wordAt ws 0)]
  | .w => ws.take 1
  | .d => ws.take 2
  | .q => ws.take 4

/-- The memory words of a store: a byte or half at its place in its word. -/
def storeWords (n a : Nat) (ws : List TWord) : List TWord :=
  if n < 4 then [TWord.of (BitVec.ofNat 32 ((wordAt ws 0).data.toNat % 256 ^ n * 256 ^ (a % 4)))] else ws

/-! ### One access -/

/-- Who accesses and how: core, context, PRI, LU, the sectors that a drop by LU leaves (R233), and the scope of an ordered access
with the cores of its block. -/
structure Acc where
  core : Nat
  ctx : Nat
  pri : Nat
  lu : Bool
  order : Option (Scope × Nat)
  keep : List Nat := []
deriving DecidableEq, Repr

/-- The scope reaches beyond the core (R230). -/
def Acc.beyond (a : Acc) : Bool := match a.order with
  | some (s, n) => scopeBeyond s n
  | none => false

/-- Read n words of one lane's access (R227, R250). -/
def Machine.readLane (m : Machine) (a : Acc) (va : Nat) (p : Place) (n : Nat) : Option (List TWord × Machine) :=
  match p with
  | .pa pa leaf =>
    let own := max a.pri leaf
    let pri := m.handlePri a.ctx va own
    let (ws, m) := if a.beyond then ((m.l1WriteBack a.core (pa / 64)).l1Drop a.core (pa / 64)).dieRead (dieOfCore a.core) (pa / 64) pri
      else m.l1Read a.core (pa / 64) own pri
    some ((List.range n).map fun i => wordAt ws (pa % 64 / 4 + i), m)
  | p => m.readPlace p n (m.placePri a.ctx va p a.pri)

/-- Write n bytes of one lane's access (R227, R232, R250). -/
def Machine.writeLane (m : Machine) (a : Acc) (va : Nat) (p : Place) (n : Nat) (ws : List TWord) : Wrote :=
  match p with
  | .pa pa leaf =>
    let own := max a.pri leaf
    let pri := m.handlePri a.ctx va own
    let sn := pa / 64
    let d := dieOfCore a.core
    if a.lu then
      .done ((m.dropCopies a.core sn).homeBytes pa n ws pri)
    else if a.beyond then
      let m := (m.l1WriteBack a.core sn).l1Drop a.core sn
      match a.order with
      | some (s, _) =>
        if scopeAtDevice s then .done (m.homeBytes pa n ws pri)
        else .done (m.dieMerge d sn (placedWords pa ws) (byteMaskAt (pa % 64) n) pri)
      | none => .done m
    else .done (m.l1Merge a.core sn (placedWords pa ws) (byteMaskAt (pa % 64) n) own pri)
  | .window b pa off =>
    let m := if a.lu && !m.shadowedBerth b then m.dropCopies a.core (pa / 64) else m
    m.writeWindow b pa off n ws (m.windowPri b off a.pri)
  | .remote path rkey off => .done (m.send (.rdma path 1 rkey off n ws))
  | .fault c v _ => .fault c v 1
  | _ => .refused

/-! ### Checks (R247) -/

/-- Addresses of the lanes (R99). -/
def W.addrs (w : W) (g sh : Nat) (l : Nat) : Nat := addr64 (w.pair g) (w.srcAt 0 l).data sh

/-- The address formed from a uniform A (R244). -/
def W.uaddr (w : W) (g : Nat) : Nat := addr64 (w.pair g) (w.srcAt 0 0).data 0

/-- POISON, then RCHK OPERAND, over the G words, the offsets and the checked sources (R247). (DEDUCED, log 18) -/
def W.memCheck (w : W) (ks : List Nat) : Option Trap :=
  operandCheck w.real ((w.u.us.map fun n => (0, List.replicate w.g.width (w.uni n))) ++
    ((ks.filter fun k => (w.ref k).stored).map fun k => (k, w.src k)))

/-- A trap of the lanes that meet a condition: ADDR is that of the first. -/
def W.lanesTrap (w : W) (t : Trap) (addr : Nat → Nat) (bad : Nat → Bool) : Option Trap :=
  match (lanesOf w.real).filter bad with
  | [] => none
  | l :: r => some { t with addr := addr l, lanes := some (maskOf (l :: r)) }

def W.alignTrap (w : W) (addr : Nat → Nat) (size : Nat) : Option Trap :=
  w.lanesTrap { code := .align } addr fun l => addr l % size != 0

def W.spboundTrap (w : W) (addr : Nat → Nat) (size : Nat) : Option Trap :=
  w.lanesTrap { code := .spbound } addr fun l => (w.m0.spadAt w.g.block (addr l) size).isNone

def W.lanesIf (w : W) (helpers : Bool) : List Nat := lanesOf (if helpers then w.mask else w.real)

def lanePlace (ps : List (Nat × Place)) (l : Nat) : Option Place := (ps.find? fun e => e.1 == l).map (·.2)

/-- The bytes of a parked access, address and length: of a strip's segment, all its words. (DEDUCED, log 29) -/
def Parked.spans (r : Parked) : List (Nat × Nat) :=
  let seg := fun (_ : HldF) =>
    let rec_ := layoutOf (r.words.take 48)
    rec_.segBytes (rec_.segAt (coordsOf fun i => (wordAt r.words (48 + i)).data.toNat) r.lane)
  match r.instr with
  | some (.hld f) => seg f
  | some (.hldx f) => seg f
  | _ => [(r.ova, r.size)]

/-- The page that an earlier parked access of the group waits for, when it overlaps the bytes of an access and one of the two writes:
the access takes its place after it and parks too (R249, R272, R284). Only requests below a number count. (DEDUCED, log 29) -/
def Machine.behind (m : Machine) (gk va size : Nat) (k : Access) (before : Nat) : Option (Nat × Nat) :=
  (m.parked.find? fun e =>
    decide (e.1 < before) && e.2.group == gk && e.2.ofLane && (k != .read || e.2.access != 0) &&
    e.2.spans.any fun b => decide (b.1 < va + size) && decide (va < b.1 + b.2)).map fun e => (e.2.ctx, e.2.va)

/-- The place of an access that may have to wait for a parked one. -/
def Place.after (p : Place) (b : Option (Nat × Nat)) (source : Nat) : Place :=
  match b with
  | none => p
  | some (c, v) => match p with
    | .prot l e => .prot l e
    | .revoked b => .revoked b
    | _ => .fault c v source

/-- A store of a group to a sector: LU and LASTUSE accesses that it issued before and that are still to be performed drop it no more
(R233). `mine` tells which parked ones. (DEDUCED, log 35) -/
def Machine.noteStore (m : Machine) (gk : Nat) (p : Place) (mine : Nat → Parked → Bool) : Machine :=
  match p.homePa with
  | none => m
  | some pa => { m with
      parked := m.parked.map fun (e : Nat × Parked) => if e.2.group == gk && e.2.lu && mine e.1 e.2 then
        (e.1, { e.2 with later := insertNat (pa / 64) e.2.later }) else e
      cmds := m.cmds.map fun (e : Nat × Cmd) =>
        if e.2.group == gk && e.2.state != .done && e.2.recs.any fun r => (layoutOf r).lastUse == 1 then
          (e.1, { e.2 with later := insertNat (pa / 64) e.2.later }) else e }

def W.noted (w : W) (p : Place) : W := { w with m := w.m.noteStore w.gk p fun _ _ => true }

/-- A helper lane whose address is made of poison or of a word that fails its check: a load gives it poison (R68, R180). -/
def W.addrBad (w : W) (l : Nat) : Bool :=
  w.helperBad [0] l || (w.isHelper l && w.u.us.any fun n => !(w.uni n).good)

/-- The places of all lanes (R247); misaligned helper lanes are left out. -/
def W.places (w : W) (addr : Nat → Nat) (size : Nat) (k : Access) (helpers : Bool) : List (Nat × Place) × W :=
  ((w.lanesIf helpers).filter fun l => addr l % size == 0 && !w.addrBad l).foldl (fun (s : List (Nat × Place) × W) l =>
    let (p, m) := s.2.m.place w.g.core w.g.ctx (addr l) size k w.g.source
    (s.1 ++ [(l, p.after (m.behind w.gk (addr l) size k m.nextId) w.g.source)], { s.2 with m := m })) ([], w)

def Place.protOf : Place → Option (Nat × ProtCause)
  | .prot l c => some (l, c)
  | _ => none

def Place.isFault : Place → Bool
  | .fault _ _ _ => true
  | _ => false

/-- The berth of the page that maps an address; 0 when it is none (R287, R406). -/
def Machine.berthAt (m : Machine) (ctx va : Nat) : Nat :=
  match (m.probe ctx va).1 with
  | .leaf _ e => pteBerth e
  | _ => 0

def Place.refusedBy : Place → Option Nat
  | .revoked b => some b
  | _ => none

/-- PROT in any real lane stops the whole instruction (R247). -/
def W.protCheck (w : W) (ps : List (Nat × Place)) (addr : Nat → Nat) : Option Trap :=
  match (ps.filter fun e => lane w.real e.1).filterMap fun e => e.2.protOf.map fun p => (e.1, p) with
  | [] => none
  | (l, lv, c) :: r => some { (protTrap (addr l) lv c) with lanes := some (maskOf (l :: r.map (·.1))) }

/-- Later accesses wait while an acquire of the group is parked (R250, R270, R284); a CDONE's parked OR is none (R173). (DEDUCED, log 28) -/
def W.acquireParked (w : W) : Bool :=
  w.m.parked.any fun e => e.2.group == w.gk && !e.2.flight && match e.2.instr with
    | some (.lda f) => f.sc != .group
    | some i => e.2.access == 2 && (match i with
      | .redAdd _ | .redMin _ | .redMax _ | .redMinU _ | .redMaxU _ | .redFadd _ | .redAnd _ | .redOr _ | .cdone _ => false
      | _ => true)
    | none => false

/-- A synchronising access of the group is parked, or a CDONE's OR is in flight: the group's later synchronising accesses wait
for it, since a group performs them in its order (R268, R276, R284). (DEDUCED, log 28) -/
def W.syncParked (w : W) : Bool :=
  w.m.parked.any fun e => e.2.group == w.gk && (e.2.flight || match e.2.instr with
    | some (.lda _) | some (.stl _) => true
    | some _ => e.2.access == 2
    | none => false)

/-- DEDUCED, log 28. -/
def W.dataParked (w : W) : Bool := w.m.groupParked w.gk

/-- Requests a core may have outstanding (R17). -/
def requestLimit : Nat := 8192

/-- Long-latency results that come from memory: loads, atomics and strips; LDS, ATOMS, MREAD, PROBE and the status words make no
request to memory. -/
def requestsMemory (i : Instr) : Bool :=
  match i with
  | .ld _ | .lda _ | .hld _ | .hldx _ | .atomAdd _ | .atomMin _ | .atomMax _ | .atomMinU _ | .atomMaxU _ | .atomFadd _ | .atomExch _
  | .atomCas _ | .atomAnd _ | .atomOr _ | .atomXor _ | .atomAddD _ | .atomExchD _ | .atomCasD _ => true
  | _ => false

/-- Requests of a core that have not returned: lanes of memory results not yet delivered, and parked stores (R17). -/
def Machine.openRequests (m : Machine) (core : Nat) : Nat :=
  ((m.groups.filter fun e => e.2.core == core).map fun e =>
    ((e.2.pending.filter fun p => (p.2.instr.map requestsMemory).getD false).map fun p => (lanesOf p.2.lanes).length).sum).sum +
  (m.parked.filter fun e => e.2.core == core && e.2.ofLane && e.2.slots.isEmpty).length

/-- The core has no room for one more request of every lane of the mask (R17). -/
def W.noRoom (w : W) : Bool := decide (requestLimit < w.m.openRequests w.g.core + (lanesOf w.mask).length)

/-- A word that reads memory does so as memory stood before its chain (R90): the words of a lane's read, and the machine that
the read leaves. -/
def W.readLane (w : W) (a : Acc) (va : Nat) (p : Place) (n : Nat) : Option (List TWord × Machine) :=
  (w.m.readLane a va p n).map fun r =>
    (match p with
    | .remote _ _ _ => r.1
    | _ => if w.is.pos = 0 then r.1 else ((w.m0.readLane a va p n).map (·.1)).getD r.1, r.2)

/-! ### Long-latency results (R245) -/

/-- Issue a long-latency result: its run is empty in the lanes of the mask until the words are delivered. (DESIGN CHOICE, log 4) -/
def W.issueLong (w : W) (slots : List Nat) (lanes : Mask) (words : List (Nat → TWord)) (tag : BitVec 8) (parked : Mask) : W :=
  if slots.isEmpty then w
  else
    let id := w.m.nextId
    let p : Pending := { slots := slots, lanes := lanes, words := words.map fun f => (List.range w.g.width).map f, tag := tag
                         mread := none, parked := parked, instr := some w.instr, pc := w.addr, mask := w.mask
                         finj := if w.struck then w.g.finj else 0 }
    let w := { w with m := { w.m with nextId := id + 1 } }
    w.upd fun g => { g with
      pending := Map.set g.pending id p
      regs := slots.foldl (fun rs s => rs.set s { (rs.getD s (emptyReg g.width)) with
        empty := (rs.getD s (emptyReg g.width)).empty ||| lanes }) g.regs }

/-- Park the requests of lanes that fault, in ascending order (R291). (DEDUCED, log 29) -/
def W.parkLanes (w : W) (ps : List (Nat × Place)) (addr : Nat → Nat) (size : Nat) (k : Access) (data : Nat → List TWord)
    (slots : List Nat) (pid : Nat) (lu : Bool := false) : W :=
  ps.foldl (fun w e =>
    match e.2 with
    | .fault c v src =>
      let count := ((Map.get w.m.ctxs c).map (·.resolve)).getD 0
      let r : Parked :=
          { core := w.g.core, group := w.gk, ctx := c, va := v, access := k.code, ova := addr e.1, lane := e.1, words := data e.1
            size := size, instr := some w.instr, slots := slots, pendingId := pid, count := count, waiting := false, flight := false
            lu := lu }
      { w with m := w.m.parkRequest r src }
    | _ => w) w

/-- A REVOKED trap of refused lanes: the lanes that were performed stay performed (R406, R256). -/
def W.refusedTrap (w : W) (ps : List (Nat × Place)) (addr : Nat → Nat) : Option Trap :=
  match (ps.filter fun e => lane w.real e.1).filterMap fun e => e.2.refusedBy.map fun b => (e.1, b) with
  | [] => none
  | (l, b) :: r => some { code := .revoked, addr := addr l, info := b, lanes := some (maskOf (l :: r.map (·.1))) }

/-- End a word whose performed lanes stay performed: with refused lanes it traps, and only they are replayed. -/
def W.endLanes (w : W) (t : Option Trap) : Act :=
  match t with
  | some t => .trap t w.m (t.lanes.getD 0)
  | none => w.done

end Sys2Proof.Machine
end

