-- ==== Sys2Proof/Machine/MemOps.lean ====
section
/-! DEFINITION. Loads and stores, prefetch, residency handles, LRFLUSH, WAITV, FENCE, MFLUSH and the shadow instructions
(R244 to R250, R257 to R265). -/

namespace Sys2Proof.Machine

open Sys2Proof

def poisonWord : TWord := { data := 0, res := 15#4 }

/-! ### Loads -/

/-- The access of a word of the group. -/
def W.acc (w : W) (pri : Nat) (lu : Bool) (order : Option Scope) : Acc :=
  { core := w.g.core, ctx := w.g.ctx, pri := pri, lu := lu, order := order.map fun s => (s, w.blockCores) }

/-- Words of one lane's load, with injection on the word as loaded (R71). (DEDUCED, log 16) -/
def W.injectRun (w : W) (l : Nat) (ws : List TWord) : List TWord :=
  match ws with
  | [] => []
  | t :: r => w.inject l t :: r

/-- Perform the lanes that can be, ascending; helper lanes that fail receive poison (R247). (DESIGN CHOICE, log 9) (DEDUCED, log 39) -/
def W.loadLanes (w : W) (a : Acc) (t : LdT) (addr : Nat → Nat) (ps : List (Nat × Place)) : List (Nat × List TWord) × W :=
  ps.foldl (fun (s : List (Nat × List TWord) × W) e =>
    match s.2.readLane a (addr e.1) e.2 (max 1 ((ldBytes t) / 4)) with
    | some (ws, m) => (s.1 ++ [(e.1, s.2.injectRun e.1 (loadWords t (addr e.1) ws))], { s.2 with m := m })
    | none => s) ([], w)

/-- Drop the lines of an LU access, once its lanes are performed (R232); a helper lane drops none (R266). (DEDUCED, log 35) -/
def W.dropLines (w : W) (ps : List (Nat × Place)) : W :=
  ps.foldl (fun w e => match e.2.homePa with
    | some pa => if lane w.real e.1 then { w with m := w.m.dropLine w.g.core (pa / 64) } else w
    | none => w) w

def lanesWith (ps : List (Nat × Place)) (f : Place → Bool) : Mask := maskOf ((ps.filter fun e => f e.2).map (·.1))

def laneWord (vals : List (Nat × List TWord)) (k l : Nat) : TWord :=
  match vals.find? fun e => e.1 == l with
  | some e => e.2.getD k poisonWord
  | none => poisonWord

/-- What a load does once nothing stops it whole. (DESIGN CHOICE, log 4) -/
def W.loadBody (w : W) (a : Acc) (t : LdT) (addr : Nat → Nat) (ps : List (Nat × Place)) (slots : List Nat) : W :=
  let refused := lanesWith ps (fun p => p.refusedBy.isSome) &&& w.real
  let parked := lanesWith ps Place.isFault &&& w.real
  let (vals, w) := w.loadLanes a t addr ps
  let w := if a.lu then w.dropLines ps else w
  let w := match a.order with
    | some (s, _) => w.acquire s
    | none => w
  let pid := w.m.nextId
  let w := w.issueLong slots (w.mask &&& ~~~ refused) ((List.range slots.length).map fun k => laneWord vals k) (ldTag t) parked
  (w.parkLanes (ps.filter fun e => lane w.real e.1) addr (ldBytes t) .read (fun _ => []) slots pid a.lu).shotIn (maskOf (vals.map (·.1)))

/-- A global load (R247, R248, R250). -/
def W.load (w : W) (a : Acc) (t : LdT) (addr : Nat → Nat) (slots : List Nat) : Act :=
  if w.acquireParked || (a.order.isSome && w.syncParked) || w.noRoom then .hold
  else w.guard (firstTrap [w.memCheck [0], w.alignTrap addr (ldBytes t)])
    (let (ps, w) := w.places addr (ldBytes t) .read true
    w.guard (w.protCheck ps addr)
      (match w.refusedTrap ps addr with
      | some tr => ((w.anew w.m).loadBody a t addr ps slots).endLanes (some tr)
      | none => (w.loadBody a t addr ps slots).endLanes none))

/-- LD (R248). -/
def execLd (f : LdF) (s : State) : Host.Outcome State Fault Refusal :=
  runWord (.ld f) s fun w => w.load (w.acc f.pri.val f.lu none) f.t (w.addrs f.g.val f.sh.val) (ldstSlots f.t.run f.d)

/-- LDA: an acquire at its scope (R248, R250). -/
def execLda (f : LdaF) (s : State) : Host.Outcome State Fault Refusal :=
  runWord (.lda f) s fun w =>
    w.load (w.acc f.pri.val f.lu (some f.sc)) (if f.dw then .d else .w) (w.addrs f.g.val 0) (ldstSlots (if f.dw then 2 else 1) f.d)

/-- LDS: a load of scratchpad (R226, R248). -/
def execLds (f : LdF) (s : State) : Host.Outcome State Fault Refusal :=
  runWord (.lds f) s fun w =>
    let addr := w.addrs f.g.val f.sh.val
    let n := (ldBytes f.t)
    let slots := ldstSlots f.t.run f.d
    if w.acquireParked then .hold
    else w.guard (firstTrap [w.memCheck [0], w.alignTrap addr n, w.spboundTrap addr n])
      (let vals := (lanesOf w.mask).filterMap fun l =>
        if addr l % n != 0 || w.addrBad l then none
        else (w.m.spadAt w.g.block (addr l) n).map fun p =>
          (l, w.injectRun l (loadWords f.t p.2 ((List.range (max 1 (n / 4))).map fun i => w.m0.spadWord p.1 (p.2 + 4 * i))))
      (w.issueLong slots w.mask ((List.range slots.length).map fun k => laneWord vals k) (ldTag f.t) 0).shot.done)

/-! ### Stores -/

/-- Source words of lane l: the slots after the offset. -/
def W.storeData (w : W) (n l : Nat) : List TWord := (List.range n).map fun k => w.srcAt (1 + k) l

/-- Perform the lanes of a store in ascending order; a window's page may fault then (R249, R405). -/
def W.storeLanes (w : W) (a : Acc) (n : Nat) (addr : Nat → Nat) (data : Nat → List TWord) (ps : List (Nat × Place)) :
    List (Nat × Place) × W :=
  ps.foldl (fun (s : List (Nat × Place) × W) e =>
    match e.2 with
    | .fault c v k => (s.1 ++ [(e.1, .fault c v k)], s.2)
    | .revoked b => (s.1 ++ [(e.1, .revoked b)], s.2)
    | p => match s.2.m.writeLane a (addr e.1) p n (storeWords n (addr e.1) (data e.1)) with
      | .done m => (s.1 ++ [(e.1, p)], ({ s.2 with m := m } : W).noted p)
      | .fault c v _ => (s.1 ++ [(e.1, .fault c v 4)], s.2)
      | .refused => (s.1 ++ [(e.1, .revoked (s.2.m.berthAt s.2.g.ctx (addr e.1)))], s.2)
      | .gone m => (s.1 ++ [(e.1, .revoked (m.berthAt s.2.g.ctx (addr e.1)))], { s.2 with m := m })) ([], w)

def W.storeBody (w : W) (a : Acc) (n : Nat) (addr : Nat → Nat) (data : Nat → List TWord) (ps : List (Nat × Place)) :
    List (Nat × Place) × W :=
  let w := match a.order with
    | some (s, _) => w.release s
    | none => w
  let (ps, w) := w.storeLanes a n addr data ps
  (ps, w.parkLanes ps addr n .write data [] 0 a.lu)

/-- A global store of n bytes, from `run` source words (R247, R249, R250). -/
def W.store (w : W) (a : Acc) (n run : Nat) (addr : Nat → Nat) : Act :=
  let data := w.storeData run
  if w.acquireParked || (a.order.isSome && w.dataParked) || w.noRoom then .hold
  else w.guard (firstTrap [w.memCheck (if n < 4 then [0, 1] else [0]), w.alignTrap addr n])
    (let (ps, w) := w.places addr n .write false
    w.guard (w.protCheck ps addr)
      (let (qs, v) := w.storeBody a n addr data ps
      match v.refusedTrap qs addr with
      | none => v.endLanes none
      | some _ =>
        let (qs, v) := (w.anew w.m).storeBody a n addr data ps
        v.endLanes (v.refusedTrap qs addr)))

/-- ST (R249). -/
def execSt (f : StF) (s : State) : Host.Outcome State Fault Refusal :=
  runWord (.st f) s fun w => w.store (w.acc f.pri.val f.lu none) (stBytes f.t) f.t.run (w.addrs f.g.val f.sh.val)

/-- STL: a release at its scope (R249, R250). -/
def execStl (f : StlF) (s : State) : Host.Outcome State Fault Refusal :=
  runWord (.stl f) s fun w =>
    w.store (w.acc f.pri.val f.lu (some f.sc)) (if f.dw then 8 else 4) (if f.dw then 2 else 1) (w.addrs f.g.val 0)

/-- STS: a store to scratchpad (R226, R249). -/
def execSts (f : StF) (s : State) : Host.Outcome State Fault Refusal :=
  runWord (.sts f) s fun w =>
    let addr := w.addrs f.g.val f.sh.val
    let n := (stBytes f.t)
    if w.acquireParked then .hold
    else w.guard (firstTrap [w.memCheck (if n < 4 then [0, 1] else [0]), w.alignTrap addr n, w.spboundTrap addr n])
      ((lanesOf w.real).foldl (fun w l => match w.m.spadAt w.g.block (addr l) n with
        | some p => { w with m := w.m.spadBytes p.1 p.2 n (storeWords n p.2 (w.storeData f.t.run l)) }
        | none => w) w).done

/-! ### Prefetch (R261) -/

/-- PREF: lanes whose translation fails are dropped. (DESIGN CHOICE, log 14) -/
def execPref (f : PrefF) (s : State) : Host.Outcome State Fault Refusal :=
  runWord (.pref f) s fun w =>
    let addr := w.addrs f.g.val f.sh.val
    w.guard (w.memCheck [0])
      ((lanesOf w.mask).foldl (fun w l =>
        match w.m.translate w.g.core w.g.ctx (addr l) .read with
        | (.ok pa leaf, m) =>
          let own := max f.pri.val leaf
          let pri := m.handlePri w.g.ctx (addr l) own
          let m := match f.lvl with
            | .l1 => (m.l1Read w.g.core (pa / 64) own pri).2
            | .die => (m.dieRead (dieOfCore w.g.core) (pa / 64) pri).2
            | .msc => (m.mscRead (pa / 64) pri).2
          { w with m := m }
        | (_, m) => { w with m := { w.m with tlb := m.tlb } }) w).done

/-! ### Status words (R259, R262) -/

/-- Codes of R259. -/
def stOk : Nat := 0
def stNoHandle : Nat := 1
def stBadRec : Nat := 2
def stNoShadow : Nat := 3
def stDiscarded : Nat := 4
def stBadHandle : Nat := 5
def stOverlap : Nat := 6

def statusOf (handle code : Nat) : TWord := TWord.of (BitVec.ofNat 32 (handle + 256 * code))

/-- A status word to every lane of the mask, as a long-latency producer, with the injection of R71. -/
def W.status (w : W) (slots : List Nat) (handle code : Nat) : Act :=
  ((w.issueLong slots w.mask [fun l => w.inject l (statusOf handle code)] 2 0).shot).done

/-! ### Residency handles (R234, R235, R262) -/

/-- Physical pieces of an address range: the pages that are mapped to memory. -/
def Machine.rangePieces (m : Machine) (ctx lo hi : Nat) : List (Nat × Nat) :=
  (List.range (hi / 65536 + 1 - lo / 65536)).filterMap fun i =>
    let page := (lo / 65536 + i) * 65536
    let a := max lo page
    let b := min hi (page + 65535)
    match (m.probe ctx a).1 with
    | .leaf l e => if pteBerth e = 0 then some (pteAddr e + a % 2 ^ levelShift l, b + 1 - a) else none
    | _ => none

/-- A sector that the pieces touch. -/
def inPieces (ps : List (Nat × Nat)) (sn : Nat) : Bool :=
  ps.any fun p => decide (p.1 < sn * 64 + 64) && decide (sn * 64 < p.1 + p.2)

/-- A 256-byte line that the pieces touch (R224, R235). -/
def inLines (ps : List (Nat × Nat)) (line : Nat) : Bool :=
  ps.any fun p => decide (p.1 < line * 256 + 256) && decide (line * 256 < p.1 + p.2)

/-- The lines of a cache in a range take a PRI, PRI 3 capped (R231, R234). -/
def Cache.setPri (c : Cache) (k : CacheLevel) (ps : List (Nat × Nat)) (pri : Nat) : Cache :=
  (c.filter fun e => inLines ps (e.1 / 4)).foldl (fun (d : Cache) e => d.record k e.1 { e.2 with pri := pri, low := pri }) c

/-- Record a PRI for what the die and memory-side caches hold of a range, and for what an L1 will hand down (R234, R235). -/
def Machine.setRangePri (m : Machine) (ps : List (Nat × Nat)) (pri : Nat) : Machine :=
  let m := { m with cores := m.cores.map fun (e : Nat × Core) =>
    (e.1, { e.2 with l1 := e.2.l1.map fun (s : Nat × Sector) => if inLines ps (s.1 / 4) then (s.1, { s.2 with low := pri }) else s }) }
  m.withMem fun e => { e with msc := Cache.setPri e.msc .msc ps pri, die := e.die.map fun (d : Nat × Cache) => (d.1, Cache.setPri d.2 (.die d.1) ps pri) }

/-- Evict every line of a range from die and memory-side caches, written back (R235). -/
def Machine.evictRange (m : Machine) (ps : List (Nat × Nat)) : Machine :=
  let m := m.mem.die.foldl (fun (m : Machine) (d : Nat × Cache) => ((Cache.lines d.2).filter (inLines ps)).foldl (fun (m : Machine) l => m.evictLine (.die d.1) l) m) m
  ((Cache.lines m.mem.msc).filter (inLines ps)).foldl (fun (m : Machine) l => m.evictLine .msc l) m

/-- Drop every line of a range without write-back (R232, R235). (DEDUCED, log 35) -/
def Machine.dropRange (m : Machine) (core : Nat) (ps : List (Nat × Nat)) : Machine :=
  let f := fun (c : Cache) => c.filter fun e => !inLines ps (e.1 / 4)
  (m.updCore core fun c => { c with l1 := f c.l1 }).withMem fun e =>
    { e with msc := f e.msc, die := e.die.map fun (d : Nat × Cache) => (d.1, f d.2) }

/-- The handle index in the leader's D[7:0], and whether D names no handle: D[31:8] is not 0 (R262). -/
def W.leaderIndex (w : W) (k : Nat) : Option (Bool × Nat) :=
  w.leader.map fun l =>
    let v := (w.srcAt k l).data.toNat
    (decide (256 ≤ v), v % 256)

def W.setHandle (w : W) (n : Nat) (h : Handle) : W :=
  { w with m := w.m.updCtx w.g.ctx fun c => { c with handles := Map.set c.handles n h } }

/-- HSET (R235, R262). With no leader it names no handle. -/
def execHset (f : HsetF) (s : State) : Host.Outcome State Fault Refusal :=
  runWord (.hset f) s fun w =>
    let slots := ldstSlots 1 f.d
    w.guard (w.memCheck [1])
      (match w.leaderIndex 1 with
      | none => w.done
      | some (true, n) => w.status slots n stBadHandle
      | some (false, n) =>
        let va := w.uaddr f.g.val
        match w.readRecord va with
        | .error a => a
        | .ok (ws, w) =>
          let r := layoutOf ws
          if !layoutOk va ws || r.berth != 0 then w.status slots n stBadRec
          else
            let (lo, hi) := r.span
            let w := w.setHandle n { state := .active, lo := lo, hi := hi, pri := f.pri.val, order := w.m.nextId }
            let w := { w with m := ({ w.m with nextId := w.m.nextId + 1 } : Machine) }
            ({ w with m := w.m.setRangePri (w.m.rangePieces w.g.ctx lo hi) f.pri.val } : W).status slots n stOk)

/-- The handle named by the leader's D. -/
def W.handle (w : W) (n : Nat) : Option Handle := (Map.get w.m.ctxs w.g.ctx).bind fun c => Map.get c.handles n

/-- HDEM (R235, R262). -/
def execHdem (f : HdemF) (s : State) : Host.Outcome State Fault Refusal :=
  runWord (.hdem f) s fun w =>
    let slots := ldstSlots 1 f.d
    w.guard (w.memCheck [0])
      (match w.leaderIndex 0 with
      | none => w.done
      | some (true, n) => w.status slots n stBadHandle
      | some (false, n) =>
        match w.handle n with
        | some h =>
          if h.state != .active then w.status slots n stBadHandle
          else
            let w := w.setHandle n { h with state := .demoted }
            ({ w with m := w.m.setRangePri (w.m.rangePieces w.g.ctx h.lo h.hi) 0 } : W).status slots n stOk
        | none => w.status slots n stBadHandle)

/-- HDROP, HDROP.LU (R235, R262). -/
def execHdrop (f : HdropF) (s : State) : Host.Outcome State Fault Refusal :=
  runWord (.hdrop f) s fun w =>
    let slots := ldstSlots 1 f.d
    w.guard (w.memCheck [0])
      (match w.leaderIndex 0 with
      | none => w.done
      | some (true, n) => w.status slots n stBadHandle
      | some (false, n) =>
        match w.handle n with
        | some h =>
          if h.state == .free then w.status slots n stBadHandle
          else
            let ps := w.m.rangePieces w.g.ctx h.lo h.hi
            let w := { w with m := w.m.updCtx w.g.ctx fun c => { c with handles := Map.del c.handles n } }
            ({ w with m := if f.lu then w.m.dropRange w.g.core ps else w.m.evictRange ps } : W).status slots n stOk
        | none => w.status slots n stBadHandle)

/-! ### LRFLUSH, FENCE, MFLUSH, WAITV -/

/-- Run k when the group may release at this point: nothing it issued before is parked. (DEDUCED, log 28) -/
def W.releasing (w : W) (k : Act) : Act := if w.dataParked then .hold else k

/-- LRFLUSH (R263). -/
def execLrflush (f : LrfF) (s : State) : Host.Outcome State Fault Refusal :=
  runWord (.lrflush f) s fun w =>
    w.guard (w.memCheck [])
      (if w.leader.isNone then w.done
      else w.releasing
        (let va := w.uaddr f.g.val
        let w := w.release .device
        ({ w with m := { w.m with cores := w.m.cores.map fun (e : Nat × Core) =>
            (e.1, { e.2 with records := e.2.records.filter fun r => !(r.1 == w.g.ctx && r.2.1 == va) }) } } : W).done))

/-- The group holds its next memory instruction until the fence has completed (R257). (DEDUCED, log 28) -/
def W.fenced (w : W) (x : Scope × Bool × Bool) : W := w.upd fun g => { g with fences := g.fences ++ [x] }

/-- FENCE (R257): a release fence completes when nothing that the group issued before it is parked, an acquire fence when no
synchronising read before it is (R270). (DEDUCED, log 28) -/
def execFence (f : FenceF) (s : State) : Host.Outcome State Fault Refusal :=
  runWord (.fence f) s fun w =>
    let rel := f.kind != .acq
    let acq := f.kind != .rel
    if f.sc != .group && ((rel && w.dataParked) || (acq && w.m.syncReadParked w.gk)) then (w.fenced (f.sc, rel, acq)).done
    else
      let w := if rel then w.release f.sc else w
      (if acq then w.acquire f.sc else w).done

/-- A range of n bytes in pieces of 64 KiB pages, each mapped with R = 1, or where it stops; the pages of a berth whose window is
memory of this device have their pieces there. -/
def Machine.flushPieces (m : Machine) (key ctx base n source : Nat) : Nat → Except (Nat × Place) (List (Nat × Nat)) × Machine
  | 0 => (.ok [], m)
  | i + 1 =>
    match m.flushPieces key ctx base n source i with
    | (.error e, m) => (.error e, m)
    | (.ok ps, m) =>
      let a := if i = 0 then base else (base / 65536 + i) * 65536
      let size := min (65536 - a % 65536) (base + n - a)
      match m.place key ctx a 1 .read source with
      | (.pa pa _, m) => (.ok (ps ++ [(pa, size)]), m)
      | (.window _ pa _, m) => (.ok (ps ++ [(pa, size)]), m)
      | (.status _, m) => (.ok ps, m)
      | (.remote _ _ _, m) => (.ok ps, m)
      | (.revoked _, m) => (.ok ps, m)
      | (x, m) => (.error (a, x), m)

/-- MFLUSH (R265). -/
def execMflush (f : MflushF) (s : State) : Host.Outcome State Fault Refusal :=
  runWord (.mflush f) s fun w =>
    w.guard (firstTrap [w.lwait, w.memCheck [1]])
      (match w.leader with
      | none => w.done
      | some l => w.releasing
        (let n := (w.srcAt 1 l).data.toNat
        let base := w.uaddr f.g.val
        if n = 0 then
          let w := w.release .device
          ({ w with m := (Map.keys w.m.mem.msc).foldl (fun m sn => m.mscClean sn) w.m } : W).done
        else
          match w.m.flushPieces w.g.core w.g.ctx base n w.g.source ((base + n - 1) / 65536 + 1 - base / 65536) with
          | (.error (a, x), m) =>
            match x with
            | .fault c v src => ({ w with m0 := { w.m0 with tlb := m.tlb } } : W).waitRead c v src a
            | .prot lv c => w.trapAt (protTrap a lv c)
            | _ => w.trapAt (protTrap a 0 .permission)
          | (.ok ps, m) =>
            let w := ({ w with m := m } : W).release .device
            ({ w with m := ((Map.keys w.m.mem.msc).filter (inPieces ps)).foldl (fun m sn => m.mscClean sn) w.m } : W).done))

def condHolds (c : VCond) (v x : Word) : Bool :=
  match c with
  | .eq => v == x
  | .ne => v != x
  | .geU => decide (x.toNat ≤ v.toNat)
  | .ltU => decide (v.toNat < x.toNat)

/-- The word of a WAITV, read with acquire at DEVICE scope: the place's word through the die cache (R250, R264). -/
def Machine.deviceWord (m : Machine) (core ctx va : Nat) (p : Place) : Option (TWord × Machine) :=
  (m.readLane { core := core, ctx := ctx, pri := 0, lu := false, order := some (.device, 1) } va p 1).map fun r =>
    (wordAt r.1 0, r.2)

/-- A berth page is no page for WAITV and CWAIT (R406), whether or not the exporter's page is valid. -/
def Place.noBerth (p : Place) (berth : Nat) : Place :=
  match p with
  | .window _ _ _ | .remote _ _ _ | .revoked _ => .prot 0 .permission
  | .fault c v s => if berth = 0 then .fault c v s else .prot 0 .permission
  | p => p

/-- A parked write of the group covers the word at an address: a read of that word takes its place after it (R272). -/
def W.dataParkedAt (w : W) (va : Nat) : Bool := (w.m.behind w.gk va 4 .read w.m.nextId).isSome

/-- WAITV (R264). -/
def execWaitv (f : WaitvF) (s : State) : Host.Outcome State Fault Refusal :=
  runWord (.waitv f) s fun w =>
    if w.acquireParked || w.syncParked || w.dataParkedAt (w.uaddr f.g.val) then .hold
    else w.guard (firstTrap [w.lwait, w.memCheck [1]])
      (match w.leader with
      | none => w.done
      | some l =>
        let va := w.uaddr f.g.val
        if va % 4 != 0 then w.trapAt { code := .align, addr := va }
        else
          let (p, m) := w.m.place w.g.core w.g.ctx va 4 .read w.g.source
          match p.noBerth (m.berthAt w.g.ctx va) with
          | .prot lv c => w.trapAt (protTrap va lv c)
          | .fault c v src => ({ w with m0 := { w.m0 with tlb := m.tlb } } : W).waitRead c v src va
          | p => match m.deviceWord w.g.core w.g.ctx va p with
            | none => w.trapAt (protTrap va 0 .permission)
            | some (t, m) =>
              let w := { w with m := m }
              if t.poisoned then w.trapAt { code := .poison, addr := va }
              else if condHolds f.cond t.data (w.srcAt 1 l).data then (w.acquire .device).done
              else (w.park .waitv).done)

/-! ### SHADOW, PUBLISH, DISCARD (R258 to R260) -/

def shadowHandles : Nat := 64

/-- Pages of the open shadows of a context (R259). -/
def Ctx.shadowPages (c : Ctx) : List Nat := (c.shadows.filter fun e => e.2.state == .open_).flatMap fun e => pagesOf e.2.foot

/-- What SHADOW reports for a record: the first code that fails of NOHANDLE, BADREC, NOSHADOW, OVERLAP, or the footprint (R258, R259).
(DESIGN CHOICE, log 77) -/
def Machine.shadowOpen (m : Machine) (ctx va : Nat) (ws : List TWord) : Except Nat (List (Nat × Nat)) :=
  match Map.get m.ctxs ctx with
  | none => .error stNoHandle
  | some c =>
    let r := layoutOf ws
    if shadowHandles ≤ c.shadows.length then .error stNoHandle
    else if !layoutOk va ws || r.berth != 0 then .error stBadRec
    else
      let foot := r.footprint
      let pages := pagesOf foot
      let bad := pages.any fun p => match (m.probe ctx (p * 65536)).1 with
        | .leaf _ e => !pteS e || pteBerth e != 0
        | _ => false
      if bad then .error stNoShadow
      else if pages.any fun p => c.shadowPages.contains p then .error stOverlap
      else .ok foot

/-- SHADOW (R258, R259); the HANDLE of a failing one's status is 0. (DESIGN CHOICE, log 77) -/
def execShadow (f : ShadowF) (s : State) : Host.Outcome State Fault Refusal :=
  runWord (.shadow f) s fun w =>
    let slots := ldstSlots 1 f.d
    w.guard (w.memCheck [])
      (if w.leader.isNone then w.done
      else
        let va := w.uaddr f.g.val
        match w.readRecord va with
        | .error a => a
        | .ok (ws, w) =>
          match w.m.shadowOpen w.g.ctx va ws with
          | .error code => w.status slots 0 code
          | .ok foot =>
            let used := ((Map.get w.m.ctxs w.g.ctx).map fun c => Map.keys c.shadows).getD []
            let h := ((List.range shadowHandles).find? fun h => !used.contains h).getD 0
            let sh : Shadow := { state := .open_, foot := foot, pages := [], waiter := none }
            ({ w with m := w.m.updCtx w.g.ctx fun c => { c with shadows := Map.set c.shadows h sh } } : W).status slots h stOk)

/-- The handle in the leader's A[5:0], and whether A names no handle: A[31:6] is not 0 (R259). -/
def W.shadowIndex (w : W) : Option (Bool × Nat) :=
  w.leader.map fun l =>
    let v := (w.srcAt 0 l).data.toNat
    (decide (shadowHandles ≤ v), v % shadowHandles)

def W.shadow (w : W) (h : Nat) : Option Shadow := (Map.get w.m.ctxs w.g.ctx).bind fun c => Map.get c.shadows h

def Machine.setShadow (m : Machine) (ctx h : Nat) (sh : Shadow) : Machine :=
  m.updCtx ctx fun c => { c with shadows := Map.set c.shadows h sh }

/-- The writers of a handle in flight: the commands that name it (R258). -/
def Machine.writers (m : Machine) (ctx h : Nat) : List (Nat × Cmd) :=
  m.cmds.filter fun (e : Nat × Cmd) => e.2.ctx == ctx && e.2.shadow == some h && e.2.state != .done

/-- The handle is FREE: commands that still name it write nothing (R258). -/
def Machine.loseWriters (m : Machine) (ctx h : Nat) : Machine :=
  (m.writers ctx h).foldl (fun m e => m.updCmd e.1 fun c => { c with shadow := some shadowHandles, prior := false }) m

/-- A shadow becomes FREE: its frames go back (R258, R295). -/
def Machine.freeShadow (m : Machine) (ctx h : Nat) : Machine :=
  match Map.get m.ctxs ctx with
  | none => m
  | some c => match Map.get c.shadows h with
    | none => m
    | some sh => ((m.updCtx ctx fun c => { c with shadows := Map.del c.shadows h }).freeFrames c sh).loseWriters ctx h

/-- Give a producer that waited for a status its word (R259), with the injection that struck it (R71). -/
def Machine.answer (m : Machine) (gk pid : Nat) (word : TWord) : Machine :=
  m.updGroup gk fun g =>
    let hit := match Map.get g.pending pid with
      | some p => finjEn p.finj
      | none => false
    let g := { g with pending := Map.upd g.pending pid fun p =>
      { p with
        words := p.words.map fun ws => (ws.zipIdx).map fun e => if hit && e.2 == finjLane p.finj then flipWord p.finj word else word
        parked := 0 } }
    if hit && g.finj == ((Map.get g.pending pid).map (·.finj)).getD 0 then clearShot g else g

/-- DRAINING ends when the last writer in flight has completed (R258). -/
def Machine.drainShadow (m : Machine) (ctx h : Nat) : Machine :=
  match (Map.get m.ctxs ctx).bind fun c => Map.get c.shadows h with
  | some sh => if sh.state == .draining && (m.writers ctx h).isEmpty then m.freeShadow ctx h else m
  | none => m

/-- The swap of a PUBLISHING handle, when every prior writer has completed (R258, R260). -/
def Machine.trySwap (m : Machine) (ctx h : Nat) : Machine :=
  match Map.get m.ctxs ctx with
  | none => m
  | some c => match Map.get c.shadows h with
    | none => m
    | some sh =>
      if sh.state != .publishing || (m.writers ctx h).any (·.2.prior) then m
      else
        let (code, m) := match (m.updCtx ctx fun c => { c with shadows := Map.del c.shadows h }).swap ctx c sh with
          | some m => (stOk, m.loseWriters ctx h)
          | none => (stDiscarded, m.freeShadow ctx h)
        match sh.waiter with
        | some (gk, pid) => m.answer gk pid (statusOf h code)
        | none => m

/-- PUBLISH (R258 to R260): a release, then the swap when the prior writers have completed. -/
def execPublish (f : PubF) (s : State) : Host.Outcome State Fault Refusal :=
  runWord (.publish f) s fun w =>
    let slots := ldstSlots 1 f.d
    w.guard (w.memCheck [0])
      (match w.shadowIndex with
      | none => w.done
      | some (true, h) => w.status slots h stBadHandle
      | some (false, h) =>
        match w.shadow h with
        | none => w.status slots h stBadHandle
        | some sh =>
          match sh.state with
          | .open_ => w.releasing
            (let w := w.release f.sc
            let pid := w.m.nextId
            let w := w.issueLong slots w.mask [fun _ => statusOf h stOk] 2 w.mask
            let prior := (w.m.writers w.g.ctx h).filter fun e => e.2.group == w.gk
            let m := prior.foldl (fun m e => m.updCmd e.1 fun c => { c with prior := true }) w.m
            let m := m.setShadow w.g.ctx h { sh with state := .publishing, waiter := if slots.isEmpty then none else some (w.gk, pid) }
            ({ w with m := m.trySwap w.g.ctx h } : W).done)
          | .broken => w.releasing
            (let w := w.release f.sc
            let m := (w.m.setShadow w.g.ctx h { sh with state := .draining }).drainShadow w.g.ctx h
            ({ w with m := m } : W).status slots h stDiscarded)
          | _ => w.status slots h stBadHandle)

/-- DISCARD (R258, R259). -/
def execDiscard (f : DiscF) (s : State) : Host.Outcome State Fault Refusal :=
  runWord (.discard f) s fun w =>
    let slots := ldstSlots 1 f.d
    w.guard (w.memCheck [0])
      (match w.shadowIndex with
      | none => w.done
      | some (true, h) => w.status slots h stBadHandle
      | some (false, h) =>
        match w.shadow h with
        | none => w.status slots h stBadHandle
        | some sh =>
          if sh.state == .open_ || sh.state == .broken then
            let m := (w.m.setShadow w.g.ctx h { sh with state := .draining }).drainShadow w.g.ctx h
            ({ w with m := m } : W).status slots h stOk
          else w.status slots h stBadHandle)

end Sys2Proof.Machine
end

