-- ==== Sys2Proof/Machine/Barrier.lean ====
section
/-! DEFINITION. Transaction barriers (R208 to R218): the barrier words, the operations of the barrier unit, the barrier
instructions, BATCH and WAITB (R219, R220). -/

namespace Sys2Proof.Machine

open Sys2Proof

/-! ### The barrier words (R208) -/

/-- The fields of a barrier. -/
structure Bar where
  phase : Nat
  valid : Bool
  inval : Bool
  arrive : Nat
  sector : Nat
  expect : Nat
  faulted : Nat
deriving DecidableEq, Repr

def barOf (ws : List TWord) : Bar :=
  let w := fun k => (wordAt ws k).data.toNat
  { phase := bits (w 0) 3 0, valid := (w 0).testBit 4, inval := (w 0).testBit 5, arrive := bits (w 0) 27 8
    sector := w 1, expect := bits (w 2) 19 0, faulted := w 3 }

/-- Word k of a barrier with its reserved bits as they stand in the old words. -/
def barWords (old : List TWord) (b : Bar) : List TWord :=
  let w := fun k => (wordAt old k).data.toNat
  let n := fun (v : Nat) => TWord.of (BitVec.ofNat 32 v)
  let r0 := (w 0) / 64 % 4 * 64 + (w 0) / 2 ^ 28 * 2 ^ 28
  let r2 := (w 2) / 2 ^ 20 * 2 ^ 20
  [n (b.phase % 16 + (if b.valid then 16 else 0) + (if b.inval then 32 else 0) + b.arrive % 2 ^ 20 * 256 + r0),
   n b.sector, n (b.expect % 2 ^ 20 + r2), n b.faulted]

def Machine.barAt (m : Machine) (blk off : Nat) : List TWord := (List.range 4).map fun k => m.spadWord blk (off + 4 * k)

def Machine.setBarWords (m : Machine) (blk off : Nat) (ws : List TWord) : Machine :=
  (List.range 4).foldl (fun m k => m.setSpad blk (off + 4 * k) (wordAt ws k)) m

/-! ### The barrier unit (R210) -/

/-- Release the strands that wait in BWAIT on a barrier; each acquires at its own scope (R210, R216). -/
def Machine.wakeBarrier (m : Machine) (blk off : Nat) : Machine :=
  m.groups.foldl (fun m e => e.2.stack.foldl (fun m x =>
    match x.park with
    | some p =>
      if p.why == .bwait blk off then
        let cores := ((Map.get m.blocks e.2.block).map fun b => b.cores.length).getD 1
        let m := match p.instr with
          | .bwait f => m.acquire e.2.core f.sc cores
          | _ => m
        m.updGroup e.1 fun g => g.updEntry x.sid fun x => { x with park := none }
      else m
    | none => m) m) m

/-- The order of the scopes. -/
def scopeNum : Scope → Nat
  | .group => 0
  | .block => 1
  | .gang => 2
  | .die => 3
  | .device => 4
  | .fabric => 5

/-- The wider of two scopes. -/
def widerScope (a b : Scope) : Scope := if scopeNum a ≤ scopeNum b then b else a

/-- EV_BARRIER to every group armed on a barrier (R221); an arming that is dropped raises it too (R213). -/
def Machine.raiseBarrier (m : Machine) (blk off : Nat) (drop : Bool) : Machine :=
  { m with groups := m.groups.map fun (e : Nat × Group) =>
      if e.2.ev.arm == some (blk, off) then
        let ev := e.2.ev
        let sc := if ev.pend.getLsbD 2 then widerScope ev.pendScope ev.armScope else ev.armScope
        let g := e.2.raise 2 (off / 16)
        let g := { g with ev := { g.ev with pendScope := sc } }
        (e.1, if drop then { g with ev := { g.ev with arm := none } } else g)
      else e }

/-- Write a barrier's fields and make the completion test (R210). -/
def Machine.setBar (m : Machine) (blk off : Nat) (old : List TWord) (b : Bar) : Machine :=
  if b.valid && b.arrive == 0 && b.sector == 0 then
    let b := { b with phase := (b.phase + 1) % 16, arrive := b.expect }
    ((m.setBarWords blk off (barWords old b)).wakeBarrier blk off).raiseBarrier blk off false
  else m.setBarWords blk off (barWords old b)

/-- Waiters trap BARINV, referring copies are orphaned, armings dropped with EV_BARRIER (R213). (DEDUCED, log 20) -/
def Machine.breakBarrier (m : Machine) (blk off : Nat) : Machine :=
  let m := { m with
    groups := m.groups.map fun (e : Nat × Group) => (e.1, { e.2 with stack := e.2.stack.map fun (x : Entry) => match x.park with
      | some p => if p.why == ParkWhy.bwait blk off then { x with park := some { p with why := .barinv } } else x
      | none => x })
    cmds := m.cmds.map fun (e : Nat × Cmd) =>
      if e.2.barrier == some (blk, off) && e.2.state != QState.done then (e.1, { e.2 with orphan := true }) else e }
  m.raiseBarrier blk off true

/-- An engine's operation on a barrier (R211 to R213): performed, or dropped because the barrier is gone, takes no such operation, or
fails its checks, which come first and poison it (R212). (DEDUCED, log 20) -/
def Machine.engineBarIf (m : Machine) (blk off : Nat) (f : Bar → Option Bar) : Bool × Machine :=
  match Map.get m.blocks blk with
  | none => (false, m)
  | some b =>
    if b.state == .retired then (false, m)
    else
      let ws := m.barAt blk off
      -- a poisoned word is not good either: all four words are poisoned and nothing more is done (R212)
      if ws.any fun t => !t.good then (false, m.setBarWords blk off (ws.map TWord.poison))
      else if !(barOf ws).valid then (false, m)
      else match f (barOf ws) with
        | some x => (true, m.setBar blk off ws x)
        | none => (false, m)

/-- DEDUCED, log 20. -/
def Machine.engineBar (m : Machine) (blk off : Nat) (f : Bar → Bar) : Bool × Machine := m.engineBarIf blk off fun b => some (f b)

/-- A sector landed, or failed (R211). -/
def Machine.barSector (m : Machine) (blk off : Nat) (failed : Bool) : Bool × Machine :=
  m.engineBar blk off fun b =>
    { b with sector := (b.sector + 2 ^ 32 - 1) % 2 ^ 32, faulted := if failed then min (b.faulted + 1) (2 ^ 32 - 1) else b.faulted }

/-! ### The instructions (R214 to R217) -/

/-- The barrier that a word names. -/
structure BarRef where
  blk : Nat
  off : Nat
  words : List TWord
  bar : Bar

/-- Checks 1 and 3 to 6 of R217, then k on the barrier; without a leader nothing is done (R214). The address is that of every
lane (DEDUCED, log 20). `sync`: the operation is a release or an acquire, which the group performs in its order (R216, R276). -/
def W.barrier (w : W) (ks : List Nat) (pre : Word → Option Trap) (g : Nat) (sync : Bool) (k : Nat → BarRef → Act) : Act :=
  match w.leader with
  | none => w.done
  | some l =>
    let q := w.uaddr g
    if w.acquireParked || (sync && w.syncParked) then .hold else
    w.guard (firstTrap [match ks with
        | [] => none
        | s :: _ => pre (w.srcAt s l).data, w.memCheck ks, if q % 16 != 0 then some { code := .align, addr := q } else none])
      (match w.m.spadAt w.g.block q 16 with
      | none => w.trapAt { code := .spbound, addr := q }
      | some (blk, off) =>
        let ws := w.m.barAt blk off
        if ws.any TWord.poisoned then w.trapAt { code := .poison, addr := q + 4 * ws.findIdx TWord.poisoned }
        else if ws.any fun t => !t.good then w.trapAt { code := .rchk, cause := 4 }
        else k l { blk := blk, off := off, words := ws, bar := barOf ws })

/-- BARINV names the barrier address (R375). -/
def W.barinvAt (w : W) (g : Nat) : Act := w.trapAt { code := .barinv, addr := w.uaddr g }

/-- The arrival count of BINIT is 1 to 2^20 - 1 (R215). -/
def badCount (w : W) (x : Word) : Option Trap :=
  if x.toNat % 2 ^ 20 = 0 ∨ 2 ^ 20 ≤ x.toNat then some { code := .illegal, addr := w.addr } else none

def W.initBar (w : W) (l : Nat) (r : BarRef) : Act :=
  let n := (w.srcAt 1 l).data.toNat
  let m := if r.bar.valid then w.m.breakBarrier r.blk r.off else w.m
  let b : Bar := { phase := 0, valid := true, inval := false, arrive := n, sector := 0, expect := n, faulted := 0 }
  ({ w with m := m.setBarWords r.blk r.off (barWords [] b) } : W).done

def Bar.busy (b : Bar) : Bool := b.arrive != b.expect || b.sector != 0

/-- BINIT (R213, R215). -/
def execBinit (f : BarS) (s : State) : Host.Outcome State Fault Refusal :=
  runWord (.binit f) s fun w => w.barrier [1] (badCount w) f.g.val false fun l r =>
    if r.bar.valid && r.bar.busy then w.barinvAt f.g.val else w.initBar l r

/-- BINIT.FORCE (R213, R215). -/
def execBinitForce (f : BarS) (s : State) : Host.Outcome State Fault Refusal :=
  runWord (.binitForce f) s fun w => w.barrier [1] (badCount w) f.g.val false fun l r => w.initBar l r

/-- BEXPECT (R215). -/
def execBexpect (f : BarS) (s : State) : Host.Outcome State Fault Refusal :=
  runWord (.bexpect f) s fun w => w.barrier [1] (fun _ => none) f.g.val false fun l r =>
    if !r.bar.valid then w.barinvAt f.g.val
    else
      let x := (w.srcAt 1 l).data.toNat
      let b := { r.bar with
        faulted := if x.testBit 31 then 0 else r.bar.faulted
        sector := (r.bar.sector + x % 2 ^ 31) % 2 ^ 32 }
      ({ w with m := w.m.setBar r.blk r.off r.words b } : W).done

/-- A per-lane result of a barrier instruction, recomputed by class D (R215). -/
def W.barResult (w : W) (d : Dst) (v : Nat) (m : W → Machine) : Act :=
  match w.checkResults (fun _ => false) fun _ => TWord.of (BitVec.ofNat 32 v) with
  | .error t => w.trapShot t
  | .ok outs => ((({ w with m := m w } : W).writeResult (dstSlots d) (wordAt outs) 2).shot).done

/-- BARRIVE: a release at its scope (R215, R216). -/
def execBarrive (f : BarD) (s : State) : Host.Outcome State Fault Refusal :=
  runWord (.barrive f) s fun w => w.barrier [] (fun _ => none) f.g.val true fun _ r =>
    if !r.bar.valid || r.bar.arrive == 0 then w.barinvAt f.g.val
    else if f.sc != .group && w.dataParked then .hold
    else w.barResult f.d r.bar.phase fun w =>
      (w.release f.sc).m.setBar r.blk r.off r.words { r.bar with arrive := r.bar.arrive - 1 }

/-- The strand is parked in this BWAIT with its barrier invalidated (R213). -/
def W.wasInvalidated (w : W) : Bool :=
  match (w.g.entry w.is.sid).bind (·.park) with
  | some p => p.why == .barinv
  | none => false

/-- BWAIT (R215, R216). -/
def execBwait (f : BwaitF) (s : State) : Host.Outcome State Fault Refusal :=
  runWord (.bwait f) s fun w => w.guard w.lwait (w.barrier [1] (fun _ => none) f.g.val true fun l r =>
    if !r.bar.valid || w.wasInvalidated then w.barinvAt f.g.val
    else if r.bar.phase == (w.srcAt 1 l).data.toNat % 16 then (w.park (.bwait r.blk r.off)).done
    else (w.acquire f.sc).done)

/-- BTRY (R215, R216): it arms the group when EV_BARRIER is enabled. -/
def execBtry (f : BarD) (s : State) : Host.Outcome State Fault Refusal :=
  runWord (.btry f) s fun w => w.barrier [1] (fun _ => none) f.g.val true fun l r =>
    if !r.bar.valid then w.barinvAt f.g.val
    else
      let done := r.bar.phase != (w.srcAt 1 l).data.toNat % 16
      w.barResult f.d (if done then 1 else 0) fun w =>
        if done then (w.acquire f.sc).m
        else if w.g.ev.enable.getLsbD 2 && w.g.lighter.isNone then
          w.m.updGroup w.gk fun g => { g with ev := { g.ev with arm := some (r.blk, r.off), armScope := f.sc } }
        else w.m

/-- BINVAL (R213, R215). (DEDUCED, log 20) -/
def execBinval (f : BinvF) (s : State) : Host.Outcome State Fault Refusal :=
  runWord (.binval f) s fun w => w.barrier [] (fun _ => none) f.g.val false fun _ r =>
    -- R213 has no row for a barrier that is not OPEN (R8)
    if !r.bar.valid then w.done
    else
      let m := w.m.breakBarrier r.blk r.off
      ({ w with m := m.setBarWords r.blk r.off (barWords r.words { r.bar with valid := false, inval := true }) } : W).done

/-! ### Batches (R219, R220) -/

/-- A batch with nothing left, and no earlier one open, has completed (R219). -/
def completeBatches : List Batch → List Batch × List Batch
  | [] => ([], [])
  | b :: r => if b.left.isEmpty then (let (d, o) := completeBatches r; (b :: d, o)) else ([], b :: r)

def batchLimit : Nat := 8

/-- Batches of the group that have completed leave the open list: EV_COPYDONE for BATCH.EV (R219, R221). -/
def Group.closeDone (g : Group) : Group :=
  let (done, open_) := completeBatches g.open_
  let g := { g with open_ := open_ }
  match (done.filter (·.ev)).getLast? with
  | some b => g.raise 1 b.num
  | none => g

/-- BATCH, BATCH.EV (R219). -/
def execBatch (f : BatchF) (s : State) : Host.Outcome State Fault Refusal :=
  runWord (.batch f) s fun w =>
    if batchLimit ≤ w.g.open_.length then .hold
    else
      let n := (w.g.lastb.toNat + 1) % 2 ^ 16
      w.barResult f.d n fun w => w.m.updGroup w.gk fun g =>
        let left := g.members.filter fun k => ((Map.get w.m.cmds k).map fun c => c.state != .done).getD false
        ({ g with lastb := BitVec.ofNat 16 n, members := []
                  open_ := g.open_ ++ [{ num := n, ev := f.ev, left := left, all := g.members }] } : Group)

/-- Open batches up to the one named (R220). -/
def Group.waitsFor (g : Group) (n : Nat) : Bool := g.open_.any fun b => decide ((n + 2 ^ 16 - b.num) % 2 ^ 16 < 2 ^ 15)

/-- Commands of the group that ended in UNPACK in a closed batch up to the one named, not yet reported (R220, R363). -/
def Machine.unpackPending (m : Machine) (gk : Nat) (g : Group) (n : Nat) : Option (Nat × Cmd) :=
  m.cmds.find? fun (e : Nat × Cmd) =>
    e.2.group == gk && e.2.kind == .qunpk && e.2.state == .done && e.2.code == 8 && !e.2.reported &&
    !g.members.contains e.1 && decide ((n + 2 ^ 16 - e.2.batch) % 2 ^ 16 < 2 ^ 15)

/-- Mark an UNPACK reported, in the command and in the status word of its entry (R360, R363). -/
def Machine.reportUnpack (m : Machine) (k : Nat) (addr : Nat) : Machine :=
  let m := m.updCmd k fun c => { c with reported := true }
  let (t, m) := m.homeWord (addr + 0x30)
  m.setHomeWord (addr + 0x30) (setWordByte t 1 (byteOf t.data 1 ||| 1#8))

/-- WAITB (R220): it parks until every batch up to the named one is complete, and reports an UNPACK once (R363);
its return acquires at DEVICE scope (R281). (DESIGN CHOICE, log 77) -/
def execWaitb (f : WaitbF) (s : State) : Host.Outcome State Fault Refusal :=
  runWord (.waitb f) s fun w =>
    w.guard w.lwait (w.guard w.untyped
      (match w.leader with
      | none => w.done
      | some l => w.guard (w.checkSrcs [0])
        (let n := (w.srcAt 0 l).data.toNat % 2 ^ 16
        match Map.get w.m.groups w.gk with
        | none => w.done
        | some g =>
          if g.waitsFor n then (w.park .waitb).done
          else match w.m.unpackPending w.gk g n, w.ctx with
          | some (k, c), some x =>
            let a := w.m0.queueEntryAddr x c.queue c.entry
            .trap { code := .unpack, addr := a, info := c.poisoned + 2 ^ 32 * c.bytes, cause := c.reason } (w.m0.reportUnpack k a) w.mask
          -- a WAITB that returns acquires the writes of the members (R281)
          | _, _ => (w.acquire .device).done)))

end Sys2Proof.Machine
end

