-- ==== Sys2Proof/Machine/Atomics.lean ====
section
/-! DEFINITION. Atomics and reductions (R251 to R256, R406). -/

namespace Sys2Proof.Machine

open Sys2Proof

/-- The operations of R115. -/
inductive AtomOp where
  | add | min | max | minU | maxU | fadd | exch | cas | and | or | xor | addD | exchD | casD
deriving DecidableEq, Repr

/-- Source words, destination words (R251). -/
def AtomOp.srcRun : AtomOp → Nat
  | .cas | .addD | .exchD => 2
  | .casD => 4
  | _ => 1

def AtomOp.words : AtomOp → Nat
  | .addD | .exchD | .casD => 2
  | _ => 1

/-- The tag of the old value (R251). -/
def AtomOp.tag : AtomOp → BitVec 8
  | .add | .min | .max => 1
  | .minU | .maxU => 2
  | .fadd => 3
  | .addD | .exchD | .casD => 0x0D
  | _ => 0

/-- Why the performing unit fails a lane (R256). -/
inductive AtomFail where
  | poison | rchk
deriving DecidableEq, Repr

/-- A predicted word against its bits: a mismatch fails. -/
def predOk (t : TWord) : Bool := t.res == resOf t.data

/-- The new words with their predicted residues, of the memory words and the source words (R252). -/
def atomNew (op : AtomOp) (m v : List TWord) : List TWord :=
  let m0 := wordAt m 0
  let v0 := wordAt v 0
  match op with
  | .add => [addRes m0 v0 0]
  | .min => [signedMin m0 v0]
  | .max => [signedMax m0 v0]
  | .minU => [unsignedMin m0 v0]
  | .maxU => [unsignedMax m0 v0]
  | .fadd =>
    let r := (fmF32.round .rn false false (Num.add .rn (fmF32.decode m0.data.toNat) (fmF32.decode v0.data.toNat))).1
    let w : Word := BitVec.ofNat 32 r
    -- NaN, infinity and zero are recomputed; any other result is predicted from the significands (R63)
    let special := r % 2 ^ 31 == 0 || decide (0x7F800000 ≤ r % 2 ^ 31)
    if m0.good || special then [TWord.of w] else [{ data := w, res := resOf w + 1 }]
  | .exch => [v0]
  | .cas => if m0.data = v0.data then [wordAt v 1] else [m0]
  | .and => [TWord.of (m0.data &&& v0.data)]
  | .or => [TWord.of (m0.data ||| v0.data)]
  | .xor => [TWord.of (m0.data ^^^ v0.data)]
  | .addD =>
    let lo := addRes m0 v0 0
    let co := (m0.data.toNat + v0.data.toNat) / 2 ^ 32
    [lo, addRes (wordAt m 1) (wordAt v 1) co]
  | .exchD => v.take 2
  | .casD => if m0.data = v0.data ∧ (wordAt m 1).data = (wordAt v 1).data then [wordAt v 2, wordAt v 3] else m.take 2

/-- Words that are stored: a compare that fails stores nothing. -/
def atomStores (op : AtomOp) (m v : List TWord) : Bool :=
  match op with
  | .cas => (wordAt m 0).data = (wordAt v 0).data
  | .casD => (wordAt m 0).data = (wordAt v 0).data ∧ (wordAt m 1).data = (wordAt v 1).data
  | _ => true

/-- Class M results carry the residue of the word that is stored and are not checked (R64). -/
def AtomOp.checked : AtomOp → Bool
  | .exch | .cas | .exchD | .casD => false
  | _ => true

/-- One lane at the performing unit: the words to store, if any, or why it fails (R256). -/
def atomLane (op : AtomOp) (m v : List TWord) : Except AtomFail (Option (List TWord)) :=
  if (m.take op.words).any TWord.poisoned then .error .poison
  else
    let new := atomNew op m v
    if op.checked && new.any (fun t => !predOk t) then .error .rchk
    else .ok (if atomStores op m v then some new else none)

/-- What becomes of a lane. -/
inductive AtomOut where
  | old (ws : List TWord)
  | fail (f : AtomFail)
  | revoked (b : Nat)
  | parked
deriving DecidableEq, Repr

/-- Perform one lane at the home, atomically (R253): the issuing core's dirty bytes are written back first, and the home recalls
what die caches hold of the line before it reads the old value (R228, R274). -/
def Machine.atomHome (m : Machine) (core pa pri : Nat) (lu : Bool) (op : AtomOp) (v : List TWord)
    (keep : List Nat := []) : AtomOut × Machine :=
  let sn := pa / 64
  let m := ((m.l1WriteBack core sn).l1Drop core sn).invalidateLine (sn / 4) none
  let (ws, m) := m.mscRead sn pri
  let old := (List.range op.words).map fun i => wordAt ws (pa % 64 / 4 + i)
  match atomLane op old v with
  | .error f => (.fail f, m)
  | .ok new =>
    let m := if lu then m.dropLineBut core sn keep else m
    match new with
    | none => (.old old, m)
    | some ws => (.old old, m.homeBytes pa (4 * op.words) ws pri)

/-- The operations a berth page takes (R406): ATOM.ADD.D, ATOM.CAS.D and RED.ADD. -/
def berthOp (red : Bool) (op : AtomOp) : Bool :=
  match op with
  | .addD | .casD => !red
  | .add => red
  | _ => false

/-- One Compare-and-Swap of a RED.ADD on another device's unit: the unit as last read, and the same with the addressed word
raised; the unit's old value comes back (R406). -/
def Machine.remoteSwap (m : Machine) (path : Nat) (rkey : Word) (off : Nat) (x : TWord) (unit : List TWord) : List TWord × Machine :=
  let k := off % 8 / 4
  let new := unit.set k (TWord.of ((wordAt unit k).data + x.data))
  (m.send (.rdma path 3 rkey (off / 8 * 8) 8 (unit ++ new))).netWords 2

/-- RED.ADD on another device (R406): the unit is read, then a swap is proposed and tried again with each old value that comes
back, until one succeeds; how many fail is the other device's to decide (DESIGN CHOICE, log 7). -/
def Machine.remoteAdd (m : Machine) (path : Nat) (rkey : Word) (off : Nat) (x : TWord) : Machine :=
  let tries := Config.netRetries m.netCount
  let (unit, m) := (m.send (.rdma path 0 rkey (off / 8 * 8) 8 [])).netWords 2
  let s := (List.range tries).foldl (fun (s : List TWord × Machine) _ => s.2.remoteSwap path rkey off x s.1) (unit, m)
  (s.2.remoteSwap path rkey off x s.1).2

/-- Perform one lane at its place (R253, R405, R406). -/
def Machine.atomPlace (m : Machine) (a : Acc) (va : Nat) (p : Place) (op : AtomOp) (v : List TWord) : AtomOut × Machine :=
  match p with
  | .pa pa leaf => m.atomHome a.core pa (m.handlePri a.ctx va (max a.pri leaf)) a.lu op v a.keep
  | .window b pa off =>
    let pri := m.windowPri b off a.pri
    let (ws, m) := (m.invalidateLine (pa / 256) none).homeWordsPri pa pri op.words
    match atomLane op ws v with
    | .error f => (.fail f, m)
    | .ok new =>
      let m := if a.lu then m.dropLineBut a.core (pa / 64) a.keep else m
      match new with
      | none => (.old ws, m)
      | some new => (.old ws, m.homeBytes pa (4 * op.words) new pri)
  | .remote path rkey off =>
    match op with
    | .add => (.old [], m.remoteAdd path rkey off (wordAt v 0))
    | _ =>
      let (ws, m) := m.netWords op.words
      (.old ws, m.send (.rdma path (if op = .casD then 3 else 2) rkey off (4 * op.words) v))
  | .revoked b => (.revoked b, m)
  | _ => (.parked, m)

/-- The line of a place. -/
def Place.line (p : Place) : Option Nat :=
  p.homePa.map (· / 256)

/-- Lanes of an atomic, ascending; LU drops a line once, before the first write to it (R232, R233, R252). (DEDUCED, log 39) -/
def W.atomLanes (w : W) (a : Acc) (op : AtomOp) (addr : Nat → Nat) (ps : List (Nat × Place)) : List (Nat × AtomOut) × W :=
  let r := ps.foldl (fun (s : List (Nat × AtomOut) × W × List (Option Nat)) e =>
    let line := e.2.line
    let (o, m) := s.2.1.m.atomPlace { a with lu := a.lu && !s.2.2.contains line } (addr e.1) e.2 op (w.storeData op.srcRun e.1)
    match o with
    | .old ws => (s.1 ++ [(e.1, .old ws)], ({ s.2.1 with m := m } : W).noted e.2, line :: s.2.2)
    | o => (s.1 ++ [(e.1, o)], { s.2.1 with m := m }, s.2.2)) ([], w, [])
  (r.1, r.2.1)

/-- Lanes of a scratchpad atomic, ascending, in the barrier unit (R252, R253). -/
def W.atomsLanes (w : W) (op : AtomOp) (addr : Nat → Nat) : List (Nat × AtomOut) × W :=
  (lanesOf w.real).foldl (fun (s : List (Nat × AtomOut) × W) l =>
    match s.2.m.spadAt w.g.block (addr l) (4 * op.words) with
    | none => s
    | some (blk, off) =>
      let old := (List.range op.words).map fun i => s.2.m.spadWord blk (off + 4 * i)
      match atomLane op old (w.storeData op.srcRun l) with
      | .error f => (s.1 ++ [(l, .fail f)], s.2)
      | .ok none => (s.1 ++ [(l, .old old)], s.2)
      | .ok (some new) => (s.1 ++ [(l, .old old)], { s.2 with m := s.2.m.spadBytes blk off (4 * op.words) new })) ([], w)

def atomFailed (o : AtomOut) (addr : Nat) : Option Trap :=
  match o with
  | .fail .poison => some { code := .poison, addr := addr }
  | .fail .rchk => some { code := .rchk, cause := 0 }
  | .revoked b => some { code := .revoked, addr := addr, info := b }
  | _ => none

/-- The trap of the failing lanes: the code of the first, all of them in the lane mask (R256). (DEDUCED, log 24) -/
def atomTrap (outs : List (Nat × AtomOut)) (addr : Nat → Nat) : Option Trap :=
  match outs.filterMap fun e => (atomFailed e.2 (addr e.1)).map fun t => (e.1, t) with
  | [] => none
  | (l, t) :: r => some { t with lanes := some (maskOf (l :: r.map (·.1))) }

/-- The old values go to their registers; parked lanes stay empty (R245, R251). -/
def W.atomResult (w : W) (red : Bool) (op : AtomOp) (slots : List Nat) (addr : Nat → Nat) (ps : List (Nat × Place))
    (outs : List (Nat × AtomOut)) (lu : Bool) : W :=
  let vals := outs.filterMap fun e => match e.2 with
    | .old ws => some (e.1, w.injectRun e.1 ws)
    | _ => none
  let parked := maskOf (outs.filterMap fun e => if e.2 = .parked then some e.1 else none)
  let lanes := maskOf (vals.map (·.1)) ||| parked
  let pid := w.m.nextId
  let w := w.issueLong slots lanes ((List.range slots.length).map fun k => laneWord vals k) op.tag parked
  let w := w.parkLanes (ps.filter fun e => lane parked e.1) addr (4 * op.words) .atomic (w.storeData op.srcRun) slots pid lu
  -- what the performed lanes stored to a line stays when a parked one drops it (R233)
  let w := (ps.filter fun e => lanes &&& ~~~ parked &&& laneBit e.1 != 0 || (red && !lane parked e.1)).foldl
    (fun (w : W) e => { w with m := w.m.noteStore w.gk e.2 fun _ r => r.pendingId == pid }) w
  -- a reduction loads no word that an injection could alter (R71)
  if red then w else w.shotIn (maskOf (vals.map (·.1)))

/-- The end of an atomic that ran on the machine of `v`: with failing lanes only those are replayed, and of the chain only
what the performed lanes did stays (R256). `run` performs it on a machine. -/
def W.atomEnd (w : W) (run : W → Option Trap × W) : Act :=
  if w.is.dry then w.done
  else match run w with
  | (none, v) => v.done
  | (some _, _) => match run (w.anew w.m) with
    | (some t, v) => .trap t v.m (t.lanes.getD 0)
    | (none, v) => v.done

/-- A global atomic or reduction (R247, R253, R254). -/
def W.atom (w : W) (red : Bool) (op : AtomOp) (pri : Nat) (lu : Bool) (sc : Scope) (g : Nat) (slots : List Nat) : Act :=
  let addr := w.addrs g 0
  let n := 4 * op.words
  let ks := (List.range (1 + op.srcRun))
  if w.acquireParked || w.syncParked || (sc != .group && w.dataParked) || w.noRoom then .hold
  else w.guard (firstTrap [w.memCheck ks, w.alignTrap addr n])
    (let (ps, w) := w.places addr n .atomic false
    let ps := if berthOp red op then ps else ps.map fun e => (e.1, e.2.noBerth (w.m.berthAt w.g.ctx (addr e.1)))
    w.guard (w.protCheck ps addr)
      (w.atomEnd fun w =>
        let w := w.release sc
        let (outs, w) := w.atomLanes (w.acc pri lu (some sc)) op addr ps
        let w := w.atomResult red op slots addr ps outs lu
        (atomTrap outs addr, if red then w else w.acquire sc)))

/-- ATOMS (R247, R253, R254). -/
def W.atoms (w : W) (op : AtomOp) (sc : Scope) (g : Nat) (slots : List Nat) : Act :=
  let addr := w.addrs g 0
  let n := 4 * op.words
  let ks := (List.range (1 + op.srcRun))
  if w.acquireParked || w.syncParked || (sc != .group && w.dataParked) then .hold
  else w.guard (firstTrap [w.memCheck ks, w.alignTrap addr n, w.spboundTrap addr n])
    (w.atomEnd fun w =>
      let w := w.release sc
      let (outs, w) := w.atomsLanes op addr
      let w := w.atomResult false op slots addr [] outs false
      (atomTrap outs addr, w.acquire sc))

def W.atomF (w : W) (op : AtomOp) (f : AtomF) : Act :=
  w.atom false op f.pri.val f.lu f.sc f.g.val (ldstSlots op.words f.d)

def W.atomsF (w : W) (op : AtomOp) (f : AtomF) : Act := w.atoms op f.sc f.g.val (ldstSlots op.words f.d)

def W.redF (w : W) (op : AtomOp) (f : RedF) : Act := w.atom true op f.pri.val f.lu f.sc f.g.val []

/-- ATOM.ADD (R252). -/
def execAtomAdd (f : AtomF) (s : State) : Host.Outcome State Fault Refusal :=
  runWord (.atomAdd f) s fun w => w.atomF .add f

/-- ATOM.MIN (R252). -/
def execAtomMin (f : AtomF) (s : State) : Host.Outcome State Fault Refusal :=
  runWord (.atomMin f) s fun w => w.atomF .min f

/-- ATOM.MAX (R252). -/
def execAtomMax (f : AtomF) (s : State) : Host.Outcome State Fault Refusal :=
  runWord (.atomMax f) s fun w => w.atomF .max f

/-- ATOM.MIN.U (R252). -/
def execAtomMinU (f : AtomF) (s : State) : Host.Outcome State Fault Refusal :=
  runWord (.atomMinU f) s fun w => w.atomF .minU f

/-- ATOM.MAX.U (R252). -/
def execAtomMaxU (f : AtomF) (s : State) : Host.Outcome State Fault Refusal :=
  runWord (.atomMaxU f) s fun w => w.atomF .maxU f

/-- ATOM.FADD (R252). -/
def execAtomFadd (f : AtomF) (s : State) : Host.Outcome State Fault Refusal :=
  runWord (.atomFadd f) s fun w => w.atomF .fadd f

/-- ATOM.EXCH (R252). -/
def execAtomExch (f : AtomF) (s : State) : Host.Outcome State Fault Refusal :=
  runWord (.atomExch f) s fun w => w.atomF .exch f

/-- ATOM.CAS (R252). -/
def execAtomCas (f : AtomF) (s : State) : Host.Outcome State Fault Refusal :=
  runWord (.atomCas f) s fun w => w.atomF .cas f

/-- ATOM.AND (R252). -/
def execAtomAnd (f : AtomF) (s : State) : Host.Outcome State Fault Refusal :=
  runWord (.atomAnd f) s fun w => w.atomF .and f

/-- ATOM.OR (R252). -/
def execAtomOr (f : AtomF) (s : State) : Host.Outcome State Fault Refusal :=
  runWord (.atomOr f) s fun w => w.atomF .or f

/-- ATOM.XOR (R252). -/
def execAtomXor (f : AtomF) (s : State) : Host.Outcome State Fault Refusal :=
  runWord (.atomXor f) s fun w => w.atomF .xor f

/-- ATOM.ADD.D (R252). -/
def execAtomAddD (f : AtomF) (s : State) : Host.Outcome State Fault Refusal :=
  runWord (.atomAddD f) s fun w => w.atomF .addD f

/-- ATOM.EXCH.D (R252). -/
def execAtomExchD (f : AtomF) (s : State) : Host.Outcome State Fault Refusal :=
  runWord (.atomExchD f) s fun w => w.atomF .exchD f

/-- ATOM.CAS.D (R252). -/
def execAtomCasD (f : AtomF) (s : State) : Host.Outcome State Fault Refusal :=
  runWord (.atomCasD f) s fun w => w.atomF .casD f

/-- ATOMS.ADD (R252). -/
def execAtomsAdd (f : AtomF) (s : State) : Host.Outcome State Fault Refusal :=
  runWord (.atomsAdd f) s fun w => w.atomsF .add f

/-- ATOMS.MIN (R252). -/
def execAtomsMin (f : AtomF) (s : State) : Host.Outcome State Fault Refusal :=
  runWord (.atomsMin f) s fun w => w.atomsF .min f

/-- ATOMS.MAX (R252). -/
def execAtomsMax (f : AtomF) (s : State) : Host.Outcome State Fault Refusal :=
  runWord (.atomsMax f) s fun w => w.atomsF .max f

/-- ATOMS.MIN.U (R252). -/
def execAtomsMinU (f : AtomF) (s : State) : Host.Outcome State Fault Refusal :=
  runWord (.atomsMinU f) s fun w => w.atomsF .minU f

/-- ATOMS.MAX.U (R252). -/
def execAtomsMaxU (f : AtomF) (s : State) : Host.Outcome State Fault Refusal :=
  runWord (.atomsMaxU f) s fun w => w.atomsF .maxU f

/-- ATOMS.FADD (R252). -/
def execAtomsFadd (f : AtomF) (s : State) : Host.Outcome State Fault Refusal :=
  runWord (.atomsFadd f) s fun w => w.atomsF .fadd f

/-- ATOMS.EXCH (R252). -/
def execAtomsExch (f : AtomF) (s : State) : Host.Outcome State Fault Refusal :=
  runWord (.atomsExch f) s fun w => w.atomsF .exch f

/-- ATOMS.CAS (R252). -/
def execAtomsCas (f : AtomF) (s : State) : Host.Outcome State Fault Refusal :=
  runWord (.atomsCas f) s fun w => w.atomsF .cas f

/-- RED.ADD (R252). -/
def execRedAdd (f : RedF) (s : State) : Host.Outcome State Fault Refusal :=
  runWord (.redAdd f) s fun w => w.redF .add f

/-- RED.MIN (R252). -/
def execRedMin (f : RedF) (s : State) : Host.Outcome State Fault Refusal :=
  runWord (.redMin f) s fun w => w.redF .min f

/-- RED.MAX (R252). -/
def execRedMax (f : RedF) (s : State) : Host.Outcome State Fault Refusal :=
  runWord (.redMax f) s fun w => w.redF .max f

/-- RED.MIN.U (R252). -/
def execRedMinU (f : RedF) (s : State) : Host.Outcome State Fault Refusal :=
  runWord (.redMinU f) s fun w => w.redF .minU f

/-- RED.MAX.U (R252). -/
def execRedMaxU (f : RedF) (s : State) : Host.Outcome State Fault Refusal :=
  runWord (.redMaxU f) s fun w => w.redF .maxU f

/-- RED.FADD (R252). -/
def execRedFadd (f : RedF) (s : State) : Host.Outcome State Fault Refusal :=
  runWord (.redFadd f) s fun w => w.redF .fadd f

/-- RED.AND (R252). -/
def execRedAnd (f : RedF) (s : State) : Host.Outcome State Fault Refusal :=
  runWord (.redAnd f) s fun w => w.redF .and f

/-- RED.OR (R252). -/
def execRedOr (f : RedF) (s : State) : Host.Outcome State Fault Refusal :=
  runWord (.redOr f) s fun w => w.redF .or f

end Sys2Proof.Machine
end

