-- ==== Sys2Proof/Machine/Queue.lean ====
section
/-! DEFINITION. Queues (R384 to R388): descriptors, appends, entries, the commands of engines, completion of a command. -/

namespace Sys2Proof.Machine

open Sys2Proof

/-! ### Descriptors (R384, R385) -/

/-- Number of a queue among the 32 descriptors. -/
def launchQ (q : Nat) : Nat := q
def copyQ (q : Nat) : Nat := 16 + q
def quayQ (q : Nat) : Nat := 20 + q
def linkQ (q : Nat) : Nat := 28 + q

structure QDesc where
  base : Nat
  size : Nat
  prio : Nat
  open_ : Bool
  net : Bool
  ordered : Bool
  head : Nat
  tail : Nat
  progress : Nat
deriving DecidableEq, Repr

def descAddr (c : Ctx) (q : Nat) : Nat := c.qdBase + 64 * q

def descOf (ws : List TWord) : QDesc :=
  { base := fieldAt ws 0 8, size := fieldAt ws 8 4, prio := fieldAt ws 0xC 1 % 8
    open_ := (fieldAt ws 0xD 1).testBit 0, net := (fieldAt ws 0xD 1).testBit 1, ordered := (fieldAt ws 0xD 1).testBit 2
    head := fieldAt ws 0x10 8, tail := fieldAt ws 0x18 8, progress := fieldAt ws 0x20 8 }

def Machine.queueDesc (m : Machine) (c : Ctx) (q : Nat) : QDesc := descOf (m.homeWords (descAddr c q) 16).1

/-- Free count: one slot of an engine queue is the buoy's in the BUOY model (R385). -/
def QDesc.free (d : QDesc) (c : Ctx) (q : Nat) : Nat :=
  d.progress + d.size - (if c.buoy && decide (16 ≤ q) then 1 else 0) - d.tail

def QDesc.entry (d : QDesc) (n : Nat) : Nat := d.base + 64 * (n % max 1 d.size)

/-- Append entries: all of them with one update of TAIL, or nothing when they do not fit (R386). -/
def Machine.appendEntries (m : Machine) (c : Ctx) (q : Nat) (es : List (List TWord)) : Option Machine :=
  let d := m.queueDesc c q
  if d.free c q < es.length then none
  else
    let m := (es.zipIdx).foldl (fun m e => m.setHomeWords (d.entry (d.tail + e.2)) e.1) m
    -- the head of a queue that held nothing waits from now on (R390)
    let m := if d.head = d.tail then
      { m with ctxs := m.ctxs.map fun (x : Nat × Ctx) =>
          if x.2.qdBase == c.qdBase then
            (x.1, { x.2 with headSince := Map.set x.2.headSince q m.clock, boost := Map.del x.2.boost q })
          else x }
      else m
    some (m.setHomeData (descAddr c q + 0x18) (words64 (d.tail + es.length)))

/-- Raise HEAD to take the next entry (R387). -/
def Machine.setHead (m : Machine) (c : Ctx) (q n : Nat) : Machine := m.setHomeData (descAddr c q + 0x10) (words64 n)

/-- How far PROGRESS advances over retired entries (R387). -/
def progressOver (above : List Nat) : Nat → Nat → Nat
  | 0, p => p
  | n + 1, p => if above.contains p then progressOver above n (p + 1) else p

/-- An entry is retired: PROGRESS advances over every retired entry with no unretired one below it (R387). -/
def Machine.retireEntry (m : Machine) (ctx q n : Nat) : Machine :=
  match Map.get m.ctxs ctx with
  | none => m
  | some c =>
    let d := m.queueDesc c q
    let above := insertNat n (Map.getD c.retiredAbove q [])
    let p := progressOver above (above.length + 1) d.progress
    let m := m.updCtx ctx fun c => { c with retiredAbove := Map.set c.retiredAbove q (above.filter fun k => decide (p ≤ k)) }
    if p = d.progress then m else m.setHomeData (descAddr c q + 0x20) (words64 p)

/-! ### Entries (R388) -/

def kindNum : CmdKind → Nat
  | .tcopy => 1
  | .tstore => 2
  | .xcopy => 3
  | .hread => 4
  | .qgath => 1
  | .qred => 2
  | .qcvt => 3
  | .qunpk => 4
  | .qtload => 5
  | .nput => 1
  | .nget => 2
  | .natom => 3
  | .buoy => 0x3F
  | .bad => 0

/-- The words of a command's entry as appended, with BODY's first four words (R388); BODY of a copy is implementation-defined
(DESIGN CHOICE, log 13). -/
def entryWords (kind : CmdKind) (bar : Bool) (gid batch slot addr barrier count : Nat) (body : List Word) : List TWord :=
  let n := fun (v : Nat) => BitVec.ofNat 32 v
  let pad := fun (l : List Word) => (l ++ List.replicate 4 0).take 4
  ([n (kindNum kind + (if bar then 256 else 0) + 65536 * gid), n (batch + 65536 * slot)] ++ words64 addr ++ words64 barrier
    ++ [n count] ++ pad body ++ List.replicate 5 0).map TWord.of

/-- A command as issued, with nothing done. -/
def Cmd.new (kind : CmdKind) (ctx group block queue entry batch : Nat) : Cmd :=
  { kind := kind, ctx := ctx, group := group, block := block, queue := queue, entry := entry, batch := batch, state := .pending
    barrier := none, arrive := false, orphan := false, recs := [], ops := [], run := [], shadow := none, sectors := []
    asked := [], retired := [], births := [], unp := (0, 0, 0), code := 0, reason := 0, count := 0, poisoned := 0, bytes := 0
    reported := false, errMark := false, prior := false, fault := none }

/-- The group's current batch: the one its next BATCH closes (R219). -/
def Group.batch (g : Group) : Nat := (g.lastb.toNat + 1) % 2 ^ 16

/-- Append a command to an engine queue of the group's context; a full queue holds the strand (R336). The issue releases
the group's accesses towards the command (R281). -/
def W.issueCmd (w : W) (c : Ctx) (q : Nat) (entry : List TWord) (f : Cmd → Cmd) : Act :=
  w.releasing <|
  let w := w.release .device
  let d := w.m.queueDesc c q
  match w.m.appendEntries c q [entry] with
  | none => .hold
  | some m =>
    let k := m.nextId
    let cmd := f (Cmd.new .bad w.g.ctx w.gk w.g.block q d.tail w.g.batch)
    let m := { m with cmds := Map.set m.cmds k cmd, nextId := k + 1 }
    (({ w with m := m } : W).upd fun g => { g with members := g.members ++ [k] }).done

/-- A command as its instruction's checks leave it: queue, entry, and what it holds. -/
structure Command where
  q : Nat
  entry : List TWord
  fill : Cmd → Cmd

/-- Run k unless a check traps. -/
def W.check (w : W) (t : Option Trap) : Except Act Unit :=
  match t with
  | some t => .error (w.trapAt t)
  | none => .ok ()

/-- Append a command that has passed its checks. -/
def Command.issue (c : Ctx) (r : Except Act (W × Command)) : Act :=
  match r with
  | .error a => a
  | .ok (w, x) => w.issueCmd c x.q x.entry x.fill

/-- PROT of a queue that is not OPEN (R338, R355, R172): ADDR names the queue. (DEDUCED, log 26) -/
def W.queueClosed (w : W) (c : Ctx) (q n : Nat) : Option Trap :=
  if (w.m0.queueDesc c q).open_ then none else some { code := .prot, addr := n, info := protInfo 0 .permission }

/-! ### Completion of a command (R337, R360, R388) -/

/-- Record a failure of a command: the first one stays (R337). -/
def Cmd.fail (c : Cmd) (code : Nat) : Cmd := if c.code = 0 then { c with code := code } else c

def Machine.failCmd (m : Machine) (k code : Nat) : Machine := m.updCmd k fun c => c.fail code

/-- A writer that ends with an error makes its OPEN shadow BROKEN, and a PUBLISHING one whose prior writer it is discards
(R258). -/
def Machine.writerFailed (m : Machine) (c : Cmd) : Machine :=
  match c.shadow with
  | none => m
  | some h =>
    match (Map.get m.ctxs c.ctx).bind fun x => Map.get x.shadows h with
    | none => m
    | some sh =>
      match sh.state with
      | .open_ => m.setShadow c.ctx h { sh with state := .broken }
      | .publishing =>
        if c.prior then
          let m := match sh.waiter with
            | some (gk, pid) => m.answer gk pid (statusOf h stDiscarded)
            | none => m
          m.freeShadow c.ctx h
        else m
      | _ => m

/-- Take a command out of the open batches of its group (R219). -/
def Group.memberDone (g : Group) (k : Nat) : Group :=
  { g with open_ := g.open_.map fun b => { b with left := b.left.filter (· != k) } }

/-- STATUS of an entry: word 0 the code with REASON, then the counts of R360; word 1 of a copy is the SEQ of the record it used
(R237; DESIGN CHOICE, log 13); R360 gives a quay command's words no field for it, and none is reported. -/
def Cmd.status (c : Cmd) : List Word :=
  let n := fun (v : Nat) => BitVec.ofNat 32 v
  let w1 := match c.kind with
    | .tcopy | .tstore | .hread => (layoutOf (c.recs.headD [])).seq
    | _ => c.count
  [n (c.code + (if c.reported then 256 else 0) + 512 * c.reason), n w1, n c.poisoned, n c.bytes]

/-- Write QSTATE of a command's entry. -/
def Machine.setQState (m : Machine) (addr v : Nat) : Machine :=
  let (t, m) := m.homeWord (addr + 4)
  m.setHomeWord (addr + 4) (setWordByte t 3 (BitVec.ofNat 8 v))

def QState.num : QState → Nat
  | .pending => 0
  | .running => 1
  | .suspended => 2
  | .stopped => 2
  | .done => 3

/-- Address of a command's entry. -/
def Machine.cmdEntry (m : Machine) (c : Cmd) : Nat :=
  match Map.get m.ctxs c.ctx with
  | some x => (m.queueDesc x c.queue).entry c.entry
  | none => 0

/-- PROGRESS of an entry: sectors and bursts done; for QUNPK the table state, with the bit offset and the output bytes in words 2 and
3 of STATUS until the command completes (R364, R388; DESIGN CHOICE, log 13). -/
def Machine.recordProgress (m : Machine) (a : Nat) (c : Cmd) : Machine :=
  let n := fun (v : Nat) => BitVec.ofNat 32 v
  match c.kind with
  | .qunpk => (m.setHomeData (a + 0x2C) [n c.unp.1]).setHomeData (a + 0x38) [n c.unp.2.1, n c.unp.2.2]
  | .nput | .nget => m.setHomeData (a + 0x2C) [n c.count]
  | _ => m.setHomeData (a + 0x2C) [n (c.sectors.length + c.retired.length)]

/-- Move a command to a state, in the model and in its entry, with PROGRESS (R388). -/
def Machine.moveCmd (m : Machine) (k : Nat) (st : QState) : Machine :=
  match Map.get m.cmds k with
  | none => m
  | some c =>
    let a := m.cmdEntry c
    let m := m.updCmd k fun c => { c with state := st, engine := if st == .running then c.engine else 0 }
    (m.recordProgress a c).setQState a st.num

/-- An NPUT that fails has not published: the shadow of a window on this device that it wrote is BROKEN (R258, R296, R405). (DEDUCED, log 79) -/
def Machine.breakTarget (m : Machine) (c : Cmd) : Machine :=
  match if c.kind = .nput then m.exporterOf (c.ops.getD 4 0).toNat else none with
  | some b => m.breakWindow b
  | none => m

/-- A command completes (R388): its named barrier takes the arrival of .BAR mode, STATUS is written, then QSTATE DONE with
release; the entry retires; the shadow and the batch it belongs to are told. A kind of its own event is raised before. -/
def Machine.completeCmd (m : Machine) (k : Nat) : Machine :=
  match Map.get m.cmds k with
  | none => m
  | some c =>
    if c.state == .done then m else
    -- .BAR mode: one arrival; dropped when the barrier is gone or owes no arrival (R213)
    let (ok, m) := match c.barrier with
      | some (blk, off) =>
        if c.arrive && !c.orphan then
          m.engineBarIf blk off fun b => if b.arrive = 0 then none else some { b with arrive := b.arrive - 1 }
        else (!c.orphan, m)
      | none => (true, m)
    let c := if ok then c else c.fail 3
    let m := if c.code = 0 then m else (m.writerFailed c).breakTarget c
    let m := { m with cmds := Map.set m.cmds k { c with state := .done } }
    let a := m.cmdEntry c
    let m := (m.setHomeData (a + 0x30) c.status).setQState a 3
    let m := m.retireEntry c.ctx c.queue c.entry
    let m := m.updGroup c.group fun g => g.memberDone k
    match c.shadow with
    | some h => (m.trySwap c.ctx h).drainShadow c.ctx h
    | none => m

end Sys2Proof.Machine
end

