-- ==== Sys2Proof/Machine/Kernel.lean ====
section
/-! DEFINITION. Launching and completion by instructions: LAUNCH, ENQ, CDONE, CWAIT (R168, R169, R171 to R174, R393). -/

namespace Sys2Proof.Machine

open Sys2Proof

/-! ### Refusal and failure of a grid (R167, R168) -/

/-- The launch record address that a LAUNCH entry names: the grid's queue entry (R292). -/
def Machine.gridEntry (m : Machine) (g : Grid) : Nat :=
  match Map.get m.ctxs g.ctx with
  | some c => (m.queueDesc c (launchQ g.queue)).entry g.entry
  | none => 0

/-- Append a LAUNCH entry with a code (R168, R292). (DEDUCED, log 26) -/
def Machine.launchFault (m : Machine) (g : Grid) (code : Nat) : Machine := m.faultEntry g.ctx (m.gridEntry g) 3 0 5 code

def distSource : Nat := 5

/-- The distributor waits for a page (R167). -/
def Machine.gridWaits (m : Machine) (gr ctx page va access source : Nat) : Machine :=
  (m.updGrid gr fun g => { g with waits := some (ctx, page, va) }).reportFault ctx page 1 access source

/-- The fault of this page was resolved by TLBINV.ABORT (R293). (DEDUCED, log 63) -/
def Grid.aborted (g : Grid) (va : Nat) : Bool := (g.abortedVa.map (· / 65536)) == some (va / 65536)

/-- The read or write whose fault was aborted has failed: later ones of the page translate again (R167, R168). -/
def Machine.abortUsed (m : Machine) (gr : Nat) : Machine := m.updGrid gr fun g => { g with abortedVa := none }

/-- What a write of the distributor to a bitmap region gives (R167). -/
inductive DistWrite where
  | done (m : Machine)
  | wait (m : Machine)
  | fail

/-- Write words of a bitmap region, all of one page (R169); a page that maps a berth or the status page refuses them (R167).
(DESIGN CHOICE, log 77) -/
def Machine.distWrite (m : Machine) (gr : Nat) (g : Grid) (va : Nat) (ws : List Word) : DistWrite :=
  if g.aborted va then .fail
  else match m.translate (engineKey distSource 0) g.ctx va .write with
    | (.ok pa _, m) => .done (m.setHomeData pa ws)
    | (.notValid _, m) => .wait (m.gridWaits gr g.ctx va va 1 distSource)
    | _ => .fail

/-- The header of a bitmap (R169). -/
def headerWords (state code : Nat) : List Word := [BitVec.ofNat 32 (state + 256 * code), 0]

/-- Write the header of a grid for a state past STARTING: none while its page is waited for; a failing write is skipped,
with a LAUNCH entry of code 9 (R167, R168). (DEDUCED, log 33) (DEDUCED, log 63) -/
def Machine.lateHeader (m : Machine) (gr : Nat) (g : Grid) (state code : Nat) : Except Machine Machine :=
  let dm := recDoneMap g.record
  if dm = 0 || dm % 65536 != 0 || (wordAt g.record 14).poisoned || (wordAt g.record 15).poisoned then .ok m
  else match m.distWrite gr g dm (headerWords state code) with
    | .done m => .ok m
    | .wait m => .error m
    | .fail => .ok ((m.launchFault g 9).abortUsed gr)

/-- For each of n refused CDONEs the header FAILED with code 9, then its LAUNCH entry; the first header whose page is waited for
ends it (R167, R173). (DEDUCED, log 63) -/
def Machine.refuseStep (m : Machine) (gr : Nat) : Nat → Machine
  | 0 => m
  | n + 1 =>
    match Map.get m.grids gr with
    | none => m
    | some g =>
      match m.lateHeader gr g 3 9 with
      | .error m => m
      | .ok m => Machine.refuseStep ((m.launchFault g 9).updGrid gr fun g => { g with refusing := g.refusing - 1 }) gr n

/-- A CDONE's OR is refused: the grid is marked refused, and its header is written FAILED with code 9, behind the headers of earlier
refusals that wait (R167, R173). -/
def Machine.refuseGrid (m : Machine) (gr : Nat) : Machine :=
  match Map.get m.grids gr with
  | none => m
  | some g =>
    let m := m.updGrid gr fun g => { g with refused := true, refusing := g.refusing + 1 }
    if g.waits.isSome then m else m.refuseStep gr 1

/-- A grid leaves the distributor: its queue entry is retired (R168, R387). -/
def Machine.closeGrid (m : Machine) (gr : Nat) (g : Grid) (st : GridState) : Machine :=
  (m.retireEntry g.ctx (launchQ g.queue) g.entry).updGrid gr fun g => { g with state := st, failing := none, waits := none }

/-- The failure of a grid: header, LAUNCH entry, progress (R168). (DEDUCED, log 63) -/
def Machine.failStep (m : Machine) (gr : Nat) : Machine :=
  match Map.get m.grids gr with
  | none => m
  | some g =>
    match g.failing with
    | none => m
    | some code =>
      match m.lateHeader gr g 3 code with
      | .error w => w
      | .ok m => (m.launchFault g code).closeGrid gr g .failed

def Machine.failGrid (m : Machine) (gr code : Nat) : Machine :=
  match Map.get m.grids gr with
  | none => m
  | some g =>
    if g.state == .done || g.state == .failed then m
    else (m.updGrid gr fun g => { g with failing := some code, abortedVa := none }).failStep gr

/-- A page that the distributor waited for is resolved, or failed by TLBINV.ABORT: a refusal or a failure goes on (R167,
R293). -/
def Machine.gridResolved (m : Machine) (gr : Nat) (abort : Bool) : Machine :=
  match Map.get m.grids gr with
  | none => m
  | some g =>
    let m := m.updGrid gr fun g => { g with
      waits := none, abortedVa := if abort then g.waits.map (·.2.2) else none }
    if g.failing.isSome then m.failStep gr
    else m.refuseStep gr g.refusing

/-! ### CDONE (R173) -/

/-- Address of the word that holds a block's bit, and the bit in it (R169). -/
def doneWord (donemap b : Nat) : Nat × Nat := (donemap + 8 + b / 32 * 4, b % 32)

/-- CDONE: a release, then the OR is requested; it is performed by CDONE_OR_PERFORM. -/
def execCdone (f : C0) (s : State) : Host.Outcome State Fault Refusal :=
  runWord (.cdone f) s fun w => w.releasing
    (let w := w.release .device
    match Map.get w.m0.grids w.g.grid, w.block with
    | some gr, some b =>
      let dm := recDoneMap gr.record
      if dm = 0 then w.done
      else
        let va := (doneWord dm b.index).1
        let count := ((Map.get w.m.ctxs w.g.ctx).map (·.resolve)).getD 0
        let r : Parked := { core := w.g.core, group := w.gk, ctx := w.g.ctx, va := va, access := 2, ova := va, lane := 0, words := []
                            size := 4, instr := some w.instr, slots := [], pendingId := 0, count := count, waiting := false
                            flight := true }
        ({ w with m := { w.m with parked := Map.set w.m.parked w.m.nextId r, nextId := w.m.nextId + 1 } } : W).done
    | _, _ => w.done)

/-- The OR of a request at the home, or its refusal, or its parking (R173). -/
def Machine.performDone (m : Machine) (k : Nat) : Option Machine :=
  match Map.get m.parked k with
  | none => none
  | some r =>
    match Map.get m.groups r.group with
    | none => none
    | some g =>
      let gone : Machine := { m with parked := Map.del m.parked k }
      let bit := match Map.get m.blocks g.block with
        | some b => b.index % 32
        | none => 0
      match m.place g.core r.ctx r.va 4 .atomic (if g.lighter.isSome then 1 else 0) with
      | (.pa pa leaf, _) =>
        match gone.atomHome g.core pa (m.handlePri r.ctx r.va leaf) false .or [TWord.of (BitVec.ofNat 32 (2 ^ bit))] with
        | (.old _, m) => some m
        | _ => some (gone.refuseGrid g.grid)
      | (.fault c v src, _) =>
        let count := ((Map.get m.ctxs c).map (·.resolve)).getD 0
        some (gone.parkAs k { r with flight := false, ctx := c, va := v, count := count } src)
      | _ => some (gone.refuseGrid g.grid)

/-! ### The reads of several lanes -/

/-- What the read of a lane's words meets: PROT, REVOKED, or PAGE for a page whose fault was resolved by TLBINV.ABORT
(R293). -/
def W.readMeets (w : W) (p : Place) (va : Nat) : Option Trap :=
  match p with
  | .prot l c => some (protTrap va l c)
  | .revoked b => some { code := .revoked, addr := va, info := b }
  | .fault _ _ _ => if badMark (w.g.entry w.is.sid) va then some { code := .page, addr := va } else none
  | _ => none

/-- A place as CWAIT takes it: no berth page (R406). -/
def W.noBerthAt (w : W) (va : Nat) (p : Place) : Place := p.noBerth (w.m0.berthAt w.g.ctx va)

/-- The trap of the reads of several lanes, PROT before the others: it names the lanes that met it (R374). -/
def W.readsTrap (w : W) (lanes : List Nat) (place : Nat → Place → Place) (addr : Nat → Nat) : Option Trap :=
  let met := lanes.filterMap fun l =>
    (w.readMeets (place (addr l) (w.m0.place w.g.core w.g.ctx (addr l) 4 .read w.g.source).1) (addr l)).map fun t => (l, t)
  match met.filter (·.2.code == .prot) ++ met.filter (·.2.code != .prot) with
  | [] => none
  | e :: r => some { e.2 with lanes := some (maskOf (e.1 :: (r.filter (·.2.code == e.2.code)).map (·.1))) }

/-! ### CWAIT (R174) -/

/-- One word of a bitmap region, read with acquire at DEVICE scope. -/
inductive BitRead where
  | ok (t : TWord) (m : Machine)
  | stop (a : Act)

/-- DEDUCED, log 33. -/
def W.bitmapWord (w : W) (va : Nat) : BitRead :=
  let (p, m) := w.m.place w.g.core w.g.ctx va 4 .read w.g.source
  match p.noBerth (m.berthAt w.g.ctx va) with
  | .prot lv c => .stop (w.trapAt (protTrap va lv c))
  | .fault c v src => .stop (({ w with m0 := { w.m0 with tlb := m.tlb } } : W).waitRead c v src va)
  | p => match m.deviceWord w.g.core w.g.ctx va p with
    | some (t, m) => .ok t m
    | none => .stop (w.trapAt (protTrap va 0 .permission))

/-- Read the words of all lanes. -/
def W.bitmapLanes (w : W) (base : Nat) (idx : Nat → Nat) : List Nat → Except Act (List (Nat × Bool) × W)
  | [] => .ok ([], w)
  | l :: r =>
    match w.bitmapLanes base idx r with
    | .error a => .error a
    | .ok (bs, w) =>
      let (va, j) := doneWord base (idx l)
      match w.bitmapWord va with
      | .stop a => .error a
      | .ok t m => .ok ((l, (w.inject l t).data.getLsbD j) :: bs, { w with m := m })

/-- Indices of a region: 524,224 blocks (R162, R174). -/
def bitmapBlocks : Nat := 524224

/-- CWAIT. (DEDUCED, log 33) -/
def execCwait (f : CwaitF) (s : State) : Host.Outcome State Fault Refusal :=
  runWord (.cwait f) s fun w =>
    let base := w.pair f.g.val
    let idx := fun l => (w.srcAt 0 l).data.toNat
    if w.acquireParked || w.syncParked || w.dataParkedAt base ||
        (lanesOf w.real).any (fun l => w.dataParkedAt (doneWord base (idx l)).1) then .hold
    else w.guard (firstTrap [w.lwait, w.memCheck [0],
        if base % 65536 != 0 then some { code := .align, addr := base } else none,
        w.lanesTrap (protTrap 0 0 .permission) (fun l => base + 8 + idx l / 64 * 8) fun l => decide (bitmapBlocks ≤ idx l)])
      (match w.bitmapWord base with
      | .stop a => a
      | .ok h m =>
        w.guard (w.readsTrap (lanesOf w.real) w.noBerthAt fun l => (doneWord base (idx l)).1)
        (match ({ w with m := m } : W).bitmapLanes base idx (lanesOf w.real) with
        | .error a => a
        | .ok (bs, w) =>
          let failed := h.data.toNat % 256 == 3
          if failed || bs.all (·.2) then
            (((w.acquire .device).writePred f.p fun l => bs.any fun e => e.1 == l && e.2).shot).done
          else (w.park .cwait).done))

/-! ### LAUNCH (R171, R172) -/

/-- Read a 64-byte record for each address. -/
def W.readRecords (w : W) : List Nat → Except Act (List (List TWord) × W)
  | [] => .ok ([], w)
  | a :: r =>
    match w.readWords a 16 with
    | .error e => .error e
    | .ok (ws, w) => match w.readRecords r with
      | .error e => .error e
      | .ok (rs, w) => .ok (ws :: rs, w)

/-- DEDUCED, log 26. -/
def execLaunch (f : LaunchF) (s : State) : Host.Outcome State Fault Refusal :=
  runWord (.launch f) s fun w =>
    match w.ctx with
    | none => w.trapAt (protTrap f.q.val 0 .permission)
    | some c =>
      let uni := f.a.isRight
      let lanes := if uni then w.leader.toList else lanesOf w.real
      let addr := fun l => match f.a with
        | .inl _ => nat64 (w.srcAt 0 l).data (w.srcAt 1 l).data
        | .inr g => w.pair g.val
      w.guard (firstTrap [w.lwait, w.queueClosed c (launchQ f.q.val) f.q.val, w.untyped,
          if uni then w.needFull else none, if uni then w.checkUni w.u.us else w.checkSrcs [0, 1],
          w.lanesTrap { code := .align } addr fun l => lanes.contains l && addr l % 64 != 0,
          if uni then none else w.readsTrap lanes (fun _ p => p) addr])
        (if w.acquireParked then .hold else w.releasing
        (let w := w.release .device
        match w.readRecords (lanes.map addr) with
        | .error a => a
        | .ok (rs, w) =>
          let free := (w.m.queueDesc c (launchQ f.q.val)).free c (launchQ f.q.val)
          let n := min free rs.length
          let m := ((w.m.appendEntries c (launchQ f.q.val) (rs.take n)).getD w.m)
          let done := lanes.take n
          (({ w with m := m } : W).movedPred f.p fun l =>
            if uni then decide (1 ≤ n) && !lanes.isEmpty else done.contains l).done))

/-! ### ENQ (R393) -/

/-- Entries of ENQ.Q as appended: GROUPID, BATCH, QSTATE, PROGRESS and STATUS are set (R388, R393). -/
def enqEntry (gid batch : Nat) (ws : List TWord) : List TWord :=
  -- bytes that are set change the residue of their word by their difference (R23, R66)
  let put := fun (t : TWord) (k v : Nat) => setWordByte t k (BitVec.ofNat 8 v)
  let w0 := put (put (wordAt ws 0) 2 gid) 3 (gid / 256)
  let w1 := put (put (put (wordAt ws 1) 0 batch) 1 (batch / 256)) 3 0
  [w0, w1] ++ ((ws.drop 2).take 9) ++ List.replicate 5 TWord.zero

/-- KIND of a quay entry (R388). -/
def quayKind (v : Nat) : CmdKind :=
  match v with
  | 1 => .qgath
  | 2 => .qred
  | 3 => .qcvt
  | 4 => .qunpk
  | 5 => .qtload
  | _ => .bad

/-- The checks of ENQ, the release and the reads; then the entries. (DEDUCED, log 26) -/
def W.enq (w : W) (c : Ctx) (q n : Nat) (ga : Nat) (count : Nat) (k : W → List (List TWord) → Act) : Act :=
  let addr := w.pair ga
  w.guard (firstTrap [w.lwait, w.needFull, w.queueClosed c q n, w.checkUni w.u.us,
      if addr % 64 != 0 then some { code := .align, addr := addr } else none,
      (List.range count).findSome? fun i =>
        (w.m0.place w.g.core w.g.ctx (addr + 64 * i) 4 .read w.g.source).1.protOf.map fun p => protTrap (addr + 64 * i) p.1 p.2])
    (if w.acquireParked then .hold else w.releasing
      (let w := w.release .device
      match w.readRecords ((List.range count).map fun i => addr + 64 * i) with
      | .error a => a
      | .ok (rs, w) => k w rs))

/-- ENQ.L. -/
def execEnqL (f : EnqF) (s : State) : Host.Outcome State Fault Refusal :=
  runWord (.enqL f) s fun w =>
    match w.ctx with
    | none => w.trapAt (protTrap f.q.val 0 .permission)
    | some c => w.enq c (launchQ f.q.val) f.q.val f.ga.val (f.n.val + 1) fun w rs =>
      match w.m.appendEntries c (launchQ f.q.val) rs with
      | some m => (({ w with m := m } : W).movedPred f.p fun _ => true).done
      | none => (w.movedPred f.p fun _ => false).done

/-- ENQ.Q: each entry is a member of the group's current batch. -/
def execEnqQ (f : EnqF) (s : State) : Host.Outcome State Fault Refusal :=
  runWord (.enqQ f) s fun w =>
    match w.ctx with
    | none => w.trapAt (protTrap f.q.val 0 .permission)
    | some c => w.enq c (quayQ f.q.val) f.q.val f.ga.val (f.n.val + 1) fun w rs =>
      let q := quayQ f.q.val
      let es := rs.map (enqEntry w.g.gid w.g.batch)
      let d := w.m.queueDesc c q
      match w.m.appendEntries c q es with
      | none => (w.movedPred f.p fun _ => false).done
      | some m =>
        let k := m.nextId
        let cmds := (es.zipIdx).foldl (fun cs e =>
          Map.set cs (k + e.2) { Cmd.new (quayKind (fieldAt e.1 0 1)) w.g.ctx w.gk w.g.block q (d.tail + e.2) w.g.batch with recs := [e.1] }) m.cmds
        let w := { w with m := { m with cmds := cmds, nextId := k + es.length } }
        ((w.upd fun g => { g with members := g.members ++ List.range' k es.length }).movedPred f.p fun _ => true).done

end Sys2Proof.Machine
end

