-- ==== Sys2Proof/Machine/Matrix.lean ====
section
/-! DEFINITION. The matrix engine (R299 to R317): configuration, operands, the products with their residue column, the
queue, and the matrix instructions. -/

namespace Sys2Proof.Machine

open Sys2Proof

/-! ### The matrix configuration (R301, R302) -/

inductive MatMode where
  | int | fp8 | q4 | half
deriving DecidableEq, Repr

def mcA (v : BitVec 32) : Nat := bits v.toNat 3 0
def mcB (v : BitVec 32) : Nat := bits v.toNat 7 4
def mcAcc (v : BitVec 32) : Bool := v.getLsbD 8
def mcRm (v : BitVec 32) : Rm := rmOfCode (bits v.toNat 10 9)
def mcFtz (v : BitVec 32) : Bool := v.getLsbD 11

def modeOf (fmt : Nat) : Option MatMode :=
  if fmt = 11 || fmt = 12 then some .int
  else if fmt = 8 || fmt = 9 then some .fp8
  else if fmt = 10 then some .q4
  else if fmt = 4 || fmt = 5 then some .half
  else none

/-- The valid combinations (R302). -/
def mcOk (v : BitVec 32) : Bool :=
  decide (v.toNat < 2 ^ 12) && (modeOf (mcA v)).isSome && modeOf (mcA v) == modeOf (mcB v) &&
  mcAcc v == (modeOf (mcA v) != some .int)

def mcMode (v : BitVec 32) : MatMode := (modeOf (mcA v)).getD .int

/-- FMT of the accumulator: I32 or F32 (R301). -/
def mcFmt (v : BitVec 32) : Nat := if mcAcc v then fmtF32 else fmtI32

/-! ### Elements (R302, R304, R308) -/

/-- The K elements of a 128-byte row or column, or none when a word of it is poison, fails verification, or an element
belongs to a malformed block (R308). -/
structure Elems where
  bad : Bool
  ints : List Int
  nums : List Num
deriving DecidableEq, Repr

/-- A record of an absolute scale image (R304). -/
def scaleAt (ws : List TWord) (j : Nat) : QScale :=
  let b0 := fieldAt ws (2 * j) 1
  let e := sext 8 (fieldAt ws (2 * j + 1) 1)
  if b0 % 64 != 0 then .malformed else if e = -128 then .null else .ok (qtypeOf (b0 / 64)) e

def codeFmt : Nat → FloatFmt
  | 4 => fmF16
  | 5 => fmB16
  | 8 => fmE4M3
  | _ => fmE5M2

/-- An element as a product takes it: every NaN of an element sets NV (R307). -/
def elemNum : Num → Num
  | .nan _ => .nan true
  | x => x

/-- The elements of a row of format `fmt`; `scale` holds the 4 words of its Q4 records. -/
def elemsOf (fmt : Nat) (ftz : Bool) (ws scale : List TWord) : Elems :=
  let bad := ws.any fun t => !t.good
  match modeOf fmt with
  | some .int => { bad := bad, nums := [], ints := (List.range 128).map fun k => (⟨8, fmt == 11⟩ : IntFmt).read (fieldAt ws k 1) }
  | some .fp8 => { bad := bad, ints := [], nums := (List.range 128).map fun k => elemNum ((codeFmt fmt).input ftz (fieldAt ws k 1)) }
  | some .half => { bad := bad, ints := [], nums := (List.range 64).map fun k => elemNum ((codeFmt fmt).input ftz (fieldAt ws (2 * k) 2)) }
  | _ =>
    let sc := (List.range 8).map fun j => scaleAt scale j
    { bad := bad || scale.any (fun t => !t.good) || sc.contains .malformed
      ints := []
      nums := (List.range 256).map fun k =>
        let c := fieldAt ws (k / 2) 1 / 16 ^ (k % 2) % 16
        match sc.getD (k / 32) .null with
        | .ok ty e => q4Num ty e c
        | _ => .fin false 0 0 }

/-- Column n of a B slot; the scale records of a Q4 column stand in the slot after it (R299, R304, R313). (DEDUCED, log 44) -/
def bColumn (c : Core) (slot n fmt : Nat) (ftz : Bool) : Elems :=
  let words := fun (s k : Nat) => (List.range k).map fun i =>
    Map.getD ((Map.getD c.bslots s { words := [], tag := 0 }).words) (32 * n + i) TWord.zero
  elemsOf fmt ftz (words slot 32) (words (slot + 1) 4)

/-! ### One accumulator word (R306 to R309) -/

/-- Integer accumulation with the class A prediction from the stored residue. -/
def accInt (t : TWord) (s : Int) (sat : Bool) : TWord :=
  if t.poisoned then t
  else
    let v := t.data.toInt + s
    if sat && (decide (v < minI32) || decide (maxI32 < v)) then TWord.of (wordOfInt (clampInt minI32 maxI32 v))
    else
      let d := wordOfInt v
      let c := (((t.data.toNat : Int) + s) - d.toNat) / (2 ^ 32 : Nat)
      { data := d, res := res15 (rn t + s - c) }

/-- The exact sum of the products; −0 only when every product is −0. -/
def productSum (a b : List Num) : Num := (a.zip b).foldl (fun s e => Num.add .rn s (Num.mul e.1 e.2)) (.fin true 0 0)

/-- Exponent of the unit of a number in F32. -/
def unitF32 (v : Nat) : Int := match fmF32.decode v with
  | .fin _ _ e => e
  | _ => 0

/-- Exponent of the unit of the F32 significand of an exact number before a rounding carry (R63). -/
def unitBefore : Num → Int
  | .fin _ m e => max (-149) ((Nat.log2 m : Int) + e - 23)
  | _ => 0

/-- 2^k modulo 15 for any integer k (2^4 = 1). -/
def pow2z (k : Int) : Int := (2 ^ (k.emod 4).toNat : Nat)

/-- Float accumulation: one rounding; a residue of the old word that differs from its data keeps differing (R309). (DEDUCED, log 45) -/
def accFloat (t : TWord) (s : Num) (rm : Rm) (ftz : Bool) : TWord × FFlags :=
  if t.poisoned then (t, 0)
  else
    let x := fmF32.decode t.data.toNat
    let y := Num.add rm x s
    let (v, f) := fmF32.round rm ftz false y
    let w := BitVec.ofNat 32 v
    let delta := rn t - (t.data.toNat % 15 : Nat)
    -- a word that does not change keeps its residue
    if w = t.data then (t, f) else
    match fmF32.decode v with
    | .fin _ 0 _ => (TWord.of w, f)
    | .fin sr _ _ =>
      let sg : Int := if x.sign == sr then 1 else -1
      -- NaN, infinity and a rounding to the largest number are recomputed by class D (R63)
      if f.getLsbD 2 then (TWord.of w, f)
      else ({ data := w, res := res15 ((v % 15 : Nat) + delta * sg * pow2z (unitF32 t.data.toNat - unitBefore y)) }, f)
    | _ => (TWord.of w, f)

/-! ### Products of a queue entry -/

def tileAt (c : Core) (t : Nat) : Tile := Map.getD c.tiles t { words := [], tag := 0, tflag := 0 }

def Tile.word (t : Tile) (r n : Nat) : TWord := Map.getD t.words (128 * r + n) TWord.zero

def Tile.setWord (t : Tile) (r n : Nat) (w : TWord) : Tile := { t with words := Map.put t.words (128 * r + n) w TWord.zero }

/-- TFLAG bits NV, OF, UF, NX of the flags of R38. -/
def tflagOf (f : FFlags) : BitVec 4 := BitVec.ofNat 4 (f.toNat % 2 + f.toNat / 4 * 2)

/-- FPC flags of a TFLAG. -/
def flagsOfT (t : BitVec 4) : FFlags := BitVec.ofNat 5 (t.toNat % 2 + t.toNat / 2 * 4)

/-- The stream rows that are fed, by number (R305): none when the survival word is bad. -/
def MatPart.fed (p : MatPart) : List Nat :=
  if p.hd = 0 then List.range p.rows
  else if !p.surv.good then []
  else (List.range p.rows).filter fun i => p.surv.data.getLsbD i

/-- One stream row into its accumulator row. -/
def feedRow (cfg : BitVec 32) (sat : Bool) (cols : List Elems) (a : Elems) (row : Nat) (t : Tile) : Tile :=
  (cols.zipIdx).foldl (fun t e =>
    let old := t.word row e.2
    if a.bad || e.1.bad then t.setWord row e.2 old.poison
    else if mcMode cfg = .int then t.setWord row e.2 (accInt old (zipSum (· * ·) a.ints e.1.ints) sat)
    else
      let (w, f) := accFloat old (productSum a.nums e.1.nums) (mcRm cfg) (mcFtz cfg)
      let t := t.setWord row e.2 w
      { t with tflag := t.tflag ||| tflagOf f }) t

/-- One product: rows in ascending order; the tile is left tagged {HD, I32 or F32} (R314). -/
def runPart (cfg : BitVec 32) (sat : Bool) (c : Core) (p : MatPart) : Core :=
  let t := tileAt c p.tile
  let t :=
    if p.hd != 0 && !p.surv.good then
      (List.range p.rows).foldl (fun t i => (List.range 128).foldl (fun t n =>
        t.setWord (p.m0 + i) n (t.word (p.m0 + i) n).poison) t) t
    else if p.rows = 0 then t
    else
      let cols := (List.range 128).map fun n => bColumn c p.slot n (mcB cfg) (mcFtz cfg)
      (p.fed.zipIdx).foldl (fun t e =>
        feedRow cfg sat cols (elemsOf (mcA cfg) (mcFtz cfg) (p.a.getD e.2 []) (p.scales.getD e.2 [])) (p.m0 + e.1) t) t
  if p.rows = 0 then c
  else { c with tiles := Map.set c.tiles p.tile { t with tag := tagOf (mcFmt cfg) p.hd } }

/-- The words of a slot from an image, without the zeros. -/
def slotWords (key : Nat → Nat) (ws : List TWord) : Map TWord :=
  (ws.zipIdx).foldl (fun m e => Map.put m (key e.2) e.1 TWord.zero) []

/-- The work of a queue entry (R310). (DEDUCED, log 44) -/
def runEntry (c : Core) (e : MatEntry) : Core :=
  match e with
  | .loadB s tag image scale =>
    let c := { c with bslots := Map.set c.bslots s { words := slotWords id image, tag := tag } }
    match scale with
    | none => c
    | some sc => { c with bslots := Map.set c.bslots (s + 1) { words := slotWords (fun i => i / 4 * 32 + i % 4) sc, tag := tag } }
  | .mma parts cfg sat => parts.foldl (runPart cfg sat) c
  | .mread _ _ => c
  | .mzero t => { c with tiles := Map.del c.tiles t }

/-- Tags as an entry leaves them. -/
def runTags (c : Core) (e : MatEntry) : Core :=
  match e with
  | .mma parts cfg _ => parts.foldl (fun c p =>
      if p.rows = 0 then c else { c with tiles := Map.set c.tiles p.tile { tileAt c p.tile with tag := tagOf (mcFmt cfg) p.hd } }) c
  | .loadB s tag _ scale =>
    let c := { c with bslots := Map.set c.bslots s { words := [], tag := tag } }
    if scale.isSome then { c with bslots := Map.set c.bslots (s + 1) { words := [], tag := tag } } else c
  | e => runEntry c e

/-! ### The engine as a block finds it (R300, R310) -/

/-- The engine of a core for a block: its own, or a fresh one. -/
def Core.engineFor (c : Core) (blk : Nat) : Core :=
  if c.claim = some blk then c else { c with tiles := [], bslots := [], queue := [] }

/-- Tags after every entry of the queue. -/
def W.tagView (w : W) : Core :=
  let c := (w.m.core w.g.core).engineFor w.g.block
  c.queue.foldl runTags c

/-- Tiles and slots after every entry of the queue. (DEDUCED, log 43) -/
def W.tileView (w : W) : Core :=
  let c := (w.m.core w.g.core).engineFor w.g.block
  c.queue.foldl runEntry c

def queueEntries : Nat := 32

/-- Claim the engine and take a place of its queue, after every check has passed; otherwise the strand is held (R300,
R310, R312). -/
def W.claim (w : W) (k : W → Act) : Act :=
  let c := w.m.core w.g.core
  let mine := c.claim == some w.g.block
  if (c.claim.isSome && !mine) || (mine && decide (queueEntries ≤ c.queue.length)) then .hold
  else k (if mine then w else
    { w with m := w.m.updCore w.g.core fun c => { c with claim := some w.g.block, tiles := [], bslots := [], queue := [] } })

def W.enqueue (w : W) (e : MatEntry) : W :=
  { w with m := w.m.updCore w.g.core fun c => { c with queue := c.queue ++ [e] } }

/-! ### Checks (R312) -/

/-- LWAIT, MASK, then the G words. -/
def W.matCheck (w : W) : Option Trap := firstTrap [w.lwait, w.needFull, w.checkUni w.u.us]

def W.illegal (w : W) (b : Bool) : Option Trap := if b then some { code := .illegal, addr := w.addr } else none

def W.gWord (w : W) (n : Nat) : Nat := (w.uni n).data.toNat

/-- Words of the issuing block's scratchpad, as the chain finds them (R90). -/
def W.spad (w : W) (off n : Nat) : List TWord := (List.range n).map fun i => w.m0.spadWord w.g.block (off + 4 * i)

def W.scratch (w : W) : Nat := (w.block.map (·.scratch)).getD 0

def boundTrap (scratch off n : Nat) : Option Trap := if scratch < off + n then some { code := .spbound, addr := off } else none

def alignAt (off n : Nat) : Option Trap := if off % n != 0 then some { code := .align, addr := off } else none

/-- FORMAT, then DOMAIN, of a slot and a tile (R314); slot 1 stands for the B slot, slot 0 for the tile (DEDUCED, log 15). -/
def tagTraps (c : Core) (tile slot hd : Nat) (cfg : BitVec 32) : Option Trap :=
  let s := (Map.getD c.bslots slot { words := [], tag := 0 }).tag
  let t := (tileAt c tile).tag
  firstTrap [
    if fmtOfTag s != mcB cfg then some (formatTrap 1 s) else none,
    if t != 0 && fmtOfTag t != mcFmt cfg then some (formatTrap 0 t) else none,
    if domOfTag s != 0 then some (domainTrap 1 s) else none,
    if t != 0 && domOfTag t != hd then some (domainTrap 0 t) else none]

/-! ### Instructions -/

/-- MCFG (R301 to R303). (DEDUCED, log 43) -/
def execMcfg (f : McfgF) (s : State) : Host.Outcome State Fault Refusal :=
  runWord (.mcfg f) s fun w =>
    let v := (w.srcAt 0 0).data
    w.guard (firstTrap [w.matCheck, w.illegal (!mcOk v)])
      (w.claim fun w => (w.upd fun g => { g with matcfg := v }).done)

/-- MZERO (R317). -/
def execMzero (f : MzeroF) (s : State) : Host.Outcome State Fault Refusal :=
  runWord (.mzero f) s fun w => w.guard w.matCheck (w.claim fun w => (w.enqueue (.mzero f.t.val)).done)

def fmtCode : Fmt → Nat
  | .bits => 0
  | .i32 => 1
  | .n32 => 2
  | .f32 => 3
  | .f16 => 4
  | .b16 => 5
  | .i16 => 6
  | .n16 => 7
  | .e4m3 => 8
  | .e5m2 => 9
  | .q4 => 10
  | .i8 => 11
  | .n8 => 12
  | .i64 => 13

/-- MLOADB (R313): the image is read at issue, in the order of a plain read (R250, R310). -/
def execMloadb (f : MloadbF) (s : State) : Host.Outcome State Fault Refusal :=
  runWord (.mloadb f) s fun w =>
    let q4 := f.fmt == .q4
    let off := w.gWord f.g.val
    let so := w.gWord (f.g.val + 1)
    if w.acquireParked then .hold
    else w.guard (firstTrap [w.matCheck, alignAt off 16, if q4 then alignAt so 16 else none,
        boundTrap w.scratch off 16384, if q4 then boundTrap w.scratch so 2048 else none])
      (w.claim fun w =>
        (w.enqueue (.loadB f.slot.val (tagOf (fmtCode f.fmt) 0) (w.spad off 4096) (if q4 then some (w.spad so 512) else none))).done)

/-- The A descriptor (R314). -/
structure ADesc where
  aoff : Nat
  stride : Nat
  m : Nat
  row0 : Nat
  hd : Nat
  reserved : Nat
  soff : Nat
  bmoff : Nat
deriving DecidableEq, Repr

def W.aDesc (w : W) (d : Nat) : ADesc :=
  let x := w.gWord (d + 1)
  { aoff := w.gWord d, stride := bits x 15 0, m := bits x 20 16 + 1, row0 := bits x 25 21, hd := bits x 28 26
    reserved := bits x 31 29, soff := w.gWord (d + 2), bmoff := w.gWord (d + 3) }

/-- Field checks that need the configuration: SAT outside the integer mode, an odd slot in Q4 mode (R307, R314). -/
def matFields (cfg : BitVec 32) (sat : Bool) (slot : Nat) : Bool :=
  (sat && mcMode cfg != .int) || (mcMode cfg == .q4 && slot % 2 == 1)

/-- The rows of A and their scale records from a first row on. -/
def W.rowsOf (w : W) (d : ADesc) (q4 : Bool) (first n : Nat) : List (List TWord) × List (List TWord) :=
  ((List.range n).map fun j => w.spad (d.aoff + d.stride * (first + j)) 32,
   if q4 then (List.range n).map fun j => w.spad (d.soff + 16 * (first + j)) 4 else [])

/-- SPBOUND of n rows and their records. -/
def rowsBound (scratch : Nat) (d : ADesc) (q4 : Bool) (n : Nat) : Option Trap :=
  if n = 0 then none
  else firstTrap [
    if scratch < d.aoff + d.stride * (n - 1) + 128 then some { code := .spbound, addr := d.aoff } else none,
    if q4 then boundTrap scratch d.soff (16 * n) else none]

/-- ALIGN of a descriptor. -/
def descAlign (d : ADesc) (q4 : Bool) : Option Trap :=
  firstTrap [alignAt d.stride 16, alignAt d.aoff 16, if q4 then alignAt d.soff 16 else none]

/-- MMA, MMA.SAT (R305 to R308, R314); its rows are read at issue, in the order of a plain read (R250, R310). -/
def W.mma (w : W) (f : MmaF) (sat : Bool) : Act :=
  let cfg := w.g.matcfg
  let q4 := mcMode cfg == .q4
  let d := w.aDesc (4 * f.g.val)
  if w.acquireParked then .hold
  else w.guard (firstTrap [w.illegal (matFields cfg sat f.slot.val), w.matCheck,
      w.illegal (d.reserved != 0 || decide (d.stride < 128) || decide (32 < d.row0 + d.m)),
      tagTraps w.tagView f.t.val f.slot.val d.hd cfg,
      descAlign d q4, if d.hd != 0 then alignAt d.bmoff 4 else none,
      if d.hd != 0 then boundTrap w.scratch d.bmoff 4 else none])
    (let p : MatPart := { tile := f.t.val, slot := f.slot.val, m0 := d.row0, rows := d.m, hd := d.hd, a := [], scales := []
                          surv := if d.hd != 0 then wordAt (w.spad d.bmoff 1) 0 else TWord.zero }
    let n := p.fed.length
    w.guard (rowsBound w.scratch d q4 n)
      (w.claim fun w =>
        let (a, sc) := w.rowsOf d q4 0 n
        (w.enqueue (.mma [{ p with a := a, scales := sc }] cfg sat)).done))

def execMma (f : MmaF) (s : State) : Host.Outcome State Fault Refusal :=
  runWord (.mma f) s fun w => w.mma f f.sat

/-- A table entry of MMAG (R315): rows, slot, tile, first row. -/
structure GEntry where
  rows : Nat
  slot : Nat
  tile : Nat
  row0 : Nat
deriving DecidableEq, Repr

def gEntry (t : TWord) : GEntry :=
  let v := t.data.toNat
  { rows := bits v 5 0, slot := bits v 11 6, tile := bits v 15 12, row0 := bits v 20 16 }

def GEntry.bad (e : GEntry) (q4 : Bool) : Bool :=
  decide (32 < e.rows) || decide (32 < e.row0 + e.rows) || (q4 && e.slot % 2 == 1)

/-- The tag rules of the entries in table order: an entry with rows sets its tile's tag for those after it. (DEDUCED, log 43) -/
def tableTraps (cfg : BitVec 32) : Core → List GEntry → Option Trap
  | _, [] => none
  | c, e :: r =>
    match tagTraps c e.tile e.slot 0 cfg with
    | some t => some t
    | none => tableTraps cfg (if e.rows = 0 then c else
        { c with tiles := Map.set c.tiles e.tile { tileAt c e.tile with tag := tagOf (mcFmt cfg) 0 } }) r

/-- The parts of an MMAG: each entry takes the next rows of the stream. -/
def W.tableParts (w : W) (d : ADesc) (q4 : Bool) : Nat → List GEntry → List MatPart
  | _, [] => []
  | first, e :: r =>
    let (a, sc) := w.rowsOf d q4 first e.rows
    { tile := e.tile, slot := e.slot, m0 := e.row0, rows := e.rows, hd := 0, a := a, scales := sc, surv := TWord.zero }
      :: w.tableParts d q4 (first + e.rows) r

/-- MMAG, MMAG.SAT (R315): one entry of the queue; table and rows are read at issue, in the order of a plain read (R250, R310). -/
def W.mmag (w : W) (f : MmagF) (sat : Bool) : Act :=
  let cfg := w.g.matcfg
  let q4 := mcMode cfg == .q4
  let d := w.aDesc (4 * f.g.val)
  let n := f.n.val + 1
  if w.acquireParked then .hold
  else w.guard (firstTrap [w.illegal (matFields cfg sat 0), w.matCheck,
      w.illegal (d.reserved != 0 || d.m != 1 || d.row0 != 0 || d.hd != 0 || decide (d.stride < 128)),
      -- a table that cannot be read has no values to check: ALIGN of the descriptor, then SPBOUND (R312)
      if d.bmoff % 4 = 0 ∧ d.bmoff + 4 * n ≤ w.scratch then none
      else firstTrap [alignAt d.bmoff 4, descAlign d q4, boundTrap w.scratch d.bmoff (4 * n)]])
    (let ts := w.spad d.bmoff n
    let es := ts.map gEntry
    let total := (es.map (·.rows)).sum
    let word := fun (c : TrapCode) (cause : Nat) (bad : TWord → Bool) =>
      if w.real != 0 && ts.any bad then some ({ code := c, cause := cause, addr := if c = .poison then d.bmoff else 0 } : Trap) else none
    w.guard (firstTrap [word .poison 0 TWord.poisoned, word .rchk 4 (fun t => !t.good),
        w.illegal (es.any fun e => e.bad q4),
        tableTraps cfg w.tagView es, descAlign d q4, rowsBound w.scratch d q4 total])
      (w.claim fun w => (w.enqueue (.mma (w.tableParts d q4 0 es) cfg sat)).done))

def execMmag (f : MmagF) (s : State) : Host.Outcome State Fault Refusal :=
  runWord (.mmag f) s fun w => w.mmag f f.sat

/-- POISON, then RCHK with cause RESULT, over the words an MREAD moves: the frame's lanes are those that would have received
such a word (R316). -/
def mreadTrap (width : Nat) (words : List TWord) : Option Trap :=
  let lanes := fun (bad : TWord → Bool) => maskOf (((words.zipIdx).filter fun e => bad e.1).map fun e => e.2 % width)
  let p := lanes TWord.poisoned
  let r := lanes fun t => !t.good
  if p != 0 then some { code := .poison, lanes := some p }
  else if r != 0 then some { code := .rchk, cause := 0, lanes := some r }
  else none

/-- MREAD, MREAD.2 (R316): the words every earlier entry leaves are verified; they arrive by MREAD_DATA_ARRIVAL. (DEDUCED, log 43) -/
def execMread (f : MreadF) (s : State) : Host.Outcome State Fault Refusal :=
  runWord (.mread f) s fun w =>
    let nr := if f.two then 2 else 1
    let k := 128 / w.g.width
    let slots := List.range' f.d.val (k * nr)
    w.guard (firstTrap [w.illegal (decide (32 < f.row.val + nr) || decide (w.g.nregs < f.d.val + k * nr)), w.matCheck])
      (let t := tileAt w.tileView f.t.val
      let words := (List.range nr).flatMap fun j => (List.range 128).map fun n =>
        let x := t.word (f.row.val + j) n
        -- the word that lands in LANE of the first register of the run is altered (R71)
        if n < w.g.width ∧ j = 0 then w.inject n x else x
      let bad := mreadTrap w.g.width words
      if bad.isSome && w.struck then w.trapShot (bad.getD { code := .poison }) else
      w.guard bad
        (w.claim fun w =>
          let id := w.m.nextId
          let data := (List.range slots.length).map fun r => (fun l => wordAt words (w.g.width * r + l) : Nat → TWord)
          let w := w.issueLong slots (widthMask w.g.width) data t.tag 0
          let w := w.upd fun g => { g with pending := Map.upd g.pending id fun p => { p with mread := some t.tflag } }
          ((w.enqueue (.mread w.gk id)).shot).done))

/-! ### Events -/

/-- MATRIX_ENTRY_DONE (R310): the first entry of a core's queue does its work. -/
def execMatrixEntryDone (s : State) : Host.Outcome State Fault Refusal :=
  runEvent s fun m arg => match arg with
    | .n core =>
      match (m.core core).queue with
      | [] => none
      | e :: r => some (m.setCore core { runEntry (m.core core) e with queue := r })
    | _ => none

/-- The MREAD has left the engine queue. -/
def Machine.mreadLeft (m : Machine) (core gk pid : Nat) : Bool := !(m.core core).queue.contains (.mread gk pid)

/-- MREAD_DATA_ARRIVAL (R316): the words, residues, tag and full bits arrive; TFLAG is ORed into FPC. -/
def execMreadDataArrival (s : State) : Host.Outcome State Fault Refusal :=
  runEvent s fun m arg => match arg with
    | .n2 gk pid =>
      match Map.get m.groups gk with
      | none => none
      | some g =>
        match Map.get g.pending pid with
        | some { mread := some fl, .. } =>
          if m.mreadLeft g.core gk pid then
            some (m.updGroup gk fun g =>
              ({ g with pending := Map.upd g.pending pid fun p => { p with mread := none } }.deliver pid).orFlags (flagsOfT fl))
          else none
        | _ => none
    | _ => none

end Sys2Proof.Machine
end

