-- ==== Sys2Proof/Machine/Haar.lean ====
section
/-! DEFINITION. The Haar instructions (R319 to R335): thresholds, the register transforms, strips in memory. -/

namespace Sys2Proof.Machine

open Sys2Proof

/-! ### Thresholds (R322, R323) -/

/-- The threshold register of a level under a band code. -/
def bandReg (code level : Nat) : Option Nat :=
  match code with
  | 0 => some 0
  | 1 => some (min (level - 1) 3)
  | 2 => some ((level - 1) / 2)
  | _ => none

/-- Level of tree position c at depth d (R319). -/
def levelOf (d c : Nat) : Nat := d - Nat.log2 c

/-- A detail coefficient survives a threshold. -/
def keeps (isInt : Bool) (thr c : Nat) : Bool :=
  if isInt then decide (thr < (sext 32 c).natAbs)
  else
    let t := thr % 2 ^ 31
    let m := c % 2 ^ 31
    decide (0x7F800000 < t) || decide (0x7F800000 < m) || decide (t < m)

/-- The coefficients of a segment after thresholding, each with whether it survives. -/
def threshold (isInt : Bool) (d code : Nat) (ht : List TWord) (x : List Nat) : List (Nat × Bool) :=
  x.zipIdx.map fun e =>
    if e.2 = 0 then (e.1, true)
    else match bandReg code (levelOf d e.2) with
      | none => (e.1, true)
      | some r => if keeps isInt (wordAt ht r).data.toNat e.1 then (e.1, true) else (0, false)

/-- Threshold registers that depth d reads. -/
def bandRegs (d code : Nat) : List Nat := ((List.range d).filterMap fun j => bandReg code (j + 1)).eraseDups

/-- POISON, then RCHK, over source slots and the threshold registers read (R329); the latter stand under slot 0 (DEDUCED, log 15). -/
def W.haarCheck (w : W) (ks regs : List Nat) : Option Trap :=
  operandCheck w.real ((regs.map fun r => (0, List.replicate w.g.width (wordAt w.g.ht r))) ++
    ((ks.filter fun k => (w.ref k).stored).map fun k => (k, w.src k)))

/-! ### Register instructions (R330 to R332) -/

/-- Check and write the words of a Haar instruction: poison taken from a helper lane passes, every other word meets the
result check (R68, R329). -/
def W.haarWrite (w : W) (slots : List Nat) (tag : BitVec 8) (flags : FFlags) (f : Nat → TWord) : Act :=
  let outs := (List.range w.g.width).map fun l => if (f l).poisoned then f l else w.inject l (f l)
  let fails := fun l => !(wordAt outs l).poisoned && !(wordAt outs l).good
  let bad := maskOf ((lanesOf w.real).filter fails)
  if bad != 0 then w.trapShot { code := .rchk, cause := 0, lanes := some bad }
  else
    let out := fun l => if fails l then (wordAt outs l).poison else wordAt outs l
    (((w.writeResult slots out tag).orFlags flags).shot).done

/-- The integer or float segments a register holds: BITS is taken as F32 (R330). -/
def haarEl (fmt : Nat) : ElFmt := if fmt = fmtI32 then elI32 else elF32

def haarFmt (f : Nat) : Bool := f == 0 || f == fmtI32 || f == fmtF32

/-- A source with mismatching words counts as poison in a helper lane (R68). -/
def W.haarSrc (w : W) : List TWord :=
  (w.src 0).zipIdx.map fun e => if w.isHelper e.2 && !e.1.good then e.1.poison else e.1

/-- ILLEGAL, MASK and EMPTY, then FORMAT of source 0 (R329). -/
def W.haarPre (w : W) (depth : Nat) : Option Trap :=
  firstTrap [w.illegal (decide (w.g.width < 2 ^ depth)), w.needFull, w.emptyTrap fun _ => true,
    w.checkFmt [0] fun _ f => haarFmt f]

def W.srcFmt (w : W) (k : Nat) : Nat := ((w.tag k).map fmtOfTag).getD 0

/-- A transform of the source register. -/
def W.transform (w : W) (inv : Bool) (d : Nat) (slots : List Nat) (tag : BitVec 8) : Act :=
  let rs := transformReg inv (haarEl (w.srcFmt 0)) w.g.rm w.g.ftz d w.haarSrc
  let out := rs.flatMap (·.1)
  w.haarWrite slots tag (segFlags d w.real rs) (wordAt out)

/-- HFWD (R330). -/
def execHfwd (f : HfwdF) (s : State) : Host.Outcome State Fault Refusal :=
  runWord (.hfwd f) s fun w =>
    w.guard (firstTrap [w.haarPre (max f.depth.val (w.srcDom 0)), w.zeroDom [0], w.checkSrcs [0]])
      (w.transform false f.depth.val (vxSlots f.d) (tagOf (if w.srcFmt 0 = fmtI32 then fmtI32 else fmtF32) f.depth.val))

/-- HREC (R330): with DOM 0 it copies. -/
def execHrec (f : HrecF) (s : State) : Host.Outcome State Fault Refusal :=
  runWord (.hrec f) s fun w =>
    let d := w.srcDom 0
    w.guard (firstTrap [w.haarPre d, w.checkSrcs [0]])
      (if d = 0 then w.haarWrite (vxSlots f.d) (tagOf (w.srcFmt 0) 0) 0 (wordAt w.haarSrc)
      else w.transform true d (vxSlots f.d) (tagOf (w.srcFmt 0) 0))

/-- HTHR (R331): class D, no flag. -/
def execHthr (f : HthrF) (s : State) : Host.Outcome State Fault Refusal :=
  runWord (.hthr f) s fun w =>
    let d := w.srcDom 0
    w.guard (firstTrap [w.haarPre d, if d = 0 then some (domainTrap 0 ((w.tag 0).getD 0)) else none,
        w.haarCheck [0] (bandRegs d f.sel.val)])
      (let src := w.haarSrc
      let out := (segments d src).flatMap fun s =>
        (s.zip (threshold (w.srcFmt 0 == fmtI32) d f.sel.val w.g.ht (s.map wn))).map fun e =>
          if e.1.poisoned then e.1 else TWord.of (BitVec.ofNat 32 e.2.1)
      w.haarWrite (vxSlots f.d) ((w.tag 0).getD 0) 0 (wordAt out))

/-- HBIAS (R332): slot 0 is the old D, slot 1 the bias. (DEDUCED, log 46) -/
def execHbias (f : HbiasF) (s : State) : Host.Outcome State Fault Refusal :=
  runWord (.hbias f) s fun w =>
    let td := (w.tag 0).getD (tagOf (if w.srcFmt 1 = fmtI32 then fmtI32 else fmtF32) 0)
    let fmt := fmtOfTag td
    let d := domOfTag td
    let lanes := maskOf ((lanesOf w.mask).filter fun l => l % 2 ^ d == 0)
    w.guard (firstTrap [w.illegal (decide (w.g.width < 2 ^ max d (w.srcDom 1))), w.untyped,
        if 64 ≤ (w.ref 1).code then w.checkSrcs [1] else none,
        if fmt = fmtI32 || fmt = fmtF32 then none else some (formatTrap 0 td),
        w.checkFmt [1] fun _ x => x == 0 || x == fmt, w.zeroDom [1], w.checkSrcs [0, 1]])
      (let sum := fun l =>
        if fmt = fmtI32 then (addRes (w.srcAt 0 l) (w.srcAt 1 l) 0, (0 : FFlags))
        else
          let r := w.roundF32 w.g.rm (Num.add w.g.rm (w.num (w.srcAt 0 l)) (w.num (w.srcAt 1 l)))
          (TWord.of (BitVec.ofNat 32 r.1), r.2)
      let out := fun l =>
        if w.helperBad [0, 1] l then (w.srcAt 0 l).poison
        else if lane lanes l then (sum l).1 else w.srcAt 0 l
      w.haarWrite (dstSlots f.d) td (orAll (((lanesOf (lanes &&& w.real))).map fun l => (sum l).2)) out)

/-! ### Strips in memory (R324, R325, R333, R334) -/

/-- The segments of a strip in a register of the width. -/
def Layout.strip (r : Layout) (width : Nat) (idx : List Nat) : List Seg :=
  (List.range (width / r.segLen)).map fun k => r.segAt idx (k * r.segLen)

def Seg.addrs (s : Seg) : List Nat := match s.rows with
  | some (rows, g) => g :: rows
  | none => []

/-- ALIGN of a strip (R329). -/
def stripAlign (r : Layout) (idx : List Nat) (segs : List Seg) : Option Trap :=
  if idx.getD 0 0 % 8 != 0 || idx.getD r.haxis 0 % r.segLen != 0 then some { code := .align, addr := r.addr idx }
  else (segs.flatMap Seg.addrs).findSome? fun a => alignAt a 4

/-- A lane of a segment that is no helper. -/
def W.segReal (w : W) (r : Layout) (s : Seg) : Bool :=
  (List.range r.segLen).any fun i => lane w.real (s.lane0 + i)

def Layout.isInt (r : Layout) : Bool := r.fmt == 1 || r.fmt == 11

/-- The register format of a Haar record's elements, and the record's own. -/
def Layout.regEl (r : Layout) : ElFmt := if r.isInt then elI32 else elF32
def Layout.memEl (r : Layout) : ElFmt := (elOfCode elF32 r.fmt).getD elF32

/-- Words of 8 elements. -/
def packRow (r : Layout) (els : List Nat) : List Word :=
  (List.range r.rowWords).map fun k =>
    BitVec.ofNat 32 (packEls r.elembits ((els.drop (k * r.perWord)).take r.perWord))

/-- The words of a group (R324). -/
def groupWords (r : Layout) (surv : List Bool) : List Word :=
  let b := ((surv.zipIdx).map fun e => if e.1 then 2 ^ e.2 else 0).sum
  [BitVec.ofNat 32 (r.fmt + 16 * r.hlevels + 256 + 65536 * (surv.filter id).length), 0]
    ++ ((List.range 4).map fun k => BitVec.ofNat 32 (b / 2 ^ (32 * k))) ++ [0, 0]

/-- What a store of one segment writes: addresses with words, and flags (R325, R333). `poison`: a helper lane of it holds
poison. (DEDUCED, log 46) -/
def storeSegment (r : Layout) (g : Group) (real : Mask) (sat plain : Bool) (regs : List (List TWord)) (s : Seg) :
    List (Nat × TWord) × FFlags :=
  match s.rows with
  | none => ([], 0)
  | some (rows, ga) =>
    let n := r.segLen
    let xs := regs.map fun ws => (ws.drop s.lane0).take n
    let poison := xs.any fun ws => ws.any fun t => !t.good
    let ts := xs.map fun ws =>
      if plain then transformWords false r.regEl g.rm g.ftz r.hlevels (ws.map wn) else (ws.map wn, [])
    let th := ts.map fun t => threshold r.isInt r.hlevels r.hthrsel g.ht t.1
    let conv := th.map fun col => col.map fun e =>
      if r.fmt = 1 || r.fmt = 3 then (e.1, (0 : FFlags)) else convEl r.regEl r.memEl g.rm g.ftz sat e.1
    let surv := (List.range n).map fun c => poison || th.any fun col => (col.getD c (0, false)).2
    let word := fun (v : Word) => if poison then (TWord.of v).poison else TWord.of v
    let out := (List.range n).flatMap fun c =>
      if surv.getD c false then
        ((packRow r (conv.map fun col => (col.getD c (0, 0)).1)).zipIdx).map fun e => (rows.getD c 0 + 4 * e.2, word e.1)
      else []
    let grp := ((groupWords r surv).zipIdx).map fun e => (ga + 4 * e.2, TWord.of e.1)
    let fl := orAll (ts.map fun t => lanesFlags real s.lane0 t.2) ||| orAll ((List.range n).flatMap fun c =>
      if lane real (s.lane0 + c) then conv.map fun col => (col.getD c (0, 0)).2 else [])
    (out ++ grp, if poison then 0 else fl)

/-- The checks common to the strip instructions up to the record's (R329), then k. -/
def W.withRecord (w : W) (gb gc : Nat) (k : W → Layout → List TWord → List Nat → Act) : Act :=
  w.guard (firstTrap [w.needFull, w.checkUni w.u.us])
    (let va := w.pair gb
    match w.readRecord va with
    | .error a => a
    | .ok (ws, w) =>
      let r := layoutOf ws
      w.guard (w.illegal (!layoutOk va ws || !r.haarOk || decide (w.g.width < r.segLen)))
        (k w r ws (coordsOf fun i => w.gWord (4 * gc + i))))

/-- Places of word accesses, in order. -/
def W.wordPlaces (w : W) (as : List Nat) (k : Access) : List (Nat × Place) × W :=
  as.foldl (fun (s : List (Nat × Place) × W) a =>
    let (p, m) := s.2.m.place w.g.core w.g.ctx a 4 k w.g.source
    (s.1 ++ [(a, p.after (m.behind w.gk a 4 k m.nextId) w.g.source)], { s.2 with m := m })) ([], w)

/-- PROT of word accesses, by their addresses. -/
def placesProt (ps : List (Nat × Place)) : Option Trap := ps.findSome? fun e => e.2.protOf.map fun p => protTrap e.1 p.1 p.2

/-- PROT, then a refused berth, of word accesses. (DEDUCED, log 46) -/
def placeTraps (ps : List (Nat × Place)) : Option Trap :=
  firstTrap [placesProt ps, ps.findSome? fun e => e.2.refusedBy.map fun b => { code := .revoked, addr := e.1, info := b }]

/-- End with the trap that the places of words call for, or go on. -/
def W.guardPlaces (w : W) (ps : List (Nat × Place)) (k : Act) : Act :=
  match placeTraps ps with
  | some t => w.refusedAt w.m t
  | none => k

/-- Store words at their places; those whose page faults park (R291). -/
def W.storeWordsAt (w : W) (a : Acc) (ws : List (Nat × TWord)) (ps : List (Nat × Place)) : W :=
  (ws.zip ps).foldl (fun w e =>
    let park := fun (w : W) (c v : Nat) =>
      w.parkLanes [(a.pri, .fault c v w.g.source)] (fun _ => e.1.1) 4 .write (fun _ => [e.1.2]) [] 0
    match e.2.2 with
    | .fault c v _ => park w c v
    | p => match w.m.writeLane a e.1.1 p 4 [e.1.2] with
      | .done m => ({ w with m := m } : W).noted p
      | .fault c v _ => park w c v
      | .refused => w
      | .gone m => { w with m := m }) w

/-- An injection strikes a checked word of some segments (R71, R329). -/
def W.stripStruck (w : W) (r : Layout) (segs : List Seg) : Bool :=
  w.struck && segs.any fun s => w.segReal r s &&
    decide (s.lane0 ≤ finjLane w.g.finj) && decide (finjLane w.g.finj < s.lane0 + r.segLen)

def W.stripTrap (w : W) : Act :=
  w.trapShot { code := .rchk, cause := 0, lanes := some (laneBit (finjLane w.g.finj)) }

/-- HST, HST.SAT (R333). -/
def W.hst (w : W) (f : HstF) (sat : Bool) : Act :=
  if w.acquireParked || w.noRoom then .hold
  else w.guard (w.illegal ((List.range 8).any fun k => decide (w.g.width < 2 ^ w.srcDom k))) <|
    w.withRecord f.gb.val f.gc.val fun w r _ idx =>
    let t0 := (w.tag 0).getD 0
    let ok := fun (x : Nat) => x == 0 || x == (if r.isInt then fmtI32 else fmtF32)
    let segs := r.strip w.g.width idx
    let ks := List.range 8
    w.guard (firstTrap [
        ks.findSome? (fun k => let t := (w.tag k).getD 0
          if t == t0 && ok (fmtOfTag t) then none else some (formatTrap k t)),
        if domOfTag t0 = 0 || domOfTag t0 = r.hlevels then none else some (domainTrap 0 t0),
        w.haarCheck ks (bandRegs r.hlevels r.hthrsel), stripAlign r idx segs])
      (let outs := (segs.filter (w.segReal r)).map
        (storeSegment r w.g w.real sat (domOfTag t0 == 0) (ks.map w.src))
      let ws := outs.flatMap (·.1)
      let (ps, w) := w.wordPlaces (ws.map (·.1)) .write
      w.guardPlaces ps
        -- a segment outside DIM writes no word
        (if w.stripStruck r (segs.filter fun s => s.rows.isSome) then w.stripTrap
        else if w.is.dry then w.done
        else ((w.storeWordsAt (w.acc r.mscPri false none) ws ps).orFlags (orAll (outs.map (·.2)))).done))

def execHst (f : HstF) (s : State) : Host.Outcome State Fault Refusal :=
  runWord (.hst f) s fun w => w.hst f f.sat

/-! ### Reading a strip -/

/-- What reading words of a strip gives: them, or the place that stops it. -/
inductive SegRead where
  | ok (ws : List TWord) (m : Machine)
  | stop (va : Nat) (p : Place) (m : Machine)

/-- Read n words from an address through the caches. -/
def Machine.readRun (m : Machine) (a : Acc) (gk source before va : Nat) : Nat → SegRead
  | 0 => .ok [] m
  | n + 1 =>
    match m.readRun a gk source before va n with
    | .stop v p m => .stop v p m
    | .ok ws m =>
      let x := va + 4 * n
      let (p, m) := m.place a.core a.ctx x 4 .read source
      match p.after (m.behind gk x 4 .read before) source with
      | .prot _ _ | .fault _ _ _ | .revoked _ => .stop x p m
      | p => match m.readLane a x p 1 with
        | some (w, m) => .ok (ws ++ w) m
        | none => .stop x (.prot 0 .permission) m

/-- How a reader takes a strip's group (R325). -/
inductive GroupState where
  | poison
  | zero
  | rows (surv : Nat)
deriving DecidableEq, Repr

def groupState (r : Layout) (ws : List TWord) : GroupState :=
  let v := fun k => (wordAt ws k).data.toNat
  if ws.any fun t => !t.good then .poison
  else if !(v 0).testBit 8 then .zero
  else if v 0 % 256 != r.fmt + 16 * r.hlevels then .poison
  else .rows (((List.range 4).map fun k => v (2 + k) * 2 ^ (32 * k)).sum % 2 ^ r.segLen)

/-- Words of the rows of a segment by R325, tree position by tree position. -/
def Machine.readRows (m : Machine) (a : Acc) (gk source before : Nat) (r : Layout) (st : GroupState) (rows : List Nat) :
    Nat → SegRead
  | 0 => .ok [] m
  | c + 1 =>
    match m.readRows a gk source before r st rows c with
    | .stop v p m => .stop v p m
    | .ok ws m =>
      let k := r.rowWords
      match st with
      | .poison => .ok (ws ++ List.replicate k poisonWord) m
      | .zero => .ok (ws ++ List.replicate k TWord.zero) m
      | .rows b =>
        if b.testBit c then match m.readRun a gk source before (rows.getD c 0) k with
          | .ok x m => .ok (ws ++ x) m
          | r => r
        else .ok (ws ++ List.replicate k TWord.zero) m

/-- An element as read: exact in the register's format, poison when its word is bad; with its flags (R334). (DEDUCED, log 46) -/
def wideEl (r : Layout) (t : TWord) (j : Nat) : TWord × FFlags :=
  if !t.good then (poisonWord, 0)
  else
    let v := elAt t.data.toNat r.elembits (j % r.perWord)
    if r.fmt = 1 || r.fmt = 3 then (TWord.of (BitVec.ofNat 32 v), 0)
    else
      let (x, f) := convEl r.memEl r.regEl .rn false false v
      (TWord.of (BitVec.ofNat 32 x), f)

/-- The 8 registers' words of one segment, with flags by position. -/
def segWords (r : Layout) (inv : Bool) (rm : Rm) (ftz : Bool) (words : List TWord) :
    List (List TWord) × List FFlags :=
  let cols := (List.range 8).map fun j =>
    let els := (List.range r.segLen).map fun c => wideEl r (wordAt words (c * r.rowWords + j / r.perWord)) j
    let ws := els.map (·.1)
    let fl := els.map (·.2)
    if inv then
      if ws.any TWord.poisoned then (List.replicate r.segLen poisonWord, fl)
      else
        let (x, f) := transformWords true r.regEl rm ftz r.hlevels (ws.map wn)
        (x.map fun v => TWord.of (BitVec.ofNat 32 v), joinFlags fl f)
    else (ws, fl)
  (cols.map (·.1), (List.range r.segLen).map fun i => orAll (cols.map fun c => c.2.getD i 0))

/-- One segment read for a strip instruction. -/
inductive SegLoad where
  | ok (cols : List (List TWord)) (fl : List FFlags) (m : Machine)
  | stop (va : Nat) (p : Place) (m : Machine)

def Machine.loadSegment (m : Machine) (a : Acc) (gk source before : Nat) (r : Layout) (inv : Bool) (rm : Rm) (ftz : Bool)
    (s : Seg) : SegLoad :=
  match s.rows with
  | none =>
    .ok (List.replicate 8 (List.replicate r.segLen (TWord.of (BitVec.ofNat 32 r.oob)))) (List.replicate r.segLen 0) m
  | some (rows, ga) =>
    match m.readRun a gk source before ga 8 with
    | .stop v p m => .stop v p m
    | .ok gw m =>
      match m.readRows a gk source before r (groupState r gw) rows r.segLen with
      | .stop v p m => .stop v p m
      | .ok ws m =>
        let (cols, fl) := segWords r inv rm ftz ws
        .ok cols fl m

/-- The places of a segment's words as far as they are known before it is read: its group's, and when that can be read those of the
rows that survive (R329). -/
def Machine.segPlaces (m : Machine) (a : Acc) (gk source : Nat) (r : Layout) (s : Seg) : List (Nat × Place) :=
  match s.rows with
  | none => []
  | some (rows, ga) =>
    let at_ := fun (x n : Nat) => (List.range n).map fun i => (x + 4 * i, (m.place a.core a.ctx (x + 4 * i) 4 .read source).1)
    let own := at_ ga 8
    match m.readRun a gk source m.nextId ga 8 with
    | .ok gw _ => match groupState r gw with
      | .rows b => own ++ ((List.range r.segLen).filter fun c => b.testBit c).flatMap fun c => at_ (rows.getD c 0) r.rowWords
      | _ => own
    | .stop _ _ _ => own

/-- The segments of a strip as they are read, in order; a later word of a chain reads what memory held before it (R90). -/
def W.loadSegments (w : W) (a : Acc) (r : Layout) (inv : Bool) : List Seg → List (Seg × SegLoad) × W
  | [] => ([], w)
  | s :: rest =>
    match w.m.loadSegment a w.gk w.g.source w.m.nextId r inv w.g.rm w.g.ftz s with
    | .ok c f m =>
      let (rs, v) := ({ w with m := m } : W).loadSegments a r inv rest
      let was := if w.is.pos = 0 then (c, f) else match w.m0.loadSegment a w.gk w.g.source w.m.nextId r inv w.g.rm w.g.ftz s with
        | .ok c f _ => (c, f)
        | _ => (c, f)
      ((s, .ok was.1 was.2 m) :: rs, v)
    | .stop x p m =>
      -- what a refusal told of a berth stays
      let w := if p.refusedBy.isSome then { w with m := m } else { w with m := { w.m with tlb := m.tlb } }
      let (rs, v) := w.loadSegments a r inv rest
      ((s, .stop x p m) :: rs, v)

/-- The word of register j in lane l of a segment list. -/
def stripWord (r : Layout) (rs : List (Seg × SegLoad)) (j l : Nat) : TWord :=
  match rs.find? fun e => decide (e.1.lane0 ≤ l) && decide (l < e.1.lane0 + r.segLen) with
  | some (s, .ok cols _ _) => wordAt (cols.getD j []) (l - s.lane0)
  | _ => poisonWord

def segMask (r : Layout) (s : Seg) : Mask := maskOf (List.range' s.lane0 r.segLen)

/-- HLD and HLDX (R334): a segment whose pages fault parks, with record and coordinates as read. -/
def W.hld (w : W) (f : HldF) (inv : Bool) : Act :=
  if w.acquireParked || w.noRoom then .hold
  else w.withRecord f.gb.val f.gc.val fun w r rec idx =>
    let segs := r.strip w.g.width idx
    let a := w.acc r.mscPri false none
    w.guard (firstTrap [stripAlign r idx segs,
        placesProt ((segs.filter (w.segReal r)).flatMap (w.m.segPlaces a w.gk w.g.source r))])
      (let (rs, w) := w.loadSegments a r inv segs
      let stops := rs.filterMap fun e => match e.2 with
        | .stop v p _ => if w.segReal r e.1 then some (e.1, v, p) else none
        | .ok _ _ _ => none
      w.guardPlaces (stops.map fun e => (e.2.1, e.2.2))
        (if w.stripStruck r segs then w.stripTrap
        else
          let parked := stops.foldl (fun m e => m ||| segMask r e.1) 0
          let pid := w.m.nextId
          let slots := List.range' f.d.val 8
          let tag := tagOf (if r.isInt then fmtI32 else fmtF32) (if inv then 0 else r.hlevels)
          let flags := orAll (rs.map fun e => match e.2 with
            | .ok _ fl _ => lanesFlags w.real e.1.lane0 fl
            | _ => 0)
          let coords := (List.range 4).map fun i => w.uni (4 * f.gc.val + i)
          let w := (w.issueLong slots w.mask ((List.range 8).map fun j => stripWord r rs j) tag parked).orFlags flags
          (stops.foldl (fun w e => match e.2.2 with
            | .fault c v src =>
              w.parkLanes [(e.1.lane0, .fault c v src)] (fun _ => e.2.1) 4 .read (fun _ => rec ++ coords) slots pid
            | _ => w) w).done))

def execHld (f : HldF) (s : State) : Host.Outcome State Fault Refusal :=
  runWord (.hld f) s fun w => w.hld f false

def execHldx (f : HldF) (s : State) : Host.Outcome State Fault Refusal :=
  runWord (.hldx f) s fun w => w.hld f true

end Sys2Proof.Machine
end

