-- ==== Sys2Proof/Machine/Recording.lean ====
section
/-! DEFINITION. Recording and replay (R438 to R440): the control block, the log ring, its entries. -/

namespace Sys2Proof.Machine

open Sys2Proof

/-- Physical address of the recording control block (R369, R438). -/
def logBlock (c : Ctx) : Nat := c.saveBase + 0x20000

/-- Fields of the control block (R438). -/
structure LogCtl where
  base : Nat
  size : Nat
  mode : Nat
  head : Nat
  tail : Nat
deriving DecidableEq, Repr

def Machine.logCtl (m : Machine) (c : Ctx) : LogCtl :=
  let ws := (m.homeWords (logBlock c) 8).1
  { base := fieldAt ws 0 8, size := fieldAt ws 8 4, mode := fieldAt ws 0xC 1 % 4, head := fieldAt ws 0x10 8, tail := fieldAt ws 0x18 8 }

/-- Append the waiting log entries that fit; each is written whole, then TAIL (R292, R439). -/
def Machine.drainLog (m : Machine) (ctx : Nat) : Machine :=
  match Map.get m.ctxs ctx with
  | none => m
  | some c =>
    c.logWait.foldl (fun m ws =>
      match Map.get m.ctxs ctx with
      | none => m
      | some c =>
        let l := m.logCtl c
        let full := [ws.getD 0 0, ws.getD 1 0] ++ words64 c.logSeq ++ ws.drop 2
        if l.size < l.tail - l.head + 4 * full.length || c.logWait.head? != some ws then m
        else
          let m := (full.zipIdx).foldl (fun m e => m.setHomeData (l.base + (l.tail + 4 * e.2) % max 4 l.size) [e.1]) m
          let m := m.setHomeData (logBlock c + 0x18) (words64 (l.tail + 4 * full.length))
          m.updCtx ctx fun c => { c with logSeq := c.logSeq + 1, logWait := c.logWait.drop 1 }) m

/-- Append an entry of a kind: KIND, LEN, then SEQ as appended, then the body (R439). (DEDUCED, log 49) -/
def Machine.logEntry (m : Machine) (ctx kind : Nat) (body : List Word) : Machine :=
  (m.updCtx ctx fun c => { c with
    logWait := c.logWait ++ [[BitVec.ofNat 32 kind, BitVec.ofNat 32 (4 * body.length)] ++ body] }).drainLog ctx

def Machine.recMode (m : Machine) (ctx : Nat) : Nat := ((Map.get m.ctxs ctx).map fun c => (m.logCtl c).mode).getD 0

/-- Set MISMATCH (R440). -/
def Machine.logMismatch (m : Machine) (ctx : Nat) : Machine :=
  match Map.get m.ctxs ctx with
  | none => m
  | some c =>
    let (t, m) := m.homeWord (logBlock c + 0xC)
    m.setHomeWord (logBlock c + 0xC) (setWordByte t 0 (byteOf (t.data ||| 4#32) 0))

/-- Entries of a log from a byte position on: kind and body. (DEDUCED, log 49) -/
def readLog (word : Nat → Word) (tail : Nat) : Nat → Nat → List (Nat × List Word)
  | 0, _ => []
  | n + 1, p =>
    if tail ≤ p then []
    else
      let len := (word (p + 4)).toNat
      ((word p).toNat, (List.range (len / 4)).map fun i => word (p + 16 + 4 * i)) :: readLog word tail n (p + 16 + len)

/-- The entries of one kind in the log of a context (R440). -/
def Machine.logOf (m : Machine) (c : Ctx) (kind : Nat) : List (List Word) :=
  let l := m.logCtl c
  let word := fun p => (m.homeWord (l.base + p % max 4 l.size)).1.data
  ((readLog word l.tail (l.tail - l.head) l.head).filter fun e => e.1 == kind).map (·.2)

def bytesWords (ws : List Word) : List Byte := ws.flatMap wordBytes

/-- All gangs of a grid are placed, or no further one will be. -/
def Grid.cut (g : Grid) : Bool := decide (recBlocks g.record ≤ g.next) || g.state == .done || g.state == .failed

/-- The LAUNCH entry of a grid: record and digests as taken, the sizes of its gangs, and PLACE, which numbers the placement that the
part keeps (R439). (DESIGN CHOICE, log 50) -/
def Grid.launchBody (g : Grid) (n : Nat) : List Word :=
  g.logHead ++ g.placed.map (fun bs => BitVec.ofNat 32 bs.length) ++ words64 n ++ List.replicate 6 0

/-- Recorded grids whose entry is not in the log, in the order of their takes, up to the first that is not cut yet. -/
def Machine.launchesCut (m : Machine) (ctx : Nat) : List (Nat × Grid) :=
  (m.grids.filter fun (e : Nat × Grid) => e.2.ctx == ctx && !e.2.logHead.isEmpty).takeWhile fun e => e.2.cut

/-- Append the LAUNCH entries that are complete (R439). (DESIGN CHOICE, log 50) -/
def Machine.logLaunches (m : Machine) (ctx : Nat) : Machine :=
  (m.launchesCut ctx).foldl (fun (m : Machine) e =>
    let n := m.placements.length
    ({ m with placements := Map.set m.placements n e.2.placed }.updGrid e.1 fun g => { g with logHead := [] }).logEntry ctx 1
      (e.2.launchBody n)) m

/-- An agent's entry of a kind waits for room in the ring: the agent appends nothing further and goes no further (R439). -/
def Machine.logBusy (m : Machine) (ctx kind : Nat) : Bool :=
  match Map.get m.ctxs ctx with
  | some c => c.logWait.any fun e => e.head? == some (BitVec.ofNat 32 kind)
  | none => false

/-- An input of the context: recorded in MODE 1, compared in MODE 2 (R439, R440). -/
def Machine.logInput (m : Machine) (ctx berth off len : Nat) (data : List Byte) : Machine :=
  let body := [BitVec.ofNat 32 berth] ++ words64 off ++ [BitVec.ofNat 32 len] ++
    ((Config.sm3 data) ++ List.replicate 8 0).take 8
  match m.recMode ctx, Map.get m.ctxs ctx with
  | 1, some _ => m.logEntry ctx 2 body
  | 2, some c =>
    let m := m.updCtx ctx fun c => { c with logIn := c.logIn + 1 }
    if (m.logOf c 2)[c.logIn]? = some body then m else m.logMismatch ctx
  | _, _ => m

/-- The grid of a context is recorded: FLAGS.REC in the mode. -/
def Machine.recorded (m : Machine) (grid mode : Nat) : Bool :=
  match Map.get m.grids grid with
  | some g => recRec g.record && m.recMode g.ctx == mode
  | none => false

/-- The BURSTS entry of a completed read (R439). -/
def Machine.logBursts (m : Machine) (ctx entry : Nat) (births : List Nat) : Machine :=
  m.logEntry ctx 3 (words64 entry ++ births.map (BitVec.ofNat 32))

/-- The recorded order of births of a read: the BURSTS entries of a queue entry's address belong to the reads that were entered there,
one after another (R440). (DEDUCED, log 50) -/
def Machine.recordedBirths (m : Machine) (ctx entry : Nat) : Option (List Nat) :=
  match Map.get m.ctxs ctx with
  | none => none
  | some c => (((m.logOf c 3).filter fun b => nat64 (b.getD 0 0) (b.getD 1 0) == entry)[Map.getD c.logBorn entry 0]?).map fun b =>
      (b.drop 2).map BitVec.toNat

/-- The bursts of a read of a recorded grid have all retired: its entry is appended, or that of the log is used up (R439, R440). -/
def Machine.noteBursts (m : Machine) (ctx grid entry : Nat) (births : List Nat) : Machine :=
  if m.recorded grid 1 then m.logBursts ctx entry births
  else if m.recorded grid 2 then m.updCtx ctx fun c => { c with logBorn := Map.set c.logBorn entry (Map.getD c.logBorn entry 0 + 1) }
  else m

end Sys2Proof.Machine
end

