-- ==== Sys2Proof/Machine/Copy.lean ====
section
/-! DEFINITION. The copy engines (R336 to R351): TCOPY, TSTORE, XCOPY, HREAD; the sectors of a box, lighters, the progress
of a command and its suspension (R211, R296). -/

namespace Sys2Proof.Machine

open Sys2Proof

/-! ### Suspension of a command (R296, R388) -/

/-- A page that an engine needs faults: the command suspends with its progress, and the page is reported. -/
def Machine.suspendCmd (m : Machine) (k ctx va access kind source : Nat) : Machine :=
  ((m.updCmd k fun c => { c with fault := some (ctx, va, access) }).moveCmd k .suspended).reportFault ctx va kind access source

def copySource : Nat := 2

/-! ### Boxes (R339) -/

def Cmd.layout (c : Cmd) : Layout := layoutOf (c.recs.headD [])

def Cmd.op (c : Cmd) (i : Nat) : Nat := (c.ops.getD i 0).toNat

/-- The origin of the box: operands 0 to 3. -/
def Cmd.org (c : Cmd) : List Nat := coordsOf c.op

def Layout.boxElems (r : Layout) : Nat := r.box.foldl (· * ·) 1

/-- S, the bytes of the image. -/
def Layout.imageSize (r : Layout) : Nat := r.boxElems * r.elembits / 8

/-- Every dim0 row of the box starts at a multiple of a; a row that starts in the middle of a byte does not. -/
def Layout.rowsAligned (r : Layout) (org : List Nat) (a : Nat) : Bool :=
  org.getD 0 0 * r.elembits % 8 == 0 && r.addr org % a == 0 && (List.range 4).all fun k => r.box.getD (k + 1) 1 == 1 || r.stride.getD k 0 % a == 0

/-- Coordinates of the row of number n of a box at an origin. -/
def Layout.boxRow (r : Layout) (org : List Nat) (n : Nat) : List Nat :=
  let b := fun k => max 1 (r.box.getD k 1)
  let o := fun k => org.getD k 0
  [o 0, o 1 + n % b 1, o 2 + n / b 1 % b 2, o 3 + n / (b 1 * b 2) % b 3, o 4 + n / (b 1 * b 2 * b 3)]

/-- Word n of an image: its address, the coordinates of its first element, the bits of elements inside DIM, and the bits
that a TSTORE writes (R339, R341). -/
structure BoxWord where
  va : Nat
  idx : List Nat
  inside : Nat
  write : Nat
deriving DecidableEq, Repr

def Layout.boxWord (r : Layout) (org : List Nat) (n : Nat) : BoxWord :=
  let wpr := max 1 (r.box.getD 0 1 * r.elembits / 32)
  let per := 32 / max 1 r.elembits
  let row := r.boxRow org (n / wpr)
  let idx := row.set 0 (row.getD 0 0 + n % wpr * per)
  let others := (List.range 4).all fun k => decide (idx.getD (k + 1) 0 < r.dim.getD (k + 1) 0)
  let bitsIn := fun (d : Nat) => if others then 2 ^ (min per (d - idx.getD 0 0) * r.elembits) - 1 else 0
  let d := r.dim.getD 0 0
  { va := r.addr idx, idx := idx, inside := bitsIn d, write := bitsIn (if r.fmt = 10 then ceilDiv d 32 * 32 else d) }

/-- The word an element outside DIM is read as: OOBVALUE, or its low bits in every element. -/
def Layout.fill (r : Layout) : Nat :=
  packEls r.elembits ((List.range (32 / max 1 r.elembits)).map fun _ => r.oob)

/-! ### Engine accesses (R229, R231, R236) -/

/-- What an engine's access of some words gives. -/
inductive EngRead where
  | ok (ws : List TWord) (m : Machine)
  | fail (code : Nat)
  | fault (ctx va source : Nat) (m : Machine)

/-- The PRI of an ACTIVE handle that a record names (R234). -/
def Machine.recordPri (m : Machine) (ctx : Nat) (r : Layout) : Option Nat :=
  match (Map.get m.ctxs ctx).bind fun c => Map.get c.handles r.rhandle with
  | some h => if h.state == .active then some h.pri else none
  | none => none

/-- The PRI of an access through a record to a page of memory: its handle's, else its own (R231, R234). -/
def Machine.enginePri (m : Machine) (ctx : Nat) (r : Layout) (va leaf : Nat) : Nat :=
  (m.recordPri ctx r).getD (m.handlePri ctx va (max r.mscPri leaf))

/-- The PRI of an access through a record at its place. -/
def Machine.enginePriAt (m : Machine) (ctx : Nat) (r : Layout) (va : Nat) (p : Place) : Nat :=
  (m.recordPri ctx r).getD (m.placePri ctx va p r.mscPri)

/-- Core of a command's group. -/
def Machine.cmdCore (m : Machine) (c : Cmd) : Nat := ((Map.get m.groups c.group).map (·.core)).getD 0

/-- The translation caches of the engine that runs a command: a core's copy engine, or a quay engine (R290). -/
def Machine.engineKeyOf (m : Machine) (source : Nat) (c : Cmd) : Nat :=
  engineKey source (if source = copySource then m.cmdCore c else c.engine)

/-- The ring stop of the engine that runs a command: its core's, or that of its stack (R352, R394). -/
def Machine.engineStop (m : Machine) (source : Nat) (c : Cmd) : Nat :=
  if source = copySource then dieOfCore (m.cmdCore c) else (c.engine - 1) / 12

/-- The place of an engine's access: through the record's berth, or the context's table (R236, R285). -/
def Machine.enginePlace (m : Machine) (source : Nat) (c : Cmd) (r : Layout) (va size : Nat) (k : Access) : Place × Machine :=
  if r.berth = 0 then m.place (m.engineKeyOf source c) c.ctx va size k source
  else m.berthPlace (((Map.get m.ctxs c.ctx).map (·.owner)).getD 16) r.berth va size k

/-- Read n words of one sector at the home: of a berth's window with one operation (R236). -/
def Machine.engineRead (m : Machine) (source : Nat) (c : Cmd) (r : Layout) (va n : Nat) : EngRead :=
  match m.enginePlace source c r va (4 * n) .read with
  | (.fault x v s, m) => .fault x v s m
  | (.prot _ _, _) => .fail 1
  | (.revoked _, _) => .fail 5
  | (.pa pa leaf, m) =>
    let (ws, m) := m.mscRead (pa / 64) (m.enginePri c.ctx r va leaf)
    let ws := ringWords (m.engineStop source c) (pa / 64) ws
    .ok ((List.range n).map fun i => wordAt ws (pa % 64 / 4 + i)) m
  | (p, m) => match m.readPlace p n (m.enginePriAt c.ctx r va p) with
    | some (ws, m) => .ok ws m
    | none => .fail 1

/-- Read n words, at most 16, that may reach into a second sector. -/
def Machine.engineRun (m : Machine) (source : Nat) (c : Cmd) (r : Layout) (va n : Nat) : EngRead :=
  let k := min n ((64 - va % 64) / 4)
  match m.engineRead source c r va k with
  | .ok ws m =>
    if k = n then .ok ws m
    else match m.engineRead source c r (va + 4 * k) (n - k) with
      | .ok x m => .ok (ws ++ x) m
      | e => e
  | e => e

/-- Read whole sectors, each once, by address div 64: their words one after the other. -/
def Machine.engineSectors (m : Machine) (source : Nat) (c : Cmd) (r : Layout) : List Nat → EngRead
  | [] => .ok [] m
  | s :: rest =>
    match m.engineRead source c r (s * 64) 16 with
    | .ok ws m => match m.engineSectors source c r rest with
      | .ok x m => .ok (ws ++ x) m
      | e => e
    | e => e

/-- A word of a Haar record by its strip's group (R325). -/
def Machine.engineCoeff (m : Machine) (source : Nat) (c : Cmd) (r : Layout) (idx : List Nat) (va : Nat) : EngRead :=
  match m.engineRun source c r (r.groupAddr idx (idx.getD 0 0 / 8)) 8 with
  | .ok gw m =>
    match groupState r gw with
    | .poison => .ok [poisonWord] m
    | .zero => .ok [TWord.zero] m
    | .rows b =>
      if b.testBit (idx.getD r.haxis 0 % r.segLen) then match m.engineRead source c r va 1 with
        | .ok ws m => .ok (ws.map fun t => if t.good then t else poisonWord) m
        | e => e
      else .ok [TWord.zero] m
  | e => e

/-- A word of an image that holds elements inside DIM, of the memory word: elements outside take OOBVALUE (R339). -/
def imageMix (r : Layout) (b : BoxWord) (t : TWord) : TWord :=
  if b.inside = 2 ^ 32 - 1 || t.poisoned then t
  else TWord.of ((t.data &&& BitVec.ofNat 32 b.inside) ||| (BitVec.ofNat 32 r.fill &&& ~~~ (BitVec.ofNat 32 b.inside)))

/-- Word n of an image when no memory word is needed for it (R339). -/
def imageFill (r : Layout) (n : Nat) (b : BoxWord) : Option TWord :=
  if r.imageSize ≤ 4 * n then some TWord.zero
  else if b.inside = 0 then some (TWord.of (BitVec.ofNat 32 r.fill))
  else none

/-- Words n to n + k − 1 of the image of a Haar record (R325). -/
def Machine.coeffWords (m : Machine) (source : Nat) (c : Cmd) (n : Nat) : Nat → EngRead
  | 0 => .ok [] m
  | k + 1 =>
    let r := c.layout
    let b := r.boxWord c.org (n + k)
    match m.coeffWords source c n k with
    | .ok ws m => match imageFill r (n + k) b with
      | some t => .ok (ws ++ [t]) m
      | none => match m.engineCoeff source c r b.idx b.va with
        | .ok w m => .ok (ws ++ [imageMix r b (wordAt w 0)]) m
        | e => e
    | e => e

/-- Words n to n + k − 1 of an image: every source sector that holds one of them is read once (R236, R339). -/
def Machine.imageWords (m : Machine) (source : Nat) (c : Cmd) (n k : Nat) : EngRead :=
  let r := c.layout
  if r.hlevels != 0 then m.coeffWords source c n k
  else
    let bs := (List.range k).map fun i => (imageFill r (n + i) (r.boxWord c.org (n + i)), r.boxWord c.org (n + i))
    let sns := bs.foldl (fun l b => if b.1.isSome then l else insertNat (b.2.va / 64) l) []
    match m.engineSectors source c r sns with
    | .ok ws m => .ok (bs.map fun b => match b.1 with
        | some t => t
        | none => imageMix r b.2 (wordAt ws (16 * ((sns.idxOf? (b.2.va / 64)).getD 0) + b.2.va % 64 / 4))) m
    | e => e

/-! ### TCOPY (R340) -/

/-- Where a command's image stands: block and offset; none when that block has retired (R209). -/
def Machine.imageAt (m : Machine) (c : Cmd) : Option (Nat × Nat) :=
  m.spadAt c.block (c.op 4 + c.op 5 % 65536 * 2 ^ 32) (max 1 (ceilDiv c.layout.imageSize 64) * 64)

def Cmd.imageSectors (c : Cmd) : Nat := ceilDiv c.layout.imageSize 64

/-- The barrier takes one sector of a command; a dropped decrement gives BARRIER_GONE (R211, R213). -/
def Machine.cmdSector (m : Machine) (k : Nat) (c : Cmd) (failed : Bool) : Machine :=
  match c.barrier with
  | none => m
  | some (blk, off) =>
    if c.orphan then m.failCmd k 3
    else match m.barSector blk off failed with
      | (true, m) => m
      | (false, m) => m.failCmd k 3

/-- Drop the lines of some addresses, as reads with LASTUSE leave them (R231, R232). (DEDUCED, log 35) -/
def Machine.dropRead (m : Machine) (source : Nat) (c : Cmd) (r : Layout) (as : List Nat) : Machine :=
  if r.lastUse = 0 then m
  else (as.foldl (fun l a => insertNat (a / 256) l) []).foldl (fun (m : Machine) n =>
    match (m.enginePlace source c r (n * 256) 4 .read).1.homePa with
    | some pa => m.dropLineBut (m.cmdCore c) (pa / 64) c.later
    | none => m) m

/-- Addresses that a TCOPY reads: its words, and the groups of a Haar record. -/
def Cmd.readAddrs (c : Cmd) : List Nat :=
  let r := c.layout
  (List.range (r.imageSize / 4)).flatMap fun n =>
    let b := r.boxWord c.org n
    let g := r.groupAddr b.idx (b.idx.getD 0 0 / 8)
    if b.inside = 0 then [] else if r.hlevels = 0 then [b.va] else [b.va, g, g + 31]

/-- One destination sector of a TCOPY (R211, R340); with the last one its LASTUSE lines are dropped, each read whole by then, and
before the barrier tells a group (R232, R233). -/
def Machine.copySector (m : Machine) (k : Nat) (c : Cmd) (s : Nat) : Machine :=
  let land := fun (m : Machine) (ws : List TWord) (failed : Bool) =>
    let (m, failed) := match m.imageAt c with
      | some (blk, off) => ((List.range 16).foldl (fun (m : Machine) i => m.setSpad blk (off + 64 * s + 4 * i) (wordAt ws i)) m, failed)
      | none => (m.failCmd k 1, true)
    let m := if (insertNat s c.sectors).length = c.imageSectors then m.dropRead copySource c c.layout c.readAddrs else m
    (m.updCmd k fun c => { c with sectors := insertNat s c.sectors }).cmdSector k c failed
  match m.imageWords copySource c (16 * s) 16 with
  | .ok ws m => land m ws false
  | .fail code => land (m.failCmd k code) (List.replicate 16 poisonWord) true
  | .fault ctx va src m => m.suspendCmd k ctx va 0 1 src

/-- COPY_SECTOR_DELIVERED: a sector of a running TCOPY that is not done. -/
def execCopySectorDelivered (s : State) : Host.Outcome State Fault Refusal :=
  runEvent s fun m arg => match arg with
    | .n2 k sec =>
      match Map.get m.cmds k with
      | none => none
      | some c =>
        if c.kind == .tcopy && c.state == .running && decide (sec < c.imageSectors) && !c.sectors.contains sec then
          some (m.copySector k c sec)
        else none
    | _ => none

/-! ### TSTORE (R341) -/

/-- The words of an image that a TSTORE writes. (DEDUCED, log 47) -/
def Cmd.storeWords (c : Cmd) : List (Nat × BoxWord) :=
  (List.range (c.layout.imageSize / 4)).filterMap fun n =>
    let b := c.layout.boxWord c.org n
    if b.write = 0 then none else some (n, b)

/-- Pieces of a byte range that lie in one word each: offset and bytes. -/
def wordPieces (off n : Nat) : List (Nat × Nat) :=
  (List.range ((off % 4 + n + 3) / 4)).map fun i =>
    let a := max off ((off / 4 + i) * 4)
    (a, min (off + n) ((off / 4 + i + 1) * 4) - a)

/-- The bytes of padding codes past the words of a Q4 box, in pieces of one word: those of the blocks that its rows end in. A byte that
also holds an element inside DIM, which the image has not, stays as it is (R43, R341). (DEDUCED, log 47) -/
def Cmd.padBytes (c : Cmd) : List (Nat × Nat) :=
  let r := c.layout
  let d := r.dim.getD 0 0
  let e := c.org.getD 0 0 + r.box.getD 0 0
  let lo := ceilDiv (max e d) 2 * 2
  let hi := min (ceilDiv e 32) (ceilDiv d 32) * 32
  if r.fmt ≠ 10 ∨ hi ≤ lo then []
  else (List.range (r.boxElems / max 1 (r.box.getD 0 1))).flatMap fun n =>
    let row := r.boxRow c.org n
    if (List.range 4).all fun k => decide (row.getD (k + 1) 0 < r.dim.getD (k + 1) 0) then
      wordPieces (r.addr (row.set 0 lo)) ((hi - lo) / 2)
    else []

/-- The destination sectors that its box touches, by address div 64, whether or not an element in them lies inside DIM (R341). (DEDUCED, log 47) -/
def Cmd.destSectors (c : Cmd) : List Nat :=
  c.padBytes.foldl (fun l e => insertNat (e.1 / 64) l)
    ((List.range (c.layout.imageSize / 4)).foldl (fun l n => insertNat ((c.layout.boxWord c.org n).va / 64) l) [])

/-- Bytes that bits cover, and the word as written: padding codes of a Q4 line are 0, and change the residue by their difference
(R66). (DEDUCED, log 47) -/
def storedWord (b : BoxWord) (t : TWord) : Nat × TWord :=
  let n := (Nat.log2 b.write + 8) / 8
  if b.inside = b.write then (n, t)
  else if b.inside = 0 then (n, TWord.zero)
  else
    let w := t.data &&& BitVec.ofNat 32 b.inside
    (n, (List.range 4).foldl (fun x k => setWordByte x k (byteOf w k)) t)

/-- The bytes of a sector that some words cover, and its words: address, bytes, word. -/
def sectorOfWords (ws : List (Nat × Nat × TWord)) : BitVec 64 × List TWord :=
  (ws.foldl (fun m e => m ||| byteMaskAt (e.1 % 64) e.2.1) 0,
    (List.range 16).map fun i => ((ws.find? fun e => e.1 % 64 / 4 == i).map (·.2.2)).getD TWord.zero)

/-- The words that an engine sends to a sector of the home, as its stop decodes them (R77, R418). (DEDUCED, log 71) -/
def landed (stop pa : Nat) (ws : List (Nat × Nat × TWord)) : List (Nat × Nat × TWord) :=
  if stackOf pa / 3 = stop || ws.all (fun e => intact e.2.2) then ws else ws.map fun e => (e.1, e.2.1, e.2.2.poison)

/-- Write words of the engine at a stop at a place of a sector: address, bytes, word; another device's window takes one WRITE for the sector (R236), of
the bytes written. (DEDUCED, log 79) -/
def Machine.storeAt (m : Machine) (stop : Nat) (p : Place) (base pri : Nat) (ws : List (Nat × Nat × TWord)) : Wrote :=
  match p with
  | .pa pa _ => .done ((landed stop pa ws).foldl (fun m e => m.homeBytes (pa + e.1 - base) e.2.1 [e.2.2] pri) m)
  | .window b pa off =>
    (landed stop pa ws).foldl (fun r e => match r with
      | .done m => m.writeWindow b (pa + e.1 - base) (off + e.1 - base) e.2.1 [e.2.2] pri
      | r => r) (Wrote.done m)
  | .remote path rkey off =>
    let s := sectorOfWords ws
    .done (m.send (.rdmaSector path rkey (off - base % 64) s.1 s.2))
  | .fault c v _ => .fault c v 1
  | _ => .refused

/-- How a writer of a shadow finds its handle (R258). -/
inductive WriterState where
  | write (sh : Shadow)
  | gone
deriving DecidableEq, Repr

def Machine.writerState (m : Machine) (c : Cmd) (h : Nat) : WriterState :=
  match (Map.get m.ctxs c.ctx).bind fun x => Map.get x.shadows h with
  | some sh => if sh.state == .open_ || (sh.state == .publishing && c.prior) then .write sh else .gone
  | none => .gone

/-- A writer writes words of one page into the frames of its shadow: done, gone, or the page it waits for (R258, R295).
`foot` tells the words whose bytes must lie in the footprint. -/
def Machine.shadowWrite (m : Machine) (source : Nat) (c : Cmd) (h pri base : Nat) (ws : List (Nat × Nat × TWord))
    (foot : List (Nat × Nat)) : Wrote :=
  match m.writerState c h, Map.get m.ctxs c.ctx with
  | .write sh, some x =>
    if foot.any fun f => !((List.range f.2).all fun i => inFoot sh.foot (f.1 + i)) then
      .done ((m.setShadow c.ctx h { sh with state := if sh.state == .open_ then .broken else sh.state }))
    else match m.shadowFrame (m.engineKeyOf source c) c.ctx x sh base with
      | .frame f sh m => (m.setShadow c.ctx h sh).storeAt (m.engineStop source c) (.pa (f + base % 65536) 0) base pri ws
      | .notValid => .fault c.ctx base 1
      | .noFrame => .fault c.ctx base 2
      | .prot _ _ => .refused
  | _, _ => .done m

/-- The shadow took the words of a writer: it was and is open to it. -/
def Machine.shadowTook (m : Machine) (c : Cmd) (h : Nat) (ws : List (Nat × Nat)) : Bool :=
  match m.writerState c h with
  | .write sh => ws.all fun f => (List.range f.2).all fun i => inFoot sh.foot (f.1 + i)
  | .gone => false

/-- PRI of the leaf that maps an address (R287). -/
def Machine.leafPri (m : Machine) (ctx va : Nat) : Nat :=
  match (m.probe ctx va).1 with
  | .leaf _ e => ptePri e
  | _ => 0

/-- A write through a record with LASTUSE leaves no copy of the line in the command's core and die (R231, R232). -/
def Machine.lastUseWrite (m : Machine) (c : Cmd) (r : Layout) (p : Place) : Machine :=
  match p with
  | .pa pa _ => if r.lastUse = 1 then (m.saveSectors (m.cmdCore c) (pa / 64) c.later).dropCopies (m.cmdCore c) (pa / 64) else m
  | .window b pa _ => if r.lastUse = 1 && !m.shadowedBerth b then (m.saveSectors (m.cmdCore c) (pa / 64) c.later).dropCopies (m.cmdCore c) (pa / 64) else m
  | _ => m

/-- What a TSTORE writes into a sector: address, bytes, word; the image comes from its place, poison where there is none (R341). -/
def Machine.storedWords (m : Machine) (c : Cmd) (src : Option (Nat × Nat)) (s : Nat) : List (Nat × Nat × TWord) :=
  ((c.storeWords.filter fun e => e.2.va / 64 == s).map fun e =>
    let t := match src with
      | some (blk, off) => m.spadWord blk (off + 4 * e.1)
      | none => poisonWord
    let (n, t) := storedWord e.2 t
    (e.2.va, n, t)) ++
  (c.padBytes.filter fun e => e.1 / 64 == s).map fun e => (e.1, e.2, TWord.zero)

/-- One destination sector of a TSTORE: a source block that has retired makes it fail, and it is not written (R209, R341). -/
def Machine.storeSector (m : Machine) (k : Nat) (c : Cmd) (s : Nat) : Machine :=
  let r := c.layout
  let src := m.imageAt c
  let ws := m.storedWords c src s
  -- padding codes of a Q4 line are no byte of the footprint (R258)
  let foot := ws.map fun e => (e.1, e.2.1)
  let finish := fun (m : Machine) (failed : Bool) =>
    (m.updCmd k fun c => { c with sectors := insertNat s c.sectors }).cmdSector k c failed
  if ws.isEmpty then finish m false else
  if src.isNone then finish (m.failCmd k 1) true else
  match c.shadow with
  | some h =>
    let took := m.shadowTook c h foot
    match m.shadowWrite copySource c h (m.enginePri c.ctx r (s * 64) (m.leafPri c.ctx (s * 64))) (s * 64) ws foot with
    | .done m => if took && m.shadowTook c h foot then finish m false else finish (m.failCmd k 4) true
    | .fault ctx va kind => m.suspendCmd k ctx va 1 kind copySource
    | .refused => finish (m.failCmd k 1) true
    | .gone m => finish (m.failCmd k 4) true
  | none =>
    let (p, m) := m.enginePlace copySource c r (s * 64) 64 .write
    match (m.lastUseWrite c r p).storeAt (m.engineStop copySource c) p (s * 64) (m.enginePriAt c.ctx r (s * 64) p) ws with
    | .done m => finish m false
    | .fault ctx va kind => m.suspendCmd k ctx va 1 kind (match p with
        | .fault _ _ src => src
        | _ => copySource)
    | .refused => finish (m.failCmd k (if p.protOf.isNone then 5 else 1)) true
    | .gone m => finish (m.failCmd k 5) true

/-- TSTORE_SECTOR_WRITTEN. -/
def execTstoreSectorWritten (s : State) : Host.Outcome State Fault Refusal :=
  runEvent s fun m arg => match arg with
    | .n2 k sec =>
      match Map.get m.cmds k with
      | none => none
      | some c =>
        if c.kind == .tstore && c.state == .running && c.destSectors.contains sec && !c.sectors.contains sec then
          some (m.storeSector k c sec)
        else none
    | _ => none

/-! ### Issue of a copy (R336, R338) -/

/-- The copy queue of a group (R336). -/
def Group.copyQueue (g : Group) : Nat := g.gid % 4

/-- A named barrier: ALIGN, then SPBOUND (R338). -/
def W.barAlign (q : Nat) : Option Trap := if q % 16 != 0 then some { code := .align, addr := q } else none

def W.spadBound (w : W) (q n : Nat) : Option Trap :=
  if (w.m0.spadAt w.g.block q n).isNone then some { code := .spbound, addr := q } else none

/-- BERTH of a copy's record: an import berth of the owner, or its own export (R236). -/
def W.berthOk (w : W) (r : Layout) : Bool :=
  r.berth == 0 || (match Map.get w.m0.berths r.berth, w.ctx with
    | some b, some c => b.owner == c.owner && b.state != .free
    | _, _ => false)

/-- The checks of TCOPY and TSTORE: the copy queue, the record, its limits, alignment and bounds (R338, R340, R341). -/
def W.box (w : W) (f : TcopyF) (store : Bool) (c : Ctx) : Except Act (W × Command) := do
  let q := copyQ w.g.copyQueue
  w.check (firstTrap [w.needFull, w.queueClosed c q w.g.copyQueue, w.checkUni w.u.us])
  let (ws, w) ← w.readRecord (w.pair f.gr.val)
  let r := layoutOf ws
  let gc := 4 * f.gc.val
  let org := coordsOf fun i => w.gWord (gc + i)
  let off := w.gWord (2 * f.gs.val)
  let hi := w.gWord (2 * f.gs.val + 1)
  let sh := hi.testBit 22
  let bar := w.pair f.gq.val
  let bad := !layoutOk (w.pair f.gr.val) ws || !w.berthOk r || r.box.getD 0 1 * r.elembits % 32 != 0 ||
    (r.comp == 1 && (org.getD 0 0 % 32 != 0 || r.box.getD 0 1 % 32 != 0)) ||
    (if store then decide (2 ^ 23 ≤ hi) || r.hlevels != 0 || (sh && r.berth != 0)
      else decide (2 ^ 16 ≤ hi) || (r.hlevels != 0 && (!r.haarOk || org.getD 0 0 % 8 != 0 || r.box.getD 0 1 % 8 != 0)))
  w.check (firstTrap [w.illegal bad,
      if r.rowsAligned org 4 then none else some { code := .align, addr := r.addr org },
      alignAt off 64, if f.nb then none else W.barAlign bar,
      w.spadBound (off + hi % 65536 * 2 ^ 32) (max 1 (ceilDiv r.imageSize 64) * 64),
      if f.nb then none else w.spadBound bar 16])
  let kind : CmdKind := if store then .tstore else .tcopy
  return (w, {
    q := q
    entry := entryWords kind false w.g.gid w.g.batch 0 0 0 0 (words64 (w.pair f.gr.val) ++ [BitVec.ofNat 32 off, BitVec.ofNat 32 hi])
    fill := fun cmd => { cmd with
      kind := kind, recs := [ws]
      ops := ((List.range 4).map fun i => (w.uni (gc + i)).data) ++ [BitVec.ofNat 32 off, BitVec.ofNat 32 hi]
      barrier := if f.nb then none else w.m0.spadAt w.g.block bar 16
      shadow := if store && sh then some (bits hi 21 16) else none } })

/-- The context of the group, or PROT. -/
def W.inCtx (w : W) (addr : Nat) (k : Ctx → Act) : Act :=
  match w.ctx with
  | none => w.trapAt (protTrap addr 0 .permission)
  | some c => k c

/-- TCOPY, TCOPY.NB (R340). -/
def execTcopy (f : TcopyF) (s : State) : Host.Outcome State Fault Refusal :=
  runWord (.tcopy f) s fun w => w.inCtx 0 fun c => Command.issue c (w.box f false c)

/-- TSTORE, TSTORE.NB (R341). -/
def execTstore (f : TcopyF) (s : State) : Host.Outcome State Fault Refusal :=
  runWord (.tstore f) s fun w => w.inCtx 0 fun c => Command.issue c (w.box f true c)

/-! ### XCOPY (R342, R343) -/

/-- Groups of the issuing block, by its record. -/
def W.groupCount (w : W) : Nat := ((Map.get w.m0.grids w.g.grid).map fun g => recGroups g.record).getD 0

/-- The checks of XCOPY: the strand is held while a source register is empty (R342, R343). -/
def W.xcopy (w : W) (f : XcopyF) (c : Ctx) : Except Act (W × Command) := do
  let q := copyQ w.g.copyQueue
  let t := w.gWord f.gt.val
  let n := 2 ^ bits t 13 12
  let lanes := fun i => if i = 0 then w.src 0 else (w.g.reg (f.a.val + i)).lanes
  w.check (firstTrap [w.lwait, w.needFull, w.queueClosed c q w.g.copyQueue])
  if (List.range n).any fun i => (w.g.reg (f.a.val + i)).empty != 0 then throw .hold
  w.check (firstTrap [
    operandCheck w.real ([(0, List.replicate w.g.width (w.uni f.gt.val))] ++ (List.range n).map fun i => (i, lanes i)),
    w.illegal (decide (2 ^ 14 ≤ t) || f.a.val % n != 0 || f.d.val % n != 0 || decide (w.g.nregs < f.a.val + n) ||
      decide (w.g.nregs < f.d.val + n) || decide (w.groupCount ≤ t % 2 ^ 12))])
  return (w, {
    q := q
    entry := entryWords .xcopy false w.g.gid w.g.batch 0 0 0 0 [BitVec.ofNat 32 t, BitVec.ofNat 32 f.d.val]
    fill := fun cmd => { cmd with
      kind := .xcopy, ops := [BitVec.ofNat 32 (t % 2 ^ 12), BitVec.ofNat 32 f.d.val]
      run := (List.range n).map fun i => ((w.g.reg (f.a.val + i)).tag, lanes i) } })

/-- XCOPY. -/
def execXcopy (f : XcopyF) (s : State) : Host.Outcome State Fault Refusal :=
  runWord (.xcopy f) s fun w => w.inCtx 0 fun c => Command.issue c (w.xcopy f c)

/-- The target group of an XCOPY. -/
def Machine.xcopyTarget (m : Machine) (c : Cmd) : Option (Nat × Group) :=
  m.groups.find? fun e => e.2.block == c.block && e.2.gid == c.op 0 && e.2.lighter.isNone

/-- XCOPY_DELIVERY (R343): the whole run at once, when the target run is full. -/
def execXcopyDelivery (s : State) : Host.Outcome State Fault Refusal :=
  runEvent s fun m arg => match arg with
    | .n k =>
      match Map.get m.cmds k with
      | none => none
      | some c =>
        if !(c.kind == .xcopy && c.state == .running && c.sectors.isEmpty) then none
        else
          let done := fun (m : Machine) => m.updCmd k fun c => { c with sectors := [0] }
          match m.xcopyTarget c with
          | none => some (done (m.failCmd k 6))
          | some (gk, g) =>
            if g.status == .retired then some (done (m.failCmd k 6))
            else if (List.range c.run.length).any fun i => (g.reg (c.op 1 + i)).empty &&& widthMask g.width != 0 then none
            else some (done (m.updGroup gk fun g => (c.run.zipIdx).foldl (fun g e =>
              g.deliverReg (c.op 1 + e.2) (widthMask g.width) (widthMask g.width) e.1.2 e.1.1) g))
    | _ => none

/-! ### HREAD (R344 to R346) -/

/-- Granules of a row, and bursts of the box (R345). -/
def Layout.granules (r : Layout) : Nat := r.box.getD 0 1 * r.elembits / 2048
def Layout.bursts (r : Layout) : Nat := r.granules * (r.box.drop 1).foldl (· * ·) 1

/-- Coordinates of a burst's first element. -/
def Layout.burstAt (r : Layout) (org : List Nat) (b : Nat) : List Nat :=
  let g := max 1 r.granules
  let row := r.boxRow org (b / g)
  row.set 0 (row.getD 0 0 + b % g * (2048 / max 1 r.elembits))

def W.handlerOk (w : W) (kind off : Nat) : Bool :=
  match Map.get w.m0.grids w.g.grid with
  | some g => (entryTable g.header).contains (kind, off)
  | none => false

def openReads : Nat := 64

/-- The checks of HREAD; operands 4 and 5 are the handler offset and argument (R338, R344). -/
def W.hread (w : W) (f : HreadF) (c : Ctx) (gr : Grid) : Except Act (W × Command) := do
  let q := copyQ w.g.copyQueue
  w.check (firstTrap [w.lwait, w.needFull, w.queueClosed c q w.g.copyQueue, w.checkUni w.u.us])
  let (ws, w) ← w.readRecord (w.pair f.gr.val)
  let r := layoutOf ws
  let gc := 4 * f.gc.val
  let org := coordsOf fun i => w.gWord (gc + i)
  let off := w.gWord (2 * f.gh.val)
  let arg := w.gWord (2 * f.gh.val + 1)
  let bar := w.pair f.gq.val
  w.check (firstTrap [
    w.illegal (!layoutOk (w.pair f.gr.val) ws || r.hlevels != 0 || r.berth != 0 || r.box.getD 0 1 * r.elembits % 2048 != 0 ||
      decide (2 ^ 24 < r.bursts) || (f.bar && bar / 2 ^ 32 % 65536 != 0) || recLight gr.record == 0),
    if w.handlerOk 1 off then none else some { code := .brtarget, addr := recCode gr.record + off },
    if r.rowsAligned org 256 then none else some { code := .align, addr := r.addr org },
    if f.bar then W.barAlign bar else none, if f.bar then w.spadBound bar 16 else none])
  if openReads ≤ (w.m.core w.g.core).hreads.length then throw .hold
  return (w, {
    q := q
    entry := entryWords .hread f.bar w.g.gid w.g.batch 0 0 (if f.bar then bar else 0) 0
      (words64 (w.pair f.gr.val) ++ [BitVec.ofNat 32 off, BitVec.ofNat 32 arg])
    fill := fun cmd => { cmd with
      kind := .hread, recs := [ws]
      ops := ((List.range 4).map fun i => (w.uni (gc + i)).data) ++ [BitVec.ofNat 32 off, BitVec.ofNat 32 arg]
      barrier := if f.bar then w.m0.spadAt w.g.block bar 16 else none, arrive := f.bar } })

/-- HREAD.EV, HREAD.BAR: the issued read is open on its core (R344). -/
def execHread (f : HreadF) (s : State) : Host.Outcome State Fault Refusal :=
  runWord (.hread f) s fun w =>
    match w.ctx, Map.get w.m0.grids w.g.grid with
    | some c, some gr =>
      match w.hread f c gr with
      | .error a => a
      | .ok (w, x) =>
        let k := w.m.nextId
        match w.issueCmd c x.q x.entry x.fill with
        | .done m => .done (m.updCore w.g.core fun x => { x with hreads := x.hreads ++ [k] })
        | a => a
    | _, _ => w.trapAt (protTrap 0 0 .permission)

def burstBerths : Nat := 128

/-- Burst berths of a core in use: bursts requested and bursts waiting (R346). -/
def Machine.berthsUsed (m : Machine) (core : Nat) : Nat :=
  (m.core core).berths.length +
  (m.cmds.map fun (e : Nat × Cmd) => if e.2.kind == .hread && m.cmdCore e.2 == core then e.2.asked.length else 0).sum

/-- A burst that fails: the error mark, or 4 faulted sectors; it is retired (R346). -/
def Machine.burstFails (m : Machine) (k : Nat) (c : Cmd) (b code : Nat) : Machine :=
  let m := (m.failCmd k code).updCmd k fun c => { c with
    retired := insertNat b c.retired, asked := c.asked.filter (· != b), errMark := c.errMark || !c.arrive }
  match c.barrier with
  | some (blk, off) =>
    if c.arrive && !c.orphan then (m.engineBar blk off fun x => { x with faulted := min (x.faulted + 4) (2 ^ 32 - 1) }).2 else m
  | none => m

/-- A burst whose page faults parks in a fault berth and frees its burst berth (R346). (DEDUCED, log 58) -/
def Machine.parkBurst (m : Machine) (k : Nat) (c : Cmd) (b ctx va source : Nat) : Machine :=
  let m := m.updCmd k fun c => { c with asked := c.asked.filter (· != b) }
  let count := ((Map.get m.ctxs ctx).map (·.resolve)).getD 0
  m.parkRequest { core := m.cmdCore c, group := c.group, ctx := ctx, va := va, access := 0, ova := va, lane := b, words := [], size := 256
                  instr := some .hreadBurstRequest, slots := [], pendingId := k, count := count, waiting := false, flight := false }
    source

/-- Request one burst of a read (R346). (DEDUCED, log 58) -/
def Machine.requestBurst (m : Machine) (k : Nat) (c : Cmd) (b : Nat) : Machine :=
  let r := c.layout
  let at_ := r.burstAt c.org b
  if !r.inside at_ then m.updCmd k fun c => { c with retired := insertNat b c.retired }
  else
    match m.enginePlace copySource c r (r.addr at_) 256 .read with
    | (.fault x v s, m) => m.parkBurst k c b x v s
    | (.prot _ _, m) => m.burstFails k c b 1
    | (.revoked _, m) => m.burstFails k c b 5
    | (_, m) => m.updCmd k fun c => { c with asked := c.asked ++ [b] }

/-- Restored bursts that still wait for a burst berth of a core, first the earliest arrival: block and burst (R346, R372). -/
def Machine.waitingBursts (m : Machine) (core : Nat) : List (Nat × Nat × Nat × List TWord) :=
  m.blocks.flatMap fun (e : Nat × Block) =>
    if e.2.state != .live then []
    else (e.2.bursts.filter fun b => match Map.get m.cmds b.1 with
      | some c => m.cmdCore c == core
      | none => false).map fun b => (e.1, b)

/-- When a burst of a read arrived, as a rising number. -/
def Machine.arrivedAt (m : Machine) (k b : Nat) : Nat :=
  ((Map.get m.cmds k).bind fun c => (c.arrivals.find? fun a => a.1 == b).map (·.2)).getD 0

/-- A burst comes into a berth, behind those that arrived before it (R351). -/
def Machine.seatBurst (m : Machine) (core : Nat) (x : Nat × Nat × List TWord) : Machine :=
  let at_ := m.arrivedAt x.1 x.2.1
  let before := fun (y : Nat × Nat × List TWord) => decide (m.arrivedAt y.1 y.2.1 < at_)
  m.updCore core fun c => { c with berths := c.berths.takeWhile before ++ x :: c.berths.dropWhile before }

/-- Restored bursts take the burst berths that are free (R346, R372). -/
def Machine.refillBerths (m : Machine) (core : Nat) : Machine :=
  (m.waitingBursts core).foldl (fun (m : Machine) x =>
    if m.berthsUsed core < burstBerths then
      (m.seatBurst core x.2).updBlock x.1 fun b => { b with bursts := b.bursts.filter fun y => !(y.1 == x.2.1 && y.2.1 == x.2.2.1) }
    else m) m

/-- HREAD_BURST_REQUEST: the next burst in ascending index, when a burst berth is free; first one whose page has come (R346). -/
def execHreadBurstRequest (s : State) : Host.Outcome State Fault Refusal :=
  runEvent s fun m arg => match arg with
    | .n k =>
      match Map.get m.cmds k with
      | none => none
      | some c =>
        if !(c.kind == .hread && c.state == .running && decide (m.berthsUsed (m.cmdCore c) < burstBerths) &&
            (m.waitingBursts (m.cmdCore c)).isEmpty) then none
        else match c.again with
          | b :: rest => some ((m.updCmd k fun c => { c with again := rest }).requestBurst k c b)
          | [] =>
            let b := c.unp.1
            if b < c.layout.bursts then some ((m.updCmd k fun c => { c with unp := (b + 1, 0, 0) }).requestBurst k c b)
            else none
    | _ => none

/-- Words of a burst: four sectors with one request (R238, R345); a LASTUSE read drops the line (R231, R232). -/
def Machine.readBurst (m : Machine) (c : Cmd) (va : Nat) : EngRead :=
  let r := c.layout
  match m.enginePlace copySource c r va 256 .read with
  | (.fault x v s, m) => .fault x v s m
  | (.prot _ _, _) => .fail 1
  | (.revoked _, _) => .fail 5
  | (.pa pa leaf, m) =>
    let (ws, m) := m.mscBurst (pa / 256) (m.enginePri c.ctx r va leaf)
    let ws := (List.range 4).flatMap fun i => ringWords (m.engineStop copySource c) (pa / 64) ((ws.drop (16 * i)).take 16)
    .ok ws (if r.lastUse = 1 then m.dropLineBut (m.cmdCore c) (pa / 64) c.later else m)
  | (p, m) => match m.readPlace p 64 (m.enginePriAt c.ctx r va p) with
    | some (ws, m) => .ok ws m
    | none => .fail 1

/-- HREAD_BURST_RETURN (R346): the words come into a berth. -/
def execHreadBurstReturn (s : State) : Host.Outcome State Fault Refusal :=
  runEvent s fun m arg => match arg with
    | .n2 k b =>
      match Map.get m.cmds k with
      | none => none
      | some c =>
        if !(c.kind == .hread && c.asked.contains b) then none
        else
          let r := c.layout
          let va := r.addr (r.burstAt c.org b)
          match m.readBurst c va with
          | .ok ws m =>
            let n := m.nextId
            let m := ({ m with nextId := n + 1 } : Machine).updCmd k fun c => { c with
              asked := c.asked.filter (· != b), arrivals := c.arrivals ++ [(b, n)] }
            some (m.updCore (m.cmdCore c) fun x => { x with berths := x.berths ++ [(k, b, ws)] })
          | .fail code => some (m.burstFails k c b code)
          | .fault x v src m => some (m.parkBurst k c b x v src)
    | _ => none

/-! ### Lighters (R347) -/

/-- A group as it starts: registers zero, BITS/0, full (R166). (DEDUCED, log 74) -/
def Group.fresh (ctx grid block gid width nregs core slot offset image : Nat) (stack : List Entry) : Group :=
  { ctx := ctx, grid := grid, block := block, gid := gid, width := width, nregs := nregs, core := core, slot := slot
    offset := offset, image := image, regs := List.replicate 62 (emptyReg width), p := List.replicate 7 0, g := List.replicate 32 TWord.zero
    fpc := 0, domctl := 0, finj := 0, ht := List.replicate 4 TWord.zero, evec := 0, deadline := 0, clockHi := 0
    matcfg := 0xBB, ev := { enable := 0, pend := 0, svc := none, info := 0, infos := List.replicate 6 0, arm := none }
    stack := stack, nextSid := 1, helper := 0, age := 0, pending := [], lastb := 0, open_ := [], members := []
    status := .live, trapSid := 0, waitTrap := none, replay := [], lighter := none }

/-- The first PATH entry of a group: every lane, entered by branch (R86, R166). -/
def firstEntry (pc width : Nat) : Entry :=
  { sid := 0, kind := .path, pc := pc, mask := widthMask width, out := 0, rpc := none, evno := 0, park := none, held := false
    age := 0, entered := true }

/-- The places of lighters in use on a core: slot and place. -/
def Machine.lighterPlaces (m : Machine) (core : Nat) : List (Nat × Nat) :=
  m.groups.filterMap fun (e : Nat × Group) =>
    match e.2.lighter with
    | some l => if e.2.core == core && e.2.status != .retired && (match Map.get m.blocks e.2.block with
        | some b => b.placed
        | none => false) then some (e.2.slot, l.place) else none
    | none => none

/-- The lowest free lighter place of the lowest-numbered lighter slot of a grid on a core: eight places of 16 lanes in a slot (R176,
R346). (DEDUCED, log 58) -/
def Machine.freePlace (m : Machine) (core grid : Nat) : Option (Nat × Nat) :=
  let used := m.lighterPlaces core
  let slots := Map.getD (m.core core).reserved grid []
  (slots.flatMap fun s => (List.range 8).map fun p => (s, p)).find? fun x => !used.contains x

/-- The registers of a lighter at birth. -/
def lighterRegs (ws : List TWord) (fmt : Nat) : List Reg :=
  (List.range 62).map fun n =>
    if n < 4 then { tag := tagOf fmt 0, lanes := (List.range 16).map fun l => wordAt ws (16 * n + l), empty := 0 }
    else emptyReg 16

/-- A burst is born as a lighter of the issuing group's block. -/
def Machine.bear (m : Machine) (core k : Nat) (c : Cmd) (g : Group) (b : Nat) (ws : List TWord) (at_ : Nat × Nat) : Machine :=
  let r := c.layout
  let x := r.burstAt c.org b
  let inside := min (2048 / max 1 r.elembits) (r.dim.getD 0 0 - x.getD 0 0)
  let block := ((Map.get m.blocks c.block).map (·.index)).getD 0
  let us := [b, x.getD 0 0, x.getD 1 0, x.getD 2 0, c.op 5, inside, block, g.gid]
  let lg : Group := { Group.fresh c.ctx g.grid c.block g.gid 16 16 core at_.1 (16 * at_.2) 0 [firstEntry (m.codeOf g.grid + c.op 4) 16] with
    regs := lighterRegs ws r.fmt
    g := us.map (fun v => TWord.of (BitVec.ofNat 32 v)) ++ List.replicate 24 TWord.zero
    lighter := some { cmd := k, burst := b, place := at_.2, group := c.group } }
  let m := { m with groups := Map.set m.groups m.nextId lg, nextId := m.nextId + 1 }
  (m.updCmd k fun c => { c with births := c.births ++ [b] }).updCore core fun x =>
    { x with berths := x.berths.filter fun e => !(e.1 == k && e.2.1 == b) }

/-- Whether a burst may be born next: its block is live; in replay mode the recorded order holds (R440). -/
def Machine.mayBear (m : Machine) (c : Cmd) (g : Group) (b : Nat) : Bool :=
  (match Map.get m.blocks c.block with
    | some x => x.state == .live
    | none => false) &&
  (if m.recorded g.grid 2 then match m.recordedBirths c.ctx (m.cmdEntry c) with
      | some l => l[c.births.length]? == some b
      | none => true
    else true)

/-- LIGHTER_BIRTH: the first waiting burst of a core that has a place (R346, R347). -/
def execLighterBirth (s : State) : Host.Outcome State Fault Refusal :=
  runEvent s fun m arg => match arg with
    | .n core =>
      let m := m.refillBerths core
      let next := (m.core core).berths.findSome? fun e =>
        match Map.get m.cmds e.1 with
        | none => none
        | some c => match Map.get m.groups c.group with
          | none => none
          | some g => if m.mayBear c g e.2.1 then (m.freePlace core g.grid).map fun p => (e.1, c, g, e.2.1, e.2.2, p) else none
      next.map fun x => m.bear core x.1 x.2.1 x.2.2.1 x.2.2.2.1 x.2.2.2.2.1 x.2.2.2.2.2
    | _ => none

/-! ### Completion of a read (R349) -/

/-- EV_BURSTDONE with what is merged since entry (R349). -/
def Group.raiseBurst (g : Group) (arg : Nat) (err : Bool) : Group :=
  let pend := g.ev.pend.getLsbD 0
  let old := (g.ev.infos.getD 0 0).toNat
  let n := if pend then min 3 (bits old 18 17 + 1) else 0
  let e := err || (pend && old.testBit 16)
  g.raise 0 (arg % 65536 + (if e then 65536 else 0) + 131072 * n)

/-- HREAD_COMPLETION: every burst has retired; a completion that falls together with a save is taken into the saved image (R351). -/
def execHreadCompletion (s : State) : Host.Outcome State Fault Refusal :=
  runEvent s fun m arg => match arg with
    | .n k =>
      match Map.get m.cmds k with
      | none => none
      | some c =>
        let n := c.layout.bursts
        let grid := ((Map.get m.groups c.group).map (·.grid)).getD 0
        if m.recorded grid 1 && m.logBusy c.ctx 3 then none
        else if !(c.kind == .hread && (c.state == .running || c.state == .stopped) && c.unp.1 == n && c.retired.length == n) then none
        else
          let core := m.cmdCore c
          let cores := ((Map.get m.blocks c.block).map fun b => b.cores.length).getD 1
          let m := m.release core .block cores
          let m := if c.arrive then m else m.updGroup c.group fun g => g.raiseBurst (c.op 5) c.errMark
          let m := m.noteBursts c.ctx grid (m.cmdEntry c) c.births
          let m := m.updCore core fun x => { x with hreads := x.hreads.filter (· != k) }
          some (m.completeCmd k)
    | _ => none

end Sys2Proof.Machine
end

