-- ==== Sys2Proof/Machine/Quay.lean ====
section
/-! DEFINITION. The quay engines (R352 to R364): descriptors, the issue of QGATH, QRED, QCVT, QUNPK and QTLOAD, the run of
a command by units, the unpacker. -/

namespace Sys2Proof.Machine

open Sys2Proof

def quaySource : Nat := 3

/-! ### Descriptors (R356) -/

/-- A quay descriptor as read: record addresses DST, SRC0 to SRC3, then OP, RND, FLAGS, TSLOT, INBITS. -/
structure QuayDesc where
  recs : List Nat
  op : Nat
  rnd : Nat
  flags : Nat
  tslot : Nat
  inbits : Nat
deriving DecidableEq, Repr

def quayDesc (ws : List TWord) : QuayDesc :=
  { recs := (List.range 5).map fun i => fieldAt ws (8 * i) 8
    op := fieldAt ws 0x28 1, rnd := fieldAt ws 0x29 1, flags := fieldAt ws 0x2A 2, tslot := fieldAt ws 0x2C 1
    inbits := fieldAt ws 0x30 4 }

/-- Records a command names: those of the present fields. -/
def QuayDesc.present (d : QuayDesc) : List Nat := d.recs.take 2 ++ ((d.recs.drop 2).filter (· != 0))

/-- Records that a descriptor names by words that are not poison. (DEDUCED, log 26) -/
def namedRecords (ws : List TWord) : List Nat :=
  let d := quayDesc ws
  ((d.recs.zipIdx).filter fun e => (decide (e.2 < 2) || e.1 != 0) && !anyPoison ((ws.drop (2 * e.2)).take 2)).map (·.1)

def QuayDesc.rec_ (d : QuayDesc) (i : Nat) : Nat := d.recs.getD i 0

/-- The limits of the descriptor's own fields by command, and a poisoned word is outside them (R355, R356). -/
def quayDescOk (kind : CmdKind) (ws : List TWord) : Bool :=
  let d := quayDesc ws
  !anyPoison ws && fieldAt ws 0x2D 3 == 0 && (List.range 3).all (fun i => fieldAt ws (0x34 + 4 * i) 4 == 0) &&
  match kind with
  | .qgath => d.rec_ 2 != 0 && d.rec_ 3 == 0 && d.rec_ 4 == 0 && d.op == 0 && d.rnd == 0 && decide (d.flags < 128) &&
      d.tslot == 0 && d.inbits == 0
  | .qred => (d.rec_ 2 != 0 || d.rec_ 3 == 0) && (d.rec_ 3 != 0 || d.rec_ 4 == 0) && decide (d.op ≤ 4) && decide (d.rnd ≤ 3) &&
      decide (d.flags < 256) && d.tslot == 0 && d.inbits == 0
  | .qcvt => d.rec_ 3 == 0 && d.rec_ 4 == 0 && decide (d.op ≤ 3) && decide (d.rnd ≤ 3) && decide (d.flags < 512) &&
      !d.flags.testBit 7 && d.tslot == 0 && d.inbits == 0
  | .qunpk => d.rec_ 2 == 0 && d.rec_ 3 == 0 && d.rec_ 4 == 0 && d.op == 0 && d.rnd == 0 && d.flags.testBit 0 &&
      decide (d.flags < 128) && decide (d.tslot ≤ 3)
  | _ => false

def Layout.dimAt (r : Layout) (k : Nat) : Nat := r.dim.getD k 1

def sameDims (a b : Layout) (ks : List Nat) : Bool := ks.all fun k => a.dimAt k == b.dimAt k

/-- Format codes of CVT (R148) and of the Q4 conversions (R359). -/
def cvtCodes : List Nat := [1, 2, 3, 4, 5, 6, 7, 8, 9, 11, 12]

/-- The limits of the records of a command (R356 to R359, R362). -/
def quayRecsOk (kind : CmdKind) (d : QuayDesc) (recs : List (Nat × List TWord)) : Bool :=
  let rs := recs.map fun e => layoutOf e.2
  let z := layoutOf []
  let dst := rs.getD 0 z
  let src := rs.getD 1 z
  (recs.all fun e => layoutOk e.1 e.2) && (rs.all fun r => r.berth == 0 && r.hlevels == 0) &&
  match kind with
  | .qgath =>
    let ix := rs.getD 2 z
    src.fmt == dst.fmt && sameDims src dst [0] && [2, 3, 4].all (fun k => src.dimAt k == 1 && dst.dimAt k == 1) &&
    (ix.fmt == 1 || ix.fmt == 2) && [1, 2, 3, 4].all (fun k => ix.dimAt k == 1) && ix.dimAt 0 == dst.dimAt 1
  | .qred =>
    (dst.fmt == 1 || dst.fmt == 2 || dst.fmt == 3) && (rs.all fun r => r.fmt == dst.fmt && sameDims r dst [0, 1, 2, 3, 4]) &&
    (decide (d.op < 3) || dst.fmt == 3)
  | .qcvt =>
    sameDims src dst [1, 2, 3, 4] &&
    (if dst.fmt == 10 then
      [3, 4, 5].contains src.fmt && dst.comp == 1 && sameDims src dst [0] && d.rec_ 2 != 0 &&
      (let s := rs.getD 2 z
       s.fmt == 11 && s.dimAt 0 == ceilDiv (dst.dimAt 0) 32 && sameDims s dst [1, 2, 3, 4])
    else
      d.rec_ 2 == 0 && d.op == 0 && sameDims src dst [0] &&
      (if src.fmt == 10 then src.comp == 1 && [3, 4, 5].contains dst.fmt
       else cvtCodes.contains src.fmt && cvtCodes.contains dst.fmt && src.fmt != dst.fmt))
  | .qunpk =>
    dst.fmt == 12 && src.fmt == 12 && [1, 2, 3, 4].all (fun k => src.dimAt k == 1 && dst.dimAt k == 1) &&
    decide (d.inbits ≤ 8 * src.dimAt 0)
  | _ => false

/-- A command with its operands as read: records, and OP, RND, FLAGS, TSLOT, INBITS. -/
def Cmd.withQuay (c : Cmd) (d : QuayDesc) (recs : List (List TWord)) : Cmd :=
  { c with
    recs := recs
    ops := [d.op, d.rnd, d.flags, d.tslot, d.inbits].map (BitVec.ofNat 32)
    shadow := if d.flags.testBit 0 then some (bits d.flags 6 1) else none }

/-- A table load with its operands: address, count, slot. -/
def Cmd.withTable (c : Cmd) (addr count slot : Nat) : Cmd :=
  { c with ops := words64 addr ++ [BitVec.ofNat 32 count, BitVec.ofNat 32 slot] }

/-- Entry count of QTLOAD: 16 to 4096 in steps of 16 (R354). -/
def tableCountOk (n : Nat) : Bool := n % 16 == 0 && decide (16 ≤ n) && decide (n ≤ 4096)

/-! ### Issue (R354, R355) -/

/-- Read records one after the other. -/
def W.readEach (w : W) : List Nat → Except Act (List (List TWord) × W)
  | [] => .ok ([], w)
  | a :: r =>
    match w.readRecord a with
    | .error e => .error e
    | .ok (ws, w) => match w.readEach r with
      | .error e => .error e
      | .ok (rs, w) => .ok (ws :: rs, w)

/-- A record's read is refused. -/
def W.recordRefused (w : W) (a : Nat) : Bool :=
  match w.m.readRecord w.g.core w.g.ctx a w.g.source with
  | .prot _ _ _ | .revoked _ _ => true
  | _ => false

/-- Read the records of a command: PROT of any of them comes before PAGE (R355). -/
def W.readAll (w : W) (as : List Nat) : Except Act (List (List TWord) × W) :=
  w.readEach (match as.find? w.recordRefused with
    | some a => [a]
    | none => as)

/-- The checks of QGATH, QRED, QCVT and QUNPK: the queue, the descriptor, its records (R354 to R356). -/
def W.quay (w : W) (kind : CmdKind) (f : QuayF) (c : Ctx) : Except Act (W × Command) := do
  let q := quayQ f.q.val
  let addr := w.pair f.gd.val
  let bar := w.pair f.gq.val
  w.check (firstTrap [w.needFull, w.queueClosed c q f.q.val, w.checkUni w.u.us, alignAt addr 64,
    if f.bar then W.barAlign bar else none, if f.bar then w.spadBound bar 16 else none])
  -- the issue's release comes first: the group's own stores are in what it reads (R281, R353)
  let w := w.release .device
  let (ws, w) ← w.readWords addr 16
  let (rs, w) ← w.readAll (namedRecords ws)
  let d := quayDesc ws
  w.check (w.illegal (!quayDescOk kind ws || !quayRecsOk kind d (d.present.zip rs)))
  return (w, {
    q := q
    entry := entryWords kind f.bar w.g.gid w.g.batch 0 addr (if f.bar then bar else 0) 0 []
    fill := fun cmd => { (cmd.withQuay d rs) with
      kind := kind, arrive := f.bar, barrier := if f.bar then w.m0.spadAt w.g.block bar 16 else none } })

/-- QGATH (R357). -/
def execQgath (f : QuayF) (s : State) : Host.Outcome State Fault Refusal :=
  runWord (.qgath f) s fun w => w.inCtx 0 fun c => Command.issue c (w.quay .qgath f c)

/-- QRED (R358). -/
def execQred (f : QuayF) (s : State) : Host.Outcome State Fault Refusal :=
  runWord (.qred f) s fun w => w.inCtx 0 fun c => Command.issue c (w.quay .qred f c)

/-- QCVT (R359). -/
def execQcvt (f : QuayF) (s : State) : Host.Outcome State Fault Refusal :=
  runWord (.qcvt f) s fun w => w.inCtx 0 fun c => Command.issue c (w.quay .qcvt f c)

/-- QUNPK (R362). -/
def execQunpk (f : QuayF) (s : State) : Host.Outcome State Fault Refusal :=
  runWord (.qunpk f) s fun w => w.inCtx 0 fun c => Command.issue c (w.quay .qunpk f c)

/-- The checks of QTLOAD: the table is looked at when the command runs; at issue its pages are reached (R361). -/
def W.qtload (w : W) (f : QtlF) (c : Ctx) : Except Act (W × Command) := do
  let q := quayQ f.q.val
  let addr := w.pair f.gt.val
  let count := w.gWord f.gc.val
  w.check (firstTrap [w.needFull, w.queueClosed c q f.q.val, w.checkUni w.u.us, alignAt addr 4])
  let (_, w) ← (w.release .device).readWords addr (min count 4096)
  w.check (w.illegal (!tableCountOk count))
  return (w, {
    q := q
    entry := entryWords .qtload false w.g.gid w.g.batch f.slot.val addr 0 count []
    fill := fun cmd => { (cmd.withTable addr count f.slot.val) with kind := .qtload } })

/-- QTLOAD (R361). -/
def execQtload (f : QtlF) (s : State) : Host.Outcome State Fault Refusal :=
  runWord (.qtload f) s fun w => w.inCtx 0 fun c => Command.issue c (w.qtload f c)

/-! ### Reading for a command (R360) -/

/-- A word for an engine's command: a refused sector delivers poison and sets its code; a fault suspends. -/
inductive Got where
  | ok (t : TWord) (m : Machine)
  | fault (ctx va source : Nat) (m : Machine)

/-- DEDUCED, log 51. -/
def Machine.quayWord (m : Machine) (k : Nat) (c : Cmd) (r : Layout) (a : Nat) : Got :=
  match m.engineRead quaySource c r (a / 4 * 4) 1 with
  | .ok ws m => .ok (wordAt ws 0) m
  | .fail code => .ok poisonWord (m.failCmd k code)
  | .fault x v s m => .fault x v s m

/-- Words at the given addresses of a record. -/
inductive GotAll where
  | ok (ts : List TWord) (m : Machine)
  | fault (ctx va source : Nat) (m : Machine)

def Machine.quayWords (m : Machine) (k : Nat) (c : Cmd) : List (Layout × Nat) → GotAll
  | [] => .ok [] m
  | (r, a) :: rest =>
    match m.quayWord k c r a with
    | .fault x v s m => .fault x v s m
    | .ok t m => match m.quayWords k c rest with
      | .ok ts m => .ok (t :: ts) m
      | e => e

/-! ### Units of a command: the part of a dim0 line in one sector -/

/-- Bytes of the elements of a line. -/
def Layout.codeBytes (r : Layout) : Nat := ceilDiv (r.dimAt 0 * r.elembits) 8

/-- Bytes of a line as it is written: whole blocks for Q4 (R43). -/
def Layout.rowBytes (r : Layout) : Nat := if r.fmt = 10 then ceilDiv (r.dimAt 0) 32 * 16 else r.codeBytes

/-- Sectors a line can touch. -/
def Layout.lineSectors (r : Layout) : Nat := r.rowBytes / 64 + 2

/-- Aligned words of sector k of a line that starts at a: address, first byte and byte count in the word. -/
def lineWords (a n k : Nat) : List (Nat × Nat × Nat) :=
  (List.range 16).filterMap fun i =>
    let w := a / 64 * 64 + 64 * k + 4 * i
    let lo := max a w
    let hi := min (a + n) (w + 4)
    if lo < hi then some (w, lo - w, hi - lo) else none

/-- Coordinates of an element of line n at index j. -/
def Layout.at_ (r : Layout) (n j : Nat) : List Nat := (r.lineCoords n).set 0 j

/-- Write words of a unit, by R353: into the shadow, or at the home. -/
def Machine.quayWrite (m : Machine) (k : Nat) (c : Cmd) (r : Layout) (base : Nat) (ws : List (Nat × Nat × TWord)) : Machine × Bool :=
  let pri := m.enginePri c.ctx r base (m.leafPri c.ctx base)
  match c.shadow with
  | some h =>
    let foot := ws.map fun e => (e.1, e.2.1)
    let took := m.shadowTook c h foot
    match m.shadowWrite quaySource c h pri base ws foot with
    | .done m => (if took && m.shadowTook c h foot then m else m.failCmd k 4, true)
    | .fault x v kind => (m.suspendCmd k x v 1 kind quaySource, false)
    | .refused => (m.failCmd k 1, true)
    | .gone m => (m.failCmd k 4, true)
  | none =>
    let (p, m) := m.enginePlace quaySource c r base 64 .write
    match (m.lastUseWrite c r p).storeAt (m.engineStop quaySource c) p base pri ws with
    | .done m => (m, true)
    | .fault x v kind => (m.suspendCmd k x v 1 kind quaySource, false)
    | .refused => (m.failCmd k (if p.protOf.isSome then 1 else 5), true)
    | .gone m => (m.failCmd k 5, true)

/-- A word of a unit as it is written: the bytes it covers. -/
def unitWord (e : Nat × Nat × Nat) (t : TWord) : List (Nat × Nat × TWord) :=
  if e.2.2 = 4 then [(e.1, 4, t)]
  else
    -- part of a word: its bytes, with R66
    [(e.1 + e.2.1, e.2.2, t)]

/-- A unit that is left to be run again counts nothing (R360). -/
def Machine.undoCount (m : Machine) (k : Nat) (c : Cmd) : Machine := m.updCmd k fun x => { x with count := c.count }

/-- Write the words of a unit, count the poisoned ones, and take the unit off the command. (DEDUCED, log 51) -/
def Machine.endUnit (m : Machine) (k : Nat) (c : Cmd) (r : Layout) (u base : Nat) (ws : List ((Nat × Nat × Nat) × TWord)) : Machine :=
  let all := ws.flatMap fun e => unitWord e.1 e.2
  let (m, ok) := if all.isEmpty then (m, true) else m.quayWrite k c r base all
  if !ok then m.undoCount k c
  else m.updCmd k fun c => { c with
    sectors := insertNat u c.sectors
    poisoned := min (2 ^ 32 - 1) (c.poisoned + (ws.filter fun e => e.2.poisoned).length) }

/-! ### QGATH (R357) -/

/-- Bytes [lo, lo + n) of a word, taken from n source bytes from an address on: poison when a source word fails its
verification, else the residue of the data (R65, R66). -/
def shiftedWord (lo n : Nat) (src : Nat → TWord) (from_ : Nat) : TWord :=
  let v := ((List.range n).map fun i => (byteOf (src ((from_ + i) / 4)).data ((from_ + i) % 4)).toNat * 256 ^ (lo + i)).sum
  if (List.range n).any fun i => !(src ((from_ + i) / 4)).good then { data := BitVec.ofNat 32 v, res := 15#4 }
  else TWord.of (BitVec.ofNat 32 v)

/-- A word of a line as it is written, first byte at offset o of the line: padding codes of a Q4 line are 0 (R43, R66). -/
def padWord (r : Layout) (o : Nat) (e : Nat × Nat × Nat) (t : TWord) : TWord :=
  if r.fmt ≠ 10 || decide (2 * (o + e.2.2) ≤ r.dimAt 0) then t
  else if r.codeBytes ≤ o then TWord.zero
  else (List.range e.2.2).foldl (fun x i =>
    let k := e.2.1 + i
    setWordByte x k (if 2 * (o + i) + 2 ≤ r.dimAt 0 then byteOf t.data k
      else if 2 * (o + i) + 1 = r.dimAt 0 then byteOf t.data k &&& 15 else 0)) t

/-- The words of a gathered unit. `src` is the address of the source line; none: OOBVALUE. -/
def Machine.gatherWords (m : Machine) (k : Nat) (c : Cmd) (r : Layout) (row : Bool) (src dst : Nat) :
    List (Nat × Nat × Nat) → GotAll
  | [] => .ok [] m
  | e :: rest =>
    -- bytes of the source that this word takes, counted from the word's first byte; padding codes are not read
    if c.layout.fmt = 10 && row && decide (c.layout.codeBytes ≤ e.1 + e.2.1 - dst) then
      match m.gatherWords k c r row src dst rest with
      | .ok ts m => .ok (TWord.zero :: ts) m
      | x => x
    else
    let lo := src + (e.1 + e.2.1 - dst)
    let hi := lo + (if c.layout.fmt = 10 && row then min e.2.2 (c.layout.codeBytes - (e.1 + e.2.1 - dst)) else e.2.2) - 1
    match m.quayWord k c r lo with
    | .fault x v s m => .fault x v s m
    | .ok t m =>
      let go := fun (m : Machine) (u : TWord) =>
        match m.gatherWords k c r row src dst rest with
        | .ok ts m =>
          let f := fun (n : Nat) => if n = lo / 4 then t else u
          .ok ((if lo % 4 = e.2.1 then t else shiftedWord e.2.1 e.2.2 f lo) :: ts) m
        | x => x
      if hi / 4 = lo / 4 then go m t
      else match m.quayWord k c r hi with
        | .fault x v s m => .fault x v s m
        | .ok u m => go m u

/-- Parts of a line of QGATH: the sectors of its row, then those of its scale slot, which may begin in the middle of one. -/
def Layout.gatherParts (r : Layout) : Nat := r.lineSectors + r.slot / 64 + 2

/-- A unit of QGATH: part k of destination line i; part `lineSectors` is the line's scale slot. (DEDUCED, log 52) -/
def Machine.gatherUnit (m : Machine) (k : Nat) (c : Cmd) (u : Nat) : Machine :=
  let rs := c.recs.map layoutOf
  let z := layoutOf []
  let dst := rs.getD 0 z
  let src := rs.getD 1 z
  let ix := rs.getD 2 z
  let per := dst.gatherParts
  let i := u / per
  let p := u % per
  match m.quayWord k c ix (ix.addr [i, 0, 0, 0, 0]) with
  | .fault x v s m => m.suspendCmd k x v 0 1 s
  | .ok t m =>
    let x : Int := if ix.fmt = 1 then t.data.toInt else t.data.toNat
    let row := dst.addr (dst.at_ i 0)
    let scale := decide (dst.lineSectors ≤ p)
    let (a, n, q) := if scale then (dst.scaleAddr i, if dst.comp = 1 && src.comp = 1 then dst.slot else 0, p - dst.lineSectors)
      else (row, dst.rowBytes, p)
    let es := lineWords a n q
    let base := a / 64 * 64 + 64 * q
    let fin := fun (m : Machine) (ts : List TWord) =>
      m.endUnit k c dst u base ((es.zip ts).map fun e => (e.1, if scale then e.2 else padWord dst (e.1.1 + e.1.2.1 - row) e.1 e.2))
    if t.poisoned then fin m (es.map fun _ => poisonWord)
    else if !t.good then fin (m.failCmd k 9) (es.map fun _ => poisonWord)
    else if x < 0 || (src.dimAt 1 : Int) ≤ x then
      fin m (es.map fun _ => if scale then TWord.zero else TWord.of (BitVec.ofNat 32 src.fill))
    else
      match m.gatherWords k c src (!scale) (if scale then src.scaleAddr x.toNat else src.addr (src.at_ x.toNat 0)) a es with
      | .ok ts m => fin m ts
      | .fault x v s m => m.suspendCmd k x v 0 1 s

/-! ### QRED (R358) -/

/-- One step of the fold: data; residues of integer ADD follow class A, the others are recomputed. -/
def redStep (op rnd fmt : Nat) (a b : TWord) : TWord :=
  let x := a.data.toNat
  let y := b.data.toNat
  match op with
  | 0 => if fmt = 3 then TWord.of (BitVec.ofNat 32 (fmF32.round (rmOfCode rnd) false false
      (Num.add (rmOfCode rnd) (fmF32.input false x) (fmF32.input false y))).1) else addRes a b 0
  | n =>
    let isMin := n % 2 == 1
    if fmt = 3 then TWord.of (BitVec.ofNat 32 (fmF32.minMax false isMin (decide (3 ≤ n)) x y).1)
    else
      let less := if fmt = 1 then decide (a.data.toInt < b.data.toInt) else decide (x < y)
      TWord.of (if less == isMin then a.data else b.data)

/-- Fold checked values: a poisoned one poisons; one that mismatches its residue fails the check (R360). -/
def redFold (op rnd fmt : Nat) (ts : List TWord) : TWord × Bool :=
  if ts.any TWord.poisoned then (poisonWord, false)
  else match ts with
    | [] => (TWord.zero, false)
    | t :: r =>
      let v := r.foldl (redStep op rnd fmt) t
      if ts.any (fun t => !t.good) || !v.good then (poisonWord, true) else (v, false)

/-- The words of a reduced unit. -/
def Machine.redWords (m : Machine) (k : Nat) (c : Cmd) (rs : List Layout) (i row : Nat) : List (Nat × Nat × Nat) → GotAll
  | [] => .ok [] m
  | e :: rest =>
    let dst := rs.headD (layoutOf [])
    let from_ := if (c.op 2).testBit 7 then rs else rs.drop 1
    match m.quayWords k c (from_.map fun r => (r, r.addr (r.at_ i ((e.1 - row) / 4)))) with
    | .fault x v s m => .fault x v s m
    | .ok ts m =>
      let (t, bad) := redFold (c.op 0) (c.op 1) dst.fmt ts
      match (if bad then m.failCmd k 9 else m).redWords k c rs i row rest with
      | .ok out m => .ok (t :: out) m
      | x => x

def Machine.redUnit (m : Machine) (k : Nat) (c : Cmd) (u : Nat) : Machine :=
  let rs := c.recs.map layoutOf
  let dst := rs.headD (layoutOf [])
  let i := u / dst.lineSectors
  let q := u % dst.lineSectors
  let row := dst.addr (dst.at_ i 0)
  let es := lineWords row dst.rowBytes q
  match m.redWords k c rs i row es with
  | .ok ts m => m.endUnit k c dst u (row / 64 * 64 + 64 * q) (es.zip ts)
  | .fault x v s m => m.suspendCmd k x v 0 1 s

/-! ### QCVT (R359) -/

/-- The element format of a FMT code of CVT. -/
def cvtFmt : Nat → Option ElFmt
  | 1 => elFmt .i32
  | 2 => elFmt .n32
  | 3 => elFmt .f32
  | 4 => elFmt .f16
  | 5 => elFmt .b16
  | 6 => elFmt .i16
  | 7 => elFmt .n16
  | 8 => elFmt .e4m3
  | 9 => elFmt .e5m2
  | 11 => elFmt .i8
  | 12 => elFmt .n8
  | _ => none

/-- A float result is ±∞ or NaN. -/
def FloatFmt.nonFinite (f : FloatFmt) (v : Nat) : Bool := decide (f.infBits ≤ v % 2 ^ f.signAt)

/-- One element of QCVT: its bits, and whether SATCNT counts it (R149, R360). -/
def cvtElement (src dst : ElFmt) (rm : Rm) (sat : Bool) (v : Nat) : Nat × Bool :=
  let r := (convEl src dst rm false sat v).1
  let raw := (convEl src dst rm false false v).1
  match src, dst with
  | .int a, .int b => (r, sat && decide (clampInt b.lo b.hi (a.read v) ≠ a.read v))
  | .int _, .flt b => (r, b.nonFinite raw)
  | .flt a, .flt b => (r, match a.input false v with
      | .fin _ _ _ => b.nonFinite raw
      | .inf _ => sat && !b.inf
      | .nan _ => false)
  | .flt _, .int _ => (r, false)

/-- One element of a Q4 line: its bits in the destination. -/
def q4Element (dst : ElFmt) (rm : Rm) (sc : QScale) (code : Nat) : Option (Nat × Bool) :=
  match sc, dst with
  | .null, .flt _ => some (0, false)
  | .ok ty e, .flt f =>
    let v := (f.round rm false false (q4Num ty e code)).1
    some (v, f.nonFinite v)
  | _, _ => none

/-- Bytes that n records of a scale stream take from p. -/
def scaleEnd (byte : Nat → Nat) : Nat → Nat → Nat
  | 0, p => p
  | n + 1, p => scaleEnd byte n (if byte p / 4 % 16 = 8 then p + 2 else p + 1)

/-- An element read from a word: its bits. -/
def elemBitsAt (r : Layout) (j a : Nat) (t : TWord) : Nat :=
  let v := t.data.toNat / 256 ^ (a % 4)
  if r.elembits = 4 then v / 16 ^ (j % 2) % 16 else v % 2 ^ r.elembits

/-- What QCVT makes of one source element: its bits and whether it counts; none is poison. (DEDUCED, log 52) -/
def cvtOne (src dst : Layout) (rnd : Nat) (sat : Bool) (sc : Nat → QScale) (j v : Nat) : Option (Nat × Bool) :=
  match cvtFmt dst.fmt with
  | none => none
  | some d =>
    if src.fmt = 10 then q4Element d (rmOfCode rnd) (sc (j / 32)) v
    else match cvtFmt src.fmt with
      | some s => some (cvtElement s d (rmOfCode rnd) sat v)
      | none => none

/-- The words of a converted unit, with the count. -/
def Machine.cvtWords (m : Machine) (k : Nat) (c : Cmd) (src dst : Layout) (i row : Nat) (sc : Nat → QScale) :
    List (Nat × Nat × Nat) → GotAll
  | [] => .ok [] m
  | e :: rest =>
    let es := max 1 (dst.elembits / 8)
    let j0 := (e.1 + e.2.1 - row) / es
    let js := (List.range (e.2.2 / es)).map (j0 + ·)
    match m.quayWords k c (js.map fun j => (src, src.addr (src.at_ i j))) with
    | .fault x v s m => .fault x v s m
    | .ok ts m =>
      let outs := (js.zip ts).map fun x =>
        cvtOne src dst (c.op 1) ((c.op 2).testBit 8) sc x.1 (elemBitsAt src x.1 (src.addr (src.at_ i x.1)) x.2)
      let mism := ts.any fun t => !t.good && !t.poisoned
      let bad := ts.any (fun t => !t.good) || outs.any Option.isNone
      let v := ((outs.zipIdx).map fun o => ((o.1.map (·.1)).getD 0) * 256 ^ (e.2.1 + es * o.2)).sum
      let n := (outs.filter fun o => (o.map (·.2)).getD false).length
      let m := m.updCmd k fun c => { c with count := min (2 ^ 32 - 1) (c.count + (if bad then 0 else n)) }
      match (if mism then m.failCmd k 9 else m).cvtWords k c src dst i row sc rest with
      | .ok out m => .ok ((if bad then poisonWord else TWord.of (BitVec.ofNat 32 v)) :: out) m
      | x => x

/-- The scales of a Q4 source line: one per block; a record in a word that fails verification makes its block and those
after it poison. (DEDUCED, log 40) (DEDUCED, log 52) -/
def lineScales (src : Layout) (ws : List TWord) : Nat → QScale :=
  let byte := fun (b : Nat) => (byteOf (wordAt ws (b / 4)).data (b % 4)).toNat
  let scs := decodeScales byte (ceilDiv (src.dimAt 0) 32) 0 0
  fun b => if ((ws.take (ceilDiv (scaleEnd byte (b + 1) 0) 4)).any fun t => !t.good) then .malformed else scs.getD b .malformed

/-- A scale word that a line's blocks need mismatches its residue (R360). -/
def scalesMismatch (src : Layout) (ws : List TWord) : Bool :=
  let byte := fun (b : Nat) => (byteOf (wordAt ws (b / 4)).data (b % 4)).toNat
  (ws.take (ceilDiv (scaleEnd byte (ceilDiv (src.dimAt 0) 32) 0) 4)).any fun t => !t.good && !t.poisoned

/-- Read the scale records of a Q4 line word by word, up to its last record (R45). -/
def Machine.readScales (m : Machine) (k : Nat) (c : Cmd) (src : Layout) (i : Nat) : Nat → GotAll
  | 0 => .ok [] m
  | n + 1 =>
    match m.readScales k c src i n with
    | .fault x v s m => .fault x v s m
    | .ok ws m =>
      let byte := fun (b : Nat) => (byteOf (wordAt ws (b / 4)).data (b % 4)).toNat
      if scaleEnd byte (ceilDiv (src.dimAt 0) 32) 0 ≤ 4 * ws.length then .ok ws m
      else match m.quayWord k c src (src.scaleAddr i + 4 * n) with
        | .fault x v s m => .fault x v s m
        | .ok t m => .ok (ws ++ [t]) m

def Machine.cvtUnit (m : Machine) (k : Nat) (c : Cmd) (src dst : Layout) (u : Nat) : Machine :=
  let i := u / dst.lineSectors
  let q := u % dst.lineSectors
  let row := dst.addr (dst.at_ i 0)
  let es := lineWords row dst.rowBytes q
  match m.readScales k c src i (if src.fmt = 10 then src.slot / 4 else 0) with
  | .fault x v s m => m.suspendCmd k x v 0 1 s
  | .ok sw m =>
    match (if src.fmt = 10 && scalesMismatch src sw then m.failCmd k 9 else m).cvtWords k c src dst i row (lineScales src sw) es with
    | .ok ts m => m.endUnit k c dst u (row / 64 * 64 + 64 * q) (es.zip ts)
    | .fault x v s m => (m.undoCount k c).suspendCmd k x v 0 1 s

/-- The scale stream of a Q4 line from its exponent bytes (R48). -/
def scaleStream (ty : QType) : Int → List Int → List Nat
  | _, [] => []
  | e, s :: r =>
    let (b, abs, e') := scaleRecord ty e s
    b :: (abs.toList ++ scaleStream ty e' r)

/-- A Q4 block of a line: code words and the count; poison for a poisoned element or exponent. -/
def q4Block (ty : QType) (src : ElFmt) (s : Int) (sBad : Bool) (els : List (TWord × Nat)) : List TWord × Nat × Bool :=
  if sBad || els.any (fun e => !e.1.good) then
    (List.replicate 4 poisonWord, 0, els.any fun e => !e.1.good && !e.1.poisoned)
  else
    let num := fun (v : Nat) => match src with
      | .flt f => f.input false v
      | .int f => Num.ofInt (f.read v) 0 false
    let cs := if s = -128 then els.map fun _ => (0, false) else els.map fun e => quantise ty s (num e.2)
    let cs := (cs ++ List.replicate 32 (0, false)).take 32
    ((List.range 4).map fun w => TWord.of (BitVec.ofNat 32 (packEls 4 (((cs.drop (8 * w)).take 8).map (·.1)))),
      (cs.filter (·.2)).length, false)

/-- Some blocks of a Q4 line; those from a first one on are counted (R360). -/
def Machine.q4Blocks (m : Machine) (k : Nat) (c : Cmd) (src : Layout) (ty : QType) (i first : Nat) (ss : List (Int × Bool)) :
    List Nat → GotAll
  | [] => .ok [] m
  | b :: rest =>
    let js := (List.range (min 32 (src.dimAt 0 - 32 * b))).map (32 * b + ·)
    match m.quayWords k c (js.map fun j => (src, src.addr (src.at_ i j))) with
    | .fault x v s m => .fault x v s m
    | .ok ts m =>
      let els := (js.zip ts).map fun x => (x.2, elemBitsAt src x.1 (src.addr (src.at_ i x.1)) x.2)
      let (s, sBad) := ss.getD b (0, true)
      let (ws, n, mism) := q4Block ty ((cvtFmt src.fmt).getD (.flt fmF32)) s sBad els
      let m := (if mism then m.failCmd k 9 else m).updCmd k fun c => { c with count := min (2 ^ 32 - 1) (c.count + (if first ≤ b then n else 0)) }
      match m.q4Blocks k c src ty i first ss rest with
      | .ok out m => .ok (ws ++ out) m
      | x => x

/-- Sectors that the codes of a Q4 line can touch; parts of a line: those sectors, then the ones of its scale slot. -/
def Layout.q4Sectors (r : Layout) : Nat := ceilDiv (r.dimAt 0) 32 * 16 / 64 + 2
def Layout.q4Parts (r : Layout) : Nat := r.q4Sectors + r.slot / 64 + 2

/-- The scale slot of a line as it is written; a bad exponent poisons it (R48). -/
def q4SlotWords (dst : Layout) (ty : QType) (ss : List (Int × Bool)) : List TWord :=
  let bytes := scaleStream ty 0 (ss.map (·.1))
  (List.range (dst.slot / 4)).map fun w =>
    if ss.any (·.2) then poisonWord
    else TWord.of (BitVec.ofNat 32 ((List.range 4).map fun b => bytes.getD (4 * w + b) 0 * 256 ^ b).sum)

/-- Part p of line i of a conversion into Q4: one sector of its code words, whose blocks are encoded for it, or of its scale slot
(R48). A sector that is written is not written again (R296); a block is counted with its first byte. -/
def Machine.q4Unit (m : Machine) (k : Nat) (c : Cmd) (src dst side : Layout) (u : Nat) : Machine :=
  let i := u / dst.q4Parts
  let p := u % dst.q4Parts
  let n := ceilDiv (dst.dimAt 0) 32
  let ty := qtypeOf (c.op 0)
  let row := dst.addr (dst.at_ i 0)
  let sa := dst.scaleAddr i
  let codes := decide (p < dst.q4Sectors)
  let q := if codes then p else p - dst.q4Sectors
  let start := if codes then row else sa
  let es := lineWords start (if codes then 16 * n else dst.slot) q
  let base := start / 64 * 64 + 64 * q
  -- the blocks that the sector's words take
  let first := ((es.head?.map fun e => e.1 + e.2.1 - start).getD 0)
  let last := ((es.getLast?.map fun e => e.1 + e.2.1 + e.2.2 - start).getD 0)
  let bs := if codes then (List.range n).filter fun b => decide (16 * b < last) && decide (first < 16 * b + 16) else []
  let at_ := fun (b : Nat) => side.addr (side.at_ i b)
  if es.isEmpty then m.endUnit k c dst u base [] else
  match m.quayWords k c ((List.range n).map fun b => (side, at_ b)) with
  | .fault x v s m => m.suspendCmd k x v 0 1 s
  | .ok st m =>
    let ss := (st.zipIdx).map fun e => (sext 8 (elemBitsAt side e.2 (at_ e.2) e.1), !e.1.good)
    let m := if st.any fun t => !t.good && !t.poisoned then m.failCmd k 9 else m
    match m.q4Blocks k c src ty i (ceilDiv first 16) ss bs with
    | .fault x v s m => (m.undoCount k c).suspendCmd k x v 0 1 s
    | .ok ws m =>
      let from_ := 16 * bs.headD 0
      let word := fun (x : Nat) => if codes then ws.getD (x - from_ / 4) TWord.zero else (q4SlotWords dst ty ss).getD x TWord.zero
      m.endUnit k c dst u base (es.map fun e =>
        (e, if (e.1 + e.2.1 - start) % 4 = e.2.1 then word ((e.1 + e.2.1 - start) / 4)
          else shiftedWord e.2.1 e.2.2 word (e.1 + e.2.1 - start)))

/-! ### QTLOAD (R361) -/

def tableArea (c : Ctx) (slot : Nat) : Nat := c.saveBase + 0x10000 + 0x4000 * slot

/-- An entry of the unpack table is well formed. -/
def tableEntryOk (n e : Nat) : Bool :=
  let kind := e % 4
  let next := bits e 11 4
  if kind = 0 then bits e 30 4 == 0
  else decide (next < n / 16) && bits e 30 29 == 0 && !e.testBit 31 &&
    (match kind with
    | 1 => bits e 31 20 == 0
    | 2 => bits e 31 12 == 0
    | _ => decide (bits e 23 20 ≤ 8) && decide (bits e 28 24 ≤ 16))

/-- DEDUCED, log 53. -/
def Machine.tableUnit (m : Machine) (k : Nat) (c : Cmd) : Machine :=
  let addr := c.op 0 + c.op 1 * 2 ^ 32
  match Map.get m.ctxs c.ctx with
  | none => m
  | some x =>
    match m.quayWords k c ((List.range (c.op 2)).map fun i => (layoutOf [], addr + 4 * i)) with
    | .fault y v s m => m.suspendCmd k y v 0 1 s
    | .ok ts m =>
      let ok := ts.all fun t => t.good && tableEntryOk (c.op 2) t.data.toNat
      let m := if ok then m.setHomeWords (tableArea x (c.op 3)) ts
        else (m.failCmd k 10).setHomeWords (tableArea x (c.op 3)) (List.replicate 4096 TWord.zero)
      m.updCmd k fun c => { c with sectors := [0] }

/-! ### The run of a command (R352) -/

/-- Units of a command. (DEDUCED, log 51) -/
def Cmd.units (c : Cmd) : Nat :=
  let rs := c.recs.map layoutOf
  let dst := rs.headD (layoutOf [])
  match c.kind with
  | .qgath => dst.dimAt 1 * dst.gatherParts
  | .qred => dst.lines * dst.lineSectors
  | .qcvt => if dst.fmt = 10 then dst.lines * dst.q4Parts else dst.lines * dst.lineSectors
  | .qtload => 1
  | _ => 0

/-- An entry of ENQ.Q whose operands are still to be read (R393). -/
def Cmd.raw (c : Cmd) : Bool := c.ops.isEmpty && decide (20 ≤ c.queue) && decide (c.queue < 28)

/-- Whether a command runs on a quay engine. -/
def Cmd.onQuay (c : Cmd) : Bool := decide (20 ≤ c.queue) && decide (c.queue < 28) && c.kind != .buoy

/-- The first byte of a command's destination, of QTLOAD's table; of an entry still to be read, through its descriptor (R352). -/
def Machine.quayTarget (m : Machine) (c : Cmd) : Nat :=
  let field := fun (a at_ : Nat) => match m.readWords (engineKey quaySource 0) c.ctx (a + at_) quaySource 2 with
    | .ok ws _ => fieldAt ws 0 8
    | _ => 0
  if c.raw then
    let a := fieldAt (c.recs.headD []) 8 8
    if c.kind == .qtload then a else field (field a 0) 0
  else if c.kind == .qtload then c.op 0 + c.op 1 * 2 ^ 32
  else c.layout.base

/-- The home stack of an address of a context; stack 0 where no page maps it. (DEDUCED, log 51) -/
def Machine.quayStack (m : Machine) (ctx va : Nat) : Nat :=
  match (m.probe ctx va).1 with
  | .leaf l e => if pteBerth e = 0 then stackOf (pteAddr e + va % 2 ^ levelShift l) else 0
  | _ => 0

/-- Quay engines of a stack (R16). -/
def quayEngines : Nat := 4

/-- A free engine of the home stack of a command's destination, numbered from 1; a command that does not run holds none (R352). (DEDUCED, log 51) -/
def Machine.freeEngine (m : Machine) (c : Cmd) : Option Nat :=
  let stack := m.quayStack c.ctx (m.quayTarget c)
  ((List.range quayEngines).map (quayEngines * stack + 1 + ·)).find? fun n =>
    !(m.cmds.any fun (e : Nat × Cmd) => e.2.onQuay && e.2.state == .running && e.2.engine == n)

/-- The engine that works on a running command: the one it has, or a free one that it takes. -/
def Machine.seatCmd (m : Machine) (k : Nat) (c : Cmd) : Option (Cmd × Machine) :=
  if c.engine ≠ 0 then some (c, m)
  else (m.freeEngine c).map fun n => ({ c with engine := n }, m.updCmd k fun x => { x with engine := n })

/-- QUAY_COMMAND_RUN: a unit of a running command that is not done, in any order. -/
def execQuayCommandRun (s : State) : Host.Outcome State Fault Refusal :=
  runEvent s fun m arg => match arg with
    | .n2 k u =>
      match Map.get m.cmds k with
      | none => none
      | some c =>
        if !(c.state == .running && !c.raw && decide (u < c.units) && !c.sectors.contains u) then none
        else match m.seatCmd k c with
          | none => none
          | some (c, m) =>
            let rs := c.recs.map layoutOf
            let z := layoutOf []
            match c.kind with
            | .qgath => some (m.gatherUnit k c u)
            | .qred => some (m.redUnit k c u)
            | .qcvt => if (rs.getD 0 z).fmt = 10 then some (m.q4Unit k c (rs.getD 1 z) (rs.getD 0 z) (rs.getD 2 z) u)
              else some (m.cvtUnit k c (rs.getD 1 z) (rs.getD 0 z) u)
            | .qtload => some (m.tableUnit k c)
            | _ => none
    | _ => none

/-! ### The unpacker (R362 to R364) -/

/-- Bits [p, p + n) of the input, bits at or past INBITS read as 0; none when a word that holds one of them fails its
verification. -/
inductive InBits where
  | ok (v : Nat) (m : Machine)
  | bad (m : Machine)
  | fault (ctx va source : Nat) (m : Machine)

def Machine.inputBits (m : Machine) (k : Nat) (c : Cmd) (p n : Nat) : InBits :=
  let src := layoutOf (c.recs.getD 1 [])
  let inb := c.op 4
  let hi := min (p + n) inb
  if hi ≤ p then .ok 0 m
  else
    let a0 := src.base + p / 8
    let a1 := src.base + (hi - 1) / 8
    let as := (List.range (a1 / 4 - a0 / 4 + 1)).map fun i => (src, a0 / 4 * 4 + 4 * i)
    match m.quayWords k c as with
    | .fault x v s m => .fault x v s m
    | .ok ts m =>
      if ts.any fun t => !t.good then .bad m
      else
        let v := ((ts.zipIdx).map fun t => t.1.data.toNat * 2 ^ (32 * t.2)).sum
        .ok (v / 2 ^ (8 * (a0 % 4) + p % 8) % 2 ^ (hi - p)) m

/-- The frame byte of output byte o, already written, and whether its word verifies (R65). -/
def Machine.outByte (m : Machine) (c : Cmd) (o : Nat) : Byte × Bool :=
  let a := (layoutOf (c.recs.getD 0 [])).base + o
  let sh := c.shadow.bind fun h => (Map.get m.ctxs c.ctx).bind fun x => Map.get x.shadows h
  match sh.bind fun sh => sh.pages.find? fun p => p.1 == a / 65536 with
  | some p =>
    let t := (m.homeWord (p.2.1 + a % 65536 / 4 * 4)).1
    (byteOf t.data (a % 4), t.good)
  | none => (0, true)

/-- How a symbol goes on: emitted up to o, suspended, past the capacity, or the shadow did not take the byte. -/
inductive Emit where
  | ok (m : Machine) (o : Nat)
  | suspended (m : Machine)
  | overflow (m : Machine) (o : Nat)
  | lost (m : Machine)

/-- Emit one byte at o: the first byte of a word makes the rest of its word in the tensor zero (R362); a byte of a word that fails its
verification poisons the word that takes it (R23, R65). (DEDUCED, log 79) -/
def Machine.emitByte (m : Machine) (k : Nat) (c : Cmd) (b : Byte × Bool) (o : Nat) : Emit :=
  let dst := layoutOf (c.recs.getD 0 [])
  if dst.dimAt 0 ≤ o then .overflow m o
  else
    let a := dst.base + o
    let n := if a % 4 = 0 || o = 0 then min (4 - a % 4) (dst.dimAt 0 - o) else 1
    let clean := TWord.of (BitVec.ofNat 32 (b.1.toNat * 256 ^ (a % 4)))
    let word := if b.2 then clean else clean.poison
    match c.shadow with
    | none => .lost m
    | some h =>
      if !m.shadowTook c h [(a, 1)] then .lost (m.failCmd k 4)
      else match m.quayWrite k c dst a [(a, n, word)] with
        | (m, true) => .ok m (o + 1)
        | (m, false) => .suspended m

/-- Emit n bytes, each the output at a distance. -/
def Machine.emitCopy (m : Machine) (k : Nat) (c : Cmd) (dist : Nat) : Nat → Nat → Emit
  | 0, o => .ok m o
  | n + 1, o =>
    match m.emitByte k c (m.outByte c (o - dist)) o with
    | .ok m o => m.emitCopy k c dist n o
    | e => e

/-- The unpacker stops: with OK, or with UNPACK and a REASON at bit offset p with o bytes. (DEDUCED, log 53) -/
def Machine.stopUnpack (m : Machine) (k reason p o : Nat) : Machine :=
  m.updCmd k fun c =>
    let first := decide (reason ≠ 0) && c.code == 0
    { c with sectors := [0], code := if first then 8 else c.code, reason := if first then reason else c.reason
             poisoned := p, bytes := o }

/-- The table of a slot as a QUNPK finds it: 4096 entries, an entry that fails its verification absent. (DEDUCED, log 53) -/
def Machine.slotTable (m : Machine) (ctx slot : Nat) : List Word :=
  match Map.get m.ctxs ctx with
  | some x => ((m.homeWords (tableArea x slot) 4096).1).map fun t => if t.good then t.data else 0
  | none => []

/-- One symbol (R362), by the table that the command found at its first (R361). (DEDUCED, log 53) -/
def Machine.unpackSymbol (m : Machine) (k : Nat) (c : Cmd) : Machine :=
  let (st, p, o) := c.unp
  let inb := c.op 4
  if p = inb && st = 0 then m.stopUnpack k 0 p o
  else
    match m.inputBits k c p 4 with
    | .fault x v s m => m.suspendCmd k x v 0 1 s
    | .bad m => m.stopUnpack k 5 p o
    | .ok nib m =>
      let e := (c.table.getD (16 * st + nib) 0).toNat
      let kind := e % 4
      let used := e / 4 % 4 + 1
      let go := fun (em : Emit) (consumed : Nat) => match em with
        | .ok m o => m.updCmd k fun c => { c with unp := (bits e 11 4, p + consumed, o) }
        | .suspended m => m
        | .overflow m o => m.stopUnpack k 4 p o
        | .lost m => m.stopUnpack k 0 p o
      if kind = 0 && !e.testBit 31 then m.stopUnpack k 1 p o
      else if inb < p + used then m.stopUnpack k 3 p o
      else if kind = 0 then m.stopUnpack k 0 (p + used) o
      else if kind = 1 then go (m.emitByte k c (BitVec.ofNat 8 (bits e 19 12), true) o) used
      else if kind = 2 then go (.ok m o) used
      else
        let lx := bits e 23 20
        let dx := bits e 28 24
        if inb < p + used + lx + dx then m.stopUnpack k 3 p o
        else match m.inputBits k c (p + used) (lx + dx) with
          | .fault x v s m => m.suspendCmd k x v 0 1 s
          | .bad m => m.stopUnpack k 5 p o
          | .ok xy m =>
            let len := bits e 19 12 + 1 + xy % 2 ^ lx
            let dist := 1 + xy / 2 ^ lx
            if o < dist then m.stopUnpack k 2 p o
            else go (m.emitCopy k c dist len o) (used + lx + dx)

/-- QUNPK_SYMBOL: one symbol of a running QUNPK; the first takes the table of its slot whole. -/
def execQunpkSymbol (s : State) : Host.Outcome State Fault Refusal :=
  runEvent s fun m arg => match arg with
    | .n k =>
      match Map.get m.cmds k with
      | some c =>
        if !(c.kind == .qunpk && c.state == .running && !c.raw && c.sectors.isEmpty) then none
        else (m.seatCmd k c).map fun x =>
          let c := if x.1.table.isEmpty then { x.1 with table := x.2.slotTable x.1.ctx (x.1.op 3) } else x.1
          (x.2.updCmd k fun y => { y with table := c.table }).unpackSymbol k c
      | none => none
    | _ => none

end Sys2Proof.Machine
end

