-- ==== Sys2Proof/Machine/Link.lean ====
section
/-! DEFINITION. The link instructions (R401 to R415): NPUT, NGET and NATOM with the network engine's work on them, BOPEN and
BREVOKE with the harbour master's answers. -/

namespace Sys2Proof.Machine

open Sys2Proof

def netSource : Nat := 4

/-! ### Issue of NPUT, NGET, NATOM (R412 to R414) -/

/-- The remote pair: berth number and offset (R412). -/
def W.remoteBerth (w : W) (gr : Nat) : Nat := w.gWord (2 * gr + 1) / 2 ^ 20

def W.remoteOff (w : W) (gr : Nat) : Nat := w.gWord (2 * gr) + w.gWord (2 * gr + 1) % 2 ^ 20 * 2 ^ 32

/-- An import berth of the owner (R412). -/
def W.importBerth (w : W) (b : Nat) : Bool :=
  match Map.get w.m0.berths b, w.ctx with
  | some r, some c => r.import_ && r.owner == c.owner && r.state != .free
  | _, _ => false

/-- The checks of a link command in the order of R416: MASK, PROT of the queue, the G words, ILLEGAL of the byte count and of a
berth that is no import of the owner, ALIGN. Operands: local address, remote offset, berth, and the command's own (R412).
(DEDUCED, log 54) (DESIGN CHOICE, log 13) -/
def W.link (w : W) (kind : CmdKind) (q gl gr localAlign remoteAlign : Nat) (bad : Bool) (own : List Word) (c : Ctx) :
    Except Act (W × Command) := do
  let a := w.pair gl
  let off := w.remoteOff gr
  let body := if kind = .natom then own.drop 1 else own
  let b := w.remoteBerth gr
  w.check (firstTrap [w.needFull, w.queueClosed c (linkQ q) q, w.checkUni w.u.us, w.illegal (bad || !w.importBerth b),
    alignAt a localAlign, alignAt off remoteAlign])
  return (w, {
    q := linkQ q
    entry := entryWords kind false w.g.gid w.g.batch 0 a 0 0 ([(w.uni (2 * gr)).data, (w.uni (2 * gr + 1)).data] ++ body)
    fill := fun cmd => { cmd with kind := kind, ops := words64 a ++ words64 off ++ [BitVec.ofNat 32 b] ++ own } })

/-- G[n] bytes: a multiple of 4 from 4 to 2^30 (R413). -/
def linkLenBad (n : Nat) : Bool := n % 4 != 0 || decide (n < 4) || decide (2 ^ 30 < n)

/-- NPUT's command (R413). -/
def W.nput (w : W) (f : NputF) (c : Ctx) : Except Act (W × Command) :=
  let n := w.gWord f.gn.val
  w.link .nput f.q.val f.gl.val f.gr.val 4 4 (linkLenBad n) [BitVec.ofNat 32 n, if f.pub then 1 else 0] c

/-- NPUT. -/
def execNput (f : NputF) (s : State) : Host.Outcome State Fault Refusal :=
  runWord (.nput f) s fun w => w.inCtx 0 fun c => Command.issue c (w.nput f c)

/-- NGET's command (R413). -/
def W.nget (w : W) (f : NgetF) (c : Ctx) : Except Act (W × Command) :=
  let n := w.gWord f.gn.val
  w.link .nget f.q.val f.gl.val f.gr.val 4 4 (linkLenBad n) [BitVec.ofNat 32 n] c

/-- NGET. -/
def execNget (f : NgetF) (s : State) : Host.Outcome State Fault Refusal :=
  runWord (.nget f) s fun w => w.inCtx 0 fun c => Command.issue c (w.nget f c)

/-- NATOM's command: the operand words of the atomic are taken at issue (R414). -/
def W.natom (w : W) (f : NatomF) (c : Ctx) : Except Act (W × Command) :=
  let v := (List.range 4).map fun i => (w.uni (4 * f.gv.val + i)).data
  w.link .natom f.q.val f.gl.val f.gr.val 16 8 false ((match f.op with
    | .add => 0
    | .cas => 1) :: v) c

/-- NATOM. -/
def execNatom (f : NatomF) (s : State) : Host.Outcome State Fault Refusal :=
  runWord (.natom f) s fun w => w.inCtx 0 fun c => Command.issue c (w.natom f c)

/-! ### The network engine's work (R405, R408, R413, R414) -/

def Cmd.link (c : Cmd) : Bool := c.kind == .nput || c.kind == .nget || c.kind == .natom

def Cmd.localVa (c : Cmd) : Nat := c.op 0 + c.op 1 * 2 ^ 32
def Cmd.remoteOff (c : Cmd) : Nat := c.op 2 + c.op 3 * 2 ^ 32
def Cmd.remoteBerth (c : Cmd) : Nat := c.op 4

/-- How a piece of a link command ends. -/
inductive LinkEnd where
  | ok (m : Machine)
  /-- its result record is written, and the command fails. -/
  | part (m : Machine) (code : Nat)
  | fail (m : Machine) (code : Nat)
  | fault (ctx va access kind source : Nat)

def Machine.ownerOf (m : Machine) (ctx : Nat) : Nat := ((Map.get m.ctxs ctx).map (·.owner)).getD 16

/-- One word of a command's local side: a page with BERTH 0 (R412). -/
def Machine.localPlace (m : Machine) (c : Cmd) (va : Nat) (k : Access) : Place × Machine :=
  match m.place (engineKey netSource 0) c.ctx va 4 k netSource with
  | (.pa pa pri, m) => (.pa pa pri, m)
  | (.fault x v s, m) => (.fault x v s, m)
  | (.prot l e, m) => (.prot l e, m)
  | (_, m) => (.prot 0 .permission, m)

/-- One word of NPUT at byte n: local read, remote write; the last word of .PUB publishes (R405, R413). -/
def Machine.putWord (m : Machine) (c : Cmd) (n : Nat) : LinkEnd :=
  match m.localPlace c (c.localVa + n) .read with
  | (.fault x v s, _) => .fault x v 0 1 s
  | (.pa pa leaf, m) =>
    let (ts, m) := m.homeWordsPri pa (m.placePri c.ctx (c.localVa + n) (.pa pa leaf) plainPri) 1
    let t := wordAt ts 0
    let last := decide (n + 4 = c.op 5) && c.op 6 == 1
    match m.berthPlace (m.ownerOf c.ctx) c.remoteBerth (c.remoteOff + n) 4 .write with
    | (.remote path rkey off, m) => .ok (m.send (.rdma path (if last then 4 else 1) rkey off 4 [t]))
    | (.window b pa off, m) => match m.writeWindow b pa off 4 [t] (m.windowPri b off plainPri) with
      | .done m =>
        if last then match m.publishes b with
          | (true, m) => .ok m
          | (false, m) => .part m 4
        else .ok m
      | .fault x v kind => .fault x v 1 kind netSource
      | .refused => .fail m 5
      | .gone m => .fail m 4
    | (.fault x v s, _) => .fault x v 1 1 s
    | (.prot _ _, m) => .fail m 1
    | (_, m) => .fail m 5
  | (_, m) => .fail m 1

/-- One word of NGET at byte n: the remote word is written locally at DEVICE scope. -/
def Machine.getWord (m : Machine) (c : Cmd) (n : Nat) : LinkEnd :=
  match m.localPlace c (c.localVa + n) .write with
  | (.fault x v s, _) => .fault x v 1 1 s
  | (.pa pa pri, m) =>
    match m.berthPlace (m.ownerOf c.ctx) c.remoteBerth (c.remoteOff + n) 4 .read with
    | (.fault x v s, _) => .fault x v 0 1 s
    | (.prot _ _, m) => .fail m 1
    | (p, m) => match m.readPlace p 1 (m.placePri c.ctx 0 p plainPri) with
      | some (ws, m) => .ok (m.homeBytes pa 4 ws (m.placePri c.ctx (c.localVa + n) (.pa pa pri) plainPri))
      | none => .fail m 5
  | (_, m) => .fail m 1

/-- NATOM: the atomic at the remote home, then the result record: OLD and STATUS first, then DONE (R414). -/
def Machine.atomRemote (m : Machine) (c : Cmd) : LinkEnd :=
  match m.localPlace c c.localVa .write with
  | (.fault x v s, _) => .fault x v 1 1 s
  | (.pa pa leaf, m) =>
    let pri := m.placePri c.ctx c.localVa (.pa pa leaf) plainPri
    let v := (List.range 4).map fun i => TWord.of (c.ops.getD (6 + i) 0)
    let op : AtomOp := if c.op 5 = 0 then .addD else .casD
    let acc : Acc := { core := 0, ctx := c.ctx, pri := pri, lu := false, order := none }
    let write := fun (m : Machine) (old : List TWord) (status : Word) =>
      (m.homeBytes pa 12 (old ++ [TWord.of status]) pri).homeBytes (pa + 12) 4 [TWord.of 1#32] pri
    -- the record says REVOKED, and so does the command's status (R408, R414)
    let refused := fun (m : Machine) => LinkEnd.part (write m [TWord.zero, TWord.zero] 5#32) 5
    match m.berthPlace (m.ownerOf c.ctx) c.remoteBerth c.remoteOff 8 .atomic with
    | (.fault x v s, _) => .fault x v 2 1 s
    | (.window b q off, m) => match m.atomPlace acc 0 (.window b q off) op v with
      | (.old ws, m) => .ok (write m ws 0)
      -- a word that fails at the home: the spec states neither OLD nor STATUS (DESIGN CHOICE, log 7)
      | (_, m) => let (ws, m) := m.netWords 3
                  .ok (write m (ws.take 2) (wordAt ws 2).data)
    | (.remote path rkey off, m) => match m.atomPlace acc 0 (.remote path rkey off) op v with
      | (.old ws, m) => .ok (write m ws 0)
      | (_, m) => refused m
    | (.prot _ _, m) => .part (write m [TWord.zero, TWord.zero] 1#32) 1
    | (_, m) => refused m
  | (_, m) => .fail m 1

/-- Words of a transfer from byte n on; progress is kept in COUNT, the bytes moved. (DEDUCED, log 54) -/
def Machine.linkWords (m : Machine) (k : Nat) (c : Cmd) (word : Machine → Nat → LinkEnd) : Nat → Nat → Machine
  | 0, n => m.updCmd k fun c => { c with count := n, sectors := [0] }
  | left + 1, n =>
    match word m n with
    | .ok m => m.linkWords k c word left (n + 4)
    | .part m code => (m.updCmd k fun c => { c with count := n + 4, sectors := [0] }).failCmd k code
    | .fail m code => (m.updCmd k fun c => { c with count := n, sectors := [0] }).failCmd k code
    | .fault x v access kind s => (m.updCmd k fun c => { c with count := n }).suspendCmd k x v access kind s

/-- Run a link command up to its end, or to a page that it waits for. (DEDUCED, log 54) -/
def Machine.runLink (m : Machine) (k : Nat) (c : Cmd) : Machine :=
  let done := fun (m : Machine) => m.updCmd k fun c => { c with sectors := [0] }
  match c.kind with
  | .nput => m.linkWords k c (fun m n => m.putWord c n) ((c.op 5 - c.count) / 4) c.count
  | .nget => m.linkWords k c (fun m n => m.getWord c n) ((c.op 5 - c.count) / 4) c.count
  | .natom => match m.atomRemote c with
    | .ok m => done m
    | .part m code => done (m.failCmd k code)
    | .fail m code => done (m.failCmd k code)
    | .fault x v access kind s => m.suspendCmd k x v access kind s
  | _ => m

/-- The writes of one NPUT come before those of a later NPUT of its queue to the same berth (R413). -/
def Machine.linkTurn (m : Machine) (c : Cmd) : Bool :=
  c.kind != .nput || !(m.cmds.any fun (e : Nat × Cmd) =>
    e.2.ctx == c.ctx && e.2.queue == c.queue && e.2.kind == .nput && e.2.state != .done && decide (e.2.entry < c.entry) &&
    e.2.remoteBerth == c.remoteBerth)

/-! ### BOPEN and BREVOKE (R403, R407, R415) -/

/-- PROT of a request block: its page must be local memory that the answer may be written to (R415, R416). (DEDUCED, log 55) -/
def W.blockTrap (w : W) (a : Nat) : Option Trap :=
  match (w.m.place w.g.core w.g.ctx (a + 0x20) 16 .write w.g.source).1 with
  | .pa _ _ | .fault _ _ _ => none
  | .prot l c => some (protTrap a l c)
  | _ => some (protTrap a 0 .permission)

/-- The request block's first 32 bytes; a block with a word that fails its check holds no request (R416). (DEDUCED, log 55) -/
def W.request (w : W) (ga : Nat) (k : W → Ctx → Nat → List Word → Act) : Act :=
  match w.ctx with
  | none => w.trapAt (protTrap 0 0 .permission)
  | some c =>
    let a := w.pair ga
    w.guard (firstTrap [w.needFull, w.checkUni w.u.us, alignAt a 64, w.blockTrap a])
      (if w.acquireParked then .hold else w.releasing
        (match (w.release .device).readWords a 8 with
        | .error e => e
        | .ok (ws, w) => k w c a (if ws.all TWord.good then ws.map (·.data) else [])))

/-- BOPEN: the block goes to the harbour master, which answers by BOPEN_ANSWER. -/
def execBopen (f : BreqF) (s : State) : Host.Outcome State Fault Refusal :=
  runWord (.bopen f) s fun w => w.request f.ga.val fun w _ a ws =>
    ({ w with m := { w.m with hmReqs := w.m.hmReqs ++ [{ ctx := w.g.ctx, addr := a, open_ := true, words := ws }] } } : W).done

/-- A BREVOKE that is carried out: an OPEN berth of the owner. CLOSE is implied for a retired number. -/
def Machine.revoke (m : Machine) (b : Nat) (r : Berth) (close : Bool) (ctx addr : Nat) : Machine :=
  let n := r.nextGen
  let old := if r.import_ then r.rkey else berthKey r.owner b r.gen
  { m with berths := Map.set m.berths b { n with state := .revoking, revoke := some (close || n.retired, ctx, addr, old, false) } }

/-- BREVOKE: GEN of an OPEN berth of the owner rises; every other request waits for the harbour master's answer. -/
def execBrevoke (f : BreqF) (s : State) : Host.Outcome State Fault Refusal :=
  runWord (.brevoke f) s fun w => w.request f.ga.val fun w c a ws =>
    let b := (ws.getD 0 0).toNat
    let w1 := (ws.getD 1 0).toNat
    let ok := ws.length == 8 && decide (w1 < 2) && ((ws.drop 2).all (· == 0))
    let later := ({ w with m := { w.m with hmReqs := w.m.hmReqs ++ [{ ctx := w.g.ctx, addr := a, open_ := false, words := ws }] } } : W).done
    match Map.get w.m.berths b with
    | some r => if ok && r.owner == c.owner && r.state == .opened then
        ({ w with m := w.m.revoke b r (w1 == 1) w.g.ctx a } : W).done else later
    | none => later

/-! ### The harbour master's answers -/

/-- Write the answer part of a request block: STATUS, ID, KEY, then DONE with release (R415); none when its page is not
valid now, which is reported. (DEDUCED, log 55) -/
def Machine.answerBlock (m : Machine) (ctx addr status id : Nat) (key : Word) : Option Machine :=
  match m.place (engineKey netSource 0) ctx (addr + 0x20) 16 .write netSource with
  | (.pa pa _, m) =>
    some ((m.setHomeData pa [BitVec.ofNat 32 status, BitVec.ofNat 32 id, key]).setHomeData (pa + 12) [1#32])
  | (.fault _ _ _, _) => none
  | (_, m) => some m

/-- The page of a block that cannot be written is reported (R292). -/
def Machine.blockFault (m : Machine) (ctx addr : Nat) : Machine := m.reportFault ctx (addr + 0x20) 1 1 netSource

/-- Fields of a berth record in a request (R401). -/
def berthOfWords (ws : List Word) (owner ctx : Nat) : Berth :=
  let n := fun k => (ws.getD k 0).toNat
  { base := n 0 + n 1 * 2 ^ 32, size := n 2 + n 3 * 2 ^ 32, owner := owner, import_ := (n 4).testBit 4, shadowed := (n 4).testBit 5
    perm := BitVec.ofNat 3 (bits (n 4) 8 6), state := .opened, ctx := if (n 4).testBit 4 then 0 else ctx, peers := BitVec.ofNat 16 (n 5 % 65536)
    gen := 0, path := n 6 % 65536, rid := n 6 / 65536, rkey := ws.getD 7 0, retired := false, revoke := none, shadow := none
    used := [] }

/-- The form of a BOPEN record: reserved fields, OWNER, STATE, CTXID and GEN zero, BASE and SIZE as R401 states. (DEDUCED, log 55) -/
def openFormOk (ws : List Word) : Bool :=
  let n := fun k => (ws.getD k 0).toNat
  let r := berthOfWords ws 0 0
  bits (n 4) 3 0 == 0 && bits (n 4) 31 9 == 0 && n 5 / 65536 == 0 && r.size % 65536 == 0 && r.size != 0 &&
  (if r.import_ then r.base == 0 else r.base % 65536 == 0)

/-- Every page of an export's window is mapped with BERTH 0, allows PERM, and has S = 1 for SHADOWED (R415). -/
def Machine.windowOk (m : Machine) (ctx : Nat) (r : Berth) : Bool :=
  (List.range (r.size / 65536)).all fun i =>
    decide (r.base + 65536 * i < 2 ^ 57) && match (m.probe ctx (r.base + 65536 * i)).1 with
    | .leaf _ e => pteBerth e == 0 && (!r.perm.getLsbD 0 || pteR e) && (!r.perm.getLsbD 1 || pteW e) &&
        (!r.perm.getLsbD 2 || (pteR e && pteW e)) && (!r.shadowed || pteS e)
    | _ => false

/-- The lowest free berth number that is not retired. (DEDUCED, log 55) -/
def Machine.freeBerth (m : Machine) : Option Nat :=
  (List.range 4095).findSome? fun i =>
    match Map.get m.berths (i + 1) with
    | none => some (i + 1)
    | some r => if r.state == .free && !r.retired && r.revoke.isNone then some (i + 1) else none

/-- The answer to a BOPEN: status, and the berth when it is granted. (DEDUCED, log 55) -/
def Machine.openBerth (m : Machine) (q : HmReq) : Nat × Option (Nat × Berth) :=
  let o := m.ownerOf q.ctx
  let r := berthOfWords q.words o q.ctx
  let allowed := if r.import_ then r.path == 0xFFFF || (match Map.get m.paths r.path with
      | some p => p.owner == o
      | none => false) else m.windowOk q.ctx r
  if !openFormOk q.words then (3, none)
  else if !allowed then (1, none)
  else match m.freeBerth with
    | none => (2, none)
    | some b => (0, some (b, { r with gen := ((Map.get m.berths b).map (·.gen)).getD 0 }))

/-- Take a request off the harbour master's list. -/
def Machine.dropReq (m : Machine) (q : HmReq) : Machine := { m with hmReqs := m.hmReqs.erase q }

/-- BOPEN_ANSWER: the first BOPEN that waits, or the one of a context. -/
def execBopenAnswer (s : State) : Host.Outcome State Fault Refusal :=
  runEvent s fun m arg =>
    let hit := fun (q : HmReq) => q.open_ && (match arg with
      | .n ctx => q.ctx == ctx
      | _ => true)
    match m.hmReqs.find? hit with
    | none => none
    | some q =>
      let (status, grant) := m.openBerth q
      let key := match grant with
        | some (b, r) => if r.import_ then 0#32 else berthKey r.owner b r.gen
        | none => 0#32
      match m.answerBlock q.ctx q.addr status ((grant.map (·.1)).getD 0) key with
      | none => some (m.blockFault q.ctx q.addr)
      | some m => some (match grant with
        | some (b, r) => { (m.dropReq q) with berths := Map.set m.berths b r }
        | none => m.dropReq q)

/-- OPEN shadows of the exporting context whose footprint the berth's window holds become BROKEN (R258). (DEDUCED, log 42) -/
def Machine.breakShadows (m : Machine) (r : Berth) : Machine :=
  if r.import_ then m
  else m.updCtx r.ctx fun c => { c with shadows := c.shadows.map fun (e : Nat × Shadow) =>
    if e.2.state == .open_ && e.2.foot.any fun p => decide (p.1 < r.base + r.size) && decide (r.base < p.1 + p.2) then
      (e.1, { e.2 with state := .broken }) else e }

/-- BERTH_REVOKE_IN_FORCE: every port and local agent refuses the old key from now on (R407). (DEDUCED, log 42) -/
def execBerthRevokeInForce (s : State) : Host.Outcome State Fault Refusal :=
  runEvent s fun m arg => match arg with
    | .n b =>
      match Map.get m.berths b with
      | some r => match r.revoke with
        | some (close, ctx, addr, old, false) =>
          some (({ m with berths := Map.set m.berths b { r with revoke := some (close, ctx, addr, old, true) } } : Machine).breakShadows r)
        | _ => none
      | none => none
    | _ => none

/-- Notices of a revocation, on every queue pair that carried an accepted operation (R407). -/
def Machine.sendNotices (m : Machine) (qps : List Nat) (key : Word) : Machine :=
  qps.foldl (fun (m : Machine) q => m.send (.notice q key)) m

/-- The answer to a BREVOKE that was not carried out: a STALE import closes; else DENIED or BADREQ. (DEDUCED, log 55) -/
def Machine.refuseRevoke (m : Machine) (q : HmReq) : Nat × Machine :=
  let b := (q.words.getD 0 0).toNat
  let w1 := (q.words.getD 1 0).toNat
  let ok := q.words.length == 8 && decide (w1 < 2) && ((q.words.drop 2).all (· == 0))
  match Map.get m.berths b with
  | some r =>
    if !ok then (3, m)
    else if r.owner != m.ownerOf q.ctx then (1, m)
    else if r.state == .stale && w1 == 1 then (0, { m with berths := Map.set m.berths b { r with state := .free } })
    else if r.state == .opened then (0, m.revoke b r (w1 == 1) q.ctx q.addr)
    else (3, m)
  | none => (if ok && decide (1 ≤ b) && decide (b ≤ 4095) then 1 else 3, m)

/-- Operations on a berth's window that were accepted and wait for one of its pages: parked lanes, suspended commands (R407). -/
def Machine.windowBusy (m : Machine) (b : Nat) (r : Berth) : Bool :=
  let inside := fun (ctx va : Nat) => ctx == r.ctx && decide (r.base ≤ va) && decide (va < r.base + r.size)
  !r.import_ &&
  ((m.parked.any fun (e : Nat × Parked) => e.2.ofLane && inside e.2.ctx e.2.va && match Map.get m.groups e.2.group with
    | some g => m.exporterOf (m.berthAt g.ctx e.2.ova) == some b
    | none => false) ||
   m.cmds.any fun (e : Nat × Cmd) => e.2.state != .done && (match e.2.fault with
    | some (ctx, va, _) => inside ctx va
    | none => false) && m.exporterOf (if e.2.link then e.2.remoteBerth else e.2.layout.berth) == some b)

/-- BERTH_REVOKE_DONE: a revocation in force drops the window's shadow, sends its notices and writes DONE (R403, R407); with
no berth named, the first BREVOKE that was not carried out is answered. -/
def execBerthRevokeDone (s : State) : Host.Outcome State Fault Refusal :=
  runEvent s fun m arg => match arg with
    | .n b =>
      match Map.get m.berths b with
      | some r => match r.revoke with
        | some (close, ctx, addr, old, true) =>
          if m.windowBusy b r then none else
          let key := if r.import_ then 0#32 else berthKey r.owner b r.gen
          match m.answerBlock ctx addr 0 b key with
          | none => some (m.blockFault ctx addr)
          | some m =>
            let m := (m.dropWindow b).sendNotices r.used old
            some { m with berths := Map.upd m.berths b fun r =>
              { r with state := if close then .free else .opened, revoke := none, used := [] } }
        | _ => none
      | none => none
    | _ =>
      match m.hmReqs.find? fun q => !q.open_ with
      | none => none
      | some q =>
        let (status, m1) := m.refuseRevoke q
        let started := match Map.get m1.berths (q.words.getD 0 0).toNat with
          | some r => r.state == .revoking
          | none => false
        if status = 0 && started then some (m1.dropReq q)
        else match m1.answerBlock q.ctx q.addr status (q.words.getD 0 0).toNat 0#32 with
          | none => some (m.blockFault q.ctx q.addr)
          | some m => some (m.dropReq q)

end Sys2Proof.Machine
end

