-- ==== Sys2Proof/Machine/System.lean ====
section
/-! DEFINITION. The system instructions (R378 to R383): TRAP, BREAK, SWR, SAVEPT, and the return from a trap, RETT. -/

namespace Sys2Proof.Machine

open Sys2Proof

/-! ### TRAP, BREAK (R380) -/

/-- TRAP and BREAK: performed, then the trap; with no lane that is no helper nothing happens. -/
def W.software (w : W) (code : TrapCode) (imm : Nat) : Act :=
  if w.real = 0 then w.done else w.trapAt { code := code, info := imm }

/-- TRAP. -/
def execTrap (f : TrapF) (s : State) : Host.Outcome State Fault Refusal :=
  runWord (.trap f) s fun w => w.software .trapi f.imm.toNat

/-- BREAK: only in a DEBUG context. -/
def execBrk (f : TrapF) (s : State) : Host.Outcome State Fault Refusal :=
  runWord (.brk f) s fun w =>
    if (w.ctx.map (·.debug)).getD false then w.software .brk f.imm.toNat else w.done

/-! ### SWR (R381) -/

/-- A special register takes a word; fields marked RO keep their value (R37, R70, R322, R327). -/
def Group.writeSReg (g : Group) (r : SReg) (v : Word) : Group :=
  match r with
  | .fpc => { g with fpc := v &&& 0x1F7#32 }
  | .domctl => { g with domctl := v &&& 0xFFFF0001#32 }
  | .finj => { g with finj := v &&& 0x3FFFF#32 }
  | .ht0 => { g with ht := g.ht.set 0 (TWord.of v) }
  | .ht1 => { g with ht := g.ht.set 1 (TWord.of v) }
  | .ht2 => { g with ht := g.ht.set 2 (TWord.of v) }
  | .ht3 => { g with ht := g.ht.set 3 (TWord.of v) }
  | .evec => { g with evec := v }
  | .deadline => { g with deadline := v }
  | _ => g

/-- SWR: the leader's value. -/
def execSwr (f : SwrF) (s : State) : Host.Outcome State Fault Refusal :=
  runWord (.swr f) s fun w =>
    w.guard w.untyped
      (match w.leader with
      | none => w.done
      | some l => w.guard (w.checkSrcs [0]) ((w.upd fun g => g.writeSReg f.s (w.srcAt 0 l).data).done))

/-! ### SAVEPT (R382) -/

/-- Every lane of the group in any mask. -/
def Group.present (g : Group) : Mask := g.stack.foldl (fun m e => m ||| e.mask) 0

/-- SAVEPT. (DEDUCED, log 67) -/
def execSavept (f : SaveptF) (s : State) : Host.Outcome State Fault Refusal :=
  runWord (.savept f) s fun w =>
    w.guard (firstTrap [w.illegal (decide (w.g.nregs < f.live.val)), w.lwait])
      (if ((w.ctx.map (·.preq)).getD false) && w.mask == w.g.present then (w.park .savept).done else w.done)

/-! ### RETT (R383) -/

/-- The frame addresses of a context: of its group images, and of the lighter frames of its block images (R369). -/
def isFrame (c : Ctx) (a : Nat) : Bool :=
  let at_ := fun (lo step n : Nat) => decide (lo ≤ a) && (a - lo) % step == 0 && decide ((a - lo) / step < n)
  at_ (groupFrame c 0) 0x40000 c.ngimg ||
  (let lo := lighterFrame c 0 0
   decide (lo ≤ a) && decide ((a - lo) / 0x800000 < c.nbimg) && (a - lo) % 0x10000 == 0 && decide ((a - lo) % 0x800000 / 0x10000 < 32))

/-- The context of the issuing owner that a frame address belongs to. -/
def Machine.frameCtx (m : Machine) (owner a : Nat) : Option (Nat × Ctx) :=
  m.ctxs.find? fun (e : Nat × Ctx) => e.2.owner == owner && isFrame e.2 a

/-- The group or lighter that is trapped with a frame. -/
def Machine.trappedAt (m : Machine) (ctx a : Nat) : Option (Nat × Group) :=
  m.groups.find? fun (e : Nat × Group) => e.2.ctx == ctx && e.2.status == .trapped a

/-- Replay entry i of a frame (R374). -/
def Machine.readReplay (m : Machine) (frame i width sid : Nat) : Replay :=
  let base := replayAddr frame i
  let w := fun (off : Nat) => (m.homeWord (base + off)).1.data
  let byte := fun (off : Nat) => (byteOf (w (off / 4 * 4)) (off % 4)).toNat
  let nib := fun (off l : Nat) => byte (off + l / 2) / 16 ^ (l % 2) % 16
  let n := min 8 (byte 8)
  { pc := nat64 (w 0) (w 4)
    words := (List.range n).map fun k => w (0x10 + 4 * k)
    mask := BitVec.ofNat 128 ((List.range 4).map fun k => (w (0x30 + 4 * k)).toNat * 2 ^ (32 * k)).sum
    sid := sid
    cap := {
      slots := (List.range 5).map fun s => (s, (List.range width).map fun l =>
        { data := w (0x100 + 512 * s + 4 * l), res := BitVec.ofNat 4 (nib (0xB00 + 64 * s) l) })
      uniforms := (List.range 8).map fun k => { data := w (0x40 + 4 * k), res := BitVec.ofNat 4 (nib 0x60 k) }
      tags := (List.range 5).map fun k => BitVec.ofNat 8 (byte (0x64 + k)) } }

/-- STATE of a frame, and its byte fields. -/
def Machine.frameByte (m : Machine) (frame off : Nat) : Nat := (byteOf (m.homeWord (frame + off / 4 * 4)).1.data (off % 4)).toNat

/-- Write one byte field of a frame (R66). -/
def Machine.setFrameByte (m : Machine) (frame off v : Nat) : Machine :=
  let (t, m) := m.homeWord (frame + off / 4 * 4)
  m.setHomeWord (frame + off / 4 * 4) (setWordByte t (off % 4) (BitVec.ofNat 8 v))

/-- A group takes its frame back: its replay entries without the first `skip`, or the PC of a frame with none; the frame is
free (R383). -/
def Machine.resumeGroup (m : Machine) (gk : Nat) (g : Group) (frame skip : Nat) : Machine :=
  let n := min 16 (m.frameByte frame 4)
  let rs := ((List.range n).drop skip).map fun i => m.readReplay frame i g.width g.trapSid
  let pc := nat64 (m.homeWord (frame + 0x10)).1.data (m.homeWord (frame + 0x14)).1.data
  m.updGroup gk fun g =>
    let g := { g with status := .live, replay := rs }
    if n = 0 then g.updEntry g.trapSid fun e => { e with pc := pc, park := none, held := false } else g

/-- Give the frame of a lighter back to its block. -/
def Machine.freeFrame (m : Machine) (g : Group) (gk : Nat) : Machine :=
  if g.lighter.isSome then
    m.updBlock g.block fun b => { b with lframes := b.lframes.filter fun e => e.2 != gk }
  else m

/-- Strands whose RETT waits for a group that is trapped no more continue (R383). (DEDUCED, log 22) -/
def Machine.wakeRett (m : Machine) : Machine :=
  let done := fun (p : Park) => match p.why with
    | .rett gk => match Map.get m.groups gk with
      | some g => match g.status with
        | .trapped _ => false
        | _ => true
      | none => true
    | _ => false
  { m with groups := m.groups.map fun (e : Nat × Group) =>
      (e.1, { e.2 with stack := e.2.stack.map fun x => if (x.park.map done).getD false then { x with park := none } else x }) }

/-- Apply a mode to a trapped group of a RUNNING context; STATE of the frame becomes 0, and a lighter that waited for the frame
may take it (R350, R383). FAULT takes the frame back, then the context is FAULTED with the group saved. (DEDUCED, log 22) -/
def Machine.applyMode (m : Machine) (gk : Nat) (g : Group) (frame mode : Nat) : Machine :=
  let m := (m.setFrameByte frame 7 0).freeFrame g gk
  let m := match mode with
  | 0 => m.resumeGroup gk g frame 0
  | 1 => m.resumeGroup gk g frame 1
  | 2 =>
    let m := match g.lighter with
      | some l => m.failCmd l.cmd 7
      | none => m
    m.retireGroup gk
  | _ => (m.resumeGroup gk g frame 0).faultContext g.ctx
  (if g.lighter.isSome then m.nextTrap g.block else m).wakeRett

/-- RETT: release, the frame's STATE, the mode applied, or recorded in the frame (R374) and kept for the restore, Pd; the strand
parks until the target has taken a recorded mode (R383). (DEDUCED, log 22) -/
def W.rett (w : W) (f : RettF) (mode : Nat) : Act :=
  match w.ctx with
  | none => w.trapAt (protTrap 0 0 .permission)
  | some own =>
    let a := w.pair f.gf.val
    if w.leader.isNone then w.done
    else w.guard (firstTrap [w.lwait, w.checkUni w.u.us, alignAt a 65536,
        if (w.m0.frameCtx own.owner a).isNone then some (protTrap a 0 .permission) else none])
      (w.releasing
        (let w := (w.release .device).acquire .device
        match w.m.frameCtx own.owner a with
        | none => w.done
        | some (ck, c) =>
          let ok := w.m.frameByte a 7 == 1
          let running := c.state == .running
          let m := if ok && (c.state == .yielding || c.state == .saved || c.state == .faulted) then w.m.setFrameByte a 6 mode
            else w.m
          let (m, waits) : Machine × Option Nat := match w.m.trappedAt ck a with
            | none => (if ok && running then m.setFrameByte a 7 0 else m, none)
            | some (gk, g) =>
              if !ok then (m, none)
              else if running then (m.applyMode gk g a mode, none)
              else if c.state == .yielding || c.state == .saved || c.state == .faulted then
                (m.updCtx ck fun c => { c with modes := Map.set c.modes gk mode }, some gk)
              else (m, none)
          let w := ({ w with m := m } : W).movedPred f.p fun _ => ok
          match waits with
          | none => w.done
          | some gk => (w.park (.rett gk)).done))

/-- RETT.RESUME. -/
def execRettResume (f : RettF) (s : State) : Host.Outcome State Fault Refusal :=
  runWord (.rettResume f) s fun w => w.rett f 0

/-- RETT.SKIP. -/
def execRettSkip (f : RettF) (s : State) : Host.Outcome State Fault Refusal :=
  runWord (.rettSkip f) s fun w => w.rett f 1

/-- RETT.END. -/
def execRettEnd (f : RettF) (s : State) : Host.Outcome State Fault Refusal :=
  runWord (.rettEnd f) s fun w => w.rett f 2

/-- RETT.FAULT. -/
def execRettFault (f : RettF) (s : State) : Host.Outcome State Fault Refusal :=
  runWord (.rettFault f) s fun w => w.rett f 3

end Sys2Proof.Machine
end

