-- ==== Sys2Proof/Machine/Paging.lean ====
section
/-! DEFINITION. PROBE and TLBINV (R293 to R298): the replay and the failure of parked requests. -/

namespace Sys2Proof.Machine

open Sys2Proof

/-! ### PROBE (R297) -/

/-- The status and the frame word of a walk. -/
def probeWords (priv : Bool) (va : Nat) (k : Walk) : Nat × Nat :=
  if 2 ^ 57 ≤ va then (4 * 1024 + 3 * 8192, 0)
  else match k with
    | .leaf l e => (e % 256 + 256 * l + 1024 * l + 65536 * pteBerth e, if priv then bits e 41 16 else 0)
    | .notValid l => (1024 * l + 8192, 0)
    | .malformed l => (1024 * l + 2 * 8192, 0)
    | .poison l => (1024 * l + 4 * 8192, 0)

/-- PROBE: no park, no trap on what the walk finds. (DEDUCED, log 57) -/
def execProbe (f : ProbeF) (s : State) : Host.Outcome State Fault Refusal :=
  runWord (.probe f) s fun w =>
    w.guard (firstTrap [w.untyped, w.checkSrcs [0, 1]])
      (let priv := (w.ctx.map (·.priv)).getD false
      let out := fun (l : Nat) =>
        let va := nat64 (w.srcAt 0 l).data (w.srcAt 1 l).data
        probeWords priv va (w.m0.probe w.g.ctx va).1
      let word := fun (v : Nat → Nat) (l : Nat) =>
        if w.helperBad [0, 1] l then poisonWord else TWord.of (BitVec.ofNat 32 (v l))
      ((w.issueLong [2 * f.d.val, 2 * f.d.val + 1] w.mask [fun l => w.inject l (word (fun l => (out l).1) l), word fun l => (out l).2] 2 0).shot).done)

/-! ### Requests that go on after a resolution (R293, R294) -/

def inRange (base pages va : Nat) : Bool := pages == 0 || (decide (base ≤ va) && decide (va < base + 65536 * pages))

/-- A lane of a long-latency result arrives: its words, and the lane is no longer parked. -/
def Machine.deliverLanes (m : Machine) (gk pid : Nat) (word : Nat → Nat → TWord) (lanes : Mask) : Machine :=
  m.updGroup gk fun g => { g with pending := Map.upd g.pending pid fun p =>
    { p with
      words := (p.words.zipIdx).map fun e => (e.1.zipIdx).map fun x => if lane lanes x.2 then word e.2 x.2 else x.1
      parked := p.parked &&& ~~~ lanes } }

/-- Words for the lanes of a parked request that has a destination. -/
def Machine.deliverTo (m : Machine) (r : Parked) (word : Nat → Nat → TWord) (lanes : Mask) : Machine :=
  if r.slots.isEmpty then m else m.deliverLanes r.group r.pendingId word lanes

/-- Words that a replayed load has read, with the injection that struck it (R71). -/
def Machine.deliverLoaded (m : Machine) (r : Parked) (word : Nat → Nat → TWord) (lanes : Mask) : Machine :=
  let fj := (((Map.get m.groups r.group).bind fun g => Map.get g.pending r.pendingId).map (·.finj)).getD 0
  let hit := finjEn fj && lane lanes (finjLane fj) && !r.slots.isEmpty
  let m := m.deliverTo r (fun j l => if hit && j == 0 && l == finjLane fj then flipWord fj (word j l) else word j l) lanes
  if hit then m.updGroup r.group fun g => if g.finj == fj then clearShot g else g else m

def Machine.dropParked (m : Machine) (k : Nat) : Machine := { m with parked := Map.del m.parked k }

/-- The lanes of the group that a parked request stands for: a segment for HLD and HLDX, one lane else. -/
def Parked.lanes (r : Parked) : Mask :=
  match r.instr with
  | some (.hld _) | some (.hldx _) => maskOf (List.range' r.lane (layoutOf (r.words.take 48)).segLen)
  | _ => laneBit r.lane

/-- The request fails: its lanes receive poison; a store is not performed (R293), and a window's shadow that it was to reach is
BROKEN (R296). A refusal that comes after issue is told no other way. (DEDUCED, log 56) (DEDUCED, log 79) -/
def Machine.failLane (m : Machine) (k : Nat) (r : Parked) : Machine :=
  let berth := ((Map.get m.groups r.group).map fun g => m.berthAt g.ctx r.ova).getD 0
  (if r.access = 1 && berth != 0 then (m.dropParked k).breakAt r.ctx r.va else m.dropParked k).deliverTo r (fun _ _ => poisonWord) r.lanes

/-- The request stays parked, on the page it now waits for, with a new entry. -/
def Machine.stayParked (m : Machine) (k : Nat) (r : Parked) (ctx va kind source : Nat) : Machine :=
  let count := ((Map.get m.ctxs ctx).map (·.resolve)).getD 0
  ({ m with parked := Map.set m.parked k { r with ctx := ctx, va := va, count := count } } : Machine).reportFault ctx va kind r.access source

/-- The operation of an atomic or reduction, whether it is a reduction, its PRI, LU and scope. -/
def atomOf : Instr → Option (AtomOp × Bool × Nat × Bool × Scope)
  | .atomAdd f => some (.add, false, f.pri.val, f.lu, f.sc)
  | .atomMin f => some (.min, false, f.pri.val, f.lu, f.sc)
  | .atomMax f => some (.max, false, f.pri.val, f.lu, f.sc)
  | .atomMinU f => some (.minU, false, f.pri.val, f.lu, f.sc)
  | .atomMaxU f => some (.maxU, false, f.pri.val, f.lu, f.sc)
  | .atomFadd f => some (.fadd, false, f.pri.val, f.lu, f.sc)
  | .atomExch f => some (.exch, false, f.pri.val, f.lu, f.sc)
  | .atomCas f => some (.cas, false, f.pri.val, f.lu, f.sc)
  | .atomAnd f => some (.and, false, f.pri.val, f.lu, f.sc)
  | .atomOr f => some (.or, false, f.pri.val, f.lu, f.sc)
  | .atomXor f => some (.xor, false, f.pri.val, f.lu, f.sc)
  | .atomAddD f => some (.addD, false, f.pri.val, f.lu, f.sc)
  | .atomExchD f => some (.exchD, false, f.pri.val, f.lu, f.sc)
  | .atomCasD f => some (.casD, false, f.pri.val, f.lu, f.sc)
  | .redAdd f => some (.add, true, f.pri.val, f.lu, f.sc)
  | .redMin f => some (.min, true, f.pri.val, f.lu, f.sc)
  | .redMax f => some (.max, true, f.pri.val, f.lu, f.sc)
  | .redMinU f => some (.minU, true, f.pri.val, f.lu, f.sc)
  | .redMaxU f => some (.maxU, true, f.pri.val, f.lu, f.sc)
  | .redFadd f => some (.fadd, true, f.pri.val, f.lu, f.sc)
  | .redAnd f => some (.and, true, f.pri.val, f.lu, f.sc)
  | .redOr f => some (.or, true, f.pri.val, f.lu, f.sc)
  | _ => none

/-- PRI, LU and ordering of a load or store. -/
def accOf (g : Group) (cores : Nat) (r : Parked) : Acc :=
  let acc := fun (pri : Nat) (lu : Bool) (sc : Option Scope) =>
    ({ core := g.core, ctx := g.ctx, pri := pri, lu := lu, order := sc.map fun s => (s, cores) } : Acc)
  match r.instr with
  | some (.ld f) => acc f.pri.val f.lu none
  | some (.lda f) => acc f.pri.val f.lu (some f.sc)
  | some (.st f) => acc f.pri.val f.lu none
  | some (.stl f) => acc f.pri.val f.lu (some f.sc)
  | some (.hst _) => acc r.lane false none
  | some (.hld _) | some (.hldx _) => acc (layoutOf (r.words.take 48)).mscPri false none
  | some i => match atomOf i with
    | some (_, _, pri, lu, sc) => acc pri lu (some sc)
    | none => acc 0 false none
  | none => acc 0 false none

/-- The type of a load. -/
def loadType : Instr → LdT
  | .ld f => f.t
  | .lda f => if f.dw then .d else .w
  | _ => .w

/-- An acquire takes its cache action once its access is performed (R250). -/
def Machine.acquireAfter (m : Machine) (a : Acc) : Machine :=
  match a.order with
  | some (s, n) => m.acquire a.core s n
  | none => m

/-- A segment of HLD or HLDX is read again from its record and coordinates. (DEDUCED, log 46) -/
def Machine.replaySegment (m : Machine) (k : Nat) (r : Parked) (g : Group) (a : Acc) (inv : Bool) : Machine :=
  let rec_ := layoutOf (r.words.take 48)
  let idx := coordsOf fun i => (wordAt r.words (48 + i)).data.toNat
  match (rec_.strip g.width idx).find? fun s => s.lane0 == r.lane with
  | none => m.failLane k r
  | some seg =>
    match (m.dropParked k).loadSegment a r.group g.source k rec_ inv g.rm g.ftz seg with
    | .ok cols fl m =>
      ((m.dropParked k).deliverLoaded r (fun j l => wordAt (cols.getD j []) (l - r.lane)) r.lanes).updGroup r.group
        fun g => g.orFlags (lanesFlags (~~~ g.helper) r.lane fl)
    | .stop _ (.fault c v src) m => { m with parked := Map.set m.parked k r } |>.stayParked k r c v 1 src
    | .stop _ _ m => { m with parked := Map.set m.parked k r } |>.failLane k r

/-- A parked request translates again. It stays behind an earlier one of its group that is still parked (R249); and one that a berth
accepted before its key was revoked is performed under the old key (R407, R408). (DEDUCED, log 79) -/
def Machine.placeAgain (m : Machine) (k : Nat) (g : Group) (r : Parked) (a : Access) : Place × Machine :=
  match m.place g.core g.ctx r.ova r.size a g.source with
  | (.revoked b, n) =>
    match m.translate g.core g.ctx r.ova a with
    | (.berth lb off, m) => match m.exporterOf lb with
      | some x =>
        if ((Map.get m.berths x).map (·.state)) == some .revoking then m.exportPlace x off a else (.revoked b, n)
      | none => (.revoked b, n)
    | _ => (.revoked b, n)
  | (p, m) => (p.after (m.behind r.group r.ova r.size a k) g.source, m)

/-- One lane of a load, store or atomic translates again: it is performed, stays parked, or fails (R293). -/
def Machine.replayLane (m : Machine) (k : Nat) (r : Parked) (i : Instr) : Machine :=
  match Map.get m.groups r.group with
  | none => m.dropParked k
  | some g =>
    let cores := ((Map.get m.blocks g.block).map fun b => b.cores.length).getD 1
    let a := accOf g cores r
    match i with
    | .hld _ => m.replaySegment k r g a false
    | .hldx _ => m.replaySegment k r g a true
    | _ =>
      let kind : Access := if r.access = 0 then .read else if r.access = 1 then .write else .atomic
      match m.placeAgain k g r kind with
      | (.fault c v src, m) => m.stayParked k r c v 1 src
      | (.prot _ _, m) => m.failLane k r
      | (.revoked _, m) => m.failLane k r
      | (p, m) =>
        let sn := p.homePa.map (· / 64)
        -- stores of the group before this access, and of its own instruction
        let note := fun (m : Machine) => m.noteStore r.group p fun n x =>
          decide (n < k) || (n != k && x.pendingId == r.pendingId && x.instr == r.instr)
        match kind with
        | .read =>
          match m.readLane a r.ova p (max 1 (r.size / 4)) with
          | none => m.failLane k r
          | some (ws, m) =>
            let m := match sn with
              | some sn => if a.lu then m.dropLineBut g.core sn r.later else m
              | none => m
            let ws := loadWords (loadType i) r.ova ws
            ((m.dropParked k).acquireAfter a).deliverLoaded r (fun j _ => ws.getD j poisonWord) r.lanes
        | .write =>
          let m := match sn with
            | some sn => if a.lu then m.saveSectors g.core sn r.later else m
            | none => m
          match m.writeLane a r.ova p r.size (if r.size < 4 then storeWords r.size r.ova r.words else r.words) with
          | .done m => (note m).dropParked k
          | .fault c v kind => m.stayParked k r c v kind 4
          | .refused => m.dropParked k
          | .gone m => m.dropParked k
        | _ =>
          match atomOf i with
          | none => m.dropParked k
          | some (op, red, _, _, _) =>
            match (if berthOp red op then p else p.noBerth (m.berthAt g.ctx r.ova)) with
            | .prot _ _ => m.failLane k r
            | p => match m.atomPlace { a with keep := r.later } r.ova p op r.words with
              | (.old ws, m) =>
                let m := (note m).dropParked k
                (if red then m else m.acquireAfter a).deliverLoaded r (fun j _ => ws.getD j poisonWord) r.lanes
              | (_, m) => m.failLane k r

/-- A strand's parked fetch or record read of a page: `f` gives what becomes of it. -/
def Machine.wakeStrand (m : Machine) (r : Parked) (f : Park → Option Park) : Machine :=
  m.updGroup r.group fun g => g.updEntry r.pendingId fun e => match e.park with
    | some p => match p.why with
      | .fetch _ | .read _ => { e with park := f p }
      | _ => e
    | none => e

/-- A parked request of a page that TLBINV.R resolves (R293). -/
def Machine.replayParked (m : Machine) (k : Nat) : Machine :=
  match Map.get m.parked k with
  | none => m
  | some r =>
    match r.instr with
    | none => (m.dropParked k).wakeStrand r fun p => if p.alone then some { p with why := .again } else none
    | some .hreadBurstRequest => match Map.get m.cmds r.pendingId with
      | some c =>
        -- it takes a burst berth again, or waits for one (R346)
        if m.berthsUsed r.core < burstBerths then (m.dropParked k).requestBurst r.pendingId c r.lane
        else (m.dropParked k).updCmd r.pendingId fun c => { c with again := c.again ++ [r.lane] }
      | none => m.dropParked k
    | some (.cdone _) => (m.performDone k).getD m
    | some i => m.replayLane k r i

/-- A parked request that TLBINV.ABORT fails (R293). (DEDUCED, log 56) -/
def Machine.abortParked (m : Machine) (k : Nat) : Machine :=
  match Map.get m.parked k with
  | none => m
  | some r =>
    match r.instr with
    | none => (m.dropParked k).wakeStrand r fun p => some { p with why := .bad (match p.why with
        | .fetch v => v
        | .read v => v
        | _ => r.va) }
    | some .hreadBurstRequest => match Map.get m.cmds r.pendingId with
      | some c => (m.dropParked k).burstFails r.pendingId c r.lane 2
      | none => m.dropParked k
    | some (.cdone _) => match Map.get m.groups r.group with
      | some g => (m.dropParked k).refuseGrid g.grid
      | none => m.dropParked k
    | some _ => m.failLane k r

/-- A command that waits for a page goes on, or fails with PAGE and ends (R293, R296). A command of a context that is not
running stays stopped until its restore. (DEDUCED, log 56) -/
def Machine.resolveCmd (m : Machine) (k : Nat) (abort : Bool) : Machine :=
  match Map.get m.cmds k with
  | none => m
  | some c =>
    let m := m.updCmd k fun c => { c with fault := none }
    if abort then
      (m.failCmd k 2).completeCmd k
    else if c.state == .suspended then
      match Map.get m.ctxs c.ctx with
      | some x => if x.state == .running || x.buoy then m.moveCmd k .running else m.updCmd k fun c => { c with state := .stopped }
      | none => m
    else m

/-- The requests of a context in a range replay or fail; one that waits for a berth is not parked yet (R291, R293, R298). -/
def Machine.resolveRequests (m : Machine) (target base pages mode : Nat) : Machine :=
  let hit := fun (ctx va : Nat) => ctx == target && inRange base pages va
  let m := m.updCtx target fun c => { c with reported := c.reported.filter fun p => !inRange base pages (p.1 * 65536) }
  let ps := (m.parked.filter fun (e : Nat × Parked) => !e.2.flight && !e.2.waiting && hit e.2.ctx e.2.va).map (·.1)
  let cs := m.cmds.filterMap fun (e : Nat × Cmd) => match e.2.fault with
    | some (c, va, _) => if hit c va && e.2.state != QState.done then some e.1 else none
    | none => none
  let gs := m.grids.filterMap fun (e : Nat × Grid) => match e.2.waits with
    | some (c, va, _) => if hit c va then some e.1 else none
    | none => none
  let m := gs.foldl (fun (m : Machine) k => m.gridResolved k (mode == 2)) m
  let m := ps.foldl (fun (m : Machine) k => if mode = 2 then m.abortParked k else m.replayParked k) m
  cs.foldl (fun (m : Machine) k => m.resolveCmd k (mode == 2)) m

/-- The effect of TLBINV on every core, engine and distributor (R298). A target that is not on the device takes its part on
its requests at its restore. (DEDUCED, log 56) -/
def Machine.tlbEffect (m : Machine) (target base pages mode : Nat) : Machine :=
  let m := m.dropPages target fun b size =>
    pages == 0 || (decide (b < base + 65536 * pages) && decide (base < b + size))
  if mode = 0 then m
  else
    let m := if mode = 1 then m.updCtx target fun c => { c with resolve := (c.resolve + 1) % 2 ^ 32 } else m
    match Map.get m.ctxs target with
    | none => m
    | some c =>
      if c.state == .saved || c.state == .faulted then
        m.updCtx target fun c => { c with tlbDue := c.tlbDue ++ [(base, pages, mode)] }
      else m.resolveRequests target base pages mode

/-! ### TLBINV (R298) -/

/-- Checks, the release, and the park until TLBINV_EFFECT_COMPLETE. -/
def W.tlbinv (w : W) (f : TlbF) (mode : Nat) : Act :=
  let base := w.pair f.gb.val
  let pages := w.gWord (2 * f.gc.val)
  let t := w.gWord (2 * f.gc.val + 1)
  let owned := match Map.get w.m0.ctxs t, w.ctx with
    | some x, some c => x.owner == c.owner
    | _, _ => false
  w.guard (firstTrap [w.lwait, w.checkUni w.u.us, alignAt base 65536,
      if decide (64 ≤ t) || !owned then some (protTrap base 0 .permission) else none])
    (w.releasing ((w.release .device).park (.tlbinv t base pages mode)).done)

/-- TLBINV. -/
def execTlbinv (f : TlbF) (s : State) : Host.Outcome State Fault Refusal :=
  runWord (.tlbinv f) s fun w => w.tlbinv f 0

/-- TLBINV.R. -/
def execTlbinvR (f : TlbF) (s : State) : Host.Outcome State Fault Refusal :=
  runWord (.tlbinvR f) s fun w => w.tlbinv f 1

/-- TLBINV.ABORT. -/
def execTlbinvAbort (f : TlbF) (s : State) : Host.Outcome State Fault Refusal :=
  runWord (.tlbinvAbort f) s fun w => w.tlbinv f 2

/-- The strand of a group that waits for the effect of a TLBINV. -/
def tlbWaiting (e : Entry) : Option (Nat × Nat × Nat × Nat) :=
  match e.park with
  | some { why := .tlbinv t b p mode, .. } => some (t, b, p, mode)
  | _ => none

/-- TLBINV_EFFECT_COMPLETE: the effect of a strand's TLBINV takes place and the strand continues. -/
def execTlbinvEffectComplete (s : State) : Host.Outcome State Fault Refusal :=
  runEvent s fun m arg => match arg with
    | .n2 gk sid =>
      match (Map.get m.groups gk).bind fun g => (g.entry sid).bind tlbWaiting with
      | some (t, b, p, mode) =>
        some ((m.tlbEffect t b p mode).updGroup gk fun g => g.updEntry sid fun e => { e with park := none })
      | none => none
    | _ => none

/-! ### Fault berths (R291, R294) -/

/-- FAULT_BERTH_FREED: the first request of a core that waits for a berth parks, and its page is reported; when the context's
resolve count has changed since its walk, it translates again at once (R292, R294). -/
def execFaultBerthFreed (s : State) : Host.Outcome State Fault Refusal :=
  runEvent s fun m arg => match arg with
    | .n core =>
      match m.parked.find? fun (e : Nat × Parked) => e.2.core == core && e.2.waiting with
      | none => none
      | some (k, r) =>
        if faultBerths ≤ m.faultsHeld core then none
        else
          let m := { m with parked := Map.set m.parked k { r with waiting := false } }
          let now := ((Map.get m.ctxs r.ctx).map (·.resolve)).getD 0
          some (if now = r.count then m.reportFault r.ctx r.va 1 r.access r.source else m.replayParked k)
    | _ => none

end Sys2Proof.Machine
end

