-- ==== Sys2Proof/Machine/Distribute.lean ====
section
/-! DEFINITION. The kernel distributor (R161 to R170, R387 to R391, R439, R440): taking launch entries, dependences, the
checks at STARTING, gangs and their placement, the retirement of blocks and grids. -/

namespace Sys2Proof.Machine

open Sys2Proof

/-! ### Reads (R167) -/

/-- What a read of the distributor gives. -/
inductive DistRead where
  | ok (ws : List TWord) (m : Machine)
  | wait (m : Machine)
  | fail

/-- Read words of the context's memory for a grid. -/
def Machine.distRead (m : Machine) (gr : Nat) (g : Grid) (va n : Nat) : DistRead :=
  if g.aborted va || g.aborted (va + 4 * n - 1) then .fail
  else match m.readWords (engineKey distSource 0) g.ctx va distSource n with
    | .ok ws m => if anyPoison ws then .fail else .ok ws m
    | .fault c v s m => .wait (m.gridWaits gr c v va 0 s)
    | _ => .fail

/-! ### Dependences (R170) -/

inductive Depend where
  | satisfied (m : Machine)
  | waiting (m : Machine)
  | fails (code : Nat)
  | fault (m : Machine)

/-- The state in a bitmap header that has been read. -/
def headerState (ws : List TWord) : Nat := fieldAt ws 0 1

/-- Examine the dependence of a grid. -/
def Machine.depend (m : Machine) (gr : Nat) (g : Grid) : Depend :=
  let d := recDepend g.record
  let a := d / 8 * 8
  let read := fun (m : Machine) (va : Nat) (k : List TWord → Machine → Depend) => match m.distRead gr g va 2 with
    | .ok ws m => k ws m
    | .wait m => .fault m
    | .fail => .fails 6
  match d % 8 with
  -- a nonzero field of kind 0 fails at its own check (R162)
  | 0 => .satisfied m
  | 1 => read m (a / 65536 * 65536) fun h m =>
      if headerState h = 3 then .fails 7
      else read m a fun w m =>
        if (w.all fun t => t.data == 0xFFFFFFFF#32) && (headerState h == 1 || headerState h == 2) then .satisfied m else .waiting m
  | 2 => read m a fun w m => if w.any fun t => t.data != 0 then .satisfied m else .waiting m
  | 3 => read m a fun h m => if headerState h = 3 then .fails 7 else if headerState h = 2 then .satisfied m else .waiting m
  | _ => .fails 6

/-! ### Entries of the recording log (R439, R440) -/

/-- The words of a code object with its header, and of a bank, for their digests: what can be read (R439). -/
def Machine.digestWords (m : Machine) (ctx va n : Nat) : List Word :=
  match m.readWords (engineKey distSource 0) ctx va distSource n with
  | .ok ws _ => ws.map (·.data)
  | _ => []

def Machine.codeWords (m : Machine) (ctx code : Nat) : List Word :=
  match m.readWords (engineKey distSource 0) ctx code distSource 32 with
  | .ok ws _ => m.digestWords ctx code (32 + fieldAt ws 0x18 4 / 4)
  | _ => []

def Machine.bankWords (m : Machine) (ctx : Nat) (r : List TWord) : List Word :=
  if recConst r = 0 then [] else m.digestWords ctx (recConst r) 512

/-- The digests of a LAUNCH entry. -/
def Machine.launchDigests (m : Machine) (ctx : Nat) (r : List TWord) : List Word :=
  let pad := fun (l : List Word) => (l ++ List.replicate 8 0).take 8
  pad (Config.sm3 (bytesWords (m.codeWords ctx (recCode r)))) ++ pad (Config.sm3 (bytesWords (m.bankWords ctx r)))

/-- Replay: the next LAUNCH entry of the log. -/
def Machine.nextLaunch (m : Machine) (c : Ctx) : Option (List Word) := (m.logOf c 1)[c.logTaken]?

/-- The log's next LAUNCH entry names the grid of a record: the same CODE (R440). (DESIGN CHOICE, log 50) -/
def Machine.logNames (m : Machine) (c : Ctx) (r : List TWord) : Bool :=
  match m.nextLaunch c with
  | some e => nat64 (e.getD 0 0) (e.getD 1 0) == recCode r
  | none => false

/-- The record at the head of a launch queue. -/
def Machine.headRecord (m : Machine) (c : Ctx) (q : Nat) : List TWord :=
  let d := m.queueDesc c (launchQ q)
  (m.homeWords (d.entry d.head) 16).1

/-- A launch queue offers its head. -/
def Machine.offers (m : Machine) (ctx : Nat) (c : Ctx) (q : Nat) : Bool :=
  let d := m.queueDesc c (launchQ q)
  d.open_ && decide (d.head < d.tail) && (!d.ordered || d.head == d.progress) &&
  (m.recMode ctx != 2 || !recRec (m.headRecord c q) || m.logNames c (m.headRecord c q))

/-- The priority of a launch queue with what its head has gained (R390). -/
def Machine.queuePrio (m : Machine) (c : Ctx) (q : Nat) : Nat :=
  min 7 ((m.queueDesc c (launchQ q)).prio + Map.getD c.boost q 0)

/-- The launch queue whose head is taken next: highest priority, ties to the lower number (R390). -/
def Machine.launchChoice (m : Machine) (ctx : Nat) (c : Ctx) : Option Nat :=
  ((List.range 16).filter fun q => m.offers ctx c q).foldl (fun (best : Option Nat) q => match best with
    | some b => if m.queuePrio c b < m.queuePrio c q then some q else some b
    | none => some q) none

/-- Grids of a context taken and not retired. -/
def Machine.gridsTaken (m : Machine) (ctx : Nat) : Nat :=
  (m.grids.filter fun (e : Nat × Grid) => e.2.ctx == ctx && e.2.state != .done && e.2.state != .failed).length

/-- A grid as taken. -/
def Grid.new (ctx q n order : Nat) (r : List TWord) : Grid :=
  { ctx := ctx, queue := q, entry := n, order := order, state := .queued, record := r, header := [], bank := [], uni := []
    next := 0, gangs := 0, retired := 0, refused := false, depOk := false, waits := none, abortedVa := none, failing := none
    refusing := 0 }

/-- Recording and replay of a launch (R439, R440). -/
def Machine.recordLaunch (m : Machine) (ctx gr : Nat) (c : Ctx) (r : List TWord) : Machine :=
  if !recRec r then m
  else match m.recMode ctx with
    | 1 => m.updGrid gr fun g => { g with logHead := r.map (·.data) ++ m.launchDigests ctx r }
    | 2 =>
      let same : Bool := match m.nextLaunch c with
        | some e => e.take 32 == r.map (·.data) ++ m.launchDigests ctx r
        | none => false
      let m := m.updCtx ctx fun c => { c with logTaken := c.logTaken + 1 }
      if same then m else m.logMismatch ctx
    | _ => m

/-- The next head of a queue waits from now on (R390). -/
def Machine.headTaken (m : Machine) (ctx q : Nat) : Machine :=
  m.updCtx ctx fun c => { c with headSince := Map.set c.headSince q m.clock, boost := Map.del c.boost q }

/-- LAUNCH_QUEUE_AGING: a head that has waited 100,000 clk gains one priority (R390). -/
def execLaunchQueueAging (s : State) : Host.Outcome State Fault Refusal :=
  runEvent s fun m arg => match arg with
    | .n2 ctx q =>
      match Map.get m.ctxs ctx with
      | none => none
      | some c =>
        let d := m.queueDesc c (launchQ q)
        let since := Map.getD c.headSince q 0
        if decide (q < 16) && d.open_ && decide (d.head < d.tail) && decide (since + 100000 ≤ m.clock) then
          some (m.updCtx ctx fun c => { c with
            headSince := Map.set c.headSince q (since + 100000), boost := Map.set c.boost q (min 7 (Map.getD c.boost q 0 + 1)) })
        else none
    | _ => none

/-! ### STARTING (R161, R162, R164) -/

/-- A code header meets the limits of the CODE row. (DEDUCED, log 62) -/
def codeHeaderOk (h : List TWord) : Bool :=
  let n := fieldAt h 0x1C 2
  let size := fieldAt h 0x18 4
  fieldAt h 0 4 == 0x40000000 && fieldAt h 4 4 == 0 && fieldAt h 8 4 == 0x44524E31 && fieldAt h 0xF 1 == 0 && fieldAt h 0x1E 2 == 0 &&
  decide (n ≤ 12) && size % 128 == 0 &&
  (List.range 12).all fun i =>
    let w := fieldAt h (0x20 + 8 * i) 4
    let off := fieldAt h (0x24 + 8 * i) 4
    if i < n then (w == 1 || w == 2) && decide (128 ≤ off) && decide (off < 128 + size) else w == 0 && off == 0

/-- A block's needs on the cores of a die (R164): cores, groups, width, registers, scratchpad, lighter slots. -/
structure Foot where
  grid : Nat
  c : Nat
  n : Nat
  width : Nat
  regs : Nat
  scratch : Nat
  light : Nat
deriving DecidableEq, Repr

/-- Bytes of a scratchpad that lie on the block's core number i (R226). (DEDUCED, log 61) -/
def spadShare (size c i : Nat) : Nat :=
  let c := max 1 c
  let full := size / 4096
  (full + c - 1 - i) / c * 4096 + (if full % c = i then size % 4096 else 0)

/-- The smallest number of cores that takes a block (R164). -/
def footOf (grid : Nat) (r : List TWord) : Option Foot :=
  let w := max 1 (recWidth r)
  let n := recGroups r
  ([1, 2, 3, 4].find? fun c =>
    let g := ceilDiv n c
    decide (g ≤ (64 - recLight r) * 128 / w) && decide (g * recRegs r * w * 4 ≤ 2 ^ 20) &&
    decide (recScratchUsed r ≤ c * 2 ^ 19)).map fun c =>
      { grid := grid, c := c, n := n, width := w, regs := recRegs r, scratch := recScratchUsed r, light := recLight r }

/-- What is free on a core: slots, slots of the grid's narrow groups with their free places, register bytes, scratchpad
bytes; whether it holds the grid's lighter slots, and those set aside now. Place k of a slot is lane offset k times WIDTH. -/
structure CoreUse where
  free : List Nat
  narrow : List (Nat × List Nat)
  regs : Nat
  spad : Nat
  light : Bool
  aside : List Nat
deriving DecidableEq, Repr

def CoreUse.empty : CoreUse :=
  { free := List.range 64, narrow := [], regs := 2 ^ 20, spad := 2 ^ 19, light := false, aside := [] }

/-- Set the grid's lighter slots aside: the highest-numbered free ones (R176). -/
def CoreUse.setLight (u : CoreUse) (light : Nat) : Option CoreUse :=
  if u.light then some u
  else if u.free.length < light then none
  else some { u with
    light := true, aside := u.free.drop (u.free.length - light), free := u.free.take (u.free.length - light) }

/-- A slot and lane offset for one group: the lowest free place of a slot that holds narrow groups of the grid, else the lowest free
slot (R176). (DESIGN CHOICE, log 64) -/
def CoreUse.slot (u : CoreUse) (width : Nat) : Option ((Nat × Nat) × CoreUse) :=
  match u.narrow with
  | (s, k :: ks) :: r => some ((s, k * width), { u with narrow := if ks.isEmpty then r else (s, ks) :: r })
  | _ => match u.free with
    | s :: r => some ((s, 0), { u with free := r, narrow := if width < 128 then [(s, List.range' 1 (128 / width - 1))] else [] })
    | [] => none

def CoreUse.slots (u : CoreUse) (width : Nat) : Nat → Option (List (Nat × Nat) × CoreUse)
  | 0 => some ([], u)
  | n + 1 => match u.slot width with
    | none => none
    | some (s, u) => (u.slots width n).map fun e => (s :: e.1, e.2)

/-- A core takes the groups i, i + c, … of a block as its core number i: their slots, and what is left. (DEDUCED, log 61) -/
def Foot.core (f : Foot) (i : Nat) (u : CoreUse) : Option (List (Nat × Nat) × CoreUse) :=
  let cnt := (f.n + f.c - 1 - i) / f.c
  let bytes := cnt * f.regs * f.width * 4
  let share := spadShare f.scratch f.c i
  if u.regs < bytes || u.spad < share then none
  else match u.setLight f.light with
    | none => none
    | some u => (u.slots f.width cnt).map fun e => (e.1, { e.2 with regs := e.2.regs - bytes, spad := e.2.spad - share })

/-- A core of a block with the slots and lane offsets of the groups it takes. -/
abbrev Seat := Nat × List (Nat × Nat)

/-- Cores to try for the next part of a block: those the block does not have yet, one of each kind of free room, lowest first. -/
def seatChoices (taken : List Nat) : List CoreUse → Map CoreUse → List (Nat × CoreUse)
  | _, [] => []
  | seen, e :: r =>
    if taken.contains e.1 || seen.contains e.2 then seatChoices taken seen r else e :: seatChoices taken (e.2 :: seen) r

/-- Cores for the last `left` parts of the blocks of a gang, so that all have room at once (R164): a search, lowest cores first.
`taken` are the cores that the block at hand has. (DESIGN CHOICE, log 64) -/
def Foot.seats (f : Foot) : Nat → List Nat → Map CoreUse → Option (List Seat × Map CoreUse)
  | 0, _, uses => some ([], uses)
  | left + 1, taken, uses =>
    let i := (f.c - 1) - left % f.c
    (seatChoices taken [] uses).findSome? fun (e : Nat × CoreUse) =>
      (f.core i e.2).bind fun x =>
        (f.seats left (if left % f.c = 0 then [] else e.1 :: taken) (Map.set uses e.1 x.2)).map fun y => ((e.1, x.1) :: y.1, y.2)

/-- The seats of k blocks, block by block. -/
def seatBlocks (c : Nat) : Nat → List Seat → List (List Seat)
  | 0, _ => []
  | k + 1, l => l.take c :: seatBlocks c k (l.drop c)

/-- A gang of k blocks on the cores of one die; blocks of one core each take the lowest cores with room in turn. -/
def Foot.gang (f : Foot) (k : Nat) (uses : Map CoreUse) : Option (List (List Seat) × Map CoreUse) :=
  (f.seats (k * f.c) [] uses).map fun e => (seatBlocks f.c k e.1, e.2)

def emptyDie (die : Nat) : Map CoreUse := (List.range 48).map fun j => (die * 48 + j, CoreUse.empty)

/-- What the checks of STARTING give (R162). -/
inductive Start where
  | ok (m : Machine) (header bank : List TWord)
  | fail (code : Nat)
  | wait (m : Machine)

/-- The rows of R162 from GRID to SCRATCH: a failure code. -/
def shapeCode (r h : List TWord) : Option Nat :=
  let w := recWidth r
  if recGridX r = 0 || recGridY r = 0 || recGridZ r = 0 || decide (2 ^ 32 - 1 < recBlocks r) then some 2
  else if recBlockX r = 0 || recBlockY r = 0 || recBlockZ r = 0 || decide (16384 < recThreads r) || recThreads r % w != 0 then some 2
  else if !([8, 16, 32, 64, 128].contains w) || w != fieldAt h 0xC 1 then some 3
  else if recRegs r % 8 != 0 || decide (recRegs r < 8) || decide (56 < recRegs r) || decide (recRegs r < fieldAt h 0xD 1) then some 3
  else if decide (recScratch r < fieldAt h 0x10 4) || decide (2 ^ 21 < recScratch r) then some 3
  else if recConst r % 256 != 0 then some 5
  else none

/-- The rows of R162 from LIGHT to DONEMAP. -/
def placeCode (r h : List TWord) : Option Nat :=
  if decide (8 < recLight r) || decide (recLight r < fieldAt h 0xE 1) then some 3
  else match footOf 0 r with
  | none => some 3
  | some f =>
    if recGangP r = 0 || recGangF r = 0 || decide (recGangP r < recGangF r) || (f.gang (recGangF r) (emptyDie 0)).isNone then some 4
    else if decide (7 < recPrio r) || decide (3 < recFlags r) then some 9
    else if recUinit r && recConst r == 0 then some 5
    else if recDepend r % 8 = 0 && recDepend r != 0 then some 6
    else if recDoneMap r != 0 && (recDoneMap r % 65536 != 0 || decide (bitmapBlocks < recBlocks r)) then some 9
    else none

/-- The checks of R162 and R164 in their order, with the reads at their own rows; those of a grid that have passed stay passed, and
its bank is read once (R97). (DEDUCED, log 60) (DEDUCED, log 62) -/
def Machine.startChecks (m : Machine) (gr : Nat) (g : Grid) : Start :=
  let r := g.record
  if !g.header.isEmpty then .ok m g.header g.bank else
  if anyPoison r then .fail 8
  else if recCode r % 128 != 0 then .fail 1
  else match m.distRead gr g (recCode r) 32 with
    | .fail => .fail 1
    | .wait m => .wait m
    | .ok h m =>
      if !codeHeaderOk h then .fail 1
      else match shapeCode r h with
        | some code => .fail code
        | none =>
          let late := fun (m : Machine) (bank : List TWord) => match placeCode r h with
            | some code => Start.fail code
            | none => .ok m h bank
          if recConst r = 0 then late m []
          else match m.distRead gr g (recConst r) 512 with
            | .fail => .fail 5
            | .wait m => .wait m
            | .ok bank m => late m bank

/-- DEPEND fails a grid at its own row: a record that breaks an earlier row reports that row's code (R162). (DEDUCED, log 60) -/
def Machine.dependFails (m : Machine) (gr : Nat) (g : Grid) (code : Nat) : Machine :=
  if code ≠ 6 then m.failGrid gr code
  else match m.startChecks gr { g with abortedVa := none } with
    | .wait m => m.abortUsed gr
    | .fail c => m.failGrid gr (if c = 9 && decide (recPrio g.record ≤ 7) && decide (recFlags g.record ≤ 3) then 6 else c)
    | .ok m _ _ => m.failGrid gr 6

/-- A grid in QUEUED or WAITING takes its next state (R167). -/
def Machine.dependStep (m : Machine) (gr : Nat) : Machine :=
  match Map.get m.grids gr with
  | none => m
  | some g =>
    if (g.state != .queued && g.state != .waiting) || g.failing.isSome || g.waits.isSome then m
    else if anyPoison g.record then m.updGrid gr fun g => { g with state := .starting }
    else match m.depend gr g with
      | .satisfied m => m.updGrid gr fun g => { g with state := .starting, depOk := true }
      | .waiting m => m.updGrid gr fun g => { g with state := .waiting }
      | .fails code => m.dependFails gr g code
      | .fault m => m

/-- DEPENDENCE_POLL: the grids of a context, or one grid. -/
def execDependencePoll (s : State) : Host.Outcome State Fault Refusal :=
  runEvent s fun m arg =>
    let grs := (m.grids.filter fun (e : Nat × Grid) => match arg with
      | .n c => e.2.ctx == c
      | .n2 c gr => e.2.ctx == c && e.1 == gr
      | _ => true).map (·.1)
    let live := fun (gr : Nat) => match (Map.get m.grids gr).bind fun g => Map.get m.ctxs g.ctx with
      | some c => c.state == .running || c.state == .yielding
      | none => false
    some ((grs.filter live).foldl (fun (m : Machine) gr => m.dependStep gr) m)

/-! ### Taking entries (R387, R390) -/

/-- Replay: the gang boundaries and PLACE of a launch (R440). -/
def Machine.launchPlan (m : Machine) (ctx : Nat) (c : Ctx) (r : List TWord) : List Word :=
  if recRec r && m.recMode ctx == 2 then ((m.nextLaunch c).map (·.drop 32)).getD [] else []

/-- Take the head entry of a launch queue. -/
def Machine.takeLaunch (m : Machine) (ctx : Nat) (c : Ctx) (q : Nat) : Machine :=
  let d := m.queueDesc c (launchQ q)
  let r := m.headRecord c q
  let gr := m.nextId
  let plan := m.launchPlan ctx c r
  let m := (m.setHead c (launchQ q) (d.head + 1)).headTaken ctx q
  let m := { m with grids := Map.set m.grids gr { Grid.new ctx q d.head gr r with plan := plan }, nextId := gr + 1 }
  (m.recordLaunch ctx gr c r).dependStep gr

/-- TAKE_LAUNCH_ENTRY, for a context; not while the distributor waits for room in its log (R439). -/
def execTakeLaunchEntry (s : State) : Host.Outcome State Fault Refusal :=
  runEvent s fun m arg => match arg with
    | .n ctx =>
      match Map.get m.ctxs ctx with
      | none => none
      | some c =>
        if c.state != .running || 256 ≤ m.gridsTaken ctx || m.logBusy ctx 1 then none
        else (m.launchChoice ctx c).map fun q => m.takeLaunch ctx c q
    | _ => none

/-- The words of a fresh bitmap: block bits 0, padding bits 1 (R167, R169). -/
def bitmapWords (blocks : Nat) : List Word :=
  (List.range (2 * ceilDiv blocks 64)).map fun i =>
    BitVec.ofNat 32 (2 ^ 32 - 2 ^ min 32 (blocks - 32 * i))

/-- A grid in STARTING becomes RUNNING, fails, or waits for a page (R167). -/
def Machine.startGrid (m : Machine) (gr : Nat) (g : Grid) : Machine :=
  match m.startChecks gr g with
  | .fail code => m.failGrid gr code
  | .wait m => m
  | .ok m h bank =>
    let m := m.updGrid gr fun g => { g with header := h, bank := bank }
    let run := fun (m : Machine) => m.updGrid gr fun g => { g with
      state := .running
      uni := if recUinit g.record then ((bank.drop 488).take 24).map fun t => TWord.of t.data else [] }
    let dm := recDoneMap g.record
    if dm = 0 then run m
    else match m.distWrite gr g (dm + 8) (bitmapWords (recBlocks g.record)) with
      | .fail => m.failGrid gr 9
      | .wait m => m
      | .done m => match m.distWrite gr g dm (headerWords 1 0) with
        | .done m => run m
        | .wait m => m
        | .fail => m.failGrid gr 9

/-- GRID_STARTING, for a grid. -/
def execGridStarting (s : State) : Host.Outcome State Fault Refusal :=
  runEvent s fun m arg => match arg with
    | .n gr =>
      match Map.get m.grids gr with
      | none => none
      | some g => if g.state == .starting && g.waits.isNone && g.failing.isNone then some (m.startGrid gr g) else none
    | _ => none

/-! ### Placement (R164, R165, R370, R391) -/

/-- What is free on a core for a grid: slots no group has and no grid holds for lighters, places of 16 to 64 lanes beside narrow groups of
the grid, registers, scratchpad (R176). -/
def Machine.coreUse (m : Machine) (f : Foot) (core : Nat) : CoreUse :=
  let gs := m.groups.filter fun (e : Nat × Group) => e.2.core == core && e.2.lighter.isNone && e.2.status != .retired &&
    (match Map.get m.blocks e.2.block with
      | some b => b.placed
      | none => false)
  let kept := (m.core core).reserved.flatMap fun (e : Nat × List Nat) => e.2
  let used := gs.map fun (e : Nat × Group) => e.2.slot
  let mine := (gs.filter fun (e : Nat × Group) => e.2.grid == f.grid).map fun (e : Nat × Group) => (e.2.slot, e.2.offset / max 1 f.width)
  let left := fun (s : Nat) => (List.range (128 / max 1 f.width)).filter fun k => !mine.contains (s, k)
  { free := (List.range 64).filter fun s => !used.contains s && !kept.contains s
    narrow := (List.range 64).filterMap fun s => if (mine.any fun e => e.1 == s) && !(left s).isEmpty then some (s, left s) else none
    regs := 2 ^ 20 - (gs.map fun (e : Nat × Group) => e.2.nregs * e.2.width * 4).sum
    spad := 2 ^ 19 - (m.blocks.map fun (e : Nat × Block) =>
      if e.2.placed then match e.2.cores.idxOf? core with
        | some i => spadShare e.2.scratch e.2.cores.length i
        | none => 0
      else 0).sum
    light := Map.has (m.core core).reserved f.grid
    aside := [] }

def Machine.dieUse (m : Machine) (f : Foot) (die : Nat) : Map CoreUse :=
  (List.range 48).map fun j => (die * 48 + j, m.coreUse f (die * 48 + j))

/-- A die takes blocks: it is out of reset, and the distributor has not closed it (R28). -/
def Machine.dieOpen (m : Machine) (die : Nat) : Bool :=
  decide (die < 12) && !m.dieReset.contains die && !m.diesClosed.contains die

/-- A die with room for a gang of k blocks on cores that may take it (R164): an asked die first, else the lowest. (DEDUCED, log 61) -/
def Machine.roomOn (m : Machine) (may : Nat → Bool) (f : Foot) (k : Nat) (die : Option Nat) :
    Option (Nat × List (List Seat) × Map CoreUse) :=
  (die.toList ++ List.range 12).findSome? fun d =>
    if m.dieOpen d then (f.gang k ((m.dieUse f d).filter fun e => may e.1)).map fun e => (d, e) else none

/-- A die with room for a gang of k blocks (R164). (DEDUCED, log 61) -/
def Machine.roomFor (m : Machine) (f : Foot) (k : Nat) (die : Option Nat) :
    Option (Nat × List (List Seat) × Map CoreUse) := m.roomOn (fun _ => true) f k die

/-- Block images and group images of a context that are free, lowest first (R370). -/
def Machine.freeImages (m : Machine) (ctx : Nat) (c : Ctx) : List Nat × List Nat :=
  let bs := m.blocks.filter fun (e : Nat × Block) => e.2.ctx == ctx && e.2.state != .retired
  let ids := bs.map (·.1)
  let gs := m.groups.filter fun (e : Nat × Group) => e.2.lighter.isNone && ids.contains e.2.block
  ((List.range c.nbimg).filter fun i => !(bs.any fun (e : Nat × Block) => e.2.image == i),
   (List.range c.ngimg).filter fun i => !(gs.any fun (e : Nat × Group) => e.2.image == i))

/-- The uniform registers of a group at start (R166). (DEDUCED, log 74) -/
def startUniforms (r uni : List TWord) (b gang size i : Nat) : List TWord :=
  let n := fun (v : Nat) => TWord.of (BitVec.ofNat 32 v)
  -- CONST and DONEMAP move with the residues of the record's words (R23)
  [n b, n gang, n size, n i, wordAt r 8, wordAt r 9, wordAt r 14, wordAt r 15] ++
    (uni ++ List.replicate 24 TWord.zero).take 24

/-- The instruction-cache lines of a context on a core are invalidated when the grid first uses the core, and its lighter
slots are kept there (R81, R176); the groups that start there acquire at DEVICE scope (R270). -/
def Machine.useCore (m : Machine) (gr ctx core : Nat) (aside : List Nat) : Machine :=
  let held := m.blocks.any fun (e : Nat × Block) => e.2.grid == gr && e.2.cores.contains core
  (m.acquire core .device 1).updCore core fun x => { x with
    icache := if held then x.icache else x.icache.filter fun l => l.1 != ctx
    reserved := if aside.isEmpty then x.reserved else Map.set x.reserved gr aside }

/-- One group of a block starts (R166). -/
def Machine.startGroup (m : Machine) (gr blk : Nat) (g : Grid) (c : Ctx) (b : Block) (gid core : Nat) (slot : Nat × Nat) (image : Nat) : Machine :=
  let r := g.record
  let w := recWidth r
  let x : Group := { Group.fresh g.ctx gr blk gid w (recRegs r) core slot.1 slot.2 image [firstEntry (recCode r + 136) w] with
    g := startUniforms r g.uni b.index b.gang b.gangSize b.inGang
    deadline := BitVec.ofNat 32 c.deadline }
  { m with groups := Map.set m.groups m.nextId x, nextId := m.nextId + 1 }

/-- One block of a gang starts on its cores (R165, R370). -/
def Machine.startBlock (m : Machine) (gr : Nat) (c : Ctx) (die inGang size : Nat) (cores : List Seat) : Machine :=
  match Map.get m.grids gr with
  | none => m
  | some g =>
    let (bis, gis) := m.freeImages g.ctx c
    let b : Block := { ctx := g.ctx, grid := gr, index := g.next, gang := g.gangs, gangSize := size, inGang := inGang, die := die
                       cores := cores.map (·.1), scratch := recScratchUsed g.record, spad := [], image := bis.getD 0 0
                       state := .live, lframes := [], engines := [], bursts := [], tracks := [] }
    let blk := m.nextId
    let m := { m with blocks := Map.set m.blocks blk b, nextId := blk + 1 }
    let n := recGroups g.record
    let k := max 1 cores.length
    let m := (List.range n).foldl (fun (m : Machine) gid =>
      let on := cores.getD (gid % k) (0, [])
      m.startGroup gr blk g c b gid on.1 (on.2.getD (gid / k) (0, 0)) (gis.getD gid 0)) m
    m.updGrid gr fun g => { g with next := g.next + 1 }

/-- Place a gang: all its blocks start in this clk (R165). (DESIGN CHOICE, log 64) -/
def Machine.placeOn (m : Machine) (gr : Nat) (g : Grid) (c : Ctx) (k die : Nat) (bs : List (List Seat))
    (uses : Map CoreUse) : Machine :=
  let m := uses.foldl (fun (m : Machine) (e : Nat × CoreUse) =>
    if bs.any fun b => b.any fun x => x.1 == e.1 then m.useCore gr g.ctx e.1 e.2.aside else m) m
  let m := (bs.zipIdx).foldl (fun (m : Machine) e => m.startBlock gr c die e.2 k e.1) m
  m.updGrid gr fun g => { g with
    gangs := g.gangs + 1, placed := if g.logHead.isEmpty then g.placed else g.placed ++ [bs.map fun b => b.map (·.1)] }

/-- Replay: the recorded size of the next gang (R440). -/
def Grid.plannedSize (g : Grid) : Option Nat :=
  if g.gangs + 8 < g.plan.length then (g.plan[g.gangs]?).map BitVec.toNat else none

/-- Replay: the recorded cores of the next gang, where the part keeps them (R440). (DESIGN CHOICE, log 50) -/
def Machine.plannedCores (m : Machine) (g : Grid) : Option (List (List Nat)) :=
  let place := g.plan.drop (g.plan.length - 8)
  (Map.get m.placements (nat64 (place.getD 0 0) (place.getD 1 0))).bind fun l => l[g.gangs]?

/-- The seats of a gang on the cores that are given, or none while one of them has no room. -/
def Foot.onCores (f : Foot) : List (List Nat) → Map CoreUse → Option (List (List Seat) × Map CoreUse)
  | [], uses => some ([], uses)
  | cs :: rest, uses =>
    let block := (cs.zipIdx).foldl (fun (o : Option (List Seat × Map CoreUse)) e => o.bind fun s =>
      (Map.get s.2 e.1).bind fun u => (f.core e.2 u).map fun x => (s.1 ++ [(e.1, x.1)], Map.set s.2 e.1 x.2)) (some ([], uses))
    block.bind fun b => (f.onCores rest b.2).map fun y => (b.1 :: y.1, y.2)

/-- The recorded cores of a gang that can be its cores at all: as many blocks as are left at most, each on its count of different
cores, all on one die. -/
def Foot.planOk (f : Foot) (rest : Nat) (bs : List (List Nat)) : Bool :=
  let die := (bs.headD []).headD 0 / 48
  !bs.isEmpty && decide (bs.length ≤ rest) && decide (die < 12) &&
  bs.all fun b => b.length == f.c && b.eraseDups.length == f.c && b.all fun x => x / 48 == die

/-- Replay: the gang at its recorded boundary, on its recorded cores, when they have room (R440). (DESIGN CHOICE, log 50) -/
def Machine.replayGang (m : Machine) (gr : Nat) (g : Grid) (c : Ctx) (f : Foot) (bs : List (List Nat)) : Option Machine :=
  let (bis, gis) := m.freeImages g.ctx c
  let die := (bs.headD []).headD 0 / 48
  if decide (bis.length < bs.length) || decide (gis.length < bs.length * f.n) || !m.dieOpen die then none
  else (f.onCores bs (m.dieUse f die)).map fun e => m.placeOn gr g c bs.length die e.1 e.2

/-- Try the next gang of a grid: the preferred size, else the fallback (R165); a replayed one as it was recorded: its size, on its
cores where they are known (R440). (DESIGN CHOICE, log 64) (DESIGN CHOICE, log 50) -/
def Machine.tryGang (m : Machine) (gr : Nat) (g : Grid) (c : Ctx) (die : Option Nat) : Option Machine :=
  match footOf gr g.record with
  | none => none
  | some f =>
    let rest := recBlocks g.record - g.next
    let (bis, gis) := m.freeImages g.ctx c
    let sized := fun (ks : List Nat) => ks.findSome? fun k =>
      if k = 0 || decide (bis.length < k) || decide (gis.length < k * f.n) then none
      else (m.roomFor f k die).map fun e => m.placeOn gr g c k e.1 e.2.1 e.2.2
    match g.plannedSize.filter (fun k => decide (0 < k) && decide (k ≤ rest)) with
    | some k => match (m.plannedCores g).filter fun bs => bs.length == k && f.planOk rest bs with
      | some bs => m.replayGang gr g c f bs
      | none => sized [k]
    | none => sized [min (recGangP g.record) rest, min (recGangF g.record) rest]

/-- Insert a grid: highest record PRIO first, then earliest taken (R391). -/
def insertGrid (e : Nat × Grid) : List (Nat × Grid) → List (Nat × Grid)
  | [] => [e]
  | x :: r =>
    if recPrio x.2.record < recPrio e.2.record || (recPrio x.2.record == recPrio e.2.record && decide (e.2.order < x.2.order)) then
      e :: x :: r
    else x :: insertGrid e r

/-- The grids of a context with blocks to place, in the order of R391. -/
def Machine.placeable (m : Machine) (ctx : Nat) : List (Nat × Grid) :=
  (m.grids.filter fun (e : Nat × Grid) => e.2.ctx == ctx && e.2.state == .running && decide (e.2.next < recBlocks e.2.record)).foldl
    (fun l e => insertGrid e l) []

/-- PLACE_GANG: one gang of one grid, the contexts in turn; on the die that is named, or the lowest with room. -/
def execPlaceGang (s : State) : Host.Outcome State Fault Refusal :=
  runEvent s fun m arg =>
    let die := match arg with
      | .n d => some d
      | _ => none
    let run := (m.ctxs.filter fun (e : Nat × Ctx) => e.2.state == .running && !m.logBusy e.1 1).map (·.1)
    let turn := run.filter (fun k => decide (m.robin < k)) ++ run.filter (fun k => decide (k ≤ m.robin))
    turn.findSome? fun k =>
      (Map.get m.ctxs k).bind fun c =>
        ((m.placeable k).findSome? fun e => m.tryGang e.1 e.2 c die).map fun m => ({ m with robin := k }).logLaunches k

/-! ### Retirement (R193, R194, R300) -/

/-- The stores under a core's retirement tracker are performed at their home (R193, R425). (DEDUCED, log 79) -/
def Machine.performStores (m : Machine) (core : Nat) : Machine :=
  if (m.core core).tracker.any fun t => t.2.2.contains storesId then (m.flushL1 core).flushDie (dieOfCore core) else m

/-- RETIREMENT_TRACKER_DRAIN: work of an entry that has completed leaves it, its stores are performed, and an empty entry is freed: every
core, or one. -/
def execRetirementTrackerDrain (s : State) : Host.Outcome State Fault Refusal :=
  runEvent s fun m arg =>
    let open_ := fun (id : Nat) =>
      if id = storesId then false
      else if id % 2 = 0 then match Map.get m.cmds (id / 2) with
        | some c => c.state != .done
        | none => false
      else Map.has m.parked (id / 2)
    let drain := fun (x : Core) => { x with
      tracker := (x.tracker.map fun (e : Nat × Nat × List Nat) => (e.1, e.2.1, e.2.2.filter open_)).filter fun e => !e.2.2.isEmpty }
    let hit : Nat → Bool := fun k => match arg with
      | .n j => k == j
      | _ => true
    let m := ((m.cores.map (·.1)).filter hit).foldl (fun (m : Machine) k => m.performStores k) m
    some { m with cores := m.cores.map fun (e : Nat × Core) => if hit e.1 then (e.1, drain e.2) else e }

/-- The matrix engine of a core as no block holds it (R300). -/
def Core.freeEngine (x : Core) : Core := { x with claim := none, tiles := [], bslots := [], queue := [] }

/-- A retirement tracker holds an entry of a block. -/
def Machine.tracked (m : Machine) (blk : Nat) : Bool :=
  m.cores.any fun (e : Nat × Core) => e.2.tracker.any fun t => t.2.1 == blk

/-- The cores of a block as it leaves them: its engines are free, and the grid's lighter slots with its last block there (R176). -/
def Machine.leaveCores (m : Machine) (blk : Nat) (b : Block) : Machine :=
  b.cores.foldl (fun (m : Machine) core =>
    let last := !(m.blocks.any fun (e : Nat × Block) => e.1 != blk && e.2.grid == b.grid && e.2.placed && e.2.cores.contains core)
    m.updCore core fun x =>
      let x := if x.claim == some blk then x.freeEngine else x
      { x with reserved := if last then Map.del x.reserved b.grid else x.reserved }) m

/-- BLOCK_RETIRE (R194): scratchpad and engine are freed. -/
def execBlockRetire (s : State) : Host.Outcome State Fault Refusal :=
  runEvent s fun m arg => match arg with
    | .n blk =>
      match Map.get m.blocks blk with
      | none => none
      | some b =>
        let ended := m.groups.all fun (e : Nat × Group) => e.2.block != blk || e.2.status == .retired
        if b.state != .live || !ended || m.tracked blk then none
        else
          let m := (m.leaveCores blk b).updBlock blk fun b => { b with state := .retired, spad := [], lframes := [] }
          some (m.updGrid b.grid fun g => { g with retired := g.retired + 1 })
    | _ => none

/-- The end of a grid in DRAINING: every block bit, the header DONE; a failing write is skipped (R167). -/
def Machine.drainGrid (m : Machine) (gr : Nat) (g : Grid) : Machine :=
  let dm := recDoneMap g.record
  if g.refused then m.closeGrid gr g .failed
  else if dm = 0 then m.closeGrid gr g .done
  else
    let skip := fun (m : Machine) => (m.launchFault g 9).closeGrid gr g .done
    match m.distWrite gr g (dm + 8) (List.replicate (2 * ceilDiv (recBlocks g.record) 64) 0xFFFFFFFF#32) with
    | .fail => skip m
    | .wait m => m
    | .done m => match m.distWrite gr g dm (headerWords 2 0) with
      | .done m => m.closeGrid gr g .done
      | .wait m => m
      | .fail => skip m

/-- GRID_DRAINED, for a grid whose blocks have all retired. -/
def execGridDrained (s : State) : Host.Outcome State Fault Refusal :=
  runEvent s fun m arg => match arg with
    | .n gr =>
      match Map.get m.grids gr with
      | none => none
      | some g =>
        if g.state == .draining && g.retired == recBlocks g.record && g.waits.isNone && g.refusing == 0 then some (m.drainGrid gr g)
        else none
    | _ => none

end Sys2Proof.Machine
end

