-- ==== Sys2Proof/Machine/Context.lean ====
section
/-! DEFINITION. Contexts as the scheduler moves them (R365 to R372, R377, R378, R392): descheduling, save points, saving and
restoring blocks, kill and wipe, compute-die reset (R28). -/

namespace Sys2Proof.Machine

open Sys2Proof

/-! ### Descheduling (R367, R371, R377, R392) -/

/-- The commands of a context that are not done. -/
def Machine.openCmds (m : Machine) (ctx : Nat) : List (Nat × Cmd) :=
  m.cmds.filter fun (e : Nat × Cmd) => e.2.ctx == ctx && e.2.state != QState.done

/-- The engines stop the running commands of a context at their next boundary (R377). -/
def Machine.stopCmds (m : Machine) (ctx : Nat) : Machine :=
  (m.openCmds ctx).foldl (fun (m : Machine) e => if e.2.state == QState.running then m.moveCmd e.1 .stopped else m) m

/-- The OPEN engine queues of a context. -/
def Machine.engineQueues (m : Machine) (c : Ctx) : List Nat :=
  ((List.range 16).map fun i => 16 + i).filter fun q => (m.queueDesc c q).open_

/-- A buoy goes into the reserved slot of an engine queue (R392). (DEDUCED, log 66) -/
def Machine.sendBuoy (m : Machine) (ctx : Nat) (c : Ctx) (q : Nat) : Machine :=
  let d := m.queueDesc c q
  match m.appendEntries { c with buoy := false } q [entryWords .buoy false 0 0 0 0 0 0 []] with
  | none => m
  | some m =>
    let k := m.nextId
    { m with cmds := Map.set m.cmds k (Cmd.new .buoy ctx k k q d.tail 0), nextId := k + 1 }

/-- SCHEDULER_DESCHEDULE: RUNNING to YIELDING. -/
def execSchedulerDeschedule (s : State) : Host.Outcome State Fault Refusal :=
  runEvent s fun m arg => match arg with
    | .n ctx =>
      match Map.get m.ctxs ctx with
      | none => none
      | some c =>
        if c.state != .running then none
        else
          let m := m.updCtx ctx fun c => { c with state := .yielding, preq := true, preqAt := m.clock, buoyed := [], quiet := false }
          let m := { m with groups := m.groups.map fun (e : Nat × Group) => if e.2.ctx == ctx then (e.1, e.2.raise 3 0) else e }
          some (if c.buoy then (m.engineQueues c).foldl (fun (m : Machine) q => m.sendBuoy ctx c q) m else m.stopCmds ctx)
    | _ => none

/-- A strand is parked at a save point. -/
def Entry.atSavePoint (e : Entry) : Bool := (e.park.map (·.why)) == some .savept

/-- A group is at its save point, or has been saved by force (R371). -/
def Group.atSavePoint (g : Group) : Bool :=
  match g.status with
  | .live => g.stack.any Entry.atSavePoint
  | _ => true

/-- Requests of abandoned reads leave their berths. -/
def Machine.dropAbandoned (m : Machine) : Machine := (Map.keys m.groups).foldl (fun (m : Machine) gk => m.dropReads gk) m

/-- DEADLINE_EXPIRY: a group whose deadline has passed is saved by force; one group, or every one (R371, R372). -/
def execDeadlineExpiry (s : State) : Host.Outcome State Fault Refusal :=
  runEvent s fun m arg =>
    let late := fun (k : Nat) (g : Group) => (match arg with
        | .n gk => gk == k
        | _ => true) && g.status == .live && g.lighter.isNone && !g.atSavePoint &&
      (match Map.get m.ctxs g.ctx with
        | some c => c.state == .yielding && decide (c.preqAt + g.deadline.toNat ≤ m.clock)
        | none => false)
    some (({ m with groups := m.groups.map fun (e : Nat × Group) =>
      if (late e.1 e.2) then (e.1, { stopGroup e.2 with status := .saved }) else e } : Machine).dropAbandoned)

/-! ### Saving a block (R311, R372, R378) -/

/-- A group parked in SAVEPT resumes after it; registers from LIVE on come back as zero (R382). (DEDUCED, log 67) -/
def Group.passSavePoint (g : Group) : Group :=
  match g.stack.find? Entry.atSavePoint with
  | none => g
  | some e =>
    let live := match e.park with
      | some { instr := .savept f, .. } => f.live.val
      | _ => 56
    { (g.updEntry e.sid fun e => { e with park := none }) with
      regs := (g.regs.zipIdx).map fun r => if live ≤ r.2 && r.2 < 56 then { emptyReg g.width with empty := r.1.empty } else r.1 }

/-- A group as it is saved: what is in flight lands, parked waits are abandoned, a SAVEPT is passed. -/
def Group.atSave (g : Group) : Group :=
  match g.status with
  | .live => { stopGroup g.deliverAll.passSavePoint with status := .saved }
  | _ => g

/-- Nothing of a block that a save waits for is on its way (R311, R372). In the BUOY model its reads ahead of the buoy complete
first (R377). (DEDUCED, log 66) -/
def Machine.saveReady (m : Machine) (blk : Nat) (b : Block) : Bool :=
  let mine := fun (gk : Nat) => match Map.get m.groups gk with
    | some g => g.block == blk
    | none => false
  let buoyAt := fun (c : Cmd) => m.cmds.any fun (e : Nat × Cmd) =>
    e.2.kind == .buoy && e.2.ctx == c.ctx && e.2.queue == c.queue && decide (c.entry < e.2.entry)
  (m.groups.all fun (e : Nat × Group) => e.2.block != blk || e.2.lighter.isSome || e.2.atSavePoint) &&
  (m.groups.all fun (e : Nat × Group) => e.2.block != blk || e.2.pending.all fun (p : Nat × Pending) => p.2.mread.isNone) &&
  (m.parked.all fun (e : Nat × Parked) => !(e.2.flight && mine e.2.group)) &&
  (b.cores.all fun k => (m.core k).claim != some blk || (m.core k).queue.isEmpty) &&
  (m.cmds.all fun (e : Nat × Cmd) => e.2.block != blk || e.2.kind != .hread || e.2.state == QState.done ||
    (e.2.asked.isEmpty && !(buoyAt e.2)))

/-- Write a scratchpad into its image (R369). -/
def Machine.writeSpad (m : Machine) (c : Ctx) (b : Block) : Machine :=
  let base := spadImage c b.image 0
  b.spad.foldl (fun (m : Machine) (e : Nat × TWord) => m.setHomeWord (base + 4 * e.1) e.2) (m.wipe base b.scratch)

/-- The images of a block and of its groups lie past the end of memory: a save-area write to them fails (R367). (DEDUCED, log 65) -/
def Machine.imageFails (m : Machine) (blk : Nat) (c : Ctx) (b : Block) : Bool :=
  noMemory (spadImage c b.image 0) 0x800000 ||
  m.groups.any fun (e : Nat × Group) => e.2.block == blk && e.2.lighter.isNone && noMemory (groupFrame c e.2.image) 0x40000

/-- Save one block of a gang; its cores drop the records they hold for the context (R237). (DESIGN CHOICE, log 13) -/
def Machine.saveBlock (m : Machine) (blk : Nat) (c : Ctx) (b : Block) : Machine :=
  let m := b.cores.foldl (fun (m : Machine) k => m.release k .device b.cores.length) m
  let own := fun (k : Nat) => match Map.get m.cmds k with
    | some x => x.block == blk
    | none => false
  let m := if m.imageFails blk c b then m else m.writeSpad c b
  let engines := (b.cores.zipIdx).filterMap fun e =>
    if (m.core e.1).claim == some blk then some (e.2, (m.core e.1).tiles, (m.core e.1).bslots) else none
  let bursts := b.bursts ++ b.cores.flatMap fun k => (m.core k).berths.filter fun x => own x.1
  let tracks := b.cores.flatMap fun k => (m.core k).tracker.filterMap fun (t : Nat × Nat × List Nat) =>
    if t.2.1 == blk then some t.2.2 else none
  let m := (m.leaveCores blk b).updBlock blk fun b => { b with
    state := .saved, spad := [], engines := engines, bursts := bursts, tracks := tracks }
  let m := b.cores.foldl (fun (m : Machine) k => m.updCore k fun x => { x with
    berths := x.berths.filter fun y => !own y.1
    records := x.records.filter fun l => l.1 != b.ctx
    hreads := x.hreads.filter fun y => !own y
    tracker := x.tracker.filter fun (t : Nat × Nat × List Nat) => t.2.1 != blk }) m
  ({ m with groups := m.groups.map fun (e : Nat × Group) => if e.2.block == blk then (e.1, e.2.atSave) else e } : Machine).dropAbandoned

/-- The blocks of a gang that have not retired. -/
def Machine.gangOf (m : Machine) (grid gang : Nat) : List (Nat × Block) :=
  m.blocks.filter fun (e : Nat × Block) => e.2.grid == grid && e.2.gang == gang && e.2.state != .retired

/-- BLOCK_SAVE: the blocks of a gang together (R372); a write to the save area that fails, for want of memory or as the event tells,
makes the context FAULTED (R367). (DEDUCED, log 65) -/
def execBlockSave (s : State) : Host.Outcome State Fault Refusal :=
  runEvent s fun m arg =>
    let one : Option (Nat × Bool) := match arg with
      | .n blk => some (blk, false)
      | .flag blk _ failed => some (blk, failed)
      | _ => none
    match one with
    | some (blk, failed) =>
      match Map.get m.blocks blk with
      | none => none
      | some b =>
        match Map.get m.ctxs b.ctx with
        | none => none
        | some c =>
          let gang := m.gangOf b.grid b.gang
          if (c.state == .yielding || c.state == .faulted) && b.state == .live && (gang.all fun e => m.saveReady e.1 e.2) then
            -- a save-area write that fails (R367)
            if c.state == .yielding && (failed || gang.any fun e => m.imageFails e.1 c e.2) then some (m.faultContext b.ctx)
            else some (gang.foldl (fun (m : Machine) e => m.saveBlock e.1 c e.2) m)
          else none
    | _ => none

/-- BUOY_RETURN: an engine that has finished every earlier command of a queue returns its buoy (R392). (DEDUCED, log 66) -/
def execBuoyReturn (s : State) : Host.Outcome State Fault Refusal :=
  runEvent s fun m arg => match arg with
    | .n k =>
      match Map.get m.cmds k with
      | none => none
      | some b =>
        match Map.get m.ctxs b.ctx with
        | none => none
        | some c =>
          let before := m.cmds.any fun (e : Nat × Cmd) =>
            e.2.ctx == b.ctx && e.2.queue == b.queue && decide (e.2.entry < b.entry) && e.2.state != QState.done
          if b.kind != .buoy || b.state != QState.pending || before then none
          else
            let m := (m.setHead c b.queue (b.entry + 1)).completeCmd k
            some (m.updCtx b.ctx fun c => { c with buoyed := insertNat b.queue c.buoyed })
    | _ => none

/-- A buoy of a context, of any queue, that has not returned (R25, R377). (DEDUCED, log 66) -/
def Machine.buoyOut (m : Machine) (ctx : Nat) : Bool :=
  m.cmds.any fun (e : Nat × Cmd) => e.2.kind == .buoy && e.2.ctx == ctx && e.2.state != QState.done

/-- ENGINE_QUIET: what the engines had sent for a context has landed, or its buoys have returned (R377). (DEDUCED, log 65) -/
def execEngineQuiet (s : State) : Host.Outcome State Fault Refusal :=
  runEvent s fun m arg => match arg with
    | .n ctx =>
      match Map.get m.ctxs ctx with
      | none => none
      | some c =>
        let landed := (m.openCmds ctx).all fun e => e.2.asked.isEmpty
        let quiet := fun (m : Machine) => m.updCtx ctx fun c => { c with quiet := true }
        if m.buoyOut ctx then none
        else if c.state == .faulted then (if landed then some (quiet (m.stopCmds ctx)) else none)
        else if c.state != .yielding then none
        else if landed then some (quiet m) else none
    | _ => none

/-- Every block of a context is saved or has retired. -/
def Machine.allSaved (m : Machine) (ctx : Nat) : Bool :=
  m.blocks.all fun (e : Nat × Block) => e.2.ctx != ctx || e.2.state == .saved || e.2.state == .retired

/-- Every core drops the records it holds for a context (R237). -/
def Machine.dropRecords (m : Machine) (ctx : Nat) : Machine :=
  { m with cores := m.cores.map fun (e : Nat × Core) => (e.1, { e.2 with records := e.2.records.filter fun l => l.1 != ctx }) }

/-- CONTEXT_SAVED: YIELDING to SAVED. -/
def execContextSaved (s : State) : Host.Outcome State Fault Refusal :=
  runEvent s fun m arg => match arg with
    | .n ctx =>
      match Map.get m.ctxs ctx with
      | none => none
      | some c =>
        if c.state == .yielding && c.quiet && m.allSaved ctx then 
          some ((m.updCtx ctx fun c => { c with state := .saved }).dropRecords ctx)
        else none
    | _ => none

/-! ### Restoring (R372, R378, R383) -/

/-- Read a scratchpad back from its image. -/
def Machine.readSpad (m : Machine) (c : Ctx) (b : Block) : Map TWord × Machine :=
  let base := spadImage c b.image 0
  (List.range (b.scratch / 4)).foldl (fun (a : Map TWord × Machine) i =>
    let (t, m) := a.2.homeWord (base + 4 * i)
    (Map.put a.1 i t TWord.zero, m)) ([], m)

/-- A lighter takes a free place on its core; none when there is none. -/
def Machine.placeLighter (m : Machine) (gk : Nat) (g : Group) (core : Nat) : Option Machine :=
  match g.lighter with
  | none => some m
  | some l => (m.freePlace core g.grid).map fun p =>
      m.updGroup gk fun g => { g with core := core, slot := p.1, offset := 16 * p.2, lighter := some { l with place := p.2 } }

/-- Place the groups and lighters of a restored block; `old` are the cores it left. A retired group goes with its block, for the reads
it issued (R349). -/
def Machine.seatGroups (m : Machine) (blk : Nat) (old : List Nat) (cores : List Seat) : Option Machine :=
  let k := max 1 cores.length
  let all := m.groups.filter fun (e : Nat × Group) => e.2.block == blk
  let gs := all.filter fun e => e.2.lighter.isSome → e.2.status != .retired
  let seat := fun (m : Machine) (e : Nat × Group) =>
    let on := cores.getD (e.2.gid % k) (0, [])
    let at_ := on.2.getD (e.2.gid / k) (0, 0)
    m.updGroup e.1 fun g => { g with core := on.1, slot := at_.1, offset := at_.2 }
  let m := (gs.filter fun e => e.2.lighter.isNone).foldl seat m
  -- a lighter that has no place yet is on no core
  let m := (gs.filter fun e => e.2.lighter.isSome).foldl (fun (m : Machine) e => m.updGroup e.1 fun g => { g with core := 576 }) m
  (gs.filter fun e => e.2.lighter.isSome).foldl (fun (m : Option Machine) e =>
    m.bind fun m => m.placeLighter e.1 e.2 (cores.getD ((old.idxOf? e.2.core).getD 0) (0, [])).1) (some m)

/-- Parked requests of a block return to the fault berths of its cores (R372); one that waited for a berth still waits (R291, R294). -/
def Machine.seatParked (m : Machine) (blk : Nat) : Machine :=
  { m with parked := m.parked.map fun (e : Nat × Parked) => match Map.get m.groups e.2.group with
      | some g => if g.block = blk then (e.1, { e.2 with core := g.core }) else e
      | none => e }

/-- Restored requests of a context that are more than a core's berths wait for one, the latest first. -/
def Machine.fitBerths (m : Machine) (ctx : Nat) : Machine :=
  ((Map.keys m.parked).reverse).foldl (fun (m : Machine) k =>
    match Map.get m.parked k with
    | none => m
    | some r =>
      if ((Map.get m.groups r.group).map (·.ctx)) == some ctx && !r.flight && decide (faultBerths < m.faultsHeld r.core) then
        { m with parked := Map.set m.parked k { r with waiting := true } }
      else m) m

/-- The engine state of a block comes back on its core number i, whose engine is FREE (R300). -/
def Core.restoreEngine (x : Core) (blk : Nat) (b : Block) (i : Nat) : Core :=
  match Map.get b.engines i with
  | some (tiles, slots) => { x with claim := some blk, tiles := tiles, bslots := slots }
  | none => x

/-- Restore one block of a gang on the cores given to it. (DESIGN CHOICE, log 13) -/
def Machine.restoreBlock (m : Machine) (blk : Nat) (c : Ctx) (b : Block) (cores : List Seat) : Option Machine :=
  let ids := cores.map (·.1)
  let (spad, m) := m.readSpad c b
  let m := ids.foldl (fun (m : Machine) k => m.acquire k .device ids.length) m
  let m := m.updBlock blk fun b => { b with
    state := .live, spad := spad, cores := ids, die := (ids.headD 0) / 48, engines := [], tracks := [] }
  (m.seatGroups blk b.cores cores).map fun m =>
    let m := (ids.zipIdx).foldl (fun (m : Machine) e => m.updCore e.1 fun x => x.restoreEngine blk b e.2) m
    let m := m.cmds.foldl (fun (m : Machine) (e : Nat × Cmd) =>
      if e.2.kind == .hread && e.2.block == blk && e.2.state != QState.done then
        m.updCore (m.cmdCore e.2) fun x => { x with hreads := x.hreads ++ [e.1] }
      else m) m
    let m := ids.foldl (fun (m : Machine) k => m.refillBerths k) m
    let m := b.tracks.foldl (fun (m : Machine) t =>
      { (m.updCore (ids.headD 0) fun x => { x with tracker := Map.set x.tracker m.nextId (blk, t) }) with nextId := m.nextId + 1 }) m
    let m := { m with groups := m.groups.map fun (e : Nat × Group) =>
      if e.2.block == blk && e.2.status == GStatus.saved then (e.1, { e.2 with status := .live }) else e }
    (m.seatParked blk).nextTrap blk

/-- Restore a gang on a die with room; none when no die has room. -/
def Machine.restoreGang (m : Machine) (c : Ctx) (gang : List (Nat × Block)) : Option Machine :=
  match gang.head? with
  | none => some m
  | some (_, b) =>
    match (Map.get m.grids b.grid).bind fun g => footOf b.grid g.record with
    | none => none
    | some f =>
      -- a gang that holds engines needs cores whose engines are FREE (R300)
      let may := fun (k : Nat) => gang.all (fun e => e.2.engines.isEmpty) || (m.core k).claim.isNone
      match m.roomOn may f gang.length none with
      | none => none
      | some (_, plans, uses) =>
        let m := uses.foldl (fun (m : Machine) (e : Nat × CoreUse) =>
          if plans.any fun p => p.any fun x => x.1 == e.1 then m.useCore b.grid b.ctx e.1 e.2.aside else m) m
        (gang.zip plans).foldl (fun (m : Option Machine) e => m.bind fun m => m.restoreBlock e.1.1 c e.1.2 e.2) (some m)

/-- The saved gangs of a context: grid and gang. -/
def Machine.savedGangs (m : Machine) (ctx : Nat) : List (Nat × Nat) :=
  ((m.blocks.filter fun (e : Nat × Block) => e.2.ctx == ctx && e.2.state == BlockState.saved).map fun (e : Nat × Block) =>
    (e.2.grid, e.2.gang)).eraseDups

/-- Modes that RETT recorded while the context did not run (R383). (DEDUCED, log 22) -/
def Machine.applyModes (m : Machine) (ctx : Nat) (modes : Map Nat) : Machine :=
  (modes.foldl (fun (m : Machine) (e : Nat × Nat) => match Map.get m.groups e.1 with
    | some g => match g.status with
      | .trapped frame => m.applyMode e.1 g frame e.2
      | _ => m
    | none => m) m).updCtx ctx fun c => { c with modes := [] }

/-- What waited for the restore: recorded modes, TLBINV effects, EV_REVOKE, stopped commands (R298, R377, R383, R409). -/
def Machine.afterRestore (m : Machine) (ctx : Nat) (c : Ctx) : Machine :=
  let m := m.updCtx ctx fun c => { c with
    state := .running, preq := false, quiet := false, buoyed := [], tlbDue := [], revokes := [] }
  let m := c.revokes.foldl (fun (m : Machine) b =>
    { m with groups := m.groups.map fun (e : Nat × Group) => if e.2.ctx == ctx then (e.1, e.2.raise 5 b) else e }) m
  let m := (c.tlbDue.foldl (fun (m : Machine) d => m.resolveRequests ctx d.1 d.2.1 d.2.2) m).fitBerths ctx
  let m := (m.openCmds ctx).foldl (fun (m : Machine) e =>
    if e.2.state == QState.stopped && e.2.fault.isNone then m.moveCmd e.1 .running else m) m
  m.applyModes ctx c.modes

/-- Restore a context: every saved gang finds room, or nothing happens. (DEDUCED, log 65) -/
def Machine.restoreContext (m : Machine) (ctx : Nat) (c : Ctx) : Option Machine :=
  let gangs := m.savedGangs ctx
  (gangs.foldl (fun (m : Option Machine) g => m.bind fun m =>
    m.restoreGang c (m.gangOf g.1 g.2)) (some m)).map fun m => m.afterRestore ctx c

/-- Contexts that hold a resident place (R367). -/
def Machine.residents (m : Machine) : Nat :=
  (m.ctxs.filter fun (e : Nat × Ctx) => e.2.state != .saved && e.2.state != .faulted && e.2.state != .killed && e.2.state != .wiped).length

/-- SCHEDULER_RESTORE: SAVED to RUNNING. -/
def execSchedulerRestore (s : State) : Host.Outcome State Fault Refusal :=
  runEvent s fun m arg => match arg with
    | .n ctx =>
      match Map.get m.ctxs ctx with
      | none => none
      | some c => if c.state == .saved && decide (m.residents < 64) then m.restoreContext ctx c else none
    | _ => none

/-! ### Kill and wipe (R243, R367) -/

/-- Everything of a context is discarded. -/
def Machine.discard (m : Machine) (ctx : Nat) : Machine :=
  let mine := fun (gk : Nat) => match Map.get m.groups gk with
    | some g => g.ctx == ctx
    | none => false
  let cmdMine := fun (k : Nat) => match Map.get m.cmds k with
    | some c => c.ctx == ctx
    | none => false
  let ids := (m.blocks.filter fun (e : Nat × Block) => e.2.ctx == ctx).map (·.1)
  let m := (m.blocks.filter fun (e : Nat × Block) => e.2.ctx == ctx && e.2.placed).foldl (fun (m : Machine) (e : Nat × Block) =>
    (m.leaveCores e.1 e.2).updBlock e.1 fun b => { b with state := .retired }) m
  { m with
    cores := m.cores.map fun (e : Nat × Core) => (e.1, { e.2 with
      icache := e.2.icache.filter fun l => l.1 != ctx
      records := e.2.records.filter fun l => l.1 != ctx
      tracker := e.2.tracker.filter fun (t : Nat × Nat × List Nat) => !ids.contains t.2.1
      berths := e.2.berths.filter fun x => !cmdMine x.1
      hreads := e.2.hreads.filter fun k => !cmdMine k })
    blocks := m.blocks.map fun (e : Nat × Block) => if e.2.ctx == ctx then (e.1, { e.2 with
      state := .retired, spad := [], lframes := [], engines := [], bursts := [], tracks := [] }) else e
    cmds := m.cmds.filter fun (e : Nat × Cmd) => e.2.ctx != ctx
    parked := m.parked.filter fun (e : Nat × Parked) => !mine e.2.group
    hmReqs := m.hmReqs.filter fun q => q.ctx != ctx
    qps := m.qps.filter fun (e : Nat × QueuePair) => e.2.use != .launch ctx
    tlb := m.tlb.map fun (e : Nat × List TlbEntry) => (e.1, e.2.filter fun t => t.ctx != ctx)
    groups := m.groups.map fun (e : Nat × Group) => if e.2.ctx == ctx then (e.1, { e.2 with
      status := .retired, stack := [], pending := [], open_ := [], replay := [], regs := [], p := []
      ev := { enable := 0, pend := 0, svc := none, info := 0, infos := [], arm := none } }) else e }

/-- Requests and commands of other contexts that wait for a page of a context whose exports have closed translate again
(R293, R403). -/
def Machine.refuseForeign (m : Machine) (ctx : Nat) : Machine :=
  let ps := (m.parked.filter fun (e : Nat × Parked) => e.2.ctx == ctx && !e.2.flight).map (·.1)
  let m := ps.foldl (fun (m : Machine) k => m.replayParked k) m
  (m.cmds.filter fun (e : Nat × Cmd) => (e.2.fault.map (·.1)) == some ctx && e.2.state != QState.done).foldl
    (fun (m : Machine) e => m.resolveCmd e.1 false) m

/-- KILLED: discarded, grids FAILED with code 10, shadows freed, exports closed (R367). -/
def Machine.killContext (m : Machine) (ctx : Nat) (c : Ctx) : Machine :=
  let m := m.discard ctx
  let grids := (m.grids.filter fun (e : Nat × Grid) => e.2.ctx == ctx && e.2.state != .done && e.2.state != .failed).map (·.1)
  let m := grids.foldl (fun (m : Machine) gr => m.failGrid gr 10) m
  let m := c.shadows.foldl (fun (m : Machine) (e : Nat × Shadow) => m.freeFrames c e.2) m
  let m := m.updCtx ctx fun c => { c with
    state := .killed, wiping := true, shadows := [], handles := [], modes := [], tlbDue := [], revokes := [], preq := false }
  (((m.closeExports ctx).refuseForeign ctx).wakeRett)

/-- Number of an owner's channel on a port. -/
def chanKey (owner port : Nat) : Nat := owner * 4 + port

/-- The ports take frames (R430). -/
def Machine.netUp (m : Machine) : Bool := m.bring == .ready

/-- The port on whose management endpoint an owner's requests come: the lowest that is not lost where its channel is open (R400,
R410). (DESIGN CHOICE, log 21) -/
def Machine.openPort (m : Machine) (owner : Nat) : Option Nat :=
  (List.range 4).find? fun p => !m.portLost.contains p && (match Map.get m.chans (chanKey owner p) with
    | some c => !c.closed
    | none => false)

/-- An owner reaches a management endpoint (R21, R400). (DEDUCED, log 72) -/
def Machine.reaches (m : Machine) (owner : Nat) : Bool := m.netUp && (m.openPort owner).isSome

/-- The harbour master's answer to a request: a SEND of its status on the endpoint it came to (R400). (DESIGN CHOICE, log 21) -/
def Machine.statusOf (m : Machine) (owner v : Nat) : NetMsg := .status (chanKey owner ((m.openPort owner).getD 0)) v

/-- KILL_CONTEXT: by the harbour master, or by the owner that is named. -/
def execKillContext (s : State) : Host.Outcome State Fault Refusal :=
  runEvent s fun m arg =>
    let kill := fun (ctx : Nat) (may : Ctx → Bool) => (Map.get m.ctxs ctx).bind fun c =>
      if may c && c.state != .killed && c.state != .wiped then some (m.killContext ctx c) else none
    match arg with
    | .n ctx => kill ctx fun _ => true
    | .n2 owner ctx =>
      let answer := fun (n : Machine) (v : Nat) => n.send (m.statusOf owner v)
      if !m.reaches owner then none
      else if (Map.get m.ctxs ctx).isNone then some (answer m 3)
      else match kill ctx fun c => c.owner == owner with
        | some m => some (answer m 0)
        | none => some (answer m (if ((Map.get m.ctxs ctx).map (·.owner)) == some owner then 3 else 1))
    | _ => none

/-- The pages that a table maps with BERTH 0: address and size (R286). -/
def Machine.mapped (m : Machine) : Nat → Nat → List (Nat × Nat)
  | 0, node => (List.range 32).filterMap fun i =>
      let e := (m.homeNat64 (node + 8 * i)).1
      if pteV e && !pteMalformed 0 e && pteBerth e == 0 then some (pteAddr e, 65536) else none
  | l + 1, node => (List.range 512).flatMap fun i =>
      let e := (m.homeNat64 (node + 8 * i)).1
      if !pteV e || pteMalformed (l + 1) e then []
      else if pteLeaf e then (if pteBerth e = 0 then [(pteAddr e, 2 ^ levelShift (l + 1))] else [])
      else Machine.mapped m l (pteAddr e)

/-- The save area of a context: its first 256 KiB, group images, block images (R369). -/
def saveArea (c : Ctx) : List (Nat × Nat) :=
  [(c.saveBase, 0x40000 + 0x40000 * c.ngimg), (c.saveBase + 0x800000 * c.bimgOff, 0x800000 * c.nbimg)]

/-- The pages of a killed context that no other context still reaches (R243). (DEDUCED, log 65) -/
def Machine.pagesToWipe (m : Machine) (ctx : Nat) (c : Ctx) : List (Nat × Nat) :=
  let others := (m.ctxs.filter fun (e : Nat × Ctx) => e.1 != ctx && e.2.state != .killed && e.2.state != .wiped).flatMap
    fun (e : Nat × Ctx) => m.mapped 4 e.2.ptRoot ++ saveArea e.2
  (m.mapped 4 c.ptRoot ++ saveArea c).filter fun p =>
    !(others.any fun o => decide (p.1 < o.1 + o.2) && decide (o.1 < p.1 + p.2))

/-- CONTEXT_WIPED: KILLED to WIPED. -/
def execContextWiped (s : State) : Host.Outcome State Fault Refusal :=
  runEvent s fun m arg => match arg with
    | .n ctx =>
      match Map.get m.ctxs ctx with
      | none => none
      | some c =>
        if c.state != .killed then none
        else
          let m := (m.pagesToWipe ctx c).foldl (fun (m : Machine) p => m.wipe p.1 p.2) m
          -- a header of a grid that still waits for its page is wiped with it
          let m := { m with grids := m.grids.map fun (e : Nat × Grid) =>
            if e.2.ctx == ctx && e.2.state != GridState.done then (e.1, { e.2 with state := .failed, failing := none, waits := none }) else e }
          some (m.updCtx ctx fun c => { c with state := .wiped, wiping := false })
    | _ => none

/-- RESUME_CONTEXT: FAULTED to RUNNING, as a restore (R367); the owner's request is answered (R400). -/
def execResumeContext (s : State) : Host.Outcome State Fault Refusal :=
  runEvent s fun m arg => match arg with
    | .n2 owner ctx =>
      let answer := fun (n : Machine) (v : Nat) => some (n.send (m.statusOf owner v))
      if !m.reaches owner then none else
      match Map.get m.ctxs ctx with
      | none => answer m 3
      | some c =>
        if c.owner != owner then answer m 1
        else if c.state != .faulted then answer m 3
        else if !(c.quiet && m.allSaved ctx) then none
        else if 64 ≤ m.residents then answer m 2
        else (m.restoreContext ctx c).map fun n => n.send (m.statusOf owner 0)
    | _ => none

/-! ### Compute-die reset (R28) -/

/-- The memories of a compute die are wiped: its cores and their copy engines' translations, its die cache (R28, R243). -/
def Machine.wipeDie (m : Machine) (d : Nat) : Machine :=
  let gone := fun (k : Nat) => decide (k < 576) && k / 48 == d
  { m with
    cores := m.cores.filter fun (e : Nat × Core) => !gone e.1
    tlb := m.tlb.filter fun (e : Nat × List TlbEntry) => !(gone e.1 || (decide (engineKey copySource 0 ≤ e.1) && gone (e.1 - engineKey copySource 0)))
    mem := { m.mem with
      die := Map.del m.mem.die d
      presence := (m.mem.presence.map fun (e : Nat × BitVec 12) => (e.1, e.2 &&& ~~~ BitVec.ofNat 12 (2 ^ d))).filter
        fun e => e.2 != 0 } }

/-- COMPUTE_DIE_RESET: the distributor first closes the die; when no block is placed on it, its caches are written back and it
enters reset. -/
def execComputeDieReset (s : State) : Host.Outcome State Fault Refusal :=
  runEvent s fun m arg => match arg with
    | .n d =>
      if 12 ≤ d || m.dieReset.contains d then none
      else if !m.diesClosed.contains d then some { m with diesClosed := insertNat d m.diesClosed }
      else if m.blocks.any fun (e : Nat × Block) => e.2.placed && e.2.die == d then none
      else
        let m := ((List.range 48).foldl (fun (m : Machine) j => m.flushL1 (d * 48 + j)) m).flushDie d
        some (({ m with dieReset := insertNat d m.dieReset } : Machine).wipeDie d)
    | _ => none

/-- COMPUTE_DIE_RESET_EXIT: wiped, the die takes blocks again. -/
def execComputeDieResetExit (s : State) : Host.Outcome State Fault Refusal :=
  runEvent s fun m arg => match arg with
    | .n d =>
      if m.dieReset.contains d && m.bring == .ready then
        some (({ m with dieReset := m.dieReset.filter (· != d), diesClosed := m.diesClosed.filter (· != d) } : Machine).wipeDie d)
      else none
    | _ => none

end Sys2Proof.Machine
end

