-- ==== Sys2Proof/Machine/Network.lean ====
section
/-! DEFINITION. Events of the Ethernet ports and the network engine (R389, R398 to R411): frames, launches by SEND, RDMA on
export berths, revocation notices, paths and channels that fail. -/

namespace Sys2Proof.Machine

open Sys2Proof

/-! ### Channels, queue pairs, counters (R399, R400, R410; numbers of queue pairs: DESIGN CHOICE, log 21) -/

/-- DESIGN CHOICE, log 21. -/
def managementQp (owner port : Nat) : Nat := chanKey owner port
/-- DESIGN CHOICE, log 21. -/
def launchQp (ctx port : Nat) : Nat := 64 + ctx * 4 + port
/-- DESIGN CHOICE, log 21. -/
def pathQp (path : Nat) : Nat := 320 + path

def Counters.zero : Counters := { dropped := 0, icv := 0, refused := 0, closures := 0 }

/-- DEDUCED, log 31. -/
def Machine.count (m : Machine) (owner port : Nat) (f : Counters → Counters) : Machine :=
  let k := chanKey owner port
  { m with counters := Map.set m.counters k (f (Map.getD m.counters k Counters.zero)) }

/-- A path refuses its operations as REVOKED from now on, and its import berths are STALE (R406). (DESIGN CHOICE, log 75) -/
def Machine.failPath (m : Machine) (p : Nat) : Machine :=
  let m := { m with paths := Map.upd m.paths p fun x => { x with usable := false } }
  (m.berths.filter fun (e : Nat × Berth) => e.2.import_ && e.2.path == p).foldl (fun (m : Machine) (e : Nat × Berth) => m.stale e.1) m

/-- An owner's channel on a port closes (R410). -/
def Machine.closeChannel (m : Machine) (owner port : Nat) : Machine :=
  let m := { m with chans := Map.upd m.chans (chanKey owner port) fun c => { c with closed := true } }
  let m := m.count owner port fun c => { c with closures := c.closures + 1 }
  (m.paths.filter fun (e : Nat × Path) => e.2.owner == owner && e.2.port == port).foldl (fun (m : Machine) (e : Nat × Path) => m.failPath e.1) m

/-! ### Frames (R404, checks 1 and 2) -/

def Channel.new (window : Nat) : Channel := { key := { an := 0, pn := 0, seen := [] }, old := none, window := window, closed := false }

/-- The replay check of a key: a new packet number, or one inside the window that was not seen; no packet number of a key reaches 2^62
(R399, R404). -/
def Pilot.takes (p : Pilot) (window pn : Nat) : Bool :=
  decide (pn < 2 ^ 62) && (decide (p.pn ≤ pn) || (decide (p.pn ≤ pn + window) && !p.seen.contains pn))

def Pilot.take (p : Pilot) (window pn : Nat) : Pilot :=
  let next := max p.pn (pn + 1)
  { p with pn := next, seen := (insertNat pn p.seen).filter fun n => decide (next ≤ n + window) }

/-- Check 1: the channel with the frame's number taken; none when the frame is dropped. (DESIGN CHOICE, log 8) -/
def Channel.accept (c : Channel) (an pn : Nat) (icvOk : Bool) : Option Channel :=
  if c.closed || !icvOk then none
  else if an = c.key.an then (if c.key.takes c.window pn then some { c with key := c.key.take c.window pn, seenNew := true } else none)
  else match c.old with
    | some o => if an = o.an && o.takes c.window pn then some { c with old := some (o.take c.window pn) } else none
    | none => none

/-- The queue pair belongs to the owner, on the port. -/
def Machine.qpOf (m : Machine) (owner port qp : Nat) : Option QueuePair :=
  match Map.get m.qps qp with
  | some q => if q.owner == owner && q.port == port then some q else none
  | none => none

/-- Check 2 fails: the frame is dropped and the channel closed. -/
def Machine.wrongQp (m : Machine) (owner port : Nat) : Machine :=
  (m.count owner port fun c => { c with dropped := c.dropped + 1 }).closeChannel owner port

/-- The owner number that stands for the harbour master's own channel (R399). (DESIGN CHOICE, log 21) -/
def harbourOwner : Nat := 16

/-- ETHERNET_FRAME_RECEIVE: the checks every frame meets; what the device does not support is refused, an ECN mark is answered (R398). -/
def execEthernetFrameReceive (s : State) : Host.Outcome State Fault Refusal :=
  runEvent s fun m arg => match arg with
    | .frame f =>
      if !m.netUp || m.portLost.contains f.port then none
      else match Map.get m.chans (chanKey f.owner f.port) with
        | none => none
        | some c =>
          if c.closed then some (m.count f.owner f.port fun x => { x with dropped := x.dropped + 1 })
          else match c.accept f.an f.pn f.icvOk with
            | none => some (m.count f.owner f.port fun x => { x with dropped := x.dropped + 1, icv := x.icv + 1 })
            | some c =>
              let m := { m with chans := Map.set m.chans (chanKey f.owner f.port) c }
              let m2 := if f.ecn then m.send (.cnp f.qp) else m
              some (if f.owner = harbourOwner then m
                else if (m.qpOf f.owner f.port f.qp).isSome then (if f.unsupported then m2.send (.nakInvalid f.qp) else m2)
                else m.wrongQp f.owner f.port)
    | _ => none

/-- An operation of a queue pair that has passed check 1. -/
def Machine.onQp (m : Machine) (owner port qp : Nat) (k : QueuePair → Option Machine) : Option Machine :=
  match Map.get m.chans (chanKey owner port) with
  | none => none
  | some c =>
    if !m.netUp || c.closed || m.portLost.contains port then none
    else match m.qpOf owner port qp with
      | none => some (m.wrongQp owner port)
      | some q => k q

/-! ### Launch by SEND (R389) -/

/-- The words of bytes, little-endian. -/
def wordsOf (bs : List Byte) : List TWord :=
  (List.range (bs.length / 4)).map fun i => TWord.of (wordOfBytes ((bs.drop (4 * i)).take 4))

/-- ROCE_LAUNCH_SEND. (DEDUCED, log 48) -/
def execRoceLaunchSend (s : State) : Host.Outcome State Fault Refusal :=
  runEvent s fun m arg => match arg with
    | .launch r => m.onQp r.owner r.port r.qp fun qp =>
      let nak := some (m.send (.nakInvalid r.qp))
      let imm := (r.imm.map (·.toNat)).getD 0
      match qp.use with
      | .launch ctx =>
        match Map.get m.ctxs ctx with
        | none => nak
        | some c =>
          if m.logBusy ctx 2 then some (m.send (.rnr r.qp)) else
          let q := launchQ (imm % 16)
          let d := m.queueDesc c q
          let n := r.data.length / 64
          if decide (16 ≤ imm) || !d.open_ || !d.net || r.data.length % 64 != 0 || decide (n < 1) || decide (16 < n) then nak
          else
            let ws := wordsOf r.data
            match m.appendEntries c q ((List.range n).map fun i => (ws.drop (16 * i)).take 16) with
            | none => some (m.send (.rnr r.qp))
            | some m => some ((m.logInput ctx 0 (imm % 16) r.data.length r.data).send (.ack r.qp))
      | _ => nak
    | _ => none

/-! ### RDMA on export berths (R404, R405) -/

/-- The berth a key names (R402). (DEDUCED, log 42) -/
def keyBerth (key : Word) : Nat := bits key.toNat 27 16

/-- Pages of a window that an operation touches. -/
def windowPages (off n : Nat) : List Nat :=
  (List.range ((off % 65536 + n + 65535) / 65536)).map fun i => if i = 0 then off else (off / 65536 + i) * 65536

/-- The exporting context of a berth. -/
def Machine.exporter (m : Machine) (b : Nat) : Nat := ((Map.get m.berths b).map (·.ctx)).getD 64

/-- Checks 3 to 5, and the pages: the operation goes on, or it is answered; it is not ready while its INPUT entry would wait for room
in the log (R439). (DEDUCED, log 42) (DEDUCED, log 48) -/
def Machine.rdma (m : Machine) (r : RdmaReq) (k : Access) (size : Nat) (go : Machine → Nat → Machine) : Option Machine :=
  m.onQp r.owner r.port r.qp fun _ =>
    let b := keyBerth r.key
    match m.berthCheck r.owner b r.key k r.offset size with
    | some .access => some ((m.count r.owner r.port fun c => { c with refused := c.refused + 1 }).send (.nakAccess r.qp))
    | some .revoked => some (m.send (.nakRevoked r.qp))
    | none =>
      -- each page is translated; one that is not valid is reported, and the requester retries
      let bad := (windowPages r.offset size).findSome? fun o => match m.exportPlace b o k with
        | (.window _ _ _, _) => none
        | (p, _) => some p
      if (k == .write || k == .atomic) && m.logBusy (m.exporter b) 2 then some (m.send (.rnr r.qp)) else
      match bad with
      | some (.fault c v src) => some ((m.reportFault c v 1 k.code src).send (.rnr r.qp))
      | some (.prot _ _) => some (m.send (.nakAccess r.qp))
      | some _ => some (m.send (.nakRevoked r.qp))
      | none => some (go m b)

/-- An accepted operation is remembered for the notices of a revocation (R407). -/
def Machine.usedBy (m : Machine) (b qp : Nat) : Machine :=
  { m with berths := Map.upd m.berths b fun r => { r with used := insertNat qp r.used } }

/-- Write bytes into a window; a page of its shadow may be missing (R405). -/
def Machine.putBytes (m : Machine) (b off : Nat) (data : List Byte) : Wrote :=
  (wordPieces off data.length).foldl (fun w e => match w with
    | .done m => match m.exportPlace b e.1 .write with
      | (.window _ pa o, m) =>
        let bs := (data.drop (e.1 - off)).take e.2
        m.writeWindow b pa o e.2 [TWord.of (BitVec.ofNat 32 (natOfBytes bs * 256 ^ (e.1 % 4)))] (m.windowPri b o plainPri)
      | (.fault c v _, _) => .fault c v 1
      | _ => .refused
    | w => w) (Wrote.done m)

/-- An RDMA WRITE, with what it does after its bytes have been performed. -/
def Machine.rdmaWrite (m : Machine) (r : RdmaReq) (finish : Machine → Nat → Machine) : Option Machine :=
  m.rdma r .write r.data.length fun m b => match m.putBytes b r.offset r.data with
    | .done m =>
      let m := (m.usedBy b r.qp).logInput (m.exporter b) b r.offset r.data.length r.data
      (finish m b).send (.ack r.qp)
    | .fault c v kind => (m.reportFault c v kind 1 4).send (.rnr r.qp)
    | .refused => m.send (.nakRevoked r.qp)
    | .gone m => m.send (.nakAccess r.qp)

/-- The immediate asks for a publication. -/
def rdmaPublishes (r : RdmaReq) : Bool := ((r.imm.map fun w => w.getLsbD 31)).getD false

/-- RDMA_WRITE. -/
def execRdmaWrite (s : State) : Host.Outcome State Fault Refusal :=
  runEvent s fun m arg => match arg with
    | .rdma r => if rdmaPublishes r then none else m.rdmaWrite r fun m _ => m
    | _ => none

/-- RDMA_WRITE_PUBLISH. -/
def execRdmaWritePublish (s : State) : Host.Outcome State Fault Refusal :=
  runEvent s fun m arg => match arg with
    | .rdma r => if rdmaPublishes r then m.rdmaWrite r fun m b => m.publishWindow b else none
    | _ => none

/-- Bytes of a window at the home. -/
def Machine.getBytes (m : Machine) (b off n : Nat) : List Byte :=
  (List.range n).map fun i => match m.exportPlace b (off + i) .read with
    | (.window _ pa _, m) => byteOf (m.homeWord (pa / 4 * 4)).1.data (pa % 4)
    | _ => 0

/-- RDMA_READ. (DEDUCED, log 48) -/
def execRdmaRead (s : State) : Host.Outcome State Fault Refusal :=
  runEvent s fun m arg => match arg with
    | .rdma r => m.rdma r .read r.len fun m b => (m.usedBy b r.qp).send (.readData r.qp (m.getBytes b r.offset r.len))
    | _ => none

/-- RDMA_ATOMIC: 8 bytes, aligned, at the home. (DEDUCED, log 48) -/
def execRdmaAtomic (s : State) : Host.Outcome State Fault Refusal :=
  runEvent s fun m arg => match arg with
    | .rdma r =>
      if r.offset % 8 != 0 then m.onQp r.owner r.port r.qp fun _ => some (m.send (.nakInvalid r.qp))
      else m.rdma r .atomic 8 fun m b =>
        let v := (words64 r.operand.toNat ++ words64 r.swap.toNat).map TWord.of
        let (p, m) := m.exportPlace b r.offset .atomic
        match m.atomPlace { core := 0, ctx := m.exporter b, pri := 0, lu := false, order := none } 0 p (if r.cas then .casD else .addD) v with
        | (.old ws, m) =>
          let old := nat64 (wordAt ws 0).data (wordAt ws 1).data
          let new := bytesOf 8 (if r.cas then (if old = r.operand.toNat then r.swap.toNat else old) else (old + r.operand.toNat) % 2 ^ 64)
          ((m.usedBy b r.qp).logInput (m.exporter b) b r.offset 8 new).send
            (.atomicOld r.qp (BitVec.ofNat 64 old))
        | (_, m) => m.send (.nakAccess r.qp)
    | _ => none

/-! ### Paths, ports, notices (R406, R409, R411) -/

/-- REVOCATION_NOTICE_RECEIVE: a notice for an import berth; or a notice of a key, for the import berths that hold it. -/
def execRevocationNoticeReceive (s : State) : Host.Outcome State Fault Refusal :=
  runEvent s fun m arg => match arg with
    | .n b => some (m.stale b)
    | .n2 path key => some ((m.berths.filter fun (e : Nat × Berth) =>
        e.2.import_ && e.2.path == path && e.2.rkey.toNat == key).foldl (fun (m : Machine) (e : Nat × Berth) => m.stale e.1) m)
    | _ => none

/-- ROCE_RETRY_EXHAUSTED of a path. (DESIGN CHOICE, log 75) -/
def execRoceRetryExhausted (s : State) : Host.Outcome State Fault Refusal :=
  runEvent s fun m arg => match arg with
    | .n p => some (m.failPath p)
    | _ => none

/-- PORT_LOSS_OF_SIGNAL: told to the harbour master, which may fail the port's paths. -/
def execPortLossOfSignal (s : State) : Host.Outcome State Fault Refusal :=
  runEvent s fun m arg =>
    let lose := fun (p : Nat) => { m with portLost := insertNat p m.portLost, shared := m.shared ++ [(2, p)] }
    match arg with
    | .n p => if p < 4 then some (lose p) else none
    | .flag p _ fail =>
      if p < 4 then
        some (if fail then (m.paths.filter fun (e : Nat × Path) => e.2.port == p).foldl
          (fun (m : Machine) (e : Nat × Path) => m.failPath e.1) (lose p) else lose p)
      else none
    | _ => none

/-- COUNTER_CLEAR: the harbour master reads and clears an owner's counters of a port. -/
def execCounterClear (s : State) : Host.Outcome State Fault Refusal :=
  runEvent s fun m arg => match arg with
    | .n2 owner port => some { m with counters := Map.del m.counters (chanKey owner port) }
    | _ => none

end Sys2Proof.Machine
end

