-- ==== Sys2Proof/Machine/Harbour.lean ====
section
/-! DEFINITION. The harbour master's work for owners (R22, R241, R365 to R367, R384, R385, R399, R400, R402): owners, contexts,
queues, paths, keys, thresholds. -/

namespace Sys2Proof.Machine

open Sys2Proof

/-! ### Requests (R400) -/

/-- An owner's request, sent on a management endpoint, is answered by its status; none while the owner can send none (R21, R400). -/
def Machine.answerOwner (m : Machine) (owner : Nat) (r : Nat × Machine) : Option Machine :=
  if !m.reaches owner || !m.owners.contains owner then none else some (r.2.send (m.statusOf owner r.1))

def pow2In (n lo hi : Nat) : Bool := decide (lo ≤ n) && decide (n ≤ hi) && n == 2 ^ Nat.log2 n

/-- A life-cycle change is in progress (R400). -/
def Machine.busy (m : Machine) : Bool := m.fuses.change.isSome

/-! ### Owners (R22, R399) -/

/-- CREATE_OWNER: an owner number, with channels and management endpoints on every port; a replay window from 0 to 1024. (DEDUCED, log 72) -/
def Machine.createOwner (m : Machine) (o window : Nat) : Option Machine :=
  if decide (16 ≤ o) || m.owners.contains o || decide (1024 < window) || !m.netUp || (m.fuses.lcs != .deployed && m.fuses.lcs != .debug) then none
  else
    let ports := List.range 4
    some { m with
      owners := insertNat o m.owners
      chans := ports.foldl (fun (x : Map Channel) p => Map.set x (chanKey o p) (Channel.new window)) m.chans
      qps := ports.foldl (fun (x : Map QueuePair) p => Map.set x (managementQp o p) { owner := o, port := p, use := .management }) m.qps }

def execCreateOwner (s : State) : Host.Outcome State Fault Refusal :=
  runEvent s fun m arg => match arg with
    | .n o => m.createOwner o 0
    | .n2 o window => m.createOwner o window
    | .none => ((List.range 16).find? fun o => !m.owners.contains o).bind fun o => m.createOwner o 0
    | _ => none

/-! ### Contexts (R365 to R367) -/

/-- The form of a create request. -/
def createFormOk (r : CreateReq) : Bool :=
  r.statusVa % 65536 == 0 && decide (r.statusVa < 2 ^ 57) && r.saveBase % 0x800000 == 0 && r.ptRoot % 4096 == 0 && r.qdBase % 64 == 0 &&
  pow2In r.fqSize 1 (2 ^ 31) && pow2In r.tqSize 1 (2 ^ 31) && pow2In r.shSize 16 65536 &&
  decide (r.ptRoot + 4096 ≤ dramTop) && decide (r.saveBase + 0x40000 + 0x40000 * r.ngimg ≤ dramTop) &&
  decide (r.saveBase + 0x800000 * (r.bimgOff + r.nbimg) ≤ dramTop) && decide (r.fqBase + 16 + 32 * r.fqSize ≤ dramTop) &&
  decide (r.tqBase + 16 + 32 * r.tqSize ≤ dramTop) && decide (r.shPool + 16 + 8 * r.shSize ≤ dramTop) && decide (r.qdBase + 2048 ≤ dramTop)

/-- A context as created. (DEDUCED, log 72) -/
def Ctx.new (r : CreateReq) : Ctx :=
  { owner := r.owner, state := .created, priv := r.priv, buoy := r.buoy, debug := r.debug, super := r.super, ptRoot := r.ptRoot
    saveBase := r.saveBase, ngimg := r.ngimg, nbimg := r.nbimg, fqBase := r.fqBase, fqSize := r.fqSize, tqBase := r.tqBase
    tqSize := r.tqSize, shPool := r.shPool, shSize := r.shSize, statusVa := r.statusVa
    deadline := if r.deadline = 0 then 100000 else r.deadline, bimgOff := r.bimgOff, qdBase := r.qdBase
    resolve := 0, handles := [], shadows := [], fqSeq := 0, tqSeq := 0, logSeq := 0, logIn := 0, fqWait := [], tqWait := []
    logWait := [], reported := [], preq := false, preqAt := 0, gimgs := [], bimgs := [], buoyed := [], quiet := false
    headSince := [], boost := [], logTaken := 0, retiredAbove := [], modes := [], tlbDue := [], revokes := [], wiping := false }

/-- The supervisor is none, the context itself if privileged, or a privileged context of the owner (R366). (DEDUCED, log 72) -/
def Machine.superOk (m : Machine) (r : CreateReq) (id : Nat) : Bool :=
  r.super == 0xFF || (r.super == id && r.priv) || (match Map.get m.ctxs r.super with
    | some c => c.owner == r.owner && c.priv && c.state != .wiped
    | none => false)

/-- The lowest CTXID that no context holds. -/
def Machine.freeCtxId (m : Machine) : Option Nat :=
  (List.range 64).find? fun k => match Map.get m.ctxs k with
    | some c => c.state == .wiped
    | none => true

/-- CREATE_CONTEXT: its status and effect. -/
def Machine.createContext (m : Machine) (r : CreateReq) : Nat × Machine :=
  if m.busy then (5, m)
  else if r.debug && m.fuses.lcs != .debug then (4, m)
  else if !createFormOk r then (3, m)
  else match m.freeCtxId with
    | none => (2, m)
    | some id => if !m.superOk r id then (1, m) else (0, { m with ctxs := Map.set m.ctxs id (Ctx.new r) })

def execCreateContext (s : State) : Host.Outcome State Fault Refusal :=
  runEvent s fun m arg => match arg with
    | .create r => m.answerOwner r.owner (m.createContext r)
    | _ => none

/-- A request of an owner on one of its contexts. -/
def Machine.onContext (m : Machine) (owner ctx : Nat) (k : Ctx → Nat × Machine) : Option Machine :=
  m.answerOwner owner (if m.busy then (5, m) else match Map.get m.ctxs ctx with
    | none => (3, m)
    | some c => if c.owner != owner then (1, m) else k c)

/-- LOAD_CONTEXT: CREATED to LOADING. -/
def execLoadContext (s : State) : Host.Outcome State Fault Refusal :=
  runEvent s fun m arg => match arg with
    | .n2 owner ctx => m.onContext owner ctx fun c =>
      if c.state == .created then (0, m.updCtx ctx fun c => { c with state := .loading }) else (3, m)
    | _ => none

/-- START_CONTEXT: LOADING to RUNNING; the context has a launch endpoint on every port (R400). -/
def execStartContext (s : State) : Host.Outcome State Fault Refusal :=
  runEvent s fun m arg => match arg with
    | .n2 owner ctx => m.onContext owner ctx fun c =>
      if c.state != .loading then (3, m)
      else (0, { (m.updCtx ctx fun c => { c with state := .running }) with
        qps := (List.range 4).foldl (fun (x : Map QueuePair) p => Map.set x (launchQp ctx p) { owner := owner, port := p, use := .launch ctx }) m.qps })
    | _ => none

/-! ### Queues (R371, R384, R385) -/

/-- The form of an open-queue request. -/
def queueFormOk (r : QueueReq) : Bool :=
  decide (r.queue < 32) && r.base % 64 == 0 && pow2In r.size 4 65536 && decide (r.prio ≤ 7) && decide (r.base + 64 * r.size ≤ dramTop) &&
  (decide (r.queue < 16) || (r.prio == 0 && !r.net && !r.ordered))

/-- The words of an opened descriptor. -/
def descWords (r : QueueReq) : List Word :=
  words64 r.base ++ [BitVec.ofNat 32 r.size,
    BitVec.ofNat 32 (r.prio + 256 * (1 + (if r.net then 2 else 0) + (if r.ordered then 4 else 0)))] ++ List.replicate 12 0

/-- A context whose queues may be opened and closed. -/
def Ctx.alive (c : Ctx) : Bool := c.state != .killed && c.state != .wiped

/-- OPEN_QUEUE: a queue that is open has no place, and one with entries not retired is not opened again. (DEDUCED, log 72) -/
def execOpenQueue (s : State) : Host.Outcome State Fault Refusal :=
  runEvent s fun m arg => match arg with
    | .queue owner ctx r => m.onContext owner ctx fun c =>
      let d := m.queueDesc c r.queue
      if !queueFormOk r || !c.alive then (3, m)
      else if d.open_ then (2, m)
      else if d.progress != d.tail then (3, m)
      else (0, (m.setHomeData (descAddr c r.queue) (descWords r)).updCtx ctx fun c => { c with
        retiredAbove := Map.del c.retiredAbove r.queue, headSince := Map.del c.headSince r.queue, boost := Map.del c.boost r.queue })
    | _ => none

/-- CLOSE_QUEUE. -/
def execCloseQueue (s : State) : Host.Outcome State Fault Refusal :=
  runEvent s fun m arg => match arg with
    | .n3 owner ctx q => m.onContext owner ctx fun c =>
      if decide (32 ≤ q) || !c.alive || !(m.queueDesc c q).open_ then (3, m)
      else
        let a := descAddr c q + 0xC
        let (t, m) := m.homeWord a
        (0, m.setHomeWord a (setWordByte t 1 (byteOf (t.data &&& ~~~ 256#32) 1)))
    | _ => none

/-- SET_DEADLINE: the starting DEADLINE of the context's groups. -/
def execSetDeadline (s : State) : Host.Outcome State Fault Refusal :=
  runEvent s fun m arg => match arg with
    | .n3 owner ctx clk => m.onContext owner ctx fun c =>
      if decide (2 ^ 32 ≤ clk) || !c.alive then (3, m) else (0, m.updCtx ctx fun c => { c with deadline := clk })
    | _ => none

/-! ### Paths and keys (R399, R402, R410) -/

/-- OPEN_PATH: the lowest free number. -/
def execOpenPath (s : State) : Host.Outcome State Fault Refusal :=
  runEvent s fun m arg => match arg with
    | .n2 owner port =>
      let usable := match Map.get m.chans (chanKey owner port) with
        | some c => !c.closed
        | none => false
      m.answerOwner owner (if m.busy then (5, m) else if decide (4 ≤ port) || !usable then (3, m)
        else match (List.range 65535).find? fun p => !Map.has m.paths p with
          | none => (2, m)
          | some p => (0, { m with
              paths := Map.set m.paths p { owner := owner, port := port, usable := true }
              qps := Map.set m.qps (pathQp p) { owner := owner, port := port, use := .peer } }))
    | _ => none

/-- CLOSE_PATH: its import berths find no path any more. -/
def execClosePath (s : State) : Host.Outcome State Fault Refusal :=
  runEvent s fun m arg => match arg with
    | .n2 owner p =>
      m.answerOwner owner (if m.busy then (5, m) else match Map.get m.paths p with
        | none => (3, m)
        | some x => if x.owner != owner then (1, m)
          else
            let m := m.failPath p
            (0, { m with paths := Map.del m.paths p, qps := Map.del m.qps (pathQp p) }))
    | _ => none

/-- A message goes out on an owner's channel of a port. -/
def Machine.onChannel (m : Machine) (owner port : Nat) (x : NetMsg) : Bool :=
  let qp := fun (q : Nat) => (m.qpOf owner port q).isSome
  let path := fun (p : Nat) => match Map.get m.paths p with
    | some x => x.owner == owner && x.port == port
    | none => false
  match x with
  | .status q _ | .attestation q _ | .cnp q | .ack q | .nakInvalid q | .nakAccess q | .nakRevoked q | .rnr q | .readData q _
  | .atomicOld q _ | .notice q _ => qp q
  | .rdma p _ _ _ _ _ | .rdmaSector p _ _ _ _ => path p

/-- Frames have gone under the new key in both directions (R399). -/
def Machine.keySettled (m : Machine) (owner port : Nat) (c : Channel) : Bool :=
  c.seenNew && (m.netOut.drop c.sentAt).any (m.onChannel owner port)

/-- PILOT_KEY_ROTATION: a new key under a new association number, the old one still accepted, and a closed channel open again;
or the old key retired, once frames have gone under the new one in both directions (R399, R410). -/
def execPilotKeyRotation (s : State) : Host.Outcome State Fault Refusal :=
  runEvent s fun m arg => match arg with
    | .flag owner port retire =>
      match Map.get m.chans (chanKey owner port) with
      | none => none
      | some c =>
        let new : Channel := if retire then { c with old := none }
          else { c with
            key := { an := (c.key.an + 1) % 4, pn := 0, seen := [] }, old := some c.key, closed := false
            seenNew := false, sentAt := m.netOut.length }
        if retire && !m.keySettled owner port c then none
        else some { m with chans := Map.set m.chans (chanKey owner port) new }
    | _ => none

/-! ### Thresholds, pages, power (R26, R241, R243) -/

/-- SET_THR of a stack. -/
def execSetThr (s : State) : Host.Outcome State Fault Refusal :=
  runEvent s fun m arg => match arg with
    | .n2 stack v => if decide (stack < 36) && decide (32 ≤ v) && decide (v ≤ 32768) then
        some { m with thr := Map.put m.thr stack v 2048 } else none
    | _ => none

/-- BERTH_PAGE_REASSIGN: pages of a closed berth are wiped, once no live context maps them. -/
def execBerthPageReassign (s : State) : Host.Outcome State Fault Refusal :=
  runEvent s fun m arg => match arg with
    | .n3 b lo size =>
      let closed := match Map.get m.berths b with
        | some r => r.state == .free
        | none => true
      let reached := (m.ctxs.filter fun (e : Nat × Ctx) => e.2.alive).any fun (e : Nat × Ctx) =>
        (m.mapped 4 e.2.ptRoot ++ saveArea e.2).any fun o => decide (lo < o.1 + o.2) && decide (o.1 < lo + size)
      if closed && !reached && lo % 65536 == 0 && size % 65536 == 0 && decide (lo + size ≤ dramTop) then
        some { (m.wipe lo size) with cores := m.cores.map fun (e : Nat × Core) => (e.1, { e.2 with records := [] }) }
      else none
    | _ => none

/-- POWER_LIMIT: issue is throttled, or no longer; programs see elapsed time only (R26). -/
def execPowerLimit (s : State) : Host.Outcome State Fault Refusal :=
  runEvent s fun m arg => match arg with
    | .n v => some { m with throttled := v != 0 }
    | _ => none

end Sys2Proof.Machine
end

