-- ==== Sys2Proof/Machine/Storage.lean ====
section
/-! DEFINITION. Events of caches, DRAM and the hawser ring: evictions, row alerts, refresh (R228, R238 to R242, R442),
storage errors (R72), packets and flits (R76, R77, R394 to R397). -/

namespace Sys2Proof.Machine

open Sys2Proof

/-! ### Caches and DRAM (R228, R229, R74, R75) -/

/-- DIRECTORY_INVALIDATE: the copies of a 256-byte line, but for one die's (R228). -/
def execDirectoryInvalidate (s : State) : Host.Outcome State Fault Refusal :=
  runEvent s fun m arg => match arg with
    | .n line => some (m.invalidateLine line none)
    | .n2 line keep => some (m.invalidateLine line (some keep))
    | _ => none

/-- CACHE_EVICTION: a cache makes room in the set of a sector, when the set holds all its ways: its line of lowest PRI, of
those the least recently used, is written back and leaves (R228, R231). (DESIGN CHOICE, log 76) (DESIGN CHOICE, log 5) -/
def execCacheEviction (s : State) : Host.Outcome State Fault Refusal :=
  runEvent s fun m arg => match arg with
    | .level k sn =>
      if ((m.cacheAt k).setLines k (sn / 4)).length < cacheWays then none
      else (m.victim k (sn / 4)).map fun v => m.evictLine k v
    | _ => none

/-- DRAM_WRITE: a dirty sector of a memory-side cache is written through the line code (R74). -/
def execDramWrite (s : State) : Host.Outcome State Fault Refusal :=
  runEvent s fun m arg => match arg with
    | .n sn => some (m.mscClean sn)
    | _ => none

/-- DRAM_READ: a sector comes into its memory-side cache through the line code (R75). -/
def execDramRead (s : State) : Host.Outcome State Fault Refusal :=
  runEvent s fun m arg => match arg with
    | .n sn => if Map.has m.mem.msc sn || decide (dramTop ≤ sn * 64) then none else some (m.mscRead sn (m.homePri sn)).2
    | _ => none

/-! ### Row-activation back-off and refresh (R239, R240, R242, R442) -/

def BankId.key (b : BankId) : Nat := b.stack * 64 + b.pch

/-- ROW_ALERT: the first alert of a pseudo-channel that serves none opens its window (R240). -/
def execRowAlert (s : State) : Host.Outcome State Fault Refusal :=
  runEvent s fun m arg => match arg with
    | .bank b row =>
      let d := m.mem.dram
      let pch := BankId.key b
      match d.alerts.find? fun a => a.2.1 == pch with
      | none => none
      | some a =>
        if a.2 != (pch, b.bank, row) || Map.has d.alert pch then none
        else some (m.withDram fun d => { d with
          alerts := d.alerts.erase a, alert := Map.set d.alert pch (b.bank, row, neighbours row) })
    | _ => none

/-- REFRESH_MANAGEMENT_COMMAND: the next neighbour of the row in service is refreshed. -/
def execRefreshManagementCommand (s : State) : Host.Outcome State Fault Refusal :=
  runEvent s fun m arg => match arg with
    | .bank b row =>
      match Map.get m.mem.dram.alert (BankId.key b) with
      | some (bank, agg, r :: rest) =>
        if bank = b.bank ∧ r = row then some (m.withDram fun d => { d with alert := Map.set d.alert (BankId.key b) (bank, agg, rest) })
        else none
      | _ => none
    | _ => none

/-- BACKOFF_WINDOW_CLOSE: the last command has completed: the aggressor's counter is 0, and the requests that waited for the
bank go on in order of arrival (R240). -/
def execBackoffWindowClose (s : State) : Host.Outcome State Fault Refusal :=
  runEvent s fun m arg => match arg with
    | .bank b row =>
      match Map.get m.mem.dram.alert (BankId.key b) with
      | some (bank, agg, []) =>
        if bank = b.bank ∧ agg = row then
          let pch := BankId.key b
          some (m.withDram fun d =>
            ({ d with alert := Map.del d.alert pch, act := Map.del d.act (rowKey pch bank agg) } : Dram).release
              (m.thrOf b.stack) m.clock pch bank (Map.getD d.queued (bankKey pch bank) []))
        else none
      | _ => none
    | _ => none

/-- REGULAR_REFRESH of a bank: postponed, at most 8 of them, or issued with those postponed (R442). -/
def execRegularRefresh (s : State) : Host.Outcome State Fault Refusal :=
  runEvent s fun m arg => match arg with
    | .flag pch bank later =>
      let k := bankKey pch bank
      let n := Map.getD m.mem.dram.postponed k 0
      if later then
        (if n < 8 then some (m.withDram fun d => { d with postponed := Map.set d.postponed k (n + 1) }) else none)
      else some (m.withDram fun d => { d with postponed := Map.del d.postponed k })
    | _ => none

/-- Pseudo-channels of the module: 64 to a stack (R16). -/
def pseudoChannels : Nat := 2304

/-- A pseudo-channel is due for self-refresh: 7000 clk without a request (R242). -/
def Dram.idle (d : Dram) (clk pch : Nat) : Bool := !d.asleep.contains pch && decide (Map.getD d.lastReq pch 0 + 7000 ≤ clk)

/-- Some pseudo-channel is due: not all are asleep or have had a request of late. -/
def Dram.anyIdle (d : Dram) (clk : Nat) : Bool :=
  decide (7000 ≤ clk) &&
  decide (d.asleep.length + (d.lastReq.filter fun (e : Nat × Nat) => decide (clk < e.2 + 7000)).length < pseudoChannels)

/-- SELF_REFRESH_ENTRY: of a pseudo-channel, or of every one that is due (R242). -/
def execSelfRefreshEntry (s : State) : Host.Outcome State Fault Refusal :=
  runEvent s fun m arg => match arg with
    | .n pch =>
      let d := m.mem.dram
      if decide (pch < 2304) && d.idle m.clock pch then some (m.withDram fun d => { d with asleep := insertNat pch d.asleep })
      else none
    | .none =>
      if m.mem.dram.anyIdle m.clock then
        some (m.withDram fun d => { d with asleep := (List.range pseudoChannels).filter fun p => d.asleep.contains p || d.idle m.clock p })
      else none
    | _ => none

/-! ### Storage errors (R72) -/

/-- Storage kinds of the error counts: registers, scratchpad, tiles, B-store, L1, die caches, memory-side caches, burst berths;
DRAM is 8. -/
def poisonAt (l : List TWord) (n : Nat) : List TWord := l.set n (wordAt l n).poison

/-- A SEC-DED word: one bit is corrected in place, more poison it; counted either way. (DEDUCED, log 70) -/
def Machine.secDed (m : Machine) (kind die : Nat) (multi : Bool) (bad : Machine → Machine) : Machine :=
  (if multi then bad m else m).countErr kind die (!multi)

/-- A tile and a B-store slot that nothing has written: zero words, tag 0 (R300). -/
def freshTile : Tile := { words := [], tag := 0, tflag := 0 }
def freshSlot : BSlot := { words := [], tag := 0 }

/-- A word of a cache sector: SEC-DED when the sector is dirty or the level keeps no clean copy elsewhere. -/
def Sector.spoil (x : Sector) (word : Nat) : Sector := { x with words := poisonAt x.words word }

/-- STORAGE_ERROR. (DEDUCED, log 70) -/
def Machine.storageError (m : Machine) (e : StorageErr) : Machine :=
  match e with
  | .reg gk slot l multi =>
    let die := ((Map.get m.groups gk).map fun g => dieOfCore g.core).getD 0
    m.secDed 0 die multi fun m => m.updGroup gk fun g =>
      if slot < 62 then
        let r := g.reg slot
        { g with regs := g.regs.set slot { r with lanes := poisonAt r.lanes l } }
      else if 64 ≤ slot then { g with g := poisonAt g.g (slot - 64) } else g
  | .tag gk slot =>
    let die := ((Map.get m.groups gk).map fun g => dieOfCore g.core).getD 0
    m.secDed 0 die true fun m => m.updGroup gk fun g =>
      let r := g.reg slot
      { g with regs := g.regs.set slot { r with tag := 0, lanes := r.lanes.map TWord.poison } }
  | .scratch blk off multi =>
    let die := ((Map.get m.blocks blk).map (·.die)).getD 0
    m.secDed 1 die multi fun m => m.setSpad blk (off / 4 * 4) (m.spadWord blk (off / 4 * 4)).poison
  | .tile core t row col multi =>
    m.secDed 2 (dieOfCore core) multi fun m => m.updCore core fun c =>
      let x := Map.getD c.tiles t freshTile
      let k := row * 128 + col
      { c with tiles := Map.set c.tiles t { x with words := Map.set x.words k (Map.getD x.words k TWord.zero).poison } }
  | .bstore core slot idx multi =>
    m.secDed 3 (dieOfCore core) multi fun m => m.updCore core fun c =>
      let x := Map.getD c.bslots slot freshSlot
      { c with bslots := Map.set c.bslots slot { x with words := Map.set x.words idx (Map.getD x.words idx TWord.zero).poison } }
  | .cache (.l1 core) sn word multi =>
    match Map.get (m.core core).l1 sn with
    | none => m
    | some x =>
      if x.dirty = 0 then m.l1Drop core sn
      else m.secDed 4 (dieOfCore core) multi fun m => m.updCore core fun c => { c with l1 := Map.set c.l1 sn (x.spoil word) }
  | .cache (.die d) sn word multi =>
    match Map.get (m.mem.dieCache d) sn with
    | none => m
    | some x =>
      if x.dirty = 0 then m.withMem fun e => { e with die := Map.set e.die d (Map.del (e.dieCache d) sn) }
      else m.secDed 5 d multi fun m => m.withMem fun e => { e with die := Map.set e.die d (Map.set (e.dieCache d) sn (x.spoil word)) }
  | .cache .msc sn word multi =>
    match Map.get m.mem.msc sn with
    | none => m
    | some x => m.secDed 6 (stackOf (sn * 64) / 3) multi fun m => m.withMem fun e => { e with msc := Map.set e.msc sn (x.spoil word) }
  | .burst core i word multi =>
    m.secDed 7 (dieOfCore core) multi fun m => m.updCore core fun c => { c with
      berths := (c.berths.zipIdx).map fun b => if b.2 = i then (b.1.1, b.1.2.1, poisonAt b.1.2.2 word) else b.1 }
  | .icache core line => m.updCore core fun c => { c with icache := c.icache.filter fun x => x.2.1 != line }
  | .dram sn errs => m.withDram fun d => errs.foldl (fun (d : Dram) (x : Nat × Byte) =>
      if x.1 < 64 then d.setByte (sn * 64 + x.1) (d.byte (sn * 64 + x.1) ^^^ x.2)
      else if x.1 < 72 then
        { d with check := Map.put d.check sn (Map.getD d.check sn 0 ^^^ BitVec.ofNat 64 (x.2.toNat * 256 ^ (x.1 - 64))) 0 }
      else d) d

def execStorageError (s : State) : Host.Outcome State Fault Refusal :=
  runEvent s fun m arg => match arg with
    | .storage e => some (m.storageError e)
    | _ => none

/-! ### The hawser ring (R76, R77, R394 to R397) -/

def ringStops : Nat := 12

/-- Links of the way from a stop to another in a direction (0 rising, 1 falling), as keys 2 * stop + direction. -/
def ringPath (src dest dir : Nat) : List Nat :=
  let n := if dir = 0 then (dest + ringStops - src) % ringStops else (src + ringStops - dest) % ringStops
  (List.range n).map fun i => 2 * ((if dir = 0 then src + i else src + ringStops - i) % ringStops) + dir

/-- The direction a packet takes: the shorter way, rising for equal lengths; a way with a failed link is not taken (R394,
R397). -/
def Ring.direction (r : Ring) (src dest : Nat) : Option Nat :=
  let up := (dest + ringStops - src) % ringStops
  let first := if up ≤ ringStops - up then 0 else 1
  [first, 1 - first].find? fun d => (ringPath src dest d).all fun l => !r.failed.contains l

def numBytes (n v : Nat) : List Byte := bytesOf n v

/-- The header flit of a packet (R395). -/
def headerFlit (p : Packet) (seq : Nat) : List Byte :=
  let body := numBytes 1 (p.dest + 16 * p.src) ++ numBytes 1 (p.owner + 16 * p.kind) ++ numBytes 1 p.data.length ++ numBytes 1 0 ++
    numBytes 2 seq ++ numBytes 2 0 ++ numBytes 8 p.addr ++
    ((List.range 4).flatMap fun i => numBytes 8 (p.masks.getD i 0).toNat) ++ numBytes 16 p.operand.toNat ++ numBytes 12 0
  body ++ numBytes 4 (crc32c body)

/-- The words that a packet's byte mask covers; the others are sent as 0 with residue 0 (R77). -/
def coveredWords (mask : BitVec 64) (ws : List TWord) : List TWord :=
  (List.range 16).map fun k => if mask.toNat / 16 ^ k % 16 = 0 then TWord.zero else wordAt ws k

/-- A data flit: sector, check bytes, hop field (R76, R77). A sector from DRAM travels with its bytes as decoded. -/
def dataFlit (p : Packet) (seq i : Nat) (ws : List TWord) : List Byte :=
  let ws := coveredWords (p.masks.getD i 0) ws
  let enc := encodeSector ws false
  let (data, check, pmask) := match p.raw[i]? with
    | some r => (r.1, r.2, 0)
    | none => (enc.1, enc.2, ((List.range 16).map fun k => if (wordAt ws k).poisoned then 2 ^ k else 0).sum)
  let body := data ++ check.map (BitVec.ofNat 8) ++ numBytes 4 (p.owner + 16 * (seq % 1024 * 4 + i) + 65536 * pmask)
  body ++ numBytes 4 (crc32c body)

/-- The flits of a packet. -/
def packetFlits (p : Packet) (seq pkt : Nat) : List Flit :=
  let mk := fun (i : Nat) (b : List Byte) =>
    ({ bytes := b, fails := 0, resend := false, dest := p.dest, pkt := pkt, index := i, len := p.data.length } : Flit)
  mk 0 (headerFlit p seq) :: (p.data.zipIdx).map fun e => mk (e.2 + 1) (dataFlit p seq e.2 e.1)

def flitSlots : Nat := 16

def Ring.buffer (r : Ring) (link : Nat) : List Flit := Map.getD r.links link []

/-- The link over which flits come to a stop that go on in a direction. -/
def linkBehind (stop dir : Nat) : Nat := 2 * ((if dir = 0 then stop + ringStops - 1 else stop + 1) % ringStops) + dir

/-- Flits on the ring that would go over a link before a packet that its stop injects: those that come to it and go on, those that turn
round there, and the rest of a packet that is passing (R394, R396). -/
def Ring.taken (r : Ring) (stop dir : Nat) : Bool :=
  Map.has r.passing (2 * stop + dir) ||
  (match r.buffer (linkBehind stop dir) with
    | f :: _ => f.dest != stop && !r.failed.contains (linkBehind stop dir)
    | [] => false) ||
  (r.failed.contains (2 * stop + (1 - dir)) && !(r.buffer (2 * stop + (1 - dir))).isEmpty)

/-- A flit goes over a link: the flits of its packet follow one another (R394). -/
def Ring.push (r : Ring) (link : Nat) (f : Flit) : Ring :=
  { r with
    links := Map.set r.links link (r.buffer link ++ [{ f with fails := 0, resend := false }])
    passing := if f.index = f.len then Map.del r.passing link else Map.set r.passing link f.pkt }

/-- A link takes a flit: it has a free slot, and no other packet is passing (R394, R396). -/
def Ring.takes (r : Ring) (link : Nat) (f : Flit) : Bool :=
  decide ((r.buffer link).length < flitSlots) && (match Map.get r.passing link with
    | some p => p == f.pkt
    | none => true)

/-- A stop injects the first packet that waits there (R396). -/
def Machine.injectAt (m : Machine) (stop : Nat) : Option Machine :=
  let r := m.ring
  match Map.getD r.waiting stop [] with
  | [] => none
  | p :: rest =>
    match r.direction stop p.dest with
    | none => none
    | some d =>
      let link := 2 * stop + d
      let n := 1 + p.data.length
      if r.taken stop d || flitSlots < (r.buffer link).length + n + 2 then none
      else
        let seq := Map.getD r.seq link 0
        some { m with
          nextId := m.nextId + 1
          ring := { r with
            waiting := Map.put r.waiting stop rest []
            seq := Map.set r.seq link ((seq + 1) % 65536)
            links := Map.set r.links link (r.buffer link ++ packetFlits p seq m.nextId) } }

/-- The bytes and check bytes of a DRAM sector as its controller decodes them: corrected, or as read when it cannot be (R75, R77). -/
def Dram.decodedBytes (d : Dram) (sn : Nat) : List Byte × List Nat :=
  match decodeSector (d.sectorBytes sn) (d.checkBytes sn) with
  | .corrected ws => encodeSector ws false
  | _ => (d.sectorBytes sn, d.checkBytes sn)

/-- One sector of read data: its words, and from DRAM its bytes as decoded (R77). -/
def Machine.readSector (m : Machine) (sn : Nat) : (List TWord × List (List Byte × List Nat)) × Machine :=
  let raw := if Map.has m.mem.msc sn then [] else [m.mem.dram.decodedBytes sn]
  let (ws, m) := m.mscRead sn (m.homePri sn)
  ((ws, raw), m)

/-- The packet that carries sectors as read data to another stop, all from DRAM, or from the lines that the home holds.
(DEDUCED, log 71) -/
def Machine.readPacket (m : Machine) (r : RingSend) : Packet × Machine :=
  let cold := (List.range r.len).all fun i => !Map.has m.mem.msc (r.addr / 64 + i)
  let s := (List.range r.len).foldl (fun (s : List (List TWord × List (List Byte × List Nat)) × Machine) i =>
    let e := s.2.readSector (r.addr / 64 + i)
    (s.1 ++ [e.1], e.2)) ([], m)
  ({ src := r.src, dest := r.dest, owner := r.owner, kind := 3, addr := r.addr, masks := List.replicate r.len allDirty, operand := r.operand
     data := s.1.map (·.1), raw := if cold then s.1.flatMap (·.2) else [] }, s.2)

/-- The packet of another kind, with what its agent puts into it (R395). (DEDUCED, log 71) -/
def sentPacket (r : RingSend) : Packet :=
  { src := r.src, dest := r.dest, owner := r.owner, kind := r.kind, addr := r.addr, masks := List.replicate r.data.length allDirty
    operand := r.operand, data := r.data.map fun ws => (List.range 16).map fun i => TWord.of (ws.getD i 0) }

/-- Where a TSTORE's sector goes: the frame of its shadow, or the leaf of its address (R258). -/
def Machine.storeFrame (m : Machine) (c : Cmd) (va : Nat) : Option Nat :=
  match c.shadow with
  | some h => match m.writerState c h, Map.get m.ctxs c.ctx with
    | .write sh, some x => match m.shadowFrame (m.engineKeyOf copySource c) c.ctx x sh va with
      | .frame f _ _ => some (f + va % 65536)
      | _ => none
    | _, _ => none
  | none => match (m.probe c.ctx va).1 with
    | .leaf l e => if pteBerth e ≠ 0 then none else some (pteAddr e + va % 2 ^ levelShift l)
    | _ => none

/-- The packet that carries a sector of a TSTORE from its core's stop to the home: the words of the image with their residues, under
the mask of the bytes it writes (R77). (DEDUCED, log 71) -/
def Machine.storePacket (m : Machine) (c : Cmd) (s : Nat) : Option Packet :=
  match m.imageAt c, m.storeFrame c (s * 64) with
  | some _, some pa =>
    let e := sectorOfWords (m.storedWords c (m.imageAt c) s)
    some { src := dieOfCore (m.cmdCore c), dest := stackOf pa / 3, owner := m.ownerOf c.ctx, kind := 1, addr := pa, masks := [e.1]
           operand := 0, data := [e.2] }
  | _, _ => none

/-- A packet waits at its source stop and is injected when there is room. -/
def Machine.sendPacket (m : Machine) (p : Packet) : Machine :=
  let m := { m with ring := { m.ring with waiting := Map.set m.ring.waiting p.src (Map.getD m.ring.waiting p.src [] ++ [p]) } }
  (m.injectAt p.src).getD m

/-- RING_PACKET_INJECT: a stop's first waiting packet; or home sectors go to another stop as read data, a packet of another kind is
sent, or a sector of a running TSTORE goes to its home. -/
def execRingPacketInject (s : State) : Host.Outcome State Fault Refusal :=
  runEvent s fun m arg => match arg with
    | .n stop => m.injectAt stop
    | .packet r =>
      if decide (ringStops ≤ r.src) || decide (ringStops ≤ r.dest) || r.src == r.dest || decide (16 ≤ r.owner) || decide (2 ^ 64 ≤ r.addr) then none
      else if r.kind = 3 then
        if decide (r.len < 1) || decide (4 < r.len) || r.addr % 64 != 0 || stackOf r.addr / 3 != r.src then none
        else
          let (p, m) := m.readPacket r
          some (m.sendPacket p)
      else if r.kind = 1 || decide (8 ≤ r.kind) || decide (4 < r.data.length) then none
      else some (m.sendPacket (sentPacket r))
    | .n2 k sec =>
      match Map.get m.cmds k with
      | none => none
      | some c =>
        if c.kind == .tstore && c.state == .running && c.destSectors.contains sec then
          ((m.storePacket c sec).filter fun p => p.src != p.dest).map fun p => m.sendPacket p
        else none
    | _ => none

def flipBit (bs : List Byte) (n : Nat) : List Byte := bs.set (n / 8) (bs.getD (n / 8) 0 ^^^ BitVec.ofNat 8 (2 ^ (n % 8)))

/-- A flit passes its check: HCRC or HOPCRC over the bytes before it (R76, R395). -/
def flitOk (bs : List Byte) : Bool := bs.length == 80 && natOfBytes (bs.drop 76) == crc32c (bs.take 76)

/-- A data flit's words as the receiving stop decodes them (R75, R77). -/
def flitWords (bs : List Byte) : List TWord :=
  let ws := match decodeSector (bs.take 64) (((bs.drop 64).take 8).map BitVec.toNat) with
    | .ok ws => ws
    | .corrected ws => ws
    | .poison ws => ws
  let pmask := natOfBytes ((bs.drop 74).take 2)
  (ws.zipIdx).map fun e => if pmask.testBit e.2 then e.1.poison else e.1

/-- A stop delivers a flit addressed to it; a packet is whole with its last flit. (DEDUCED, log 71) -/
def Ring.deliver (r : Ring) (stop : Nat) (f : Flit) : Ring :=
  let parts := Map.set (Map.getD r.parts f.pkt []) f.index f.bytes
  if parts.length = f.len + 1 then
    let sectors := (List.range f.len).map fun i => flitWords (Map.getD parts (i + 1) [])
    { r with parts := Map.del r.parts f.pkt, arrived := r.arrived ++ [(stop, Map.getD parts 0 [], sectors)] }
  else { r with parts := Map.set r.parts f.pkt parts }

/-- The link over which a flit that travels in a direction leaves a stop: the other way round where it has failed (R397). -/
def Ring.outLink (r : Ring) (stop dir : Nat) : Nat :=
  if r.failed.contains (2 * stop + dir) then 2 * stop + (1 - dir) else 2 * stop + dir

/-- A link is marked failed: its flits go the other way round as that buffer has room, and the harbour master is told (R397, R411). -/
def Machine.failLink (m : Machine) (link : Nat) : Machine :=
  let r := m.ring
  { m with
    shared := m.shared ++ [(1, link)]
    ring := { r with
      failed := insertNat link r.failed
      passing := []
      links := Map.set r.links link ((r.buffer link).map fun f => { f with fails := 0, resend := false }) } }

/-- The first flit of a failed link goes over the other link of its stop (R397). -/
def Ring.turn (r : Ring) (link : Nat) : Option Ring :=
  let other := if link % 2 = 0 then link + 1 else link - 1
  match r.buffer link with
  | f :: rest => if r.failed.contains other || !r.takes other f then none else some ({ r with links := Map.put r.links link rest [] }.push other f)
  | [] => none

def failedSends : Nat := 8

/-- RING_FLIT_RECEIVE: a stop receives the next flit of the previous stop, with one bit changed or none. (DEDUCED, log 71) -/
def execRingFlitReceive (s : State) : Host.Outcome State Fault Refusal :=
  runEvent s fun m arg => match arg with
    | .flit stop up flip =>
      let dir := if up then 0 else 1
      let prev := if up then (stop + ringStops - 1) % ringStops else (stop + 1) % ringStops
      let link := 2 * prev + dir
      match m.ring.buffer link with
      | [] => none
      | f :: rest =>
        let seen := match flip with
          | some n => flipBit f.bytes n
          | none => f.bytes
        if f.resend || m.ring.failed.contains link || (f.dest != stop && !m.ring.takes (m.ring.outLink stop dir) f) then none
        else if flitOk seen then
          let r := { m.ring with links := Map.put m.ring.links link rest [] }
          some { m with ring := if f.dest = stop then r.deliver stop { f with bytes := seen } else r.push (r.outLink stop dir) f }
        else if failedSends ≤ f.fails + 1 then some (m.failLink link)
        else some { m with ring := { m.ring with links := Map.set m.ring.links link ({ f with fails := f.fails + 1, resend := true } :: rest) } }
    | _ => none

/-- RING_FLIT_RESEND: the previous stop sends a flit again that failed its check; or one of a failed link the other way round. -/
def execRingFlitResend (s : State) : Host.Outcome State Fault Refusal :=
  runEvent s fun m arg => match arg with
    | .n2 stop dir =>
      let link := 2 * stop + dir
      match m.ring.buffer link with
      | f :: rest =>
        if m.ring.failed.contains link then (m.ring.turn link).map fun r => { m with ring := r }
        else if f.resend then some { m with ring := { m.ring with links := Map.set m.ring.links link ({ f with resend := false } :: rest) } }
        else none
      | [] => none
    | _ => none

end Sys2Proof.Machine
end

