-- ==== Sys2Proof/Machine/Bring.lean ====
section
/-! DEFINITION. Bring-up, safe hold and the life cycle (R28, R430 to R437): the management port's requests. -/

namespace Sys2Proof.Machine

open Sys2Proof

/-! ### Bring-up (R430 to R434) -/

/-! ### The domains fall (R28) -/

/-- The compute dies go down: their contexts' state, cores, die caches and translations. -/
def Machine.fallDies (m : Machine) : Machine :=
  { m with
    dieReset := List.range 12, diesClosed := [], cores := [], tlb := [], ctxs := [], grids := [], blocks := [], groups := []
    cmds := [], parked := [], robin := 0, throttled := false, mem := { m.mem with die := [], presence := [] } }

/-- The network domain goes down: channels, queue pairs, berths. -/
def Machine.fallNetwork (m : Machine) : Machine :=
  { m with
    domains := m.domains.filter (· != 2), owners := [], chans := [], counters := [], qps := [], paths := [], portLost := [], berths := []
    hmReqs := [], netOut := [] }

/-- The memory and ring domain goes down. -/
def Machine.fallMemory (m : Machine) : Machine :=
  { m with domains := m.domains.filter (· != 1), mem := Mem.empty, ring := Ring.empty, thr := [], errs := [], shared := [] }

/-- The domains fall in the reverse of the order in which they rise: compute dies, network, memory and ring (R28). -/
def Machine.fall (m : Machine) : Machine := m.fallDies.fallNetwork.fallMemory

/-- Everything volatile as a reset leaves it, the management domain last; the management port's answers are kept, and the count of
free values goes on (DESIGN CHOICE, log 7). -/
def Machine.reset (m : Machine) (f : Fuses) : Machine :=
  { m.fall with
    bring := .off, fuses := f, digest := [], report := none, domains := [], supplyLost := false, clock := 0, nextId := 0, timerAt := 0 }

/-! ### What the management controller signs (R433, R436, R437) -/

/-- The life-cycle states with an identity key in use (R435, R437). -/
def Lcs.identified : Lcs → Bool
  | .provisioned | .deployed | .debug => true
  | _ => false

/-- The code of a life-cycle state (R435). -/
def Lcs.code : Lcs → Nat
  | .manufacture => 0
  | .provisioned => 1
  | .deployed => 2
  | .debug => 3
  | .retired => 4

/-- The code of a unit kind (R433). -/
def unitCode : UnitKind → Nat
  | .core => 1
  | .dieCache => 2
  | .stack => 3
  | .ringStop => 4
  | .port => 5
  | .firmware => 6
  | .lifeCycle => 7

/-- A field of n bytes. -/
def fitBytes (n : Nat) (bs : List Byte) : List Byte := (bs ++ List.replicate n 0).take n

/-- The signature of a key over the SM3 digest of bytes. -/
def signed (key : Nat) (bs : List Byte) : List Byte := fitBytes 64 (Config.signature key (bytesWords (Config.sm3 bs)))

/-- The key in use: the identity key in PROVISIONED, DEPLOYED and DEBUG, else the manufacturing key (R433, R437). -/
def Fuses.signKey (f : Fuses) : Nat × Nat :=
  match f.lcs.identified, f.identity with
  | true, some k => (1, k)
  | _, _ => (2, Config.manufacturingKey f.serial)

/-- Bytes 0x00 to 0x7F of a failure report (R433). -/
def Report.body (r : Report) : List Byte :=
  bytesOf 4 0x46535452 ++ [BitVec.ofNat 8 r.step, BitVec.ofNat 8 r.lcs.code, BitVec.ofNat 8 r.sigKey, 0] ++
  bytesOf 4 (unitCode r.unit + 256 * r.number) ++ bytesOf 4 r.detail.toNat ++ bytesOf 8 r.boots ++ fitBytes 32 r.digest ++
  List.replicate 72 0

/-- The 256 bytes of a failure report (R433). -/
def Report.bytes (r : Report) : List Byte := r.body ++ r.sig ++ List.replicate 64 0

/-- A report signed as the life-cycle state asks. -/
def Report.sign (r : Report) (f : Fuses) : Report :=
  let r := { r with sigKey := f.signKey.1 }
  { r with sig := signed f.signKey.2 r.body }

/-- Bytes 0x00 to 0x5F of a certificate request (R437). -/
def requestBody (serial : List Byte) (key : Nat) : List Byte :=
  bytesOf 4 0x44435251 ++ List.replicate 12 0 ++ fitBytes 16 serial ++ fitBytes 64 (Config.publicKey key)

/-- A certificate request (R437). -/
def certRequestOf (serial : List Byte) (key : Nat) : MgmtMsg := .certRequest serial key (signed key (requestBody serial key))

/-- The 128 bytes of the identity record of MANUFACTURE and RETIRED: MAGIC, SERIAL and LCS in the first 64, then the manufacturing
public key (R437). (DESIGN CHOICE, log 78) -/
def identityBody (serial : List Byte) (lcs : Lcs) (key : Nat) : List Byte :=
  fitBytes 64 (bytesOf 4 0x4443524D ++ fitBytes 16 serial ++ [BitVec.ofNat 8 lcs.code]) ++ fitBytes 64 (Config.publicKey key)

/-- The identity record with its signature over its first 64 bytes (R437). (DESIGN CHOICE, log 78) -/
def identityOf (serial : List Byte) (lcs : Lcs) : MgmtMsg :=
  let key := Config.manufacturingKey serial
  .identity serial lcs key (signed key ((identityBody serial lcs key).take 64))

/-- The bytes of an answer that has a stated layout (R433, R437). -/
def MgmtMsg.bytes : MgmtMsg → Option (List Byte)
  | .report r => some r.bytes
  | .certificate bs => some bs
  | .certRequest serial key sig => some (requestBody serial key ++ sig)
  | .identity serial lcs key sig => some (identityBody serial lcs key ++ sig)
  | _ => none

/-- The digest of the pilot keys' public parameters of an owner's channels (R436). -/
def Machine.pilotDigest (m : Machine) (o : Nat) : List Byte :=
  bytesWords (Config.sm3 ((List.range 4).flatMap fun p => match Map.get m.chans (chanKey o p) with
    | some c => Config.pilotParams (chanKey o p) c.key.an
    | none => []))

/-- The fields of an attestation report, in the order in which R436 names them. (DESIGN CHOICE, log 78) -/
def Machine.attestationFields (m : Machine) (o : Nat) (nonce : List Byte) : List Byte :=
  let f := m.fuses
  fitBytes 32 nonce ++ [BitVec.ofNat 8 f.lcs.code] ++ bytesOf 8 f.rollback ++ fitBytes 32 m.digest ++ bytesOf 8 f.boots ++
    [BitVec.ofNat 8 o] ++ fitBytes 32 (m.pilotDigest o)

/-- The 128-byte attestation report of an owner, and the signature that it carries (R436). (DESIGN CHOICE, log 78) -/
def Machine.attestationOf (m : Machine) (o port : Nat) (nonce : List Byte) : NetMsg :=
  let fields := m.attestationFields o nonce
  .attestation (managementQp o port) (fitBytes 128 fields ++ signed m.fuses.signKey.2 fields)

/-- A step fails: safe hold with a report; only the management domain stays powered (R432, R433). -/
def Machine.toHold (m : Machine) (step : Nat) (u : UnitKind) (number : Nat) (detail : Word) : Machine :=
  { m.reset m.fuses with
    bring := .hold, domains := [0], digest := m.digest
    report := some (Report.sign { step := step, lcs := m.fuses.lcs, unit := u, number := number, detail := detail
                                  boots := m.fuses.boots, digest := m.digest, sigKey := 0, sig := [] } m.fuses) }

/-- A life-cycle change that was under way is completed (R435): the key generated or destroyed, the certificate request
emitted. (DEDUCED, log 73) -/
def Fuses.completeChange (f : Fuses) : Fuses :=
  match f.change with
  | none => f
  | some .provisioned => { f with lcs := .provisioned, change := none, identity := some (Config.identityKey f.serial f.boots) }
  | some .retired => { f with lcs := .retired, change := none, identity := none }
  | some l => { f with lcs := l, change := none }

/-- The SM3 digest of an image, as the boot ROM forms it (R434). (DESIGN CHOICE, log 8) -/
def imageDigest (image : List Byte) : List Byte := fitBytes 32 (bytesWords (Config.sm3 image))

/-- Step 1 of bring-up: the digest of the image, whether its signature verifies, its rollback number. (DEDUCED, log 73) (DESIGN CHOICE, log 8) -/
def Machine.bringUp (m : Machine) (digest : List Byte) (sigOk : Bool) (rollback : Nat) : Machine :=
  let f := { m.fuses.completeChange with boots := m.fuses.boots + 1 }
  let emitted := match m.fuses.change, f.identity with
    | some .provisioned, some k => [certRequestOf f.serial k]
    | _, _ => []
  let m := { m.reset f with digest := digest, mgmtOut := m.mgmtOut ++ emitted }
  if f.lcs = .retired then { m with digest := [] }.toHold 1 .lifeCycle 0 0
  else if decide (rollback < f.rollback) || !sigOk then m.toHold 1 .firmware 0 0
  else { m with bring := .steps 1, domains := [0], fuses := { f with rollback := rollback } }

/-- BRING_UP: the boot ROM verifies the image with the vendor's public key in fuses (R434). (DESIGN CHOICE, log 10) -/
def execBringUp (s : State) : Host.Outcome State Fault Refusal :=
  runEvent s fun m arg => match arg with
    | .firmware w => some (m.bringUp (imageDigest w.image) (Config.verifies m.fuses.vendor w.image w.sig) w.rollback)
    -- power-up with an image that is as the fuses ask (DESIGN CHOICE, log 10)
    | .none => if m.bring = .off then
        some (m.bringUp (List.replicate 32 0) true m.fuses.rollback) else none
    | _ => none

/-- Step n of bring-up: its test passes and f is done, or the module goes to safe hold. (DESIGN CHOICE, log 10) -/
def Machine.bringStep (m : Machine) (n : Nat) (arg : Arg) (f : Machine → Machine) : Option Machine :=
  if m.bring != .steps (n - 1) then none
  else match arg with
    | .outcome (.fail u number detail) => some (m.toHold n u number detail)
    | .outcome .pass | .none => some { f m with bring := .steps n }
    | _ => none

/-- STACK_TRAINING: training, BIST, and the wipe of all DRAM. -/
def execStackTraining (s : State) : Host.Outcome State Fault Refusal :=
  runEvent s fun m arg => m.bringStep 2 arg fun m => { m with mem := Mem.empty, domains := [0, 1] }

/-- RING_LOOPBACK. -/
def execRingLoopback (s : State) : Host.Outcome State Fault Refusal :=
  runEvent s fun m arg => m.bringStep 3 arg fun m => { m with ring := Ring.empty }

/-- PHY_LOOPBACK. -/
def execPhyLoopback (s : State) : Host.Outcome State Fault Refusal :=
  runEvent s fun m arg => m.bringStep 4 arg fun m => { m with domains := [0, 1, 2] }

/-- SRAM_BIST: BIST and the wipe of the compute dies, which leave reset. -/
def execSramBist (s : State) : Host.Outcome State Fault Refusal :=
  runEvent s fun m arg => m.bringStep 5 arg fun m => { m with cores := [], tlb := [], dieReset := [] }

/-- A result word of each residue class of R59: A, S, D, F, C, M. (DESIGN CHOICE, log 10) -/
def classSamples : List TWord :=
  [TWord.of (7 + 9), TWord.of ((5 : Word) <<< 3), TWord.of (0xF0F0 &&& 0xFF00), TWord.of 0x40400000, TWord.of 0x41200000, TWord.of 0xDEADBEEF]

/-- The residue checker test (R431): of a word of each class, in every lane, the check raises nothing, and with a flipped bit in the
result or in its predicted residue it raises RCHK with every lane; a sector written with a poisoned word, or with a corrupted one beside
its residue, reads back poisoned; a flit with a corrupted CRC is not accepted. (DESIGN CHOICE, log 10) -/
def checkersWork : Bool :=
  let all : Mask := widthMask 128
  let check := fun (t : TWord) => operandCheck all [(0, List.replicate 128 t)]
  let caught := fun (t : TWord) => (check t).any fun x => x.code == .rchk && x.lanes == some all
  let bad := fun (ws : List TWord) => match decodeSector (encodeSector ws true).1 (encodeSector ws true).2 with
    | .poison _ => true
    | _ => false
  let flit := dataFlit { src := 0, dest := 1, owner := 0, kind := 1, addr := 0, masks := [allDirty], operand := 0, data := [] } 0 0
    (List.replicate 16 TWord.zero)
  classSamples.all (fun t => (check t).isNone && caught { t with data := t.data ^^^ 1 } && caught { t with res := t.res ^^^ 2 }) &&
  bad (classSamples ++ List.replicate 9 TWord.zero ++ [poisonWord]) &&
  bad ((TWord.of 0xDEADBEEF).data ^^^ 1 |> fun d => ({ TWord.of 0xDEADBEEF with data := d } : TWord) :: List.replicate 15 TWord.zero) &&
  flitOk flit && !flitOk (flipBit flit 0)

/-- RESIDUE_CHECKER_TEST (R431): it passes where the checkers work and no unit reports otherwise. -/
def execResidueCheckerTest (s : State) : Host.Outcome State Fault Refusal :=
  runEvent s fun m arg => m.bringStep 6 (if checkersWork then arg else .outcome (.fail .core 0 0)) id

/-- CLOCK_START: step 7; CLOCK starts at 0, the ports accept channels, the harbour master's own among them, and the management port
reports READY (R160, R399, R430). -/
def execClockStart (s : State) : Host.Outcome State Fault Refusal :=
  runEvent s fun m _ => if m.bring = .steps 6 then
      some { m with
        bring := .ready, clock := 0, timerAt := 0, mgmtOut := m.mgmtOut ++ [.ready]
        chans := (List.range 4).foldl (fun (x : Map Channel) p => Map.set x (chanKey harbourOwner p) (Channel.new 0)) m.chans }
    else none

/-- POWER_LOSS: the domains fall; what the fuses and flash hold stays (R28, R435). -/
def execPowerLoss (s : State) : Host.Outcome State Fault Refusal :=
  runEvent s fun m _ => some { (m.reset m.fuses) with mgmtOut := [], supplyLost := true }

/-! ### Requests on the management port (R430, R432) -/

def Machine.say (m : Machine) (x : MgmtMsg) : Machine := { m with mgmtOut := m.mgmtOut ++ [x] }

/-- A request: BUSY until step 7; in safe hold only those that R432 lists are answered. -/
def Machine.request (m : Machine) (inHold : Bool) (k : Machine) : Option Machine :=
  match m.bring with
  | .off => some (m.say .busy)
  | .steps _ => some (m.say .busy)
  | .hold => some (if inHold then k else m.say .hold)
  | .ready => some k

/-- RESET_REQUEST: the bring-up sequence begins again. -/
def execResetRequest (s : State) : Host.Outcome State Fault Refusal :=
  runEvent s fun m _ => m.request true ((m.say .ok).reset m.fuses)

/-- READ_FAILURE_REPORT; a module that has none to give denies it. (DESIGN CHOICE, log 10) -/
def execReadFailureReport (s : State) : Host.Outcome State Fault Refusal :=
  runEvent s fun m _ => m.request true (m.say (match m.report with
    | some r => .report r
    | none => .denied))

/-- The identity answer of R437. -/
def Fuses.identityAnswer (f : Fuses) : MgmtMsg :=
  if f.lcs.identified then match f.certificate, f.identity with
    | some c, _ => .certificate c
    | none, some k => certRequestOf f.serial k
    | none, none => identityOf f.serial f.lcs
  else identityOf f.serial f.lcs

/-- READ_IDENTITY. -/
def execReadIdentity (s : State) : Host.Outcome State Fault Refusal :=
  runEvent s fun m _ => m.request true (m.say m.fuses.identityAnswer)

/-! ### The life cycle (R435) -/

/-- A change to a state: every context killed, every memory wiped, and a full device reset that completes it. (DEDUCED, log 73) -/
def Machine.changeLcs (m : Machine) (l : Lcs) (operator : Option Nat) : Machine :=
  (m.say .ok).reset { m.fuses with change := some l, operator := operator }

/-- A life-cycle request that is allowed makes its change; BUSY while another is in progress. (DEDUCED, log 72) -/
def Machine.lcsRequest (m : Machine) (inHold : Bool) (arg : Arg) (k : SignedReq → Option (Lcs × Option Nat)) : Option Machine :=
  match arg with
  | .signed r => m.request inHold (if m.busy then m.say .busy else match k r with
      | some (l, op) => m.changeLcs l op
      | none => m.say .denied)
  | _ => none

/-- The request is signed by the operator's key, which is fused. -/
def Fuses.byOperator (f : Fuses) (r : SignedReq) : Bool := r.signer == .operator && f.operator.isSome

/-- PROVISIONING_REQUEST. -/
def execProvisioningRequest (s : State) : Host.Outcome State Fault Refusal :=
  runEvent s fun m arg => m.lcsRequest false arg fun r =>
    if m.fuses.lcs = .manufacture ∧ r.signer = .vendor then some (.provisioned, m.fuses.operator) else none

/-- DEPLOY_REQUEST: from PROVISIONED with the operator's key, from DEBUG signed by it. -/
def execDeployRequest (s : State) : Host.Outcome State Fault Refusal :=
  runEvent s fun m arg => m.lcsRequest false arg fun r =>
    if m.fuses.lcs = .provisioned then some (.deployed, some r.key)
    else if m.fuses.lcs = .debug ∧ m.fuses.byOperator r = true then some (.deployed, m.fuses.operator)
    else none

/-- DEBUG_REQUEST. -/
def execDebugRequest (s : State) : Host.Outcome State Fault Refusal :=
  runEvent s fun m arg => m.lcsRequest false arg fun r =>
    if m.fuses.lcs = .deployed ∧ m.fuses.byOperator r = true then some (.debug, m.fuses.operator) else none

/-- RETIRE_REQUEST. -/
def execRetireRequest (s : State) : Host.Outcome State Fault Refusal :=
  runEvent s fun m arg => m.lcsRequest true arg fun r =>
    let vendor := r.signer == .vendor && (m.fuses.lcs == .manufacture || m.fuses.lcs == .provisioned)
    if vendor || m.fuses.byOperator r then some (.retired, m.fuses.operator) else none

/-- A device certificate of 256 bytes: SIG verifies under the vendor's public key over bytes 0x00 to 0xBF, and PUBKEY is the identity
public key (R437). -/
def Fuses.takesCertificate (f : Fuses) (bs : List Byte) : Bool :=
  bs.length == 256 && Config.verifies f.vendor (bs.take 0xC0) (bs.drop 0xC0) &&
  (match f.identity with
    | some k => (bs.drop 0x18).take 64 == fitBytes 64 (Config.publicKey k)
    | none => false)

/-- INSTALL_CERTIFICATE (R437). -/
def execInstallCertificate (s : State) : Host.Outcome State Fault Refusal :=
  runEvent s fun m arg => match arg with
    | .certificate c => m.request false
        (if m.fuses.lcs.identified && m.fuses.takesCertificate c.bytes then
          { m with fuses := { m.fuses with certificate := some c.bytes } }.say .ok
        else m.say .badCert)
    | _ => none

/-- ATTESTATION_REQUEST on an owner's management endpoint (R436). -/
def execAttestationRequest (s : State) : Host.Outcome State Fault Refusal :=
  runEvent s fun m arg => match arg with
    | .nonce owner port bytes => m.onQp owner port (managementQp owner port) fun _ =>
      some (if bytes.length = 32 then
          m.send (m.attestationOf owner port bytes)
        else m.send (.status (managementQp owner port) 3))
    | _ => none

end Sys2Proof.Machine
end

