-- ==== Sys2Proof/Machine/Issue.lean ====
section
/-! DEFINITION. Fetch, decode and the selection of a chain to issue (R82 to R88, R97, R118, R179, R188 to R190). -/

namespace Sys2Proof.Machine

open Sys2Proof

/-! ### A chain in a line (R83, R84, R88) -/

/-- What decoding a chain gives: its words with their places in the line, and the place after it; or a trap of the word at a
place of the line and a position of the chain. -/
inductive Chain where
  | ok (words : List (Instr × Nat)) (stop : Nat)
  | illegal (i pos : Nat)
  | chain (i pos : Nat)
deriving DecidableEq, Repr

def isBrm : Instr → Bool
  | .brm _ => true
  | _ => false

/-- The literals of the instruction at body word i lie where R83 places them, and a BRM is first in its packet (R101). -/
def placedAt (l : List Word) (i : Nat) (ins : Instr) : Bool :=
  let n := ins.lits.length
  let top := if isBrm ins then min 30 (i / 3 * 3 + 6) else i / 3 * 3 + 3
  decide (i + 1 + n ≤ top) && !(List.range n).any (fun k => lineStart l (i + 1 + k)) &&
  (!isBrm ins || (List.range (i % 3)).all fun k => !lineStart l (i / 3 * 3 + k))

/-- Decode the instruction at body word i of a line (R82, R83): the instruction, its C bit, its literals. A BRM that is not
first in its packet traps ILLEGAL, also as a later word of a chain, whatever its C bit, since ILLEGAL comes before CHAIN (R87); one
that is first, with C = 1 and nothing else wrong, traps CHAIN (R101). (DESIGN CHOICE, log 77) -/
def decodeAt (l : List Word) (i : Nat) : Option (Instr × Bool × Nat) :=
  let after := (List.range 4).filterMap fun k => if i + 1 + k < 30 then some (lineBody l (i + 1 + k)) else none
  let at_ := fun (w : Word) => match decodeWord w after with
    | .ok ins => if placedAt l i ins then some ins else none
    | .error _ => none
  match decodeWord (lineBody l i) after with
  | .error .chainedBrm => (at_ (BitVec.ofNat 32 ((lineBody l i).toNat % 2 ^ 31))).map fun ins => (ins, true, ins.lits.length)
  | _ => (at_ (lineBody l i)).map fun ins => (ins, chainBit ins, ins.lits.length)

/-- The chain that begins at body word i, at most three words: every word is decoded before CHAIN is decided (R87). A chain
that holds a BRM offends at it, one that runs out at its last word (R88). (DEDUCED, log 19) -/
def decodeChain (l : List Word) : Nat → Nat → List (Instr × Nat) → Chain
  | 0, i, acc => .chain i acc.length
  | n + 1, i, acc =>
    match decodeAt l i with
    | none => .illegal i acc.length
    | some (ins, c, k) =>
      let j := i + 1 + k
      let new := acc ++ [(ins, i)]
      if !c then .ok new j
      -- no next word in the same packet (R88)
      else if j / 3 ≠ i / 3 || !lineStart l j then .chain i acc.length
      else
        match decodeChain l n j new with
        | .illegal i' p => .illegal i' p
        | r => if isBrm ins then .chain i acc.length else r

/-- The first packet at or after p whose first word begins an instruction (R84). (DEDUCED, log 32) -/
def nextPacket (l : List Word) : Nat → Nat → Option Nat
  | 0, _ => none
  | n + 1, p => if 10 ≤ p then none else if lineStart l (3 * p) then some p else nextPacket l n (p + 1)

/-- Address of a body word of a line. -/
def bodyAddr (base i : Nat) : Nat := base + 8 + 4 * i

/-- The address after the chain that stops before body word k (R84). -/
def nextAddr (l : List Word) (base k : Nat) : Nat :=
  if k % 3 != 0 && lineStart l k then bodyAddr base k
  else
    match nextPacket l 11 (ceilDiv k 3) with
    | some p => bodyAddr base (3 * p)
    | none => base + 128 + 8

/-! ### The front end -/

/-- The chain a strand would issue. -/
structure Fetched where
  words : List (Instr × Nat)
  raw : List Word
  next : Nat
deriving DecidableEq, Repr

/-- What the front end finds for a strand: a chain; a trap before any chain was decoded, with the position it reports (R383);
a trap of a decoded chain at a position; a line to wait for; no instruction in the rest of the line. -/
inductive Front where
  | chain (f : Fetched)
  | entryTrap (t : Trap) (pos : Nat)
  | chainTrap (f : Fetched) (t : Trap) (pos : Nat)
  | fault
  | skip (pc : Nat)
deriving DecidableEq, Repr

/-- Special registers that only privileged code writes (R159). -/
def privReg : SReg → Bool
  | .finj | .deadline => true
  | _ => false

def isPriv : Instr → Bool
  | .swr f => privReg f.s
  | i => privileged i

/-- The checks of a decoded word before those of its entry: V registers below .regs, a constant bank for the RK format
(R91, R97), then PRIV (R118). (DEDUCED, log 19) -/
def wordTrap (g : Group) (priv hasBank : Bool) (e : Instr × Nat) : Option Trap :=
  let u := usesOf g.width e.1
  if (vregsOf u).any fun r => decide (g.nregs ≤ r) then some { code := .illegal, addr := e.2 }
  else if namesBank e.1 && !hasBank then some { code := .illegal, addr := e.2 }
  else if isPriv e.1 && !priv then some { code := .priv, addr := e.2 }
  else none

/-- The checks of decoded words that need no operand; a later word's trap is taken before an earlier word executes (R87, R90).
(DESIGN CHOICE, log 77) -/
def checkWords (g : Group) (priv hasBank : Bool) (f : Fetched) : Front :=
  match (f.words.zipIdx).findSome? fun e => (wordTrap g priv hasBank e.1).map fun t => (t, e.2) with
  | some (t, k) => .chainTrap f t k
  | none => .chain f

def Machine.ctxPriv (m : Machine) (g : Group) : Bool := ((Map.get m.ctxs g.ctx).map (·.priv)).getD false

def Machine.hasBank (m : Machine) (g : Group) : Bool :=
  ((Map.get m.grids g.grid).map fun x => recConst x.record != 0).getD false

/-- An event handler's target is an entry of KIND 2 of the code object (R223). -/
def Machine.handlerListed (m : Machine) (g : Group) (pc : Nat) : Bool :=
  match Map.get m.grids g.grid with
  | some x => (entryTable x.header).any fun e => e.1 == 2 && recCode x.record + e.2 == pc
  | none => false

/-- Decode at an address of a line that has arrived: the reserved bits of the header first, then BRTARGET (R79, R80, R87).
(DESIGN CHOICE, log 77) -/
def Machine.frontLine (m : Machine) (g : Group) (e : Entry) (l : List Word) : Front :=
  let base := e.pc / 128 * 128
  let i := (e.pc % 128 - 8) / 4
  if 2 ≤ lineKind l then .entryTrap { code := .illegal, addr := base } 0
  else if 2 ^ 10 ≤ (l.getD 1 0).toNat then .entryTrap { code := .illegal, addr := base + 4 } 0
  else if e.entered && (!targetOk l e.pc || (e.evno == 1 && !m.handlerListed g e.pc)) then .entryTrap { code := .brtarget, addr := e.pc } 0
  else if lineKind l = 1 then .entryTrap { code := .illegal, addr := base } 0
  else if !lineStart l i then
    match nextPacket l 11 (i / 3 + 1) with
    | some p => .skip (bodyAddr base (3 * p))
    | none => .skip (base + 128 + 8)
  else
    match decodeChain l 3 i [] with
    | .illegal k n => .entryTrap { code := .illegal, addr := bodyAddr base k } n
    | .chain k n => .entryTrap { code := .chain, addr := bodyAddr base k } n
    | .ok ws k =>
      match chainFault g.width (ws.map (·.1)) with
      | some n => .entryTrap { code := .chain, addr := bodyAddr base (((ws[n]?).map (·.2)).getD i) } n
      | none =>
        let f : Fetched := {
          words := ws.map fun w => (w.1, bodyAddr base w.2)
          raw := (List.range (k - i)).map fun j => lineBody l (i + j)
          next := nextAddr l base k }
        checkWords g (m.ctxPriv g) (m.hasBank g) f

/-- A waiting instruction that runs again by itself (R191). -/
def parkedChain (e : Entry) (p : Park) : Fetched := { words := [(p.instr, p.pc)], raw := encode p.instr, next := e.pc }

/-- Whether a strand may issue as far as its park goes: not parked, or parked in an instruction that is to run again. -/
def parkReady (e : Entry) : Bool :=
  match e.park with
  | none => true
  | some p => match p.why with
    | .barinv | .again | .bad _ => true
    | _ => false

/-- Fetch and decode at a strand's PC (R86, R87). -/
def Machine.frontFetch (m : Machine) (g : Group) (e : Entry) : Front × Machine :=
  match m.fetchLine g.core g.ctx e.pc with
  | (.line l, m) => (m.frontLine g e l, m)
  | (.fault, m) => (if badMark (some e) e.pc then .entryTrap { code := .page, addr := e.pc } 0 else .fault, m)
  | (.prot l c, m) => (.entryTrap (protTrap e.pc l c) 0, m)

/-- The front end of a strand. -/
def Machine.front (m : Machine) (g : Group) (e : Entry) : Front × Machine :=
  match e.park with
  | some p => if p.alone then (.chain (parkedChain e p), m) else m.frontFetch g e
  | none => m.frontFetch g e

/-! ### Replays (R383) -/

/-- The words of a captured chain, with their addresses. -/
def decodeRaw (pc : Nat) : Nat → List Word → List (Instr × Nat)
  | _, [] => []
  | 0, _ => []
  | n + 1, w :: r =>
    match decodeWord w (r.take 4) with
    | .ok i => (i, pc) :: decodeRaw (pc + 4 * (1 + i.lits.length)) n (r.drop i.lits.length)
    | .error _ => []

/-! ### Interlocks (R92, R153, R158, R179, R327) -/

/-- The typed non-linear words that are no Haar instructions: DOMCTL.AUTO reconstructs their Haar sources (R51, R121, R138 to
R152, R157, R327). -/
def reconstructs : Instr → Bool
  | .addSat _ | .subSat _ | .addc _ | .subb _ | .abs _ | .sad _ | .mulh _ | .mulhU _ | .mad _ | .madh _ | .min _ | .minU _
  | .max _ | .maxU _ | .dot4 _ | .dot4Sat _ | .dot4U _ | .dot4USat _ | .lea1 _ | .lea2 _ | .lea3 _ | .lea4 _ | .cmpEq _
  | .cmpNe _ | .cmpLt _ | .cmpLe _ | .cmpLtU _ | .cmpLeU _ | .addi _ => true
  | .fint _ | .fintRn _ | .fintRz _ | .fintRd _ | .fintRu _ | .pfma _ | .pfmaRn _ | .pfmaRz _ | .pfmaRd _ | .pfmaRu _ | .fma _
  | .fmaRn _ | .fmaRz _ | .fmaRd _ | .fmaRu _ | .fmin _ | .fminNum _ | .fmax _ | .fmaxNum _ | .fcmp _ | .frcp _ | .frsq _
  | .fsqrt _ | .fexp2 _ | .flog2 _ | .fsin _ | .fcos _ | .fmak _ | .faddi _ | .cvtqQ _ | .cvtqX _ | .pack _ => true
  | .mul f => !(isUniform f.a || isUniform f.b)
  | .fmul f | .fmulRn f | .fmulRz f | .fmulRd f | .fmulRu f => !(scalar f.a || scalar f.b)
  | .cvt f => (match elFmt f.fr, elFmt f.tgt with
    | some (.flt _), some (.flt _) => f.sat
    | _, _ => true)
  | .redg f => (redgFmt f.op).isSome
  | _ => false

/-- The lanes in which source k of a word is read; of REDG every lane of the mask, helper lanes included. (DESIGN CHOICE, log 77) -/
def readLanes (g : Group) (mask : Mask) (u : Uses) (i : Instr) (k : Nat) : Mask :=
  let all := widthMask g.width
  let r := u.srcs.getD k zRef
  let auto := g.domctl.getLsbD 0 && reconstructs i && r.code < 56 && domOfTag (g.reg r.code).tag != 0
  match i with
  | .qxch f => maskOf ((lanesOf mask).map fun l => Nat.xor l (match f.pat with
      | .h => 1
      | .v => 2
      | .d => 3))
  | .qbrd f => maskOf ((lanesOf mask).map fun l => l / 4 * 4 + f.j.val)
  | .xlane f =>
    if k = 0 then maskOf ((lanesOf mask).filterMap fun l =>
      xlaneSource f.mode g.width l (wordAt (g.reg f.d.code).lanes l).data)
    else mask
  | .tagw _ => all
  | _ => if auto then all else mask

/-- A word would write a V register that is empty in a lane of its mask (R179). -/
def dstBlocked (g : Group) (mask : Mask) (u : Uses) : Bool :=
  u.dst.any fun d => d < 56 && (g.reg d).empty &&& mask != 0

/-- A float instruction of the group has issued and not written back: an MREAD, or an HLDX with parked segments (R38). -/
def Group.floatPending (g : Group) : Bool :=
  g.pending.any fun e => e.2.mread.isSome || (e.2.parked != 0 && (match e.2.instr with
    | some (.hldx _) | some (.hld _) => true
    | _ => false))

/-- SRD and SWR of FPC wait for the float instructions issued before them (R38). -/
def namesFpc : Instr → Bool
  | .srd f => f.s == .fpc
  | .swr f => f.s == .fpc
  | _ => false

/-- A source read with wait bit 0 is empty in a lane that is no helper: the word traps EMPTY (R92, R153). -/
def emptyTraps (g : Group) (mask : Mask) (u : Uses) (i : Instr) : Bool :=
  (u.srcs.zipIdx).any fun e =>
    e.1.code < 56 && !e.1.wait && (g.reg e.1.code).empty &&& readLanes g mask u i e.2 &&& ~~~ g.helper != 0

/-- A word that cannot issue: it reads an empty register that blocks, it would write one that is empty, or it reads or writes
FPC before a float instruction has written back (R38, R92, R179). A word that traps EMPTY is not held for its destination. (DEDUCED, log 79) -/
def wordBlocked (g : Group) (mask : Mask) (i : Instr) : Bool :=
  let u := usesOf g.width i
  (namesFpc i && g.floatPending) ||
  ((u.srcs.zipIdx).any fun e =>
    e.1.code < 56 && e.1.wait && (g.reg e.1.code).empty &&& readLanes g mask u i e.2 != 0) ||
  (dstBlocked g mask u && !emptyTraps g mask u i)

def chainBlocked (g : Group) (mask : Mask) (ws : List (Instr × Nat)) : Bool := ws.any fun e => wordBlocked g mask e.1

/-! ### Ready strands and groups (R188) -/

def Front.blocked (f : Front) (g : Group) (mask : Mask) : Bool :=
  match f with
  | .chain c => chainBlocked g mask c.words
  | _ => false

/-- A memory instruction, which waits for a fence of its group: a word of the MEM pipe but FENCE, and the words of the XU and CTRL
pipes that access memory or scratchpad (R257, R310). (DEDUCED, log 28) -/
def memoryWord (i : Instr) : Bool :=
  match i with
  | .fence _ => false
  | .hst _ | .hld _ | .hldx _ | .mloadb _ | .mma _ | .mmag _ | .tcopy _ | .tstore _ | .xcopy _ | .hread _ | .qgath _ | .qred _
  | .qcvt _ | .qunpk _ | .qtload _ | .nput _ | .nget _ | .natom _ | .bopen _ | .brevoke _ | .enqL _ | .enqQ _ | .launch _
  | .rettResume _ | .rettSkip _ | .rettEnd _ | .rettFault _ => true
  | i => pipeOf i == 2

/-- The front end answers a chain that holds a memory instruction. -/
def Front.usesMemory (f : Front) : Bool :=
  match f with
  | .chain c => c.words.any fun x => memoryWord x.1
  | _ => false

/-- The fences of a group cannot complete yet: what one of them releases, or a synchronising read before one that acquires, is
parked (R257, R270). (DEDUCED, log 28) -/
def Machine.fencesWait (m : Machine) (gk : Nat) (g : Group) : Bool :=
  g.fences.any fun f => (f.2.1 && m.groupParked gk) || (f.2.2 && m.syncReadParked gk)

def Machine.strandReady (m : Machine) (gk : Nat) (g : Group) (e : Entry) : Bool :=
  parkReady e && !e.held && (let f := (m.front g e).1
  !f.blocked g e.mask && !(f.usesMemory && m.fencesWait gk g))

/-- The fences of a group complete, in order: their releases and acquires are made (R230, R257). (DEDUCED, log 28) -/
def Machine.completeFences (m : Machine) (gk : Nat) (g : Group) : Machine :=
  let cores := ((Map.get m.blocks g.block).map fun b => b.cores.length).getD 1
  let m := g.fences.foldl (fun (m : Machine) f =>
    let m := if f.2.1 then m.release g.core f.1 cores else m
    if f.2.2 then m.acquire g.core f.1 cores else m) m
  m.updGroup gk fun g => { g with fences := [] }

/-- A group may issue: it is live, its context runs or is yielding, and its block is not saved. -/
def Machine.groupRuns (m : Machine) (g : Group) : Bool :=
  g.status == .live && g.waitTrap.isNone &&
  (match Map.get m.ctxs g.ctx with
    | some c => c.state == .running || c.state == .yielding
    | none => false) &&
  (match Map.get m.blocks g.block with
    | some b => b.state == .live
    | none => false)

/-- What a group would issue: a replay entry, or its ready strand of greatest age, the topmost of equals (R190). -/
inductive Choice where
  | replay (r : Replay)
  | strand (e : Entry)
deriving DecidableEq, Repr

def oldest : List Entry → Option Entry
  | [] => none
  | e :: r => match oldest r with
    | some x => if e.age < x.age then some x else some e
    | none => some e

def Machine.choice (m : Machine) (gk : Nat) (g : Group) : Option Choice :=
  match g.replay with
  | r :: _ =>
    let ws := decodeRaw r.pc 3 r.words
    let held := ((g.entry r.sid).map (·.held)).getD false
    if held || ws.any (fun w => dstBlocked g r.mask (usesOf g.width w.1)) || (ws.any (fun w => memoryWord w.1) && m.fencesWait gk g) then none
    else some (.replay r)
  | [] => (oldest (g.strands.filter (m.strandReady gk g))).map .strand

/-- The groups that could issue, with what each would. -/
def Machine.candidates (m : Machine) (port : Option (Nat × Nat)) : List (Nat × Group × Choice) :=
  m.groups.filterMap fun e =>
    let here := match port with
      | some (core, p) => e.2.core == core && e.2.slot % 4 == p
      | none => true
    if here && m.groupRuns e.2 then (m.choice e.1 e.2).map fun c => (e.1, e.2, c) else none

/-- The greatest age; ties to the first in order of core, slot and lane offset (R176, R190). (DESIGN CHOICE, log 2) -/
def pickGroup : List (Nat × Group × Choice) → Option (Nat × Group × Choice)
  | [] => none
  | c :: r => match pickGroup r with
    | some x =>
      if c.2.1.age < x.2.1.age || (c.2.1.age == x.2.1.age &&
          (x.2.1.core < c.2.1.core || (x.2.1.core == c.2.1.core && (x.2.1.slot < c.2.1.slot ||
            (x.2.1.slot == c.2.1.slot && x.2.1.offset < c.2.1.offset))))) then some x else some c
    | none => some c

/-! ### Issue -/

/-- A strand that its front end keeps from issue: blocked on an empty register, or held for its destination (R179). -/
def Machine.stalled (m : Machine) (g : Group) (e : Entry) : Bool := (m.front g e).1.blocked g e.mask

/-- Arrivals and merges of a group of this machine (R184, R185). -/
def Machine.settled (m : Machine) (g : Group) : Group := g.settle (m.stalled g) 512

/-- Ages after a selection: what was ready and did not issue ages by 1 (R190). (DESIGN CHOICE, log 2) -/
def Machine.ageGroups (m : Machine) (cs : List (Nat × Group × Choice)) (gk sid : Nat) : Machine :=
  let m := cs.foldl (fun m c => m.updGroup c.1 fun g => { g with age := if c.1 = gk then 0 else g.age + 1 }) m
  m.updGroup gk fun g =>
    let live := g.strands.map (·.sid)
    { g with stack := g.stack.map fun e =>
        if e.sid = sid then { e with age := 0 }
        else if live.contains e.sid && m.strandReady gk g e then { e with age := e.age + 1 } else e }

/-- The replay queue of a group after the replay entry that issues. -/
def Issue.queueAfter (is : Issue) (l : List Replay) : List Replay := if is.replay then l.drop 1 else l

/-- Words whose result takes its tag from a source whatever that source is (R51, R52, R121, R153). -/
def carriesTag : Instr → Bool
  | .mov _ | .qxch _ | .qbrd _ | .xlane _ | .and _ | .or _ | .xor _ | .andn _ | .sel _ | .bmix _ | .brev _ | .shl _ | .shr _
  | .sar _ | .rol _ | .ror _ | .bfx _ | .bfi _ | .fshl _ | .fshr _ | .andi _ | .ori _ | .xori _ | .shli _ | .hthr _ => true
  | .redg f => (redgFmt f.op).isNone
  | _ => false

/-- A typed linear word, whose result keeps the DOM of its sources (R51). -/
def keepsDom (i : Instr) (u : Uses) : Bool :=
  match i with
  | .popc _ | .clz _ => false
  | i => decide (pipeOf i ≤ 1) && !carriesTag i && !reconstructs i && !u.dst.isEmpty

/-- A word would write the reserved tag of a source. -/
def writesTag (i : Instr) (u : Uses) (t : BitVec 8) : Bool :=
  (carriesTag i && !tagOk t) || (keepsDom i u && decide (8 ≤ domOfTag t))

/-- The word of a replayed chain that would write a reserved FMT or DOM, which only a frame can hold: it traps ILLEGAL (R50). -/
def replayTags (width : Nat) (tags : List (BitVec 8)) : Nat → List (Instr × Nat) → Option (Trap × Nat)
  | _, [] => none
  | k, (i, a) :: r =>
    let u := usesOf width i
    if (u.srcs.zip (tags.take u.srcs.length)).any fun e => e.1.code < 62 && writesTag i u e.2 then some ({ code := .illegal, addr := a }, k)
    else replayTags width (tags.drop u.srcs.length) (k + 1) r

/-- The checks of a replayed chain's words that need no operand, made again (R50, R122). -/
def Machine.replayTrap (m : Machine) (g : Group) (r : Replay) (ws : List (Instr × Nat)) : Option (Trap × Nat) :=
  match checkWords g (m.ctxPriv g) (m.hasBank g) { words := ws, raw := r.words, next := r.pc } with
  | .chainTrap _ t k => some (t, k)
  | _ => replayTags g.width r.cap.tags 0 ws

/-- Start a chain, with what was ready and does not issue aged by 1: the strand's PC moves past it; the machine as the chain reads
it is kept, its ages as they were (R90, R190). -/
def startChain (s : State) (m : Machine) (cs : List (Nat × Group × Choice)) (is : Issue) : State :=
  let cur := (m.ageGroups cs is.grp is.sid).updGroup is.grp fun g =>
    { (g.updEntry is.sid fun e => { e with pc := is.next, park := none, entered := false, held := false, evno := 0 }) with
      replay := is.queueAfter g.replay }
  { s with cur := cur, issue := some is, pre := some m }

/-- Issue one strand of a group (R86 to R88); a strand that finds no instruction, or no line, issues nothing and no age changes
(R190). -/
def issueStrand (s : State) (cs : List (Nat × Group × Choice)) (gk : Nat) (g : Group) (e : Entry) : State :=
  let (f, m) := s.cur.front g e
  match f with
  | .chain c =>
    let alone := (e.park.map (·.alone)).getD false
    let m := if g.fences.isEmpty || !f.usesMemory then m else m.completeFences gk g
    startChain s m cs { grp := gk, sid := e.sid, mask := e.mask, pc := if alone then (e.park.map (·.pc)).getD e.pc else e.pc
                        words := c.words, raw := c.raw, pos := 0, next := c.next, cap := none, replay := false
                        alone := alone, dry := false, ages := (g.age, e.age) }
  | .entryTrap t pos =>
    -- a word that fails to decode is decoded again without the target check when its frame is resumed (R383)
    let decoded := t.code == .illegal || t.code == .chain
    let m := m.updGroup gk fun g => g.updEntry e.sid fun e => { e with park := none, entered := e.entered && !decoded }
    { s with cur := m.takeTrap gk t none pos 0 e.pc e.sid }
  | .chainTrap c t pos =>
    let is : Issue := { grp := gk, sid := e.sid, mask := e.mask, pc := e.pc, words := c.words, raw := c.raw, pos := 0
                        next := c.next, cap := none, replay := false, alone := false, dry := false }
    let m := (m.ageGroups cs gk e.sid).updGroup gk fun g =>
      g.updEntry e.sid fun e => { e with pc := c.next, park := none, entered := false }
    { s with cur := m.takeTrap gk t (some (is, e.mask)) pos (((c.words[pos]?).map fun x => pipeOf x.1).getD 0) e.pc e.sid }
  | .fault =>
    let m := m.updGroup gk fun g => g.updEntry e.sid fun e =>
      { e with park := some { why := .fetch e.pc, instr := .instructionLineArrival, pc := e.pc, alone := false } }
    { s with cur := m.parkFetch gk e.sid e.pc }
  -- flow passes through packets that hold no instruction (R84)
  | .skip pc => { s with cur := m.updGroup gk fun g => m.settled (g.updEntry e.sid fun e => { e with pc := pc }) }

/-- Issue a replay entry: its words with the captured operands, under its mask; the mask of a chain that holds a word with failing
lanes beside other words is that of this word, and the other words run under the strand's (R90, R383). The checks of its words that
need no operand are made again (R122). (DEDUCED, log 24) -/
def issueReplay (s : State) (cs : List (Nat × Group × Choice)) (gk : Nat) (g : Group) (r : Replay) : State :=
  let next := ((g.entry r.sid).map (·.pc)).getD r.pc
  let ws := decodeRaw r.pc 3 r.words
  let mixed := decide (1 < ws.length) && ws.any fun e => failsLanes e.1
  let is : Issue := { grp := gk, sid := r.sid, mask := if mixed then ((g.entry r.sid).map (·.mask)).getD r.mask else r.mask
                      pc := r.pc, words := ws, raw := r.words, pos := 0, next := next, cap := some r.cap, replay := true
                      alone := false, dry := false, only := if mixed then some r.mask else none
                      ages := (g.age, ((g.entry r.sid).map (·.age)).getD 0) }
  match s.cur.replayTrap g r ws with
  | some (t, pos) =>
    let m := (s.cur.ageGroups cs gk r.sid).updGroup gk fun g => { g with replay := g.replay.drop 1 }
    { s with cur := m.takeTrap gk t (some (is, r.mask)) pos (((ws[pos]?).map fun x => pipeOf x.1).getD 0) r.pc r.sid }
  | none =>
    let m := if g.fences.isEmpty || !ws.any (fun x => memoryWord x.1) then s.cur else s.cur.completeFences gk g
    startChain s m cs is

/-- One clk passes (R160; DESIGN CHOICE, log 2). -/
def Machine.tick (m : Machine) : Machine := { m with clock := m.clock + 1 }

/-- CLOCK[15:0] has passed to 0: EV_TIMER to every group, once (R221). -/
def Machine.timer (m : Machine) : Machine :=
  if m.clock % 65536 = 0 ∧ m.clock ≠ m.timerAt then
    { m with timerAt := m.clock, groups := m.groups.map fun (e : Nat × Group) => (e.1, e.2.raise 4 0) }
  else m

/-- Holds are looked at again (R179, R188). (DESIGN CHOICE, log 2) -/
def Machine.clearHeld (m : Machine) : Machine :=
  { m with groups := m.groups.map fun e =>
      (e.1, { e.2 with stack := e.2.stack.map fun x => { x with held := false } }) }

/-- Issue one chain in a clk, of a port or of any; with nothing ready only the clk passes (R177, R190). (DESIGN CHOICE, log 2) -/
def selectAndIssue (s : State) (port : Option (Nat × Nat)) : State :=
  let m := s.cur.tick.timer
  let s := { s with cur := m }
  let cs := m.candidates port
  match pickGroup cs with
  | none => { s with cur := m.clearHeld }
  | some (gk, g, c) =>
    match c with
    | .strand e => issueStrand s cs gk g e
    | .replay r => issueReplay s cs gk g r

/-- ISSUE_SELECT: each port selects the oldest ready group and strand and issues one chain (R190); for one port, or for the
whole device in the order of log 2, DESIGN CHOICE. -/
def execIssueSelect (s : State) : Host.Outcome State Fault Refusal :=
  .next (selectAndIssue s (match s.input with
    | .n2 core port => some (core, port)
    | _ => none))

end Sys2Proof.Machine
end

