-- ==== Sys2Proof/Machine/Events.lean ====
section
/-! DEFINITION. Events of the cores and engines: event entry (R191, R221 to R223), the ends of waits, returned data,
completed batches, ring heads (R292), entries taken by engines and their completion (R337, R388, R393). -/

namespace Sys2Proof.Machine

open Sys2Proof

/-! ### Event entry (R191, R222, R223) -/

/-- A strand is at an instruction boundary: parked on no page fault, and not held by an empty register (R191). -/
def Machine.atBoundary (m : Machine) (g : Group) (e : Entry) : Bool :=
  match e.park with
  | some p => match p.why with
    | .fetch _ => false
    | .read _ => readsRecord p.instr
    | .barinv | .again | .bad _ => !(m.front g e).1.blocked g e.mask
    | _ => true
  | none => !(m.front g e).1.blocked g e.mask

/-- The lowest pending enabled event. -/
def Group.nextEvent (g : Group) : Option Nat := (List.range 6).find? fun i => g.ev.pend.getLsbD i && g.ev.enable.getLsbD i

/-- A group takes an event now. -/
def Machine.takesEvent (m : Machine) (g : Group) : Option Nat :=
  if m.groupRuns g && g.lighter.isNone && g.ev.svc.isNone && g.present != 0 && decide (g.stack.length ≤ 254) && g.replay.isEmpty &&
      g.strands.all (m.atBoundary g) then g.nextEvent
  else none

/-- Enter the handler: EVENT, then PATH(EVEC) (R191). -/
def Group.enterEvent (g : Group) (code ev : Nat) : Group :=
  let all := g.present
  let frame : Entry := { sid := g.nextSid, kind := .event, pc := 0, mask := all, out := 0, rpc := none, evno := ev, park := none
                         held := false, age := 0, entered := false }
  let path : Entry := { sid := g.nextSid + 1, kind := .path, pc := (code + g.evec.toNat) % 2 ^ 64, mask := all, out := 0, rpc := none
                        evno := 1, park := none, held := false, age := 0, entered := true }
  { g with
    stack := path :: frame :: g.stack.map abandonEntry
    nextSid := g.nextSid + 2
    ev := { g.ev with
      pend := g.ev.pend &&& ~~~ BitVec.ofNat 6 (2 ^ ev), svc := some ev, info := g.ev.infos.getD ev 0 } }

/-- The entry of an event is an acquire: of a read's lighters, of a batch's writes, at DEVICE scope, or at the scope of the arming BTRY
(R281, R283). (DESIGN CHOICE, log 77) -/
def Machine.acquireEvent (m : Machine) (g : Group) (ev : Nat) : Machine :=
  let cores := ((Map.get m.blocks g.block).map fun b => b.cores.length).getD 1
  match ev with
  | 0 => m.acquire g.core .block cores
  | 1 => m.acquire g.core .device cores
  | 2 => m.acquire g.core g.ev.pendScope cores
  | _ => m

/-- EVENT_ENTRY, for a group, or for the first that takes one. -/
def execEventEntry (s : State) : Host.Outcome State Fault Refusal :=
  runEvent s fun m arg =>
    let found := m.groups.findSome? fun (e : Nat × Group) =>
      if (match arg with
        | .n gk => gk == e.1
        | _ => true) then (m.takesEvent e.2).map fun ev => (e.1, e.2, ev) else none
    found.map fun x => (((m.acquireEvent x.2.1 x.2.2).updGroup x.1 fun g => g.enterEvent (m.codeOf g.grid) x.2.2).dropReads x.1).spill x.1

/-- CLOCK_WRAP: CLOCK[15:0] has passed to 0: EV_TIMER to every group (R221). -/
def execClockWrap (s : State) : Host.Outcome State Fault Refusal :=
  runEvent s fun m _ =>
    if m.clock % 65536 = 0 && m.clock != m.timerAt then some m.timer else none

/-! ### Ends of waits -/

/-- A producer's words have arrived and wait to be written. -/
def Pending.ready (p : Pending) : Bool := p.mread.isNone && (p.lanes &&& ~~~ p.parked) != 0

/-- LOAD_DATA_RETURN: a producer of a group, or the first whose words have arrived (R179). (DESIGN CHOICE, log 4) -/
def execLoadDataReturn (s : State) : Host.Outcome State Fault Refusal :=
  runEvent s fun m arg =>
    let found : Option (Nat × Nat) := match arg with
      | .n2 gk pid => ((Map.get m.groups gk).bind fun g => Map.get g.pending pid).bind fun p =>
          if p.ready then some (gk, pid) else none
      | _ => m.groups.findSome? fun (e : Nat × Group) =>
          (e.2.pending.find? fun (p : Nat × Pending) => p.2.ready).map fun p => (e.1, p.1)
    found.map fun x => m.updGroup x.1 fun g => g.deliver x.2

/-- Strands that an event names: one of a group, or all. -/
def argHits (arg : Arg) (gk sid : Nat) : Bool :=
  match arg with
  | .n2 a b => a == gk && b == sid
  | .n a => a == gk
  | _ => true

/-- Change the parks of the strands that an event names. -/
def Machine.mapParks (m : Machine) (arg : Arg) (f : Park → Option Park) : Machine :=
  { m with groups := m.groups.map fun (e : Nat × Group) => (e.1, { e.2 with stack := e.2.stack.map fun (x : Entry) =>
      match x.park with
      | some p => if argHits arg e.1 x.sid then { x with park := f p } else x
      | none => x }) }

/-- NAP_EXPIRY: the count has passed (R203). (DEDUCED, log 69) -/
def execNapExpiry (s : State) : Host.Outcome State Fault Refusal :=
  runEvent s fun m arg => some (m.mapParks arg fun p => match p.why with
    | .nap t => if t ≤ m.clock then none else some p
    | _ => some p)

/-- The word context of a parked instruction, as it would run again by itself. -/
def Machine.parkedWord (m : Machine) (gk : Nat) (e : Entry) (p : Park) : Option W :=
  ({ cur := m, pre := some m, input := .none, agenda := []
     issue := some { grp := gk, sid := e.sid, mask := e.mask, pc := p.pc, words := [(p.instr, p.pc)], raw := [], pos := 0
                     next := e.pc, cap := none, replay := false, alone := true, dry := false } } : State).word p.instr

/-- A parked WAITV looks at its word again: the condition holds, and the return is the acquire; a word that cannot be read, or
that is poison, makes the instruction run again (R264). -/
def Machine.rereadWaitv (m : Machine) (gk : Nat) (e : Entry) (p : Park) : Machine :=
  let again := m.updGroup gk fun g => g.updEntry e.sid fun e => { e with park := some { p with why := .again } }
  match m.parkedWord gk e p, p.instr with
  | some w, .waitv f =>
    match w.leader with
    | none => again
    | some l =>
      let va := w.uaddr f.g.val
      let (q, m1) := m.place w.g.core w.g.ctx va 4 .read w.g.source
      match m1.deviceWord w.g.core w.g.ctx va (q.noBerth (m1.berthAt w.g.ctx va)) with
      | none => again
      | some (t, m2) =>
        if t.poisoned then again
        else if condHolds f.cond t.data (w.srcAt 1 l).data then
          (m2.acquire w.g.core .device w.blockCores).updGroup gk fun g => g.updEntry e.sid fun e => { e with park := none }
        else m2
  | _, _ => again

/-- WAITV_REREAD. (DEDUCED, log 69) -/
def execWaitvReread (s : State) : Host.Outcome State Fault Refusal :=
  runEvent s fun m arg =>
    some (m.groups.foldl (fun (m : Machine) (e : Nat × Group) => e.2.stack.foldl (fun (m : Machine) x => match x.park with
      | some p => if p.why == .waitv && argHits arg e.1 x.sid && m.groupRuns e.2 then m.rereadWaitv e.1 x p else m
      | none => m) m) m)

/-- CWAIT_REREAD: a parked CWAIT reads its words again (R174). (DEDUCED, log 69) -/
def execCwaitReread (s : State) : Host.Outcome State Fault Refusal :=
  runEvent s fun m arg => some (m.mapParks arg fun p => if p.why == .cwait then some { p with why := .again } else some p)

/-- BATCH_COMPLETE: batches of a group, or of every group, whose members are done close, and parked WAITBs look again
(R219, R220). (DEDUCED, log 69) -/
def execBatchComplete (s : State) : Host.Outcome State Fault Refusal :=
  runEvent s fun m arg =>
    let hit := fun (gk : Nat) => match arg with
      | .n a => a == gk
      | _ => true
    some { m with groups := m.groups.map fun (e : Nat × Group) =>
      if (hit e.1) then
        let g := e.2.closeDone
        (e.1, { g with stack := g.stack.map fun (x : Entry) => match x.park with
          | some p => if p.why == .waitb then { x with park := some { p with why := .again } } else x
          | none => x })
      else e }

/-- INSTRUCTION_LINE_ARRIVAL: the line of an address of a context comes into a core's instruction cache (R81, R86). -/
def execInstructionLineArrival (s : State) : Host.Outcome State Fault Refusal :=
  runEvent s fun m arg => match arg with
    | .n3 core ctx va => if m.dieReset.contains (dieOfCore core) then none else some (m.fetchLine core ctx va).2
    | _ => none

/-- QUEUE_HEAD_REREAD: the entries that wait for room in a ring are appended (R292, R376, R439). -/
def execQueueHeadReread (s : State) : Host.Outcome State Fault Refusal :=
  runEvent s fun m arg => match arg with
    | .ring ctx .fault => some (m.drainFaultQueue ctx)
    | .ring ctx .trap => some (m.drainTrapQueue ctx)
    | .ring ctx .log => some ((m.logLaunches ctx).drainLog ctx)
    | _ => none

/-! ### Engines take entries (R387, R388, R393) -/

/-- An engine takes entries of a context's queue. -/
def Machine.engineTakes (m : Machine) (ctx : Nat) (c : Ctx) (q : Nat) : Bool :=
  decide (16 ≤ q) && decide (q < 32) && (m.queueDesc c q).open_ &&
  -- a queue with a buoy on its way is served up to it (R377)
  (c.state == .running || ((c.state == .yielding || c.state == .faulted) && m.cmds.any fun (e : Nat × Cmd) =>
    e.2.kind == .buoy && e.2.ctx == ctx && e.2.queue == q && e.2.state != QState.done)) &&
  -- the commands of a quay queue run one at a time (R352)
  !(decide (20 ≤ q) && decide (q < 28) && m.cmds.any fun (e : Nat × Cmd) =>
      e.2.ctx == ctx && e.2.queue == q && e.2.state != QState.done && e.2.state != QState.pending)

/-- Read the records a descriptor names, through the record cache of the issuing core (R237). -/
def Machine.readRecs (m : Machine) (core ctx : Nat) : List Nat → Except Words (List (List TWord) × Machine)
  | [] => .ok ([], m)
  | a :: r =>
    match m.readRecord core ctx a quaySource with
    | .ok ws m => match m.readRecs core ctx r with
      | .ok (rs, m) => .ok (ws :: rs, m)
      | e => e
    | e => .error e

/-- Checks 5 to 8 of R355 on an entry of ENQ.Q, with its barrier. -/
def Machine.entryFormOk (m : Machine) (c : Cmd) (e : List TWord) : Bool :=
  let bar := fieldAt e 1 1
  let addr := fieldAt e 8 8
  let q := fieldAt e 0x10 8
  !anyPoison e && decide (bar < 2) && (List.range 4).all (fun i => fieldAt e (0x1C + 4 * i) 4 == 0) &&
  (if c.kind == .qtload then addr % 4 == 0 && decide (fieldAt e 6 1 ≤ 3) && bar == 0
    else addr % 64 == 0 && fieldAt e 6 1 == 0 && fieldAt e 0x18 4 == 0) &&
  (bar == 0 || (q % 16 == 0 && (m.spadAt c.block q 16).isSome))

/-- A raw entry becomes a command: its descriptor and records are read now; one that fails completes with BADENTRY. (DEDUCED, log 26) -/
def Machine.readEntry (m : Machine) (k : Nat) (c : Cmd) : Machine :=
  let e := c.recs.headD []
  let bad := fun (m : Machine) => (m.failCmd k 11).completeCmd k
  let addr := fieldAt e 8 8
  let bar := if fieldAt e 1 1 = 1 then m.spadAt c.block (fieldAt e 0x10 8) 16 else none
  let more := fun (x : Cmd) => { x with barrier := bar, arrive := bar.isSome }
  if c.kind == .bad || !m.entryFormOk c e then bad m
  else
    let stop := fun (w : Words) => match w with
      | .fault x v s m => m.suspendCmd k x v 0 1 s
      | _ => bad m
    match c.kind with
    | .qtload =>
      let count := fieldAt e 0x18 4
      if !tableCountOk count then bad m
      else match m.readWords (engineKey quaySource c.engine) c.ctx addr quaySource count with
        | .ok _ m => m.updCmd k fun x => x.withTable addr count (fieldAt e 6 1)
        | w => stop w
    | kind =>
      match m.readWords (engineKey quaySource c.engine) c.ctx addr quaySource 16 with
      | .ok ws m =>
        if !quayDescOk kind ws then bad m
        else
          let d := quayDesc ws
          match m.readRecs (m.cmdCore c) c.ctx d.present with
          | .error w => stop w
          | .ok (rs, m) => if !quayRecsOk kind d (d.present.zip rs) then bad m else m.updCmd k fun x => more (x.withQuay d rs)
      | w => stop w

/-- ENGINE_TAKE_ENTRY: the head of an engine queue; an entry of ENQ.Q that waited for a page is read again. -/
def execEngineTakeEntry (s : State) : Host.Outcome State Fault Refusal :=
  runEvent s fun m arg => match arg with
    | .n2 ctx q =>
      match Map.get m.ctxs ctx with
      | none => none
      | some c =>
        let mine := fun (x : Cmd) => x.ctx == ctx && x.queue == q && x.kind != .buoy
        match m.cmds.find? fun (e : Nat × Cmd) => mine e.2 && e.2.raw && e.2.state == QState.running with
        | some (k, x) => (m.seatCmd k x).map fun s => s.2.readEntry k s.1
        | none =>
          let d := m.queueDesc c q
          if !m.engineTakes ctx c q || d.tail ≤ d.head then none
          else match m.cmds.find? fun (e : Nat × Cmd) => mine e.2 && e.2.entry == d.head && e.2.state == QState.pending with
            | none => none
            | some (k, x) =>
              -- a quay command needs a free engine of its destination's home stack (R352)
              let engine := if x.onQuay then m.freeEngine x else some 0
              engine.map fun n =>
                let m := ((m.setHead c q (d.head + 1)).moveCmd k .running).updCmd k fun x => { x with engine := n }
                if x.raw then m.readEntry k { x with state := .running, engine := n } else m
    | _ => none

/-! ### Completion (R232, R337, R388) -/

/-- Addresses of the sectors of a record's line. -/
def Layout.lineAddrs (r : Layout) (n : Nat) : List Nat :=
  let row := r.addr (r.at_ n 0)
  (List.range r.lineSectors).filterMap fun q => if row / 64 * 64 + 64 * q < row + r.rowBytes then some (max row (row / 64 * 64 + 64 * q)) else none

/-- Addresses of the sectors of a line's scale slot. -/
def Layout.slotAddrs (r : Layout) (n : Nat) : List Nat :=
  if r.comp = 0 then [] else (List.range (r.slot / 8)).map fun q => r.scaleAddr n + 8 * q

/-- Addresses that a quay command reads through each of its records but the destination; QGATH reads the rows its index names. -/
def Machine.quayReads (m : Machine) (c : Cmd) : List (Layout × List Nat) :=
  let rs := c.recs.map layoutOf
  let z := layoutOf []
  let all := fun (r : Layout) => (r, (List.range r.lines).flatMap fun n => r.lineAddrs n ++ r.slotAddrs n)
  match c.kind with
  | .qgath =>
    let src := rs.getD 1 z
    let ix := rs.getD 2 z
    let rows := (List.range (ix.dimAt 0)).filterMap fun i =>
      match m.engineRead quaySource c ix (ix.addr [i, 0, 0, 0, 0]) 1 with
      | .ok ws _ =>
        let t := wordAt ws 0
        if t.good && decide (t.data.toNat < min (src.dimAt 1) (2 ^ (if ix.fmt = 1 then 31 else 32))) then some t.data.toNat else none
      | _ => none
    [(src, rows.flatMap fun n => src.lineAddrs n ++ src.slotAddrs n), all ix]
  | .qred | .qcvt => (rs.drop 1).map all
  | .qunpk => let src := rs.getD 1 z; [(src, (List.range (ceilDiv (c.op 4) 512 + 1)).map fun q => src.base + 64 * q)]
  | _ => []

/-- The lines of a LASTUSE source of a quay command are dropped when it ends: they are read by several of its units. A line that it
also wrote is kept (R232, R233). (DEDUCED, log 35) (DEDUCED, log 51) -/
def Machine.dropSource (m : Machine) (c : Cmd) : Machine :=
  let foot := c.layout.footprint
  let wrote := fun (a : Nat) => c.shadow.isNone && foot.any fun f => decide (f.1 / 256 ≤ a / 256) && decide (a / 256 ≤ (f.1 + f.2 - 1) / 256)
  (m.quayReads c).foldl (fun (m : Machine) (e : Layout × List Nat) =>
    m.dropRead quaySource c e.1 (e.2.filter fun a => !wrote a)) m

/-- A command has done all its work. -/
def Cmd.finished (c : Cmd) : Bool :=
  match c.kind with
  | .tcopy => c.sectors.length == c.imageSectors
  | .tstore => c.destSectors.all c.sectors.contains
  | .qgath | .qred | .qcvt | .qtload => !c.raw && c.sectors.length == c.units
  | .xcopy | .qunpk | .nput | .nget | .natom => !c.sectors.isEmpty
  | .hread | .buoy | .bad => false

/-- A finished command completes. -/
def Machine.finishCmd (m : Machine) (k : Nat) (c : Cmd) : Machine :=
  (if c.onQuay && !c.raw then m.dropSource c else m).completeCmd k

/-- COMMAND_COMPLETION; the network engine first does what is left of a link command (R413, R414). -/
def execCommandCompletion (s : State) : Host.Outcome State Fault Refusal :=
  runEvent s fun m arg => match arg with
    | .n k =>
      match Map.get m.cmds k with
      | none => none
      | some c =>
        if c.state != .running then none
        else if c.finished then some (m.finishCmd k c)
        else if c.link && m.linkTurn c then
          let m := m.runLink k c
          some (match Map.get m.cmds k with
            | some c => if c.state == .running && c.finished then m.finishCmd k c else m
            | none => m)
        else none
    | _ => none

/-- PUBLISH_SWAP: every prior writer of a PUBLISHING shadow has completed (R258, R260). -/
def execPublishSwap (s : State) : Host.Outcome State Fault Refusal :=
  runEvent s fun m arg => match arg with
    | .n2 ctx h => some (m.trySwap ctx h)
    | _ => none

/-- CDONE_OR_PERFORM: the OR of a CDONE, at its word's home (R173). -/
def execCdoneOrPerform (s : State) : Host.Outcome State Fault Refusal :=
  runEvent s fun m arg => match arg with
    | .n k =>
      match Map.get m.parked k with
      | some r => if r.flight then m.performDone k else none
      | none => none
    | _ => none

end Sys2Proof.Machine
end

