-- ==== Sys2Proof/Machine/Dispatch.lean ====
section
/-! DEFINITION. One arm per constructor of Instr, each one direct call of the instruction's meaning. -/

namespace Sys2Proof.Machine

open Sys2Proof

def exec (i : Instr) (s : State) : Host.Outcome State Fault Refusal :=
  match i with
  | .add f => Sys2Proof.Machine.execAdd f s
  | .addSat f => Sys2Proof.Machine.execAddSat f s
  | .sub f => Sys2Proof.Machine.execSub f s
  | .subSat f => Sys2Proof.Machine.execSubSat f s
  | .addc f => Sys2Proof.Machine.execAddc f s
  | .subb f => Sys2Proof.Machine.execSubb f s
  | .neg f => Sys2Proof.Machine.execNeg f s
  | .abs f => Sys2Proof.Machine.execAbs f s
  | .sad f => Sys2Proof.Machine.execSad f s
  | .mov f => Sys2Proof.Machine.execMov f s
  | .mul f => Sys2Proof.Machine.execMul f s
  | .mulh f => Sys2Proof.Machine.execMulh f s
  | .mulhU f => Sys2Proof.Machine.execMulhU f s
  | .mad f => Sys2Proof.Machine.execMad f s
  | .madh f => Sys2Proof.Machine.execMadh f s
  | .min f => Sys2Proof.Machine.execMin f s
  | .minU f => Sys2Proof.Machine.execMinU f s
  | .max f => Sys2Proof.Machine.execMax f s
  | .maxU f => Sys2Proof.Machine.execMaxU f s
  | .dot4 f => Sys2Proof.Machine.execDot4 f s
  | .dot4Sat f => Sys2Proof.Machine.execDot4Sat f s
  | .dot4U f => Sys2Proof.Machine.execDot4U f s
  | .dot4USat f => Sys2Proof.Machine.execDot4USat f s
  | .and f => Sys2Proof.Machine.execAnd f s
  | .or f => Sys2Proof.Machine.execOr f s
  | .xor f => Sys2Proof.Machine.execXor f s
  | .andn f => Sys2Proof.Machine.execAndn f s
  | .popc f => Sys2Proof.Machine.execPopc f s
  | .clz f => Sys2Proof.Machine.execClz f s
  | .brev f => Sys2Proof.Machine.execBrev f s
  | .shl f => Sys2Proof.Machine.execShl f s
  | .shr f => Sys2Proof.Machine.execShr f s
  | .sar f => Sys2Proof.Machine.execSar f s
  | .rol f => Sys2Proof.Machine.execRol f s
  | .ror f => Sys2Proof.Machine.execRor f s
  | .bfx f => Sys2Proof.Machine.execBfx f s
  | .bfi f => Sys2Proof.Machine.execBfi f s
  | .fshl f => Sys2Proof.Machine.execFshl f s
  | .fshr f => Sys2Proof.Machine.execFshr f s
  | .lea1 f => Sys2Proof.Machine.execLea1 f s
  | .lea2 f => Sys2Proof.Machine.execLea2 f s
  | .lea3 f => Sys2Proof.Machine.execLea3 f s
  | .lea4 f => Sys2Proof.Machine.execLea4 f s
  | .cmpEq f => Sys2Proof.Machine.execCmpEq f s
  | .cmpNe f => Sys2Proof.Machine.execCmpNe f s
  | .cmpLt f => Sys2Proof.Machine.execCmpLt f s
  | .cmpLe f => Sys2Proof.Machine.execCmpLe f s
  | .cmpLtU f => Sys2Proof.Machine.execCmpLtU f s
  | .cmpLeU f => Sys2Proof.Machine.execCmpLeU f s
  | .sel f => Sys2Proof.Machine.execSel f s
  | .movk f => Sys2Proof.Machine.execMovk f s
  | .bmix f => Sys2Proof.Machine.execBmix f s
  | .movi f => Sys2Proof.Machine.execMovi f s
  | .addi f => Sys2Proof.Machine.execAddi f s
  | .andi f => Sys2Proof.Machine.execAndi f s
  | .ori f => Sys2Proof.Machine.execOri f s
  | .xori f => Sys2Proof.Machine.execXori f s
  | .shli f => Sys2Proof.Machine.execShli f s
  | .fadd f => Sys2Proof.Machine.execFadd f s
  | .fsub f => Sys2Proof.Machine.execFsub f s
  | .fmul f => Sys2Proof.Machine.execFmul f s
  | .fmin f => Sys2Proof.Machine.execFmin f s
  | .fminNum f => Sys2Proof.Machine.execFminNum f s
  | .fmax f => Sys2Proof.Machine.execFmax f s
  | .fmaxNum f => Sys2Proof.Machine.execFmaxNum f s
  | .fcmp f => Sys2Proof.Machine.execFcmp f s
  | .fint f => Sys2Proof.Machine.execFint f s
  | .pfma f => Sys2Proof.Machine.execPfma f s
  | .faddRn f => Sys2Proof.Machine.execFaddRn f s
  | .faddRz f => Sys2Proof.Machine.execFaddRz f s
  | .faddRd f => Sys2Proof.Machine.execFaddRd f s
  | .faddRu f => Sys2Proof.Machine.execFaddRu f s
  | .fsubRn f => Sys2Proof.Machine.execFsubRn f s
  | .fsubRz f => Sys2Proof.Machine.execFsubRz f s
  | .fsubRd f => Sys2Proof.Machine.execFsubRd f s
  | .fsubRu f => Sys2Proof.Machine.execFsubRu f s
  | .fmulRn f => Sys2Proof.Machine.execFmulRn f s
  | .fmulRz f => Sys2Proof.Machine.execFmulRz f s
  | .fmulRd f => Sys2Proof.Machine.execFmulRd f s
  | .fmulRu f => Sys2Proof.Machine.execFmulRu f s
  | .fintRn f => Sys2Proof.Machine.execFintRn f s
  | .fintRz f => Sys2Proof.Machine.execFintRz f s
  | .fintRd f => Sys2Proof.Machine.execFintRd f s
  | .fintRu f => Sys2Proof.Machine.execFintRu f s
  | .pfmaRn f => Sys2Proof.Machine.execPfmaRn f s
  | .pfmaRz f => Sys2Proof.Machine.execPfmaRz f s
  | .pfmaRd f => Sys2Proof.Machine.execPfmaRd f s
  | .pfmaRu f => Sys2Proof.Machine.execPfmaRu f s
  | .frcp f => Sys2Proof.Machine.execFrcp f s
  | .frsq f => Sys2Proof.Machine.execFrsq f s
  | .fsqrt f => Sys2Proof.Machine.execFsqrt f s
  | .fexp2 f => Sys2Proof.Machine.execFexp2 f s
  | .flog2 f => Sys2Proof.Machine.execFlog2 f s
  | .fsin f => Sys2Proof.Machine.execFsin f s
  | .fcos f => Sys2Proof.Machine.execFcos f s
  | .fma f => Sys2Proof.Machine.execFma f s
  | .fmaRn f => Sys2Proof.Machine.execFmaRn f s
  | .fmaRz f => Sys2Proof.Machine.execFmaRz f s
  | .fmaRd f => Sys2Proof.Machine.execFmaRd f s
  | .fmaRu f => Sys2Proof.Machine.execFmaRu f s
  | .fmak f => Sys2Proof.Machine.execFmak f s
  | .cvt f => Sys2Proof.Machine.execCvt f s
  | .cvtqQ f => Sys2Proof.Machine.execCvtqQ f s
  | .cvtqX f => Sys2Proof.Machine.execCvtqX f s
  | .pack f => Sys2Proof.Machine.execPack f s
  | .unpk f => Sys2Proof.Machine.execUnpk f s
  | .faddi f => Sys2Proof.Machine.execFaddi f s
  | .fmuli f => Sys2Proof.Machine.execFmuli f s
  | .qxch f => Sys2Proof.Machine.execQxch f s
  | .qbrd f => Sys2Proof.Machine.execQbrd f s
  | .xlane f => Sys2Proof.Machine.execXlane f s
  | .pollQuorum f => Sys2Proof.Machine.execPollQuorum f s
  | .pollSame f => Sys2Proof.Machine.execPollSame f s
  | .pollCount f => Sys2Proof.Machine.execPollCount f s
  | .pollRank f => Sys2Proof.Machine.execPollRank f s
  | .pollMap f => Sys2Proof.Machine.execPollMap f s
  | .redg f => Sys2Proof.Machine.execRedg f s
  | .tagr f => Sys2Proof.Machine.execTagr f s
  | .tagw f => Sys2Proof.Machine.execTagw f s
  | .srd f => Sys2Proof.Machine.execSrd f s
  | .plop f => Sys2Proof.Machine.execPlop f s
  | .ld f => Sys2Proof.Machine.execLd f s
  | .st f => Sys2Proof.Machine.execSt f s
  | .lda f => Sys2Proof.Machine.execLda f s
  | .stl f => Sys2Proof.Machine.execStl f s
  | .lds f => Sys2Proof.Machine.execLds f s
  | .sts f => Sys2Proof.Machine.execSts f s
  | .pref f => Sys2Proof.Machine.execPref f s
  | .hset f => Sys2Proof.Machine.execHset f s
  | .hdem f => Sys2Proof.Machine.execHdem f s
  | .hdrop f => Sys2Proof.Machine.execHdrop f s
  | .lrflush f => Sys2Proof.Machine.execLrflush f s
  | .waitv f => Sys2Proof.Machine.execWaitv f s
  | .atomAdd f => Sys2Proof.Machine.execAtomAdd f s
  | .atomMin f => Sys2Proof.Machine.execAtomMin f s
  | .atomMax f => Sys2Proof.Machine.execAtomMax f s
  | .atomMinU f => Sys2Proof.Machine.execAtomMinU f s
  | .atomMaxU f => Sys2Proof.Machine.execAtomMaxU f s
  | .atomFadd f => Sys2Proof.Machine.execAtomFadd f s
  | .atomExch f => Sys2Proof.Machine.execAtomExch f s
  | .atomCas f => Sys2Proof.Machine.execAtomCas f s
  | .atomAnd f => Sys2Proof.Machine.execAtomAnd f s
  | .atomOr f => Sys2Proof.Machine.execAtomOr f s
  | .atomXor f => Sys2Proof.Machine.execAtomXor f s
  | .atomAddD f => Sys2Proof.Machine.execAtomAddD f s
  | .atomExchD f => Sys2Proof.Machine.execAtomExchD f s
  | .atomCasD f => Sys2Proof.Machine.execAtomCasD f s
  | .atomsAdd f => Sys2Proof.Machine.execAtomsAdd f s
  | .atomsMin f => Sys2Proof.Machine.execAtomsMin f s
  | .atomsMax f => Sys2Proof.Machine.execAtomsMax f s
  | .atomsMinU f => Sys2Proof.Machine.execAtomsMinU f s
  | .atomsMaxU f => Sys2Proof.Machine.execAtomsMaxU f s
  | .atomsFadd f => Sys2Proof.Machine.execAtomsFadd f s
  | .atomsExch f => Sys2Proof.Machine.execAtomsExch f s
  | .atomsCas f => Sys2Proof.Machine.execAtomsCas f s
  | .redAdd f => Sys2Proof.Machine.execRedAdd f s
  | .redMin f => Sys2Proof.Machine.execRedMin f s
  | .redMax f => Sys2Proof.Machine.execRedMax f s
  | .redMinU f => Sys2Proof.Machine.execRedMinU f s
  | .redMaxU f => Sys2Proof.Machine.execRedMaxU f s
  | .redFadd f => Sys2Proof.Machine.execRedFadd f s
  | .redAnd f => Sys2Proof.Machine.execRedAnd f s
  | .redOr f => Sys2Proof.Machine.execRedOr f s
  | .binit f => Sys2Proof.Machine.execBinit f s
  | .bexpect f => Sys2Proof.Machine.execBexpect f s
  | .barrive f => Sys2Proof.Machine.execBarrive f s
  | .bwait f => Sys2Proof.Machine.execBwait f s
  | .btry f => Sys2Proof.Machine.execBtry f s
  | .binval f => Sys2Proof.Machine.execBinval f s
  | .binitForce f => Sys2Proof.Machine.execBinitForce f s
  | .fence f => Sys2Proof.Machine.execFence f s
  | .shadow f => Sys2Proof.Machine.execShadow f s
  | .publish f => Sys2Proof.Machine.execPublish f s
  | .discard f => Sys2Proof.Machine.execDiscard f s
  | .mflush f => Sys2Proof.Machine.execMflush f s
  | .cdone f => Sys2Proof.Machine.execCdone f s
  | .cwait f => Sys2Proof.Machine.execCwait f s
  | .bra f => Sys2Proof.Machine.execBra f s
  | .brc f => Sys2Proof.Machine.execBrc f s
  | .call f => Sys2Proof.Machine.execCall f s
  | .brv f => Sys2Proof.Machine.execBrv f s
  | .brm f => Sys2Proof.Machine.execBrm f s
  | .ret f => Sys2Proof.Machine.execRet f s
  | .jout f => Sys2Proof.Machine.execJout f s
  | .elect f => Sys2Proof.Machine.execElect f s
  | .yield f => Sys2Proof.Machine.execYield f s
  | .nap f => Sys2Proof.Machine.execNap f s
  | .tail f => Sys2Proof.Machine.execTail f s
  | .exit f => Sys2Proof.Machine.execExit f s
  | .evret f => Sys2Proof.Machine.execEvret f s
  | .evon f => Sys2Proof.Machine.execEvon f s
  | .mloadb f => Sys2Proof.Machine.execMloadb f s
  | .mma f => Sys2Proof.Machine.execMma f s
  | .mmag f => Sys2Proof.Machine.execMmag f s
  | .mread f => Sys2Proof.Machine.execMread f s
  | .mzero f => Sys2Proof.Machine.execMzero f s
  | .mcfg f => Sys2Proof.Machine.execMcfg f s
  | .tcopy f => Sys2Proof.Machine.execTcopy f s
  | .tstore f => Sys2Proof.Machine.execTstore f s
  | .xcopy f => Sys2Proof.Machine.execXcopy f s
  | .hread f => Sys2Proof.Machine.execHread f s
  | .batch f => Sys2Proof.Machine.execBatch f s
  | .waitb f => Sys2Proof.Machine.execWaitb f s
  | .hst f => Sys2Proof.Machine.execHst f s
  | .hld f => Sys2Proof.Machine.execHld f s
  | .hldx f => Sys2Proof.Machine.execHldx f s
  | .hfwd f => Sys2Proof.Machine.execHfwd f s
  | .hrec f => Sys2Proof.Machine.execHrec f s
  | .hthr f => Sys2Proof.Machine.execHthr f s
  | .hbias f => Sys2Proof.Machine.execHbias f s
  | .qgath f => Sys2Proof.Machine.execQgath f s
  | .qred f => Sys2Proof.Machine.execQred f s
  | .qcvt f => Sys2Proof.Machine.execQcvt f s
  | .qunpk f => Sys2Proof.Machine.execQunpk f s
  | .qtload f => Sys2Proof.Machine.execQtload f s
  | .nput f => Sys2Proof.Machine.execNput f s
  | .nget f => Sys2Proof.Machine.execNget f s
  | .natom f => Sys2Proof.Machine.execNatom f s
  | .bopen f => Sys2Proof.Machine.execBopen f s
  | .brevoke f => Sys2Proof.Machine.execBrevoke f s
  | .enqL f => Sys2Proof.Machine.execEnqL f s
  | .enqQ f => Sys2Proof.Machine.execEnqQ f s
  | .launch f => Sys2Proof.Machine.execLaunch f s
  | .trap f => Sys2Proof.Machine.execTrap f s
  | .rettResume f => Sys2Proof.Machine.execRettResume f s
  | .rettSkip f => Sys2Proof.Machine.execRettSkip f s
  | .rettEnd f => Sys2Proof.Machine.execRettEnd f s
  | .rettFault f => Sys2Proof.Machine.execRettFault f s
  | .swr f => Sys2Proof.Machine.execSwr f s
  | .savept f => Sys2Proof.Machine.execSavept f s
  | .probe f => Sys2Proof.Machine.execProbe f s
  | .tlbinv f => Sys2Proof.Machine.execTlbinv f s
  | .tlbinvR f => Sys2Proof.Machine.execTlbinvR f s
  | .tlbinvAbort f => Sys2Proof.Machine.execTlbinvAbort f s
  | .brk f => Sys2Proof.Machine.execBrk f s
  | .bringUp => Sys2Proof.Machine.execBringUp s
  | .stackTraining => Sys2Proof.Machine.execStackTraining s
  | .ringLoopback => Sys2Proof.Machine.execRingLoopback s
  | .phyLoopback => Sys2Proof.Machine.execPhyLoopback s
  | .sramBist => Sys2Proof.Machine.execSramBist s
  | .residueCheckerTest => Sys2Proof.Machine.execResidueCheckerTest s
  | .clockStart => Sys2Proof.Machine.execClockStart s
  | .resetRequest => Sys2Proof.Machine.execResetRequest s
  | .readFailureReport => Sys2Proof.Machine.execReadFailureReport s
  | .readIdentity => Sys2Proof.Machine.execReadIdentity s
  | .provisioningRequest => Sys2Proof.Machine.execProvisioningRequest s
  | .deployRequest => Sys2Proof.Machine.execDeployRequest s
  | .debugRequest => Sys2Proof.Machine.execDebugRequest s
  | .retireRequest => Sys2Proof.Machine.execRetireRequest s
  | .installCertificate => Sys2Proof.Machine.execInstallCertificate s
  | .attestationRequest => Sys2Proof.Machine.execAttestationRequest s
  | .createContext => Sys2Proof.Machine.execCreateContext s
  | .loadContext => Sys2Proof.Machine.execLoadContext s
  | .startContext => Sys2Proof.Machine.execStartContext s
  | .resumeContext => Sys2Proof.Machine.execResumeContext s
  | .killContext => Sys2Proof.Machine.execKillContext s
  | .openQueue => Sys2Proof.Machine.execOpenQueue s
  | .closeQueue => Sys2Proof.Machine.execCloseQueue s
  | .setDeadline => Sys2Proof.Machine.execSetDeadline s
  | .openPath => Sys2Proof.Machine.execOpenPath s
  | .closePath => Sys2Proof.Machine.execClosePath s
  | .pilotKeyRotation => Sys2Proof.Machine.execPilotKeyRotation s
  | .setThr => Sys2Proof.Machine.execSetThr s
  | .schedulerDeschedule => Sys2Proof.Machine.execSchedulerDeschedule s
  | .deadlineExpiry => Sys2Proof.Machine.execDeadlineExpiry s
  | .blockSave => Sys2Proof.Machine.execBlockSave s
  | .contextSaved => Sys2Proof.Machine.execContextSaved s
  | .schedulerRestore => Sys2Proof.Machine.execSchedulerRestore s
  | .contextWiped => Sys2Proof.Machine.execContextWiped s
  | .computeDieReset => Sys2Proof.Machine.execComputeDieReset s
  | .takeLaunchEntry => Sys2Proof.Machine.execTakeLaunchEntry s
  | .launchQueueAging => Sys2Proof.Machine.execLaunchQueueAging s
  | .dependencePoll => Sys2Proof.Machine.execDependencePoll s
  | .gridStarting => Sys2Proof.Machine.execGridStarting s
  | .placeGang => Sys2Proof.Machine.execPlaceGang s
  | .blockRetire => Sys2Proof.Machine.execBlockRetire s
  | .gridDrained => Sys2Proof.Machine.execGridDrained s
  | .issueSelect => Sys2Proof.Machine.execIssueSelect s
  | .eventEntry => Sys2Proof.Machine.execEventEntry s
  | .clockWrap => Sys2Proof.Machine.execClockWrap s
  | .loadDataReturn => Sys2Proof.Machine.execLoadDataReturn s
  | .napExpiry => Sys2Proof.Machine.execNapExpiry s
  | .waitvReread => Sys2Proof.Machine.execWaitvReread s
  | .cwaitReread => Sys2Proof.Machine.execCwaitReread s
  | .batchComplete => Sys2Proof.Machine.execBatchComplete s
  | .retirementTrackerDrain => Sys2Proof.Machine.execRetirementTrackerDrain s
  | .queueHeadReread => Sys2Proof.Machine.execQueueHeadReread s
  | .faultBerthFreed => Sys2Proof.Machine.execFaultBerthFreed s
  | .tlbinvEffectComplete => Sys2Proof.Machine.execTlbinvEffectComplete s
  | .engineTakeEntry => Sys2Proof.Machine.execEngineTakeEntry s
  | .buoyReturn => Sys2Proof.Machine.execBuoyReturn s
  | .engineQuiet => Sys2Proof.Machine.execEngineQuiet s
  | .copySectorDelivered => Sys2Proof.Machine.execCopySectorDelivered s
  | .tstoreSectorWritten => Sys2Proof.Machine.execTstoreSectorWritten s
  | .xcopyDelivery => Sys2Proof.Machine.execXcopyDelivery s
  | .commandCompletion => Sys2Proof.Machine.execCommandCompletion s
  | .publishSwap => Sys2Proof.Machine.execPublishSwap s
  | .hreadBurstRequest => Sys2Proof.Machine.execHreadBurstRequest s
  | .hreadBurstReturn => Sys2Proof.Machine.execHreadBurstReturn s
  | .lighterBirth => Sys2Proof.Machine.execLighterBirth s
  | .hreadCompletion => Sys2Proof.Machine.execHreadCompletion s
  | .qunpkSymbol => Sys2Proof.Machine.execQunpkSymbol s
  | .quayCommandRun => Sys2Proof.Machine.execQuayCommandRun s
  | .matrixEntryDone => Sys2Proof.Machine.execMatrixEntryDone s
  | .mreadDataArrival => Sys2Proof.Machine.execMreadDataArrival s
  | .cdoneOrPerform => Sys2Proof.Machine.execCdoneOrPerform s
  | .directoryInvalidate => Sys2Proof.Machine.execDirectoryInvalidate s
  | .cacheEviction => Sys2Proof.Machine.execCacheEviction s
  | .dramWrite => Sys2Proof.Machine.execDramWrite s
  | .dramRead => Sys2Proof.Machine.execDramRead s
  | .rowAlert => Sys2Proof.Machine.execRowAlert s
  | .refreshManagementCommand => Sys2Proof.Machine.execRefreshManagementCommand s
  | .backoffWindowClose => Sys2Proof.Machine.execBackoffWindowClose s
  | .regularRefresh => Sys2Proof.Machine.execRegularRefresh s
  | .selfRefreshEntry => Sys2Proof.Machine.execSelfRefreshEntry s
  | .ringPacketInject => Sys2Proof.Machine.execRingPacketInject s
  | .ringFlitReceive => Sys2Proof.Machine.execRingFlitReceive s
  | .ringFlitResend => Sys2Proof.Machine.execRingFlitResend s
  | .ethernetFrameReceive => Sys2Proof.Machine.execEthernetFrameReceive s
  | .roceLaunchSend => Sys2Proof.Machine.execRoceLaunchSend s
  | .rdmaWrite => Sys2Proof.Machine.execRdmaWrite s
  | .rdmaWritePublish => Sys2Proof.Machine.execRdmaWritePublish s
  | .rdmaRead => Sys2Proof.Machine.execRdmaRead s
  | .rdmaAtomic => Sys2Proof.Machine.execRdmaAtomic s
  | .revocationNoticeReceive => Sys2Proof.Machine.execRevocationNoticeReceive s
  | .roceRetryExhausted => Sys2Proof.Machine.execRoceRetryExhausted s
  | .portLossOfSignal => Sys2Proof.Machine.execPortLossOfSignal s
  | .berthRevokeInForce => Sys2Proof.Machine.execBerthRevokeInForce s
  | .berthRevokeDone => Sys2Proof.Machine.execBerthRevokeDone s
  | .bopenAnswer => Sys2Proof.Machine.execBopenAnswer s
  | .powerLoss => Sys2Proof.Machine.execPowerLoss s
  | .computeDieResetExit => Sys2Proof.Machine.execComputeDieResetExit s
  | .storageError => Sys2Proof.Machine.execStorageError s
  | .instructionLineArrival => Sys2Proof.Machine.execInstructionLineArrival s
  | .powerLimit => Sys2Proof.Machine.execPowerLimit s
  | .createOwner => Sys2Proof.Machine.execCreateOwner s
  | .counterClear => Sys2Proof.Machine.execCounterClear s
  | .berthPageReassign => Sys2Proof.Machine.execBerthPageReassign s

end Sys2Proof.Machine
end

