-- ==== Sys2Proof/Machine/Policy.lean ====
section
/-! DEFINITION. Which step comes next when the agenda is empty: the device's own events that are due, in one fixed order, before
the issue of a chain (DESIGN CHOICE, log 1). Decisions of the scheduler and of other agents, DRAM timing and errors come from the agenda
only. -/

namespace Sys2Proof.Machine

open Sys2Proof

def ev (i : Instr) (a : Arg) : Input := { event := i, arg := a }

/-- An input when a guard holds. -/
def evIf (b : Bool) (i : Instr) (a : Arg) : List Input := if b then [ev i a] else []

/-- Events of a group: returned data, ends of waits, completed batches, event entry. -/
def Machine.groupEvents (m : Machine) (gk : Nat) (g : Group) : List Input :=
  let parkedIn := fun (f : ParkWhy → Bool) => g.stack.any fun e => match e.park with
    | some p => f p.why
    | none => false
  ((g.pending.filter fun e => e.2.ready).map fun e => ev .loadDataReturn (.n2 gk e.1)) ++
  ((g.pending.filter fun e => e.2.mread.isSome).map fun e => ev .mreadDataArrival (.n2 gk e.1)) ++
  evIf (parkedIn fun w => match w with
    | .nap t => decide (t ≤ m.clock)
    | _ => false) .napExpiry (.n gk) ++
  evIf (parkedIn (· == .waitb) || !g.members.isEmpty || !g.open_.isEmpty) .batchComplete (.n gk) ++
  evIf (parkedIn (· == .waitv)) .waitvReread (.n gk) ++
  evIf (parkedIn (· == .cwait)) .cwaitReread (.n gk) ++
  ((g.stack.filter fun e => (tlbWaiting e).isSome).map fun e => ev .tlbinvEffectComplete (.n2 gk e.sid)) ++
  evIf g.nextEvent.isSome .eventEntry (.n gk) ++
  evIf (g.status == .live && (match Map.get m.ctxs g.ctx with
    | some c => c.state == .yielding
    | none => false)) .deadlineExpiry (.n gk)

/-- Events of a command. -/
def Machine.cmdEvents (k : Nat) (c : Cmd) : List Input :=
  let left := fun (all : List Nat) => (all.find? fun u => !c.sectors.contains u)
  let work : List Input := match c.kind with
    | .tcopy => ((left (List.range c.imageSectors)).map fun u => ev .copySectorDelivered (.n2 k u)).toList
    | .tstore => ((left c.destSectors).map fun u => ev .tstoreSectorWritten (.n2 k u)).toList
    | .xcopy => [ev .xcopyDelivery (.n k)]
    | .hread => (c.asked.map fun b => ev .hreadBurstReturn (.n2 k b)) ++ [ev .hreadBurstRequest (.n k), ev .hreadCompletion (.n k)]
    | .qgath | .qred | .qcvt | .qtload =>
      if c.raw then [] else ((left (List.range c.units)).map fun u => ev .quayCommandRun (.n2 k u)).toList
    | .qunpk => [ev .qunpkSymbol (.n k)]
    | .buoy => [ev .buoyReturn (.n k)]
    | _ => []
  match c.state with
  | .running => work ++ [ev .commandCompletion (.n k)]
  | .pending => if c.kind == .buoy then work else []
  | _ => if c.kind == .hread then c.asked.map fun b => ev .hreadBurstReturn (.n2 k b) else []

/-- A queue of a context holds an entry that has not been taken, or one that is being read. -/
def Machine.queueHolds (m : Machine) (c : Ctx) (q : Nat) : Bool :=
  let d := m.queueDesc c q
  d.open_ && decide (d.head < d.tail)

/-- Events of a context: its queues, its shadows, its rings, and the ends of a save and of a wipe. -/
def Machine.ctxEvents (m : Machine) (k : Nat) (c : Ctx) : List Input :=
  let lives := c.state == .running || c.state == .yielding || (c.state == .faulted && m.buoyOut k)
  let own := fun (q : Nat) => m.cmds.any fun e => e.2.ctx == k && e.2.queue == q && e.2.state != QState.done
  (c.shadows.flatMap fun e => evIf (e.2.state == .publishing) .publishSwap (.n2 k e.1)) ++
  evIf (!c.fqWait.isEmpty) .queueHeadReread (.ring k .fault) ++
  evIf (!c.tqWait.isEmpty) .queueHeadReread (.ring k .trap) ++
  evIf (!c.logWait.isEmpty || !(m.launchesCut k).isEmpty) .queueHeadReread (.ring k .log) ++
  (if lives then
    ((List.range 16).flatMap fun q => evIf (own (16 + q)) .engineTakeEntry (.n2 k (16 + q))) ++
    (if (List.range 16).any (m.queueHolds c) then
      ((List.range 16).map fun q => ev .launchQueueAging (.n2 k q)) ++ [ev .takeLaunchEntry (.n k)] else []) else []) ++
  (if c.state == .yielding || c.state == .faulted then [ev .engineQuiet (.n k), ev .contextSaved (.n k)] else []) ++
  evIf (c.state == .killed) .contextWiped (.n k)

/-- Events of a grid, and of a block. -/
def Machine.gridEvents (m : Machine) (k : Nat) (g : Grid) : List Input :=
  match g.state with
  | .queued | .waiting => [ev .dependencePoll (.n2 g.ctx k)]
  | .starting => [ev .gridStarting (.n k)]
  | .running => evIf (decide (g.next < recBlocks g.record) || m.blocks.any fun e => e.2.grid == k && e.2.state == .saved) .placeGang .none
  | .draining => [ev .gridDrained (.n k)]
  | _ => []

def Machine.blockEvents (m : Machine) (k : Nat) (b : Block) : List Input :=
  evIf (b.state == .live && m.groups.all fun e => e.2.block != k || e.2.status == .retired) .blockRetire (.n k) ++
  evIf (b.state == .live && (match Map.get m.ctxs b.ctx with
    | some c => c.state == .yielding || c.state == .faulted
    | none => false)) .blockSave (.n k)

/-- Events of a core. -/
def Machine.coreEvents (m : Machine) (k : Nat) (x : Core) : List Input :=
  evIf (!x.queue.isEmpty) .matrixEntryDone (.n k) ++ evIf (!x.berths.isEmpty || !(m.waitingBursts k).isEmpty) .lighterBirth (.n k) ++
  evIf (!x.tracker.isEmpty) .retirementTrackerDrain (.n k) ++
  evIf (m.parked.any fun e => e.2.core == k && e.2.waiting) .faultBerthFreed (.n k)

/-- Events of the hawser ring: a flit arrives as it was sent. -/
def Machine.ringEvents (m : Machine) : List Input :=
  (m.ring.links.map fun e =>
    let stop := e.1 / 2
    if e.1 % 2 = 0 then ev .ringFlitReceive (.flit ((stop + 1) % 12) true none)
    else ev .ringFlitReceive (.flit ((stop + 11) % 12) false none)) ++
  (m.ring.links.map fun e => ev .ringFlitResend (.n2 (e.1 / 2) (e.1 % 2))) ++
  (m.ring.waiting.flatMap fun e => evIf (!e.2.isEmpty) .ringPacketInject (.n e.1))

/-- The events that may be due. (DESIGN CHOICE, log 1) -/
def Machine.mayBeDue (m : Machine) : List Input :=
  evIf (m.clock % 65536 == 0 && m.clock != m.timerAt) .clockWrap .none ++
  m.ringEvents ++
  evIf (m.mem.dram.anyIdle m.clock) .selfRefreshEntry .none ++
  (m.parked.flatMap fun e => evIf e.2.flight .cdoneOrPerform (.n e.1)) ++
  (m.groups.flatMap fun e => m.groupEvents e.1 e.2) ++
  (m.cores.flatMap fun e => m.coreEvents e.1 e.2) ++
  (m.cmds.flatMap fun e => Machine.cmdEvents e.1 e.2) ++
  (m.blocks.flatMap fun e => m.blockEvents e.1 e.2) ++
  (m.grids.flatMap fun e => m.gridEvents e.1 e.2) ++
  evIf (m.hmReqs.any (·.open_)) .bopenAnswer .none ++
  evIf (m.hmReqs.any fun q => !q.open_) .berthRevokeDone .none ++
  (m.berths.flatMap fun e => match e.2.revoke with
    | some (_, _, _, _, false) => [ev .berthRevokeInForce (.n e.1)]
    | some (_, _, _, _, true) => [ev .berthRevokeDone (.n e.1)]
    | none => []) ++
  (m.ctxs.flatMap fun e => m.ctxEvents e.1 e.2)

/-- What a read leaves behind in caches' order of use and in the translation caches is no effect of its own. -/
def Machine.changedFrom (n m : Machine) : Bool :=
  decide ({ n with mem := { n.mem with recent := m.mem.recent }, tlb := m.tlb } ≠ m)

/-- An event has an effect now. -/
def State.hasEffect (s : State) (i : Input) : Bool :=
  match exec i.event { s with input := i.arg } with
  | .next t => t.cur.changedFrom s.cur
  | _ => false

/-- The domain of an event's agent is out of reset (R28, R432): the management domain answers always, the memory and ring domain from
step 2 of bring-up on, all others when the module is READY. -/
def Machine.inService (m : Machine) (i : Instr) : Bool :=
  match i with
  | .bringUp | .stackTraining | .ringLoopback | .phyLoopback | .sramBist | .residueCheckerTest | .clockStart | .powerLoss | .resetRequest
  | .readFailureReport | .readIdentity | .provisioningRequest | .deployRequest | .debugRequest | .retireRequest | .installCertificate => true
  | .ringPacketInject | .ringFlitReceive | .ringFlitResend | .dramRead | .dramWrite | .refreshManagementCommand | .backoffWindowClose
  | .regularRefresh | .selfRefreshEntry => m.domains.contains 1
  | _ => m.bring == .ready

/-- The first internal event that is due. (DESIGN CHOICE, log 1) -/
def State.due (s : State) : Option Input := s.cur.mayBeDue.find? fun i => s.cur.inService i.event && s.hasEffect i

/-- The next event and what remains of the agenda: its head, else an event that is due, else the issue of a chain. An
instruction word in the agenda is no event, and an event of a domain in reset does not take place: they are passed over.
(DESIGN CHOICE, log 1) -/
def State.nextInput (s : State) : Input × List Input :=
  match s.agenda.filter fun i => i.event.head?.isNone && s.cur.inService i.event with
  | i :: r => (i, r)
  | [] => ((s.due).getD { event := .issueSelect, arg := .none }, [])

end Sys2Proof.Machine
end

