-- ==== Sys2Proof/Machine/Run.lean ====
section
/-! DEFINITION. Running a chain (R88, R90) and taking an event; what a step of the machine is made of. -/

namespace Sys2Proof.Machine

open Sys2Proof

/-- Arrivals and merges are made wherever a strand's PC or readiness changed (R184, R185). A refill outside an issue tests nothing
and takes no STACK, since no instruction is there to trap (R187). (DESIGN CHOICE, log 77) -/
def Machine.settleAll (m : Machine) : Machine :=
  { m with groups := m.groups.map fun (e : Nat × Group) => (e.1, m.settled e.2) }

/-- The refill that an arrival of this chain needs fails: its last word traps STACK and nothing of the chain happens (R187). -/
def refillTrap (s : State) (is : Issue) : Option State :=
  match s.pre, (s.pre.bind fun m0 => Map.get m0.groups is.grp), (Map.get s.cur.groups is.grp) with
  | some m0, some g, some h =>
    if h.status == .live && m0.stackFails g g.stack.length (s.cur.settled h).stack.length then
      let base := m0.updGroup is.grp fun g => { (g.updEntry is.sid fun e => { e with pc := is.next, park := none, entered := false }) with
        finj := g.finj &&& h.finj, replay := if is.replay then g.replay.drop 1 else g.replay }
      let base := ({ base with clock := s.cur.clock, netCount := max base.netCount s.cur.netCount } : Machine).agesFrom s.cur
      some { s with
        cur := base.takeTrap is.grp { code := .stack, info := g.stack.length } (some (is, is.only.getD is.mask)) (is.words.length - 1)
          (((is.words.getLast?).map fun x => pipeOf x.1).getD 0) is.pc is.sid
        issue := none, pre := none }
    else none
  | _, _, _ => none

/-- A chain whose words have all executed: arrivals and merges are made (R184, R185), entries below the held ones are written
out (R187), caches make room, and the issue is over. -/
def finishChain (s : State) : State :=
  match s.issue with
  | none => s
  | some is =>
    match refillTrap s is with
    | some t => t
    | none => { s with cur := ((s.cur.settleAll.spill is.grp).clearHeld).makeRoom, issue := none, pre := none }

/-- The chain goes on with its word at a position. -/
def State.atWord (s : State) (p : Nat) : State := { s with issue := s.issue.map fun is => { is with pos := p } }

/-- Run words of the chain at their positions; a trap, a hold or a wait ends the issue. -/
def runWords : List (Instr × Nat) → State → Host.Outcome State Fault Refusal
  | [], s => .next s
  | (i, p) :: r, s =>
    match exec i (s.atWord p) with
    | .next t => if t.issue.isNone then .next t else runWords r t
    | .fault f => .fault f
    | .refused x => .refused x

/-- The words of a chain with their positions. -/
def Issue.wordList (is : Issue) : List (Instr × Nat) := is.words.zipIdx.map fun e => (e.1.1, e.2)

def isHst : Instr → Bool
  | .hst _ => true
  | _ => false

/-- A store of the MEM pipe: beside it an HST keeps its place, since neither reads memory. -/
def storesOnly : Instr → Bool
  | .st _ | .stl _ | .sts _ => true
  | _ => false

/-- The order in which the words of a chain act, once all have passed their checks: an HST beside a word that reads memory acts after it,
since no word of a chain sees what another stores (R90). -/
def actOrder (ws : List (Instr × Nat)) : List (Instr × Nat) :=
  if ws.any fun e => storesOnly e.1 then ws else ws.filter (fun e => !isHst e.1) ++ ws.filter fun e => isHst e.1

def State.withDry (s : State) (d : Bool) : State := { s with issue := s.issue.map fun is => { is with dry := d } }

/-- A chain is first checked without the access of such a word of it (R90). -/
def checkedFirst (i : Instr) : Bool := isAtomic i || isHst i

/-- Run a chain: one that holds an atomic or an HST beside other words is first checked without that access, and a pass that
ends in a trap, a hold or a wait decides it (R90). -/
def runChain (s : State) : Host.Outcome State Fault Refusal :=
  match s.issue with
  | none => .next s
  | some is =>
    let ws := is.wordList
    let real : Host.Outcome State Fault Refusal := match runWords (actOrder ws) (s.withDry false) with
      | .next t => .next (finishChain t)
      | r => r
    if 1 < ws.length ∧ ws.any (fun e => checkedFirst e.1) = true then
      match runWords ws (s.withDry true) with
      | .next t => if t.issue.isNone then .next t else real
      | r => r
    else real

/-- Take an event, and run the chain it issues; caches make room for what it brought in. (DESIGN CHOICE, log 1) (DESIGN CHOICE, log 76) -/
def takeEvent (s : State) (i : Input) (rest : List Input) : Host.Outcome State Fault Refusal :=
  match exec i.event { s with input := i.arg, agenda := rest } with
  | .next t => match t.issue with
    | some _ => runChain t
    | none => .next (if i.event = .issueSelect then t else { t with cur := t.cur.settleAll.clearHeld.makeRoom })
  | .fault f => .fault f
  | .refused r => .refused r

/-- Held entries of all stacks. -/
def Machine.heldCount (m : Machine) : Nat := (m.groups.map fun (e : Nat × Group) => (e.2.stack.filter (·.held)).length).sum

/-- Take an event. Strands that may be ready again merge before one of them issues, unless the chain proves to be held still
(R185). (DESIGN CHOICE, log 1) -/
def runInput (s : State) (i : Input) (rest : List Input) : Host.Outcome State Fault Refusal :=
  let merged := s.cur.settleAll
  if i.event = .issueSelect ∧ merged.groups ≠ s.cur.groups then
    match takeEvent { s with cur := merged } i rest with
    | .next t => if merged.heldCount < t.cur.heldCount then takeEvent s i rest else .next t
    | r => r
  else takeEvent s i rest

end Sys2Proof.Machine
end

