-- ==== Sys2Proof/Machine/Loader.lean ====
section
/-! DEFINITION. How a program is placed: a module brought up and loaded from outside with one running group, and the
instruction-cache line a strand fetches from (DESIGN CHOICE, log 11). -/

namespace Sys2Proof.Machine

open Sys2Proof

/-- A sector of the home with the first words given. -/
def loadedSector (ws : List Word) : Sector :=
  sectorOf ((ws ++ List.replicate 16 0).take 16 |>.map TWord.of) allDirty 2

/-- The page table of the loaded context: three nodes and a leaf that maps the first GiB, read, write, execute, PRI 2. -/
def loadedTables : Cache :=
  [ (0x4000, loadedSector [0x101001]), (0x4040, loadedSector [0x102001]), (0x4080, loadedSector [0x9F]) ]

/-- Context 0 of the loaded module: privileged, RUNNING, its own supervisor. -/
def loadedCtx : Ctx :=
  { owner := 0, state := .running, priv := true, buoy := false, debug := false, super := 0, ptRoot := 0x100000
    saveBase := 0x10000000, ngimg := 1, nbimg := 1, fqBase := 0x300000, fqSize := 16, tqBase := 0x310000, tqSize := 16
    shPool := 0x320000, shSize := 16, statusVa := 2 ^ 56, deadline := 100000, bimgOff := 1, qdBase := 0x330000
    resolve := 0, handles := [], shadows := [], fqSeq := 0, tqSeq := 0, logSeq := 0, logIn := 0, fqWait := [], tqWait := []
    logWait := [], reported := [], preq := false, preqAt := 0, gimgs := [0], bimgs := [0], buoyed := [], quiet := false
    headSince := [], boost := [], logTaken := 0, retiredAbove := [], modes := [], tlbDue := [], revokes := [], wiping := false }

/-- The record of the loaded grid: code at 0x200000, one block of 8 threads, WIDTH 8, .regs 56, scratchpad 4096, a constant
bank. -/
def loadedRecord : List TWord :=
  ([0x200000, 0, 1, 1, 1, 0x10008, 0x38080001, 0x1000, 0x240000, 0, 0x10001, 0, 0, 0, 0, 0] : List Word).map TWord.of

def loadedGrid : Grid :=
  { ctx := 0, queue := 0, entry := 0, order := 0, state := .running, record := loadedRecord
    header := List.replicate 32 TWord.zero, bank := List.replicate 512 TWord.zero, uni := [], next := 1, gangs := 1, retired := 0
    refused := false, depOk := true, waits := none, abortedVa := none, failing := none, refusing := 0 }

def loadedBlock : Block :=
  { ctx := 0, grid := 1, index := 0, gang := 0, gangSize := 1, inGang := 0, die := 0, cores := [0], scratch := 0x1000, spad := []
    image := 0, state := .live, lframes := [], engines := [], bursts := [], tracks := [] }

/-- Address of the loaded group's first instruction: the first packet of the line after the code header. -/
def loadedPc : Nat := 0x200000 + 128 + 8

def loadedGroup : Group :=
  { Group.fresh 0 1 2 0 8 56 0 0 0 0 [firstEntry loadedPc 8] with deadline := 100000 }

/-- The module brought up and loaded, its first group about to fetch from a line of its core's instruction cache. (DESIGN CHOICE, log 11) -/
def Machine.loaded (f : Fuses) (line : List Word) : Machine :=
  { Machine.afterReset f with
    bring := .ready, domains := [0, 1, 2], dieReset := [], clock := 1, owners := [0]
    ctxs := [(0, loadedCtx)], grids := [(1, loadedGrid)], blocks := [(2, loadedBlock)], groups := [(3, loadedGroup)]
    cores := [(0, { Core.empty with icache := [(0, loadedPc / 128, line)] })]
    mem := { Mem.empty with msc := loadedTables }, nextId := 4 }

/-- A line with one instruction at body word i, its literal words zero; the packet may be entered. -/
def placeWord (l : List Word) (i : Nat) (w : Word) : List Word :=
  let starts := (List.range 30).filter fun k => k == i || (lineStart l k && !(decide (i < k) && decide (k ≤ i + 4)))
  let head := BitVec.ofNat 32 (starts.foldl (fun a k => a + 2 ^ k) 0)
  let target := (l.getD 1 0 &&& 0x3FF#32) ||| BitVec.ofNat 32 (2 ^ (i / 3))
  head :: target :: (List.range 30).map fun k =>
    if k = i then w else if decide (i < k) && decide (k ≤ i + 4) then 0 else lineBody l k

/-- The strand whose chain the next step would issue by fetching it. (DESIGN CHOICE, log 11) -/
def State.nextStrand (s : State) : Option (Nat × Group × Entry) :=
  if s.due.isSome then none
  else match pickGroup (s.cur.tick.timer.candidates none) with
    | some (gk, g, .strand e) => if (e.park.map (·.alone)).getD false then none else some (gk, g, e)
    | _ => none

/-- The machine with a word in the line that a strand fetches. (DESIGN CHOICE, log 11) -/
def Machine.placeAt (m : Machine) (g : Group) (e : Entry) (w : Word) : Machine :=
  let l := match (m.fetchLine g.core g.ctx e.pc).1 with
    | .line l => l
    | _ => []
  m.updCore g.core fun c => { c with
    icache := (g.ctx, e.pc / 128, placeWord l ((e.pc % 128 - 8) / 4) w) ::
      c.icache.filter fun x => !(x.1 == g.ctx && x.2.1 == e.pc / 128) }

end Sys2Proof.Machine
end

