-- ==== Sys2Proof/Machine/Step.lean ====
section
/-! DEFINITION. One step of the machine, and how a word is placed where the next step fetches it. -/

namespace Sys2Proof.Machine

open Sys2Proof

/-- One step: the chain in execution goes on; else the next event is taken, which may issue a chain (DESIGN CHOICE, log 1). -/
def step (s : State) : Host.Outcome State Fault Refusal :=
  match s.issue with
  | some _ => runChain s
  | none => runInput s s.nextInput.1 s.nextInput.2

/-- The state whose next step runs the word: it is placed in the line that the next strand fetches; where no strand would
issue, the module is first brought up and loaded (DESIGN CHOICE, log 11). -/
def State.withFetchWord (s : State) (_nbits w : Nat) : State :=
  let word := BitVec.ofNat 32 w
  let s := { s with issue := none, pre := none, agenda := [] }
  match s.nextStrand with
  | some (_, g, e) => { s with cur := s.cur.placeAt g e word }
  | none => { s with cur := Machine.loaded s.cur.fuses (placeWord [] 0 word) }

end Sys2Proof.Machine
end

