-- ==== Sys2Proof/Safety.lean ====
section
/-! DEFINITION. The terms claims are made in: what a safe run is, when the machine stands between two steps, when a word
finds its operands ready, and the state after a word that is done. -/

namespace Sys2Proof.Machine

open Sys2Proof

/-- A step is safe when the machine goes on. -/
def State.safe (s : State) : Prop := ∃ t, step s = .next t

/-- No chain is half executed: the machine stands between two issues (R90). -/
def State.between (s : State) : Prop := s.issue = none ∧ s.pre = none

/-- The state after a word of a chain is done with machine m: the next word follows. -/
def State.advance (s : State) (m : Machine) : State :=
  { s with cur := m, issue := s.nextWord }

/-- The state after a word that changed its group only. -/
def State.doneGroup (s : State) (w : W) (f : Group → Group) : State := s.advance (s.cur.updGroup w.gk f)

/-- No injection is armed (R71). -/
def W.quiet (w : W) : Bool := !finjEn w.g.finj

/-- No source that is read with wait bit 0 is empty in a lane that is no helper (R92). -/
def W.filled (w : W) : Bool :=
  w.u.srcs.all fun r => r.wait || decide (56 ≤ r.code) || (w.g.reg r.code).empty &&& w.real == 0

/-- Every word of the given sources holds the residue of its data in the lanes of the mask (R55, R58). -/
def W.sound (w : W) (ks : List Nat) : Bool :=
  (lanesOf w.mask).all fun l => ks.all fun k => (w.srcAt k l).good

/-- Every register among the sources has a format that is taken and the domain d; without a register d is 0 (R51). -/
def W.agree (w : W) (ks : List Nat) (ok : Nat → Nat → Bool) (d : Nat) : Bool :=
  (ks.all fun k => match w.tag k with
    | some t => ok k (fmtOfTag t) && domOfTag t == d
    | none => true) && ((ks.any fun k => (w.tag k).isSome) || d == 0)

/-- The operand conditions of a checked word: no injection, sources full and sound. -/
def W.ready (w : W) (ks : List Nat) : Bool := w.quiet && w.filled && w.sound ks

/-- The data of source k in lane l. -/
def W.dat (w : W) (k l : Nat) : Word := (w.srcAt k l).data

/-- The FMT that the family rule gives (R121). -/
def familyOf (t : Option (BitVec 8)) : Nat :=
  match t with
  | some t => if fmtOfTag t = 2 then 2 else if fmtOfTag t = 13 then 13 else 1
  | none => 1

/-- BITS, I32, N32 and I64 half (R121). -/
def inFamily (f : Nat) : Bool := [0, 1, 2, 13].contains f

/-- A typed integer instruction as its entry gives it: sources with the formats they take, whether it keeps the domain, the
FMT of the result (none: the family rule), the registers written, and the result of a lane from A, B and C. -/
structure IntOp where
  ks : List Nat
  ok : Nat → Nat → Bool
  linear : Bool
  fmt : Option Nat
  slots : List Nat
  value : Word → Word → Word → Word

def IntOp.two (f : RR) (linear : Bool) (fmt : Option Nat) (v : Word → Word → Word) : IntOp :=
  { ks := [0, 1], ok := fun _ t => inFamily t, linear := linear, fmt := fmt, slots := dstSlots f.d, value := fun a b _ => v a b }

def IntOp.twoS (f : RS) (fmt : Option Nat) (v : Word → Word → Word) : IntOp :=
  { ks := [0, 1], ok := fun _ t => inFamily t, linear := false, fmt := fmt, slots := dstSlots f.d, value := fun a b _ => v a b }

def IntOp.one (f : R1) (linear : Bool) (fmt : Option Nat) (v : Word → Word) : IntOp :=
  { ks := [0], ok := fun _ t => inFamily t, linear := linear, fmt := fmt, slots := dstSlots f.d, value := fun a _ _ => v a }

def IntOp.three (f : RR) (fmt : Option Nat) (v : Word → Word → Word → Word) : IntOp :=
  { ks := [0, 1, 2], ok := fun _ t => inFamily t, linear := false, fmt := fmt, slots := dstSlots f.d, value := v }

/-- SAD and DOT4: A and B have a packed format or BITS, C the integer word family (R126). -/
def IntOp.bytes (slots : List Nat) (code fmt : Nat) (v : Word → Word → Word → Word) : IntOp :=
  { ks := [0, 1, 2], ok := fun k t => if k < 2 then t == code || t == 0 else inFamily t, linear := false, fmt := some fmt
    slots := slots, value := v }

/-- Clamp to 32 bits, signed. -/
def clampS (i : Int) : Word := BitVec.ofInt 32 (max (-(2 ^ 31)) (min (2 ^ 31 - 1) i))
/-- Clamp to 32 bits, unsigned. -/
def clampU (i : Int) : Word := BitVec.ofInt 32 (max 0 (min (2 ^ 32 - 1) i))

/-- Byte k of a word: bits [8k + 7 : 8k]. -/
def byteAt (w : Word) (k : Nat) : Byte := w.extractLsb' (8 * k) 8

/-- The sum over the four bytes of two words (R126). -/
def bytesSum (f : Byte → Byte → Int) (a b : Word) : Int :=
  f (byteAt a 0) (byteAt b 0) + f (byteAt a 1) (byteAt b 1) + f (byteAt a 2) (byteAt b 2) + f (byteAt a 3) (byteAt b 3)

def byteDist (x y : Byte) : Int := ((x.toNat : Int) - (y.toNat : Int)).natAbs
def byteMulS (x y : Byte) : Int := x.toInt * y.toInt
def byteMulU (x y : Byte) : Int := (x.toNat : Int) * (y.toNat : Int)

/-- The result of each typed integer instruction that writes one register and no predicate (R123 to R127, R137). -/
def intOp (i : Instr) : Option IntOp :=
  match i with
  | .add f => some (.two f true none fun a b => a + b)
  | .sub f => some (.two f true none fun a b => a - b)
  | .addSat f => some (.twoS f (some 1) fun a b => clampS (a.toInt + b.toInt))
  | .subSat f => some (.twoS f (some 1) fun a b => clampS (a.toInt - b.toInt))
  | .neg f => some (.one f true none fun a => 0 - a)
  | .abs f => some (.one f false (some 1) fun a => if a.getLsbD 31 then 0 - a else a)
  | .mul f => some (.two f (f.a.isG || f.b.isG) none fun a b => a * b)
  | .mulh f => some (.two f false (some 1) fun a b => BitVec.ofInt 32 (a.toInt * b.toInt / 2 ^ 32))
  | .mulhU f => some (.twoS f (some 2) fun a b => BitVec.ofNat 32 (a.toNat * b.toNat / 2 ^ 32))
  | .mad f => some (.three f none fun a b c => a * b + c)
  | .madh f => some (.three f (some 2) fun a b c => BitVec.ofNat 32 ((a.toNat * b.toNat + c.toNat) / 2 ^ 32))
  | .min f => some (.two f false (some 1) fun a b => if b.toInt < a.toInt then b else a)
  | .minU f => some (.twoS f (some 2) fun a b => if b.toNat < a.toNat then b else a)
  | .max f => some (.two f false (some 1) fun a b => if a.toInt < b.toInt then b else a)
  | .maxU f => some (.twoS f (some 2) fun a b => if a.toNat < b.toNat then b else a)
  | .lea1 f => some (.two f false none fun a b => a + b * 2)
  | .lea2 f => some (.two f false none fun a b => a + b * 4)
  | .lea3 f => some (.two f false none fun a b => a + b * 8)
  | .lea4 f => some (.two f false none fun a b => a + b * 16)
  | .addi f => some { ks := [0], ok := fun _ t => inFamily t, linear := false, fmt := none, slots := [f.d.val]
                      value := fun a _ _ => a + f.imm.signExtend 32 }
  | .sad f => some (.bytes (dstSlots f.d) 12 2 fun a b c => BitVec.ofInt 32 (c.toNat + bytesSum byteDist a b))
  | .dot4 f => some (.bytes (dstSlots f.d) 11 1 fun a b c => BitVec.ofInt 32 (c.toNat + bytesSum byteMulS a b))
  | .dot4U f => some (.bytes (dstSlots f.d) 12 2 fun a b c => BitVec.ofInt 32 (c.toNat + bytesSum byteMulU a b))
  | .dot4Sat f => some (.bytes (dstSlots f.d) 11 1 fun a b c => clampS (c.toInt + bytesSum byteMulS a b))
  | .dot4USat f => some (.bytes (dstSlots f.d) 12 2 fun a b c => clampU (c.toNat + bytesSum byteMulU a b))
  | _ => none

/-- A tag-agnostic instruction with a checked result as its entry gives it: sources, tag, registers, result of a lane. -/
structure PlainOp where
  ks : List Nat
  tag : BitVec 8
  slots : List Nat
  value : Nat → Word → Word → Word → Word

/-- The number of bits that are 1. -/
def onesOf (a : Word) : Word := BitVec.ofNat 32 ((List.range 32).map fun i => (a.getLsbD i).toNat).sum
/-- The number of leading zeros: how many of the powers 2^0 to 2^31 exceed the word. -/
def zerosAbove (a : Word) : Word := BitVec.ofNat 32 ((List.range 32).filter fun j => decide (a.toNat < 2 ^ j)).length

/-- Every bit of the result as lut[a + 2b + 4c], by the eight minterms (R110). -/
def minterms (lut : BitVec 8) (a b c : Word) : Word :=
  let t := fun (k : Nat) (x y z : Word) => if lut.getLsbD k then x &&& y &&& z else 0#32
  t 0 (~~~ a) (~~~ b) (~~~ c) ||| t 1 a (~~~ b) (~~~ c) ||| t 2 (~~~ a) b (~~~ c) ||| t 3 a b (~~~ c) |||
  t 4 (~~~ a) (~~~ b) c ||| t 5 a (~~~ b) c ||| t 6 (~~~ a) b c ||| t 7 a b c

/-- The low five bits of a shift operand (R129). -/
def amount (b : Word) : Nat := (b &&& 31#32).toNat
/-- POS and the length of the field that a descriptor names (R130). -/
def posOf (d : Word) : Nat := (d.extractLsb' 0 5).toNat
def lenOf (d : Word) : Nat := min ((d.extractLsb' 5 5).toNat + 1) (32 - posOf d)
/-- The field of a, extended by its sign when SGN is 1 (R130). -/
def fieldOf (a d : Word) : Word :=
  let f := a.extractLsb' (posOf d) (lenOf d)
  if d.getLsbD 10 then f.signExtend 32 else f.setWidth 32
/-- c with its field replaced by the low bits of a (R130). -/
def insertField (a d c : Word) : Word :=
  let m := BitVec.ofNat 32 (2 ^ lenOf d - 1)
  (c &&& ~~~ (m <<< posOf d)) ||| ((a &&& m) <<< posOf d)

/-- The result of each tag-agnostic instruction that writes one register (R128 to R133, R137). -/
def plainOp (w : W) (i : Instr) : Option PlainOp :=
  let rr := fun (f : RR) (v : Word → Word → Word) =>
    some ({ ks := [0, 1], tag := w.tagA [0, 1], slots := dstSlots f.d, value := fun _ a b _ => v a b } : PlainOp)
  let log := fun (f : RR) (v : Word → Word → Word) =>
    some ({ ks := [0, 1], tag := w.logicalTag [0, 1], slots := dstSlots f.d, value := fun _ a b _ => v a b } : PlainOp)
  let third := fun (f : RR) (v : Word → Word → Word → Word) =>
    some ({ ks := [0, 1, 2], tag := w.tagA [0, 1, 2], slots := dstSlots f.d, value := fun _ a b c => v a b c } : PlainOp)
  let imm := fun (d : Fin 32) (v : Word → Word) =>
    some ({ ks := [0], tag := w.tagA [0], slots := [d.val], value := fun _ a _ _ => v a } : PlainOp)
  match i with
  | .and f => log f fun a b => a &&& b
  | .or f => log f fun a b => a ||| b
  | .xor f => log f fun a b => a ^^^ b
  | .andn f => log f fun a b => a &&& ~~~ b
  | .popc f => some { ks := [0], tag := tagOf 1 0, slots := dstSlots f.d, value := fun _ a _ _ => onesOf a }
  | .clz f => some { ks := [0], tag := tagOf 1 0, slots := dstSlots f.d, value := fun _ a _ _ => zerosAbove a }
  | .brev f => some { ks := [0], tag := w.tagA [0], slots := dstSlots f.d, value := fun _ a _ _ => a.reverse }
  | .shl f => rr f fun a b => a <<< amount b
  | .shr f => rr f fun a b => a >>> amount b
  | .sar f => rr f fun a b => a.sshiftRight (amount b)
  | .rol f => rr f fun a b => if amount b = 0 then a else (a <<< amount b) ||| (a >>> (32 - amount b))
  | .ror f => rr f fun a b => if amount b = 0 then a else (a >>> amount b) ||| (a <<< (32 - amount b))
  | .bfx f => rr f fun a b => fieldOf a b
  | .bfi f => third f fun a b c => insertField a b c
  | .fshl f => third f fun a b c => ((a ++ b) <<< amount c).extractLsb' 32 32
  | .fshr f => third f fun a b c => ((a ++ b) >>> amount c).extractLsb' 0 32
  | .sel f => some { ks := [0, 1], tag := w.logicalTag [0, 1], slots := dstSlots f.d
                     value := fun l a b _ => if w.pred f.p l then a else b }
  | .bmix f => some { ks := [0, 1, 2], tag := w.logicalTag [0, 1, 2], slots := dstSlots f.d, value := fun _ a b c => minterms f.lut a b c }
  | .andi f => imm f.d fun a => a &&& f.imm.signExtend 32
  | .ori f => imm f.d fun a => a ||| f.imm.setWidth 32
  | .xori f => imm f.d fun a => a ^^^ f.imm.setWidth 32
  | .shli f => imm f.d fun a => a <<< f.k.val
  | _ => none

/-- No source that is read with wait bit 0 is empty in any lane (R153). -/
def W.brim (w : W) : Bool :=
  w.u.srcs.all fun r => r.wait || decide (56 ≤ r.code) || (w.g.reg r.code).empty == 0

/-- A word of class M, which moves words with their residues: registers, tag, the word of a lane (R64). -/
structure MoveOp where
  slots : List Nat
  tag : BitVec 8
  word : Nat → TWord

/-- The words that each class M instruction moves (R135 to R137, R154, R155, R158). -/
def moveOp (w : W) (i : Instr) : Option MoveOp :=
  match i with
  | .mov f => some { slots := dstSlots f.d, tag := w.moveTag 0, word := fun l => w.srcAt 0 l }
  | .movk f => some { slots := dstSlots f.d, tag := 0, word := fun _ => w.bankWord f.k.val }
  | .movi f => some { slots := [f.d.val], tag := 0, word := fun _ => TWord.of (f.imm.signExtend 32) }
  | .qxch f => some { slots := vxSlots f.d, tag := w.moveTag 0
                      word := fun l => w.srcAt 0 (l ^^^ (match f.pat with
                        | .h => 1
                        | .v => 2
                        | .d => 3)) }
  | .qbrd f => some { slots := vxSlots f.d, tag := w.moveTag 0, word := fun l => w.srcAt 0 (4 * (l / 4) + f.j.val) }
  | .xlane f => some { slots := vxSlots f.d, tag := w.moveTag 0
                       word := fun l =>
                         let op := w.dat 1 l
                         let k := (op &&& 0x7F#32).toNat
                         let z := min (2 ^ ((op >>> 8) &&& 7#32).toNat) w.g.width
                         let c := l - l % z
                         match f.mode with
                         | .abs => w.srcAt 0 (c + k % z)
                         | .rot => w.srcAt 0 (c + (l - c + k) % z)
                         | .xor => w.srcAt 0 (c + ((l - c) ^^^ k) % z)
                         | .step =>
                           let s : Int := (l : Int) + ((op.setWidth 7).signExtend 32).toInt
                           if (c : Int) ≤ s ∧ s < (c : Int) + z then w.srcAt 0 s.toNat else TWord.zero }
  | .tagr f => some { slots := dstSlots f.d, tag := tagOf 2 0
                      word := fun _ => TWord.of (((w.tag 0).getD 0).setWidth 32) }
  | _ => none

/-- How a voter votes: Ps XOR N (R156). -/
def W.vote (w : W) (p : Fin 8) (n : Bool) (l : Nat) : Bool := lane w.real l && xor (w.pred p l) n
/-- The voters that vote 1. -/
def W.yes (w : W) (p : Fin 8) (n : Bool) : List Nat := (List.range 128).filter fun l => w.vote p n l
/-- The voters that vote 0. -/
def W.no (w : W) (p : Fin 8) (n : Bool) : List Nat := (List.range 128).filter fun l => lane w.real l && !w.vote p n l

/-- The result words of POLL.COUNT, POLL.RANK and POLL.MAP (R156). -/
def pollOp (w : W) (i : Instr) : Option (List Nat × (Nat → Word)) :=
  match i with
  | .pollCount f => some (vxSlots f.d, fun _ => BitVec.ofNat 32 (w.yes f.s f.n).length)
  | .pollRank f => some (vxSlots f.d, fun l => BitVec.ofNat 32 ((w.yes f.s f.n).filter fun k => decide (k < l)).length)
  | .pollMap f => some (vxSlots f.d, fun l =>
      BitVec.ofNat 32 ((List.range 32).map fun i => (w.vote f.s f.n (32 * (l % 4) + i)).toNat * 2 ^ i).sum)
  | _ => none

/-- A word that writes a predicate: checked sources, predicate, the bit of a lane (R132, R134, R156, R201). -/
structure PredOp where
  ks : List Nat
  ok : Nat → Nat → Bool
  p : Fin 8
  bit : Nat → Bool

def predOp (w : W) (i : Instr) : Option PredOp :=
  let fam := fun (_ t : Nat) => inFamily t
  let any := fun (_ _ : Nat) => true
  let cmp := fun (f : CmpF) (r : Word → Word → Bool) =>
    some ({ ks := [0, 1], ok := fam, p := f.p, bit := fun l => r (w.dat 0 l) (w.dat 1 l) } : PredOp)
  match i with
  | .cmpEq f => cmp f fun a b => decide (a.toNat = b.toNat)
  | .cmpNe f => cmp f fun a b => decide (a.toNat ≠ b.toNat)
  | .cmpLt f => cmp f fun a b => decide (a.toInt < b.toInt)
  | .cmpLe f => cmp f fun a b => decide (a.toInt ≤ b.toInt)
  | .cmpLtU f => cmp f fun a b => decide (a.toNat < b.toNat)
  | .cmpLeU f => cmp f fun a b => decide (a.toNat ≤ b.toNat)
  | .plop f => some { ks := [], ok := any, p := f.p
                      bit := fun l => f.lut.getLsbD (2 * (w.pred f.a l).toNat + (w.pred f.b l).toNat) }
  | .pollQuorum f => some { ks := [], ok := any, p := f.p, bit := fun _ =>
      if f.q.toNat = 0 then (w.no f.s f.n).isEmpty else decide (f.q.toNat ≤ (w.yes f.s f.n).length) }
  | .pollSame f => some { ks := [], ok := any, p := f.p, bit := fun _ => (w.no f.s f.n).isEmpty || (w.yes f.s f.n).isEmpty }
  | .elect f => some { ks := [], ok := any, p := f.p, bit := fun l => lane w.real l &&
      (List.range l).all fun k => !lane w.real k }
  | _ => none

/-- A float word with one result: sources, the formats they take, whether it keeps the domain, the FMT of the result, the
registers, bits and flags of a lane (R138 to R150). -/
structure FloatOp where
  ks : List Nat
  ok : Nat → Nat → Bool
  linear : Bool
  fmt : Nat
  slots : List Nat
  value : Nat → Nat × FFlags

/-- Source k of a lane as an exact F32 number, subnormals as zeros under FTZ (R33, R39). -/
def W.f32 (w : W) (k l : Nat) : Num := fmF32.input w.g.ftz (w.dat k l).toNat
/-- A number rounded once to F32 (R35). -/
def W.toF32 (w : W) (rm : Rm) (x : Num) : Nat × FFlags := fmF32.round rm w.g.ftz false x

/-- An F32 word: F32 sources or BITS (R140). -/
def floatF32 (ks : List Nat) (linear : Bool) (slots : List Nat) (v : Nat → Nat × FFlags) : FloatOp :=
  { ks := ks, ok := fun _ t => t == 3 || t == 0, linear := linear, fmt := 3, slots := slots, value := v }

/-- A uniform or literal source (R139). -/
def isScalar : RSrc → Bool
  | .g _ => true
  | .op (.k _) => true
  | .op _ => false

/-- The results of the F32 arithmetic instructions (R139, R141, R142, R144). -/
def arithOp (w : W) (i : Instr) : Option FloatOp :=
  let add := fun (f : RR) (rm : Rm) => some (floatF32 [0, 1] true (dstSlots f.d) fun l => w.toF32 rm (Num.add rm (w.f32 0 l) (w.f32 1 l)))
  let sub := fun (f : RR) (rm : Rm) => some (floatF32 [0, 1] true (dstSlots f.d) fun l => w.toF32 rm (Num.add rm (w.f32 0 l) (w.f32 1 l).neg))
  let mul := fun (f : RR) (rm : Rm) => some (floatF32 [0, 1] (isScalar f.a || isScalar f.b) (dstSlots f.d) fun l => w.toF32 rm (Num.mul (w.f32 0 l) (w.f32 1 l)))
  let fma := fun (f : RQ) (rm : Rm) => some (floatF32 [0, 1, 2] false (dstSlots f.d) fun l => w.toF32 rm (Num.fma rm (w.f32 0 l) (w.f32 1 l) (w.f32 2 l)))
  let int := fun (f : R1) (rm : Rm) => some (floatF32 [0] false (dstSlots f.d) fun l => Machine.fint rm (w.f32 0 l))
  let ext := fun (d : Dst) (mn num : Bool) => some (floatF32 [0, 1] false (dstSlots d) fun l => fmF32.minMax w.g.ftz mn num (w.dat 0 l).toNat (w.dat 1 l).toNat)
  match i with
  | .fadd f => add f w.g.rm
  | .faddRn f => add f .rn
  | .faddRz f => add f .rz
  | .faddRd f => add f .rd
  | .faddRu f => add f .ru
  | .fsub f => sub f w.g.rm
  | .fsubRn f => sub f .rn
  | .fsubRz f => sub f .rz
  | .fsubRd f => sub f .rd
  | .fsubRu f => sub f .ru
  | .fmul f => mul f w.g.rm
  | .fmulRn f => mul f .rn
  | .fmulRz f => mul f .rz
  | .fmulRd f => mul f .rd
  | .fmulRu f => mul f .ru
  | .fma f => fma f w.g.rm
  | .fmaRn f => fma f .rn
  | .fmaRz f => fma f .rz
  | .fmaRd f => fma f .rd
  | .fmaRu f => fma f .ru
  | .fint f => int f w.g.rm
  | .fintRn f => int f .rn
  | .fintRz f => int f .rz
  | .fintRd f => int f .rd
  | .fintRu f => int f .ru
  | .fmin f => ext f.d true false
  | .fminNum f => ext f.d true true
  | .fmax f => ext f.d false false
  | .fmaxNum f => ext f.d false true
  | .fmak f => some (floatF32 [0, 2] false (dstSlots f.d) fun l =>
      w.toF32 (w.rm f.rm) (Num.fma (w.rm f.rm) (w.f32 2 l) (w.f32 0 l) (fmF32.input w.g.ftz (w.bankWord f.k.val).data.toNat)))
  | .faddi f => some (floatF32 [0] false [f.d.val] fun l =>
      w.toF32 w.g.rm (Num.add w.g.rm (w.f32 0 l) (fmF32.input w.g.ftz (f.imm.toNat * 2 ^ 12))))
  | .fmuli f => some (floatF32 [0] true [f.d.val] fun l =>
      w.toF32 w.g.rm (Num.mul (w.f32 0 l) (fmF32.input w.g.ftz (f.imm.toNat * 2 ^ 12))))
  | _ => none

/-- The approximate functions in the order of R111, with special values and bound of R146. -/
def approxOp (w : W) (i : Instr) : Option FloatOp :=
  let ap := fun (fn : ApproxFn) (f : R1) => some (floatF32 [0] false (dstSlots f.d) fun l => approxF32 fn w.g.ftz (w.dat 0 l))
  match i with
  | .frcp f => ap .rcp f
  | .frsq f => ap .rsq f
  | .fsqrt f => ap .sqrt f
  | .fexp2 f => ap .exp2 f
  | .flog2 f => ap .log2 f
  | .fsin f => ap .sin f
  | .fcos f => ap .cos f
  | _ => none

/-- PFMA, CVT and PACK (R143, R148, R150). -/
def packedOp (w : W) (i : Instr) : Option FloatOp :=
  let pf := fun (f : RR) (rm : Rm) =>
    let op := w.pairFmt
    let x := pairFloat op
    let half := fun (k l j : Nat) => x.input w.g.ftz ((w.dat k l).extractLsb' (16 * j) 16).toNat
    let r := fun (l j : Nat) => x.round rm w.g.ftz false (Num.fma rm (half 0 l j) (half 1 l j) (half 2 l j))
    some ({ ks := [0, 1, 2], ok := fun _ t => (op == 4 || op == 5) && (t == op || t == 0), linear := false, fmt := op
            slots := dstSlots f.d, value := fun l => ((r l 0).1 + 2 ^ 16 * (r l 1).1, (r l 0).2 ||| (r l 1).2) } : FloatOp)
  match i with
  | .pfma f => pf f w.g.rm
  | .pfmaRn f => pf f .rn
  | .pfmaRz f => pf f .rz
  | .pfmaRd f => pf f .rd
  | .pfmaRu f => pf f .ru
  | .cvt f => match elFmt f.fr, elFmt f.tgt with
    | some a, some b =>
      let lin := match a, b with
        | .flt _, .flt _ => !f.sat
        | _, _ => false
      some { ks := [0], ok := fun _ t => t == f.fr.code || t == 0, linear := lin, fmt := f.tgt.code, slots := dstSlots f.d
             value := fun l => convWord a b (w.rm f.rnd) w.g.ftz f.sat (w.dat 0 l).toNat }
    | _, _ => none
  | .pack f => match elFmt f.tgt with
    | some b =>
      let a := packSource b
      let n := 32 / b.width
      let ok := fun (_ t : Nat) => match b with
        | .flt _ => t == 3 || t == 0
        | .int _ => inFamily t
      some { ks := List.range n, ok := ok, linear := false, fmt := f.tgt.code, slots := dstSlots f.d
             value := fun l =>
               let rs := (List.range n).map fun j => convEl a b w.g.rm w.g.ftz true (w.dat j l).toNat
               (packEls b.width (rs.map (·.1)), orAll (rs.map (·.2))) }
    | none => none
  | _ => none

/-! ### What the float operations give, from the bits of their operands -/

/-- The magnitude bits of an F32 word; a subnormal is a zero under FTZ (R33, R39). -/
def f32Mag (ftz : Bool) (w : Word) : Nat :=
  let m := w.toNat % 2 ^ 31
  if ftz && decide (m < 2 ^ 23) then 0 else m
/-- The place of an F32 word that is no NaN in the order of the values; the zeros share one. -/
def f32Key (ftz : Bool) (w : Word) : Int := if w.getLsbD 31 then -(f32Mag ftz w : Int) else f32Mag ftz w
def f32Nan (w : Word) : Bool := decide (0x7F800000 < w.toNat % 2 ^ 31)
/-- A signalling NaN (R32). -/
def f32Sig (w : Word) : Bool := f32Nan w && !w.getLsbD 22

/-- Whether a condition of FCMP holds between two words (R145). -/
def holdsBetween (c : FCond) (ftz : Bool) (a b : Word) : Bool :=
  let un := f32Nan a || f32Nan b
  let x := f32Key ftz a
  let y := f32Key ftz b
  match c with
  | .eq => !un && x == y
  | .ne => un || x != y
  | .lt => !un && decide (x < y)
  | .le => !un && decide (x ≤ y)
  | .gt => !un && decide (y < x)
  | .ge => !un && decide (y ≤ x)
  | .un => un

/-- The special inputs of R146 with their results and flags. -/
def approxSpecial (fn : ApproxFn) (ftz : Bool) (w : Word) : Option (Nat × FFlags) :=
  let mag := f32Mag ftz w
  let neg := w.getLsbD 31
  let sg : Nat := if neg then 2 ^ 31 else 0
  let inf : Nat := 0x7F800000
  let nan : Nat := 0x7FC00000
  if f32Nan w then some (nan, if f32Sig w then fNV else 0)
  else match fn with
  | .rcp => if mag = 0 then some (sg + inf, fDZ) else if mag = inf then some (sg, 0) else none
  | .rsq => if mag = 0 then some (sg + inf, fDZ) else if neg then some (nan, fNV) else if mag = inf then some (0, 0) else none
  | .sqrt => if mag = 0 then some (sg, 0) else if neg then some (nan, fNV) else if mag = inf then some (inf, 0) else none
  | .exp2 =>
    if (0x43000000 : Int) ≤ f32Key ftz w then some (inf, fOF)
    else if neg ∧ mag = inf then some (0, 0)
    else if f32Key ftz w < -0x43160000 then some (0, fUF)
    else if mag = 0 then some (0x3F800000, 0) else none
  | .log2 => if mag = 0 then some (2 ^ 31 + inf, fDZ) else if neg then some (nan, fNV) else if mag = inf then some (inf, 0) else none
  | .sin => if mag = 0 then some (sg, 0) else if mag = inf then some (nan, fNV) else none
  | .cos => if mag = 0 then some (0x3F800000, 0) else if mag = inf then some (nan, fNV) else none

/-- What an element converts to: integers wrap or saturate exactly, a float rounds once, a float to an integer saturates
with NV (R42, R148, R149). -/
def converted (a b : ElFmt) (rm : Rm) (ftz sat : Bool) (v : Nat) (r : Nat × FFlags) : Prop :=
  match a, b with
  | .int x, .int y => r.2 = 0 ∧ r.1 < 2 ^ y.n ∧
      if sat then y.read r.1 = max y.lo (min y.hi (x.read v)) else (y.read r.1 - x.read v) % (2 ^ y.n : Int) = 0
  | .int x, .flt y => r = y.round rm ftz sat (.fin (decide (x.read v < 0)) (x.read v).natAbs 0)
  | .flt x, .int y => r.1 < 2 ^ y.n ∧ match x.input ftz v with
    | .nan _ => r = (0, fNV)
    | .inf s => y.read r.1 = (if s then y.lo else y.hi) ∧ r.2 = fNV
    | .fin s m e =>
      let q := roundShift rm s m (-e)
      let i : Int := if s then -(q.1 : Int) else q.1
      y.read r.1 = max y.lo (min y.hi i) ∧ r.2 = if i < y.lo ∨ y.hi < i then fNV else if q.2 then fNX else 0
  | .flt x, .flt y => r = y.round rm ftz sat (x.input ftz v)

/-- The value of a Q4 code at exponent sc as a multiple of 2^u (R46). -/
def codeAt (ty : QType) (sc u : Int) (c : Nat) : Int :=
  match codeNum ty c with
  | .fin s m k => scaled s m (k + sc) u
  | _ => 0

/-- The flags that the lanes that are no helpers set (R38). -/
def W.flagsOf (w : W) (v : Nat → FFlags) : FFlags := orAll ((lanesOf w.real).map v)

/-- The group after a float word (R38, R93). -/
def FloatOp.write (o : FloatOp) (w : W) (d : Nat) (g : Group) : Group :=
  (g.writeResult o.slots w.mask (fun l => TWord.of (BitVec.ofNat 32 (o.value l).1)) (tagOf o.fmt d)).orFlags
    (w.flagsOf fun l => (o.value l).2)

/-! ### What a reader sees of memory -/

/-- A sector of DRAM through the line code (R75). -/
def Dram.sector (d : Dram) (sn : Nat) : List TWord :=
  match decodeSector (d.sectorBytes sn) (d.checkBytes sn) with
  | .ok ws => ws
  | .corrected ws => ws
  | .poison ws => ws

/-- A sector at its home: the memory-side cache, else DRAM (R228). -/
def Machine.homeSector (m : Machine) (sn : Nat) : List TWord :=
  match Map.get m.mem.msc sn with
  | some s => s.words
  | none => m.mem.dram.sector sn

/-- A sector as a core sees it: its L1, else its die cache, else the home (R224, R227). -/
def Machine.seenSector (m : Machine) (core sn : Nat) : List TWord :=
  match Map.get (m.core core).l1 sn with
  | some s => s.words
  | none => match Map.get (m.mem.dieCache (dieOfCore core)) sn with
    | some s => s.words
    -- what another stop's home sends comes over the ring (R77)
    | none => ringWords (dieOfCore core) sn (m.homeSector sn)

def Machine.seenWord (m : Machine) (core pa : Nat) : TWord := wordAt (m.seenSector core (pa / 64)) (pa % 64 / 4)

/-- One byte of memory as a core reads it. -/
def Machine.seenByte (m : Machine) (core pa : Nat) : Byte := byteOf (m.seenWord core pa).data (pa % 4)

/-- No core sees another byte or another residue anywhere. -/
def Machine.sameMemory (m n : Machine) : Prop := ∀ core pa, n.seenWord core pa = m.seenWord core pa

/-- Every lane of an access has a place in memory, with the physical address of the lane aligned as the access is. -/
def allPlaced (ps : List (Nat × Place)) (n : Nat) : Bool :=
  ps.all fun e => match e.2 with
    | .pa pa _ => pa % n == 0
    | _ => false

/-- The physical addresses of the lanes. -/
def placedLanes (ps : List (Nat × Place)) : List (Nat × Nat) :=
  ps.filterMap fun e => match e.2 with
    | .pa pa _ => some (e.1, pa)
    | _ => none

/-- The lanes whose scratchpad address is good, with block and offset (R226). -/
def W.spadLanes (w : W) (addr : Nat → Nat) (n : Nat) (lanes : Mask) : List (Nat × Nat × Nat) :=
  (lanesOf lanes).filterMap fun l => (w.m.spadAt w.g.block (addr l) n).map fun p => (l, p.1, p.2)

/-- The checks of a global access: no acquire of the group is parked, operands verified, addresses aligned (R247, R250). -/
def W.accessOk (w : W) (ks : List Nat) (addr : Nat → Nat) (n : Nat) : Bool :=
  !w.acquireParked && (w.memCheck ks).isNone && (w.alignTrap addr n).isNone

/-- The machine that a word's load reads: its own for the first word of a chain, the one before the chain for a later word
(R90). -/
def W.view (w : W) (s : State) : Machine := if w.is.pos = 0 then s.cur else w.m0

/-- The directory names every die whose cache holds a sector of the line (R228). -/
def Machine.directed (m : Machine) (line : Nat) : Prop :=
  ∀ d i x, i < 4 → Map.get (m.mem.dieCache d) (line * 4 + i) = some x →
    d < 12 ∧ (Map.getD m.mem.presence line 0).getLsbD d = true

/-- The spill area of the word's group lies in memory (R187). -/
def W.spillRoom (w : W) : Prop :=
  ∀ c, Map.get w.m0.ctxs w.g.ctx = some c → noMemory (spillAddr c w.g.image 256) 64 = false

/-- Every uniform operand of the word holds the residue of its data (R58). -/
def W.uniSound (w : W) : Bool := w.u.us.all fun n => (w.uni n).good

/-- A Haar register instruction finds its operand ready: the group is whole, the source full, sound, of a format with a
transform, and a depth that the width carries; no injection (R329). -/
def W.haarReady (w : W) (d : Nat) : Prop :=
  2 ^ d ≤ w.g.width ∧ w.fullMask = true ∧ w.brim = true ∧ (∀ t, w.tag 0 = some t → fmtOfTag t ∈ [0, 1, 3]) ∧
  ((w.src 0).all fun t => t.good) = true ∧ w.quiet = true

/-- The barrier that an engine command names, when it names one, is an aligned place of the block's scratchpad (R338). -/
def W.barrierOk (w : W) (named : Bool) (q : Nat) : Prop := named = true → q % 16 = 0 ∧ (w.m0.spadAt w.g.block q 16).isSome = true

/-- The word of an engine command finds the group whole, its uniform operands sound, its queue OPEN, and no store of the
group parked on a fault (R338, R355, R412). -/
def W.mayIssue (w : W) (c : Ctx) (q : Nat) : Prop :=
  w.ctx = some c ∧ w.fullMask = true ∧ w.uniSound = true ∧ w.dataParked = false ∧ (w.m0.queueDesc c q).open_ = true

/-- What each engine-command instruction's checks give: the command it appends, or how it ends (R338, R355, R412). -/
def W.commandOf (w : W) (c : Ctx) (i : Instr) : Option (Except Act (W × Command)) :=
  match i with
  | .tcopy f => some (w.box f false c)
  | .tstore f => some (w.box f true c)
  | .xcopy f => some (w.xcopy f c)
  | .hread f => (Map.get w.m0.grids w.g.grid).map fun gr => w.hread f c gr
  | .qgath f => some (w.quay .qgath f c)
  | .qred f => some (w.quay .qred f c)
  | .qcvt f => some (w.quay .qcvt f c)
  | .qunpk f => some (w.quay .qunpk f c)
  | .qtload f => some (w.qtload f c)
  | .nput f => some (w.nput f c)
  | .nget f => some (w.nget f c)
  | .natom f => some (w.natom f c)
  | _ => none

/-- The kind of command that an instruction appends. -/
def commandKind (i : Instr) : Option CmdKind :=
  match i with
  | .tcopy _ => some .tcopy
  | .tstore _ => some .tstore
  | .xcopy _ => some .xcopy
  | .hread _ => some .hread
  | .qgath _ => some .qgath
  | .qred _ => some .qred
  | .qcvt _ => some .qcvt
  | .qunpk _ => some .qunpk
  | .qtload _ => some .qtload
  | .nput _ => some .nput
  | .nget _ => some .nget
  | .natom _ => some .natom
  | _ => none

/-- The operation of each atomic instruction, whether it is a reduction, and its operands: scope, PRI, LU, address pair, and
the registers that take the old value (R251, R252). -/
structure AtomForm where
  op : AtomOp
  red : Bool
  sc : Scope
  pri : Nat
  lu : Bool
  g : Nat
  slots : List Nat

/-- The global atomics and reductions. -/
def atomForm (i : Instr) : Option AtomForm :=
  let at_ := fun (op : AtomOp) (f : AtomF) =>
    some ({ op := op, red := false, sc := f.sc, pri := f.pri.val, lu := f.lu, g := f.g.val, slots := ldstSlots op.words f.d } : AtomForm)
  let red := fun (op : AtomOp) (f : RedF) =>
    some ({ op := op, red := true, sc := f.sc, pri := f.pri.val, lu := f.lu, g := f.g.val, slots := [] } : AtomForm)
  match i with
  | .atomAdd f => at_ .add f
  | .atomMin f => at_ .min f
  | .atomMax f => at_ .max f
  | .atomMinU f => at_ .minU f
  | .atomMaxU f => at_ .maxU f
  | .atomFadd f => at_ .fadd f
  | .atomExch f => at_ .exch f
  | .atomCas f => at_ .cas f
  | .atomAnd f => at_ .and f
  | .atomOr f => at_ .or f
  | .atomXor f => at_ .xor f
  | .atomAddD f => at_ .addD f
  | .atomExchD f => at_ .exchD f
  | .atomCasD f => at_ .casD f
  | .redAdd f => red .add f
  | .redMin f => red .min f
  | .redMax f => red .max f
  | .redMinU f => red .minU f
  | .redMaxU f => red .maxU f
  | .redFadd f => red .fadd f
  | .redAnd f => red .and f
  | .redOr f => red .or f
  | _ => none

/-- The scratchpad atomics. -/
def atomsForm (i : Instr) : Option AtomForm :=
  let at_ := fun (op : AtomOp) (f : AtomF) =>
    some ({ op := op, red := false, sc := f.sc, pri := f.pri.val, lu := f.lu, g := f.g.val, slots := ldstSlots op.words f.d } : AtomForm)
  match i with
  | .atomsAdd f => at_ .add f
  | .atomsMin f => at_ .min f
  | .atomsMax f => at_ .max f
  | .atomsMinU f => at_ .minU f
  | .atomsMaxU f => at_ .maxU f
  | .atomsFadd f => at_ .fadd f
  | .atomsExch f => at_ .exch f
  | .atomsCas f => at_ .cas f
  | _ => none

/-! ### The checks that words make before their results -/

/-- The checks of a register word: the sources it verifies, and for a typed word the formats each takes and whether it keeps the
domain (R51, R58, R121). -/
structure Checks where
  ks : List Nat
  typed : Option ((Nat → Nat → Bool) × Bool)

/-- The checks of each integer, float, packed and predicate word that verifies its sources lane by lane. -/
def regChecks (w : W) (i : Instr) : Option Checks :=
  let fam := fun (_ t : Nat) => inFamily t
  match i with
  | .addc _ | .subb _ => some { ks := [0, 1], typed := some (fam, false) }
  | .fcmp _ => some { ks := [0, 1], typed := some (fun _ t => t == 3 || t == 0, false) }
  | .unpk f => (elFmt f.fr).map fun _ => { ks := [0], typed := some (fun _ t => t == f.fr.code || t == 0, true) }
  | .redg f => some { ks := [0], typed := (redgFmt f.op).map fun n => (fun _ t => if n = 3 then t == 3 || t == 0 else inFamily t, false) }
  | i =>
    ((intOp i).map fun o => { ks := o.ks, typed := some (o.ok, o.linear) }) <|>
    ((plainOp w i).map fun o => { ks := o.ks, typed := none }) <|>
    ((predOp w i).map fun o => { ks := o.ks, typed := if o.ks.isEmpty then none else some (o.ok, false) }) <|>
    ((arithOp w i).map fun o => { ks := o.ks, typed := some (o.ok, o.linear) }) <|>
    ((approxOp w i).map fun o => { ks := o.ks, typed := some (o.ok, false) }) <|>
    ((packedOp w i).map fun o => { ks := o.ks, typed := some (o.ok, o.linear) })

/-- The typed checks of every typed register word, those of CVTQ too (R151). -/
def typedChecks (w : W) (i : Instr) : Option (List Nat × (Nat → Nat → Bool) × Bool) :=
  match i with
  | .cvtqQ _ => some (List.range 8, fun _ t => t == 3 || t == 0, false)
  | .cvtqX _ => some ([0], fun _ t => t == 10 || t == 0, false)
  | i => (regChecks w i).bind fun c => c.typed.map fun t => (c.ks, t)

/-- A source that carries a residue is poison in a lane, or does not match it. -/
def W.poisonIn (w : W) (k l : Nat) : Bool := (w.ref k).stored && (w.srcAt k l).poisoned
def W.badIn (w : W) (k l : Nat) : Bool := (w.ref k).stored && !(w.srcAt k l).good

/-- The lanes that are no helpers in which some source of ks is bad, and the first such source. -/
def W.badLanes (w : W) (ks : List Nat) (bad : Nat → Nat → Bool) : List Nat := (lanesOf w.real).filter fun l => ks.any fun k => bad k l
def W.firstBad (w : W) (ks : List Nat) (bad : Nat → Nat → Bool) : Nat :=
  ((ks.filter fun k => (lanesOf w.real).any (bad k)).head?).getD 0

/-- The sources that a memory word verifies beside its base pair (R247). -/
def memSources (i : Instr) : Option (List Nat) :=
  match i with
  | .ld _ | .lda _ | .lds _ => some [0]
  | .st f | .sts f => some (if stBytes f.t < 4 then [0, 1] else [0])
  | .stl _ => some [0]
  | i => ((atomForm i).map fun a => List.range (1 + a.op.srcRun)) <|> ((atomsForm i).map fun a => List.range (1 + a.op.srcRun))

/-- Where an exchange across lanes takes the word of a lane; a lane of XLANE.STEP with no source takes zero (R153 to R155). -/
def exchangeFrom (w : W) (i : Instr) : Option (Nat → Option Nat) :=
  match i with
  | .qxch f => some fun l => some (l ^^^ (match f.pat with
      | .h => 1
      | .v => 2
      | .d => 3))
  | .qbrd f => some fun l => some (4 * (l / 4) + f.j.val)
  | .xlane f => some fun l =>
      let op := w.dat 1 l
      let k := (op &&& 0x7F#32).toNat
      let z := min (2 ^ ((op >>> 8) &&& 7#32).toNat) w.g.width
      let c := l - l % z
      match f.mode with
      | .abs => some (c + k % z)
      | .rot => some (c + (l - c + k) % z)
      | .xor => some (c + ((l - c) ^^^ k) % z)
      | .step =>
        let s : Int := (l : Int) + ((op.setWidth 7).signExtend 32).toInt
        if (c : Int) ≤ s ∧ s < (c : Int) + z then some s.toNat else none
  | _ => none

/-- The words an atomic leaves in memory, of the old words and the operand words; a compare that fails leaves the old ones
(R252). -/
def atomValue (op : AtomOp) (m v : List Word) : List Word :=
  let a := m.getD 0 0
  let b := v.getD 0 0
  match op with
  | .add => [a + b]
  | .min => [if b.toInt < a.toInt then b else a]
  | .max => [if a.toInt < b.toInt then b else a]
  | .minU => [if b.toNat < a.toNat then b else a]
  | .maxU => [if a.toNat < b.toNat then b else a]
  | .fadd => [BitVec.ofNat 32 (fmF32.round .rn false false (Num.add .rn (fmF32.decode a.toNat) (fmF32.decode b.toNat))).1]
  | .and => [a &&& b]
  | .or => [a ||| b]
  | .xor => [a ^^^ b]
  | .exch => [b]
  | .cas => [if a = b then v.getD 1 0 else a]
  | .addD => words64 (nat64 a (m.getD 1 0) + nat64 b (v.getD 1 0))
  | .exchD => [b, v.getD 1 0]
  | .casD => if a = b ∧ m.getD 1 0 = v.getD 1 0 then [v.getD 2 0, v.getD 3 0] else [a, m.getD 1 0]

/-- The words after some lanes have performed, in their order. -/
def W.atomFold (w : W) (op : AtomOp) (ls : List Nat) (m : List Word) : List Word :=
  ls.foldl (fun m l => atomValue op m ((List.range op.srcRun).map fun k => w.dat (1 + k) l)) m

/-- The words of an atomic's operand in memory. -/
def Machine.homeRun (m : Machine) (pa n : Nat) : List TWord := (List.range n).map fun i => wordAt (m.homeSector (pa / 64)) (pa % 64 / 4 + i)
/-- The words of an atomic's operand in a scratchpad. -/
def Machine.spadRun (m : Machine) (blk off n : Nat) : List TWord := (List.range n).map fun i => m.spadWord blk (off + 4 * i)

/-- A sector is held at its home only: in no die cache, and not in the core's L1. -/
def Machine.onlyHome (m : Machine) (core sn : Nat) : Prop :=
  Map.get (m.core core).l1 sn = none ∧ ∀ d, Map.get (m.mem.dieCache d) sn = none

/-- A sector as a die sees it: its cache, else what the home sends it (R77, R228). -/
def Machine.dieSector (m : Machine) (d sn : Nat) : List TWord :=
  match Map.get (m.mem.dieCache d) sn with
  | some s => s.words
  | none => ringWords d sn (m.homeSector sn)

/-- The sector is no context's recording control block, where writes are ignored in whole or in part (R438). -/
def Machine.unguarded (m : Machine) (sn : Nat) : Prop := m.logSector sn = none

/-- A pending result of a group: these registers, in these lanes, will take these words with this tag. -/
def Machine.awaits (m : Machine) (gk id : Nat) (slots : List Nat) (lanes : Mask) (tag : BitVec 8) (f : Nat → Nat → TWord) : Prop :=
  ∀ g, Map.get m.groups gk = some g → ∃ p, Map.get g.pending id = some p ∧ p.slots = slots ∧ p.lanes = lanes ∧ p.tag = tag ∧
    ∀ k l, k < slots.length → l < g.width → lane lanes l = true → wordAt (p.words.getD k []) l = f k l

/-- The word completes in t: the chain goes on with the next word. -/
def State.ends (s : State) (t : State) : Prop := t = { s with cur := t.cur, issue := s.nextWord }

/-- The command of an instruction is issued to queue q, once v has read its records: pending under a new number, a member of the
group's batch; a queue with no free entry holds the strand (R219, R336, R386). -/
def State.issues (s : State) (i : Instr) (w v : W) (c : Ctx) (q : Nat) : Prop :=
  let n := (v.release .device).m
  ((n.queueDesc c q).free c q = 0 → exec i s = .next (holdState s w.is w.m0)) ∧
  (1 ≤ (n.queueDesc c q).free c q → ∃ t k cmd, exec i s = .next t ∧ s.ends t ∧ Map.get t.cur.cmds k = some cmd ∧
    some cmd.kind = commandKind i ∧ cmd.ctx = w.g.ctx ∧ cmd.group = w.gk ∧ cmd.queue = q ∧ cmd.batch = w.g.batch ∧
    cmd.state = .pending ∧
    ∀ g, Map.get s.cur.groups w.gk = some g → ∃ h, Map.get t.cur.groups w.gk = some h ∧ h.members = g.members ++ [k] ∧ h.regs = g.regs)

/-- A status word arrives in the lanes of the mask, tagged N32/0; a destination Z receives nothing (R259). -/
def Machine.tells (m : Machine) (w : W) (slots : List Nat) (handle code : Nat) : Prop :=
  slots = [] ∨ ∃ id, m.awaits w.gk id slots w.mask 2 fun _ _ => TWord.of (BitVec.ofNat 32 (handle + 256 * code))

/-- A residency handle, or a shadow handle, of the word's context. -/
def Machine.handleOf (m : Machine) (ctx n : Nat) : Option Handle := (Map.get m.ctxs ctx).bind fun c => Map.get c.handles n
def Machine.shadowOf (m : Machine) (ctx n : Nat) : Option Shadow := (Map.get m.ctxs ctx).bind fun c => Map.get c.shadows n

/-- The strand is parked for a reason. -/
def Machine.parkedIn (m : Machine) (gk sid : Nat) (why : ParkWhy) : Prop :=
  ∃ g e p, Map.get m.groups gk = some g ∧ g.entry sid = some e ∧ e.park = some p ∧ p.why = why

/-- The issuing strand is a PATH entry of the group's stack. -/
def Machine.onStrand (m : Machine) (gk sid : Nat) : Prop :=
  ∃ g e, Map.get m.groups gk = some g ∧ g.entry sid = some e ∧ e.kind = .path

/-- The strand that issues the word: its group and its PATH entry, with the mask of the word. -/
def Machine.strandIs (m : Machine) (w : W) (g : Group) (e : Entry) : Prop :=
  Map.get m.groups w.gk = some g ∧ g.entry w.is.sid = some e ∧ e.kind = .path ∧ e.mask = w.mask

/-- A branch may enter the packet: its line is in the instruction cache and passes the target check (R86). -/
def W.mayEnter (w : W) (t : Option Nat) : Prop :=
  ∃ va x, t = some va ∧
    (w.m.core w.g.core).icache.find? (fun e => e.1 == w.g.ctx && e.2.1 == va / 128) = some x ∧ targetOk x.2.2 va = true

/-- Where a branch sends a lane: to a packet, or past the word (none); R197 to R199. -/
def W.laneTarget (w : W) (i : Instr) (l : Nat) : Option (Option Nat) :=
  let b := packetIndex w.addr
  match i with
  | .bra f => some (packetAt b (targetOffset f.t))
  | .call f => some (packetAt b (targetOffset f.t))
  | .brc f => if w.pred f.p l != f.n then some (packetAt b (targetOffset f.t)) else none
  | .brv f => if w.pred f.p l != f.n then some (packetAt b (w.dat 0 l).toInt) else none
  | .brm f => (f.pairs.find? fun p => w.pred p.p l != p.n).map fun p => packetAt b p.off.toInt
  | _ => none

/-- At most how many paths a branch makes of its strand. -/
def W.ways (w : W) (i : Instr) : Nat :=
  match i with
  | .bra _ => 1
  | .brc _ => 2
  | .brm f => f.pairs.length + 1
  | _ => (lanesOf w.mask).length + 1

/-- The core's matrix engine is free, or the block's with room in its queue (R300, R310). -/
def W.engineReady (w : W) : Bool :=
  let c := w.m.core w.g.core
  c.claim.isNone || (c.claim == some w.g.block && decide (c.queue.length < 32))

/-- The core with the engine claimed by the block; one that was free starts with nothing (R300). -/
def W.engine (w : W) : Core :=
  let c := w.m.core w.g.core
  if c.claim = some w.g.block then c else { c with claim := some w.g.block, tiles := [], bslots := [], queue := [] }

/-- The join packet that a branch names, in packets from its own (R183, R196). -/
def joinOf (i : Instr) : Int :=
  match i with
  | .brc f => f.j.toInt
  | .brv f => f.j.toInt
  | .brm f => f.j.toInt
  | _ => 0

/-- The barrier that a word names: no acquire of the group is parked; the leader, the barrier at the address formed from its uniform operands, its words
verified (R214, R217). -/
def W.atBarrier (w : W) (ks : List Nat) (g l : Nat) (r : BarRef) : Prop :=
  w.acquireParked = false ∧ w.leader = some l ∧ w.memCheck ks = none ∧ w.uaddr g % 16 = 0 ∧ w.m.spadAt w.g.block (w.uaddr g) 16 = some (r.blk, r.off) ∧
  r.words = w.m.barAt r.blk r.off ∧ (r.words.all fun t => t.good) = true ∧ r.bar = barOf r.words

/-- The completion test of a barrier (R210): with nothing owed the phase ends and the arrivals are owed again. -/
def Bar.settled (b : Bar) : Bar :=
  if b.valid ∧ b.arrive = 0 ∧ b.sector = 0 then { b with phase := (b.phase + 1) % 16, arrive := b.expect } else b

/-- The word's result register, in the lanes of the mask, is the number. -/
def Machine.resultIs (m : Machine) (s : State) (w : W) (slots : List Nat) (v : Nat) : Prop :=
  ∀ g, Map.get s.cur.groups w.gk = some g → ∃ h, Map.get m.groups w.gk = some h ∧
    h.regs = (g.writeResult slots w.mask (fun _ => TWord.of (BitVec.ofNat 32 v)) 2).regs

/-- The state after an event that leaves the machine m. -/
def State.becomes (s : State) (m : Machine) : State := { s with cur := m }

/-- DRAM lists its bytes in canonical form, now and in the machine that a chain reads. -/
def State.canonical (s : State) : Prop := s.cur.mem.dram.wf = true ∧ ∀ m, s.pre = some m → m.mem.dram.wf = true

/-- Group gk of m, after an event, is one of which P holds. -/
def Machine.groupHas (m : Machine) (gk : Nat) (P : Group → Prop) : Prop := ∃ g, Map.get m.groups gk = some g ∧ P g

/-- The device answers owners' requests: it is READY, the owner exists and a port of it is up with its
channel open, no life-cycle change is in progress (R21, R400). -/
def Machine.serves (m : Machine) (o : Nat) : Prop :=
  m.bring = .ready ∧ o ∈ m.owners ∧ m.fuses.change = none ∧ m.reaches o = true

/-- Queue pair qp of an owner takes a message on a port: READY, the channel open, the port up (R399, R404). -/
def Machine.listens (m : Machine) (owner port qp : Nat) (use : QpUse) : Prop :=
  m.bring = .ready ∧ m.portLost.contains port = false ∧ Map.get m.qps qp = some { owner := owner, port := port, use := use } ∧
  ∃ c, Map.get m.chans (chanKey owner port) = some c ∧ c.closed = false

/-- The machine with one more answer on the management port. -/
def Machine.says (m : Machine) (x : MgmtMsg) : Machine := { m with mgmtOut := m.mgmtOut ++ [x] }

/-- The machine as a full reset leaves it, with fuses f; what went out of the management port, the count of the network's
free answers (log 7) and the placements that the part keeps for its logs (log 50) are kept. -/
def Machine.restarted (m : Machine) (f : Fuses) : Machine :=
  { Machine.afterReset f with mgmtOut := m.mgmtOut, netCount := m.netCount, placements := m.placements }

/-- Words of a chain are executed at their positions, each by exec, until one ends the issue. -/
def wordsRun : List (Instr × Nat) → State → State → Prop
  | [], s, t => t = s
  | (i, p) :: r, s, t => ∃ u, exec i (s.atWord p) = .next u ∧ if u.issue = none then t = u else wordsRun r u t

/-- The state a chain ends in: an atomic or an HST beside other words performs only when a pass without it has found no trap, and
an HST acts after a word that reads memory (R90). -/
def chainRun (s v : State) : Prop :=
  ∃ is, s.issue = some is ∧
    let ws := is.wordList
    let real := ∃ t, wordsRun (actOrder ws) (s.withDry false) t ∧ v = finishChain t
    if 1 < ws.length ∧ ws.any (fun e => checkedFirst e.1) = true then
      ∃ d, wordsRun ws (s.withDry true) d ∧ (if d.issue = none then v = d else real)
    else real

/-- Taking the next event with the machine c ends in v: an event that issues nothing lets strands arrive and merge and caches make
room (R17, R184, R185); ISSUE_SELECT that issues a chain runs it. -/
def State.meets (s : State) (c : Machine) (v : State) : Prop :=
  let i := s.nextInput.1
  ∃ t, exec i.event { s with cur := c, input := i.arg, agenda := s.nextInput.2 } = .next t ∧
    ((t.issue = none ∧ v = if i.event = .issueSelect then t else { t with cur := t.cur.settleAll.clearHeld.makeRoom }) ∨
      chainRun t v)

/-! ### What the matrix engine computes (R302, R304 to R309) -/

/-- Byte k of a row of words. -/
def byteOfRow (ws : List TWord) (k : Nat) : Nat := (byteAt (wordAt ws (k / 4)).data (k % 4)).toNat

/-- Element k of a row of bytes, signed for FMT 11 (R302). -/
def matInt (fmt : Nat) (ws : List TWord) (k : Nat) : Int :=
  let b := byteOfRow ws k
  if fmt = 11 ∧ 128 ≤ b then (b : Int) - 256 else b

/-- Element k of a row of half words, bytes or 4-bit codes, exact; a Q4 element through the record of its block (R302, R304, R307). -/
def matNum (fmt : Nat) (ftz : Bool) (ws sc : List TWord) (k : Nat) : Num :=
  if modeOf fmt = some .half then elemNum ((codeFmt fmt).input ftz (byteOfRow ws (2 * k) + 256 * byteOfRow ws (2 * k + 1)))
  else if modeOf fmt = some .q4 then
    let b0 := byteOfRow sc (2 * (k / 32))
    let b1 := byteOfRow sc (2 * (k / 32) + 1)
    if b1 = 128 then .fin false 0 0
    else q4Num (qtypeOf (b0 / 64)) (if b1 < 128 then (b1 : Int) else (b1 : Int) - 256) (byteOfRow ws (k / 2) / 16 ^ (k % 2) % 16)
  else elemNum ((codeFmt fmt).input ftz (byteOfRow ws k))

/-- How many elements a row of 128 bytes holds (R302). -/
def matCount (cfg : Word) : Nat :=
  match mcMode cfg with
  | .half => 64
  | .q4 => 256
  | _ => 128

/-- A row or column that makes the words it reaches poison: a word that is poison or fails verification, or a malformed block (R308). -/
def matBad (fmt : Nat) (ws sc : List TWord) : Prop :=
  (ws.any fun t => !t.good) = true ∨
    modeOf fmt = some .q4 ∧ ((sc.any fun t => !t.good) = true ∨ ∃ j, j < 8 ∧ byteOfRow sc (2 * j) % 64 ≠ 0)

/-- The exact sums of the products of a row and a column (R306, R307). -/
def matIntSum (cfg : Word) (a b : List TWord) : Int :=
  ((List.range 128).map fun k => matInt (mcA cfg) a k * matInt (mcB cfg) b k).sum
def matNumSum (cfg : Word) (a sa b sb : List TWord) : Num :=
  (List.range (matCount cfg)).foldl (fun s k => Num.add .rn s
    (Num.mul (matNum (mcA cfg) (mcFtz cfg) a sa k) (matNum (mcB cfg) (mcFtz cfg) b sb k))) (.fin true 0 0)

/-- A float accumulation of an old word: the new data and the flags (R307). -/
def matFloat (cfg : Word) (x : TWord) (a sa b sb : List TWord) : Nat × FFlags :=
  fmF32.round (mcRm cfg) (mcFtz cfg) false (Num.add (mcRm cfg) (fmF32.decode x.data.toNat) (matNumSum cfg a sa b sb))

/-- The words of column n of a B slot, and its scale words in the slot after it (R304, R313). -/
def slotWord (c : Core) (s i : Nat) : TWord := Map.getD (Map.getD c.bslots s { words := [], tag := 0 }).words i TWord.zero
def colWords (c : Core) (s n : Nat) : List TWord := (List.range 32).map fun i => slotWord c s (32 * n + i)
def colScales (c : Core) (s n : Nat) : List TWord := (List.range 4).map fun i => slotWord c (s + 1) (32 * n + i)

/-- One accumulator word x becomes y, fed a row and a column: poison of a bad one, or of a poisoned x; else the sum, in integer mode
modulo 2^32 or clamped, whose residue matches when that of x did; or the rounded float sum, whose residue matches when that of x did
(R306 to R309). -/
def accumulates (cfg : Word) (sat : Bool) (x y : TWord) (a sa b sb : List TWord) : Prop :=
  let v := x.data.toInt + matIntSum cfg a b
  (matBad (mcA cfg) a sa ∨ matBad (mcB cfg) b sb ∨ x.poisoned = true → y = x.poison) ∧
  (¬ matBad (mcA cfg) a sa → ¬ matBad (mcB cfg) b sb → x.poisoned = false →
    (mcMode cfg = .int → y.data = (if sat then clampS v else BitVec.ofInt 32 v) ∧ (x.good = true → y.good = true) ∧
      (sat = false → y.good = x.good)) ∧
    (mcMode cfg ≠ .int → y.data = BitVec.ofNat 32 (matFloat cfg x a sa b sb).1 ∧ (x.good = true → y.good = true)))

/-- One product of an MMA or MMAG leaves n of the core c: its tile tagged, every fed row accumulated, the rows of a bad survival word
poisoned, every other word as it was; TFLAG takes the flags of the float sums (R305 to R309, R314). -/
def partGives (cfg : Word) (sat : Bool) (p : MatPart) (c n : Core) : Prop :=
  let x := tileAt c p.tile
  let y := tileAt n p.tile
  let lost := p.hd ≠ 0 ∧ p.surv.good = false
  let fed := fun (f i j : Nat) => p.fed[f]? = some i ∧ j < 128
  let flags := fun (f i j : Nat) => tflagOf (matFloat cfg (x.word (p.m0 + i) j) (p.a.getD f []) (p.scales.getD f [])
    (colWords c p.slot j) (colScales c p.slot j)).2
  n = { c with tiles := n.tiles } ∧ (∀ t, t ≠ p.tile → tileAt n t = tileAt c t) ∧ (p.rows = 0 → n = c) ∧
  (p.rows ≠ 0 → y.tag = tagOf (mcFmt cfg) p.hd ∧
    (∀ r j, j < 128 → (¬ ∃ i, i < p.rows ∧ r = p.m0 + i ∧ (lost ∨ i ∈ p.fed)) → y.word r j = x.word r j) ∧
    (∀ i j, lost → i < p.rows → j < 128 → y.word (p.m0 + i) j = (x.word (p.m0 + i) j).poison) ∧
    (∀ f i j, fed f i j → accumulates cfg sat (x.word (p.m0 + i) j) (y.word (p.m0 + i) j) (p.a.getD f []) (p.scales.getD f [])
      (colWords c p.slot j) (colScales c p.slot j)) ∧
    (∀ k, y.tflag.getLsbD k = true ↔ x.tflag.getLsbD k = true ∨ mcMode cfg ≠ .int ∧ ∃ f i j, fed f i j ∧
      (x.word (p.m0 + i) j).poisoned = false ∧ ¬ matBad (mcA cfg) (p.a.getD f []) (p.scales.getD f []) ∧
      ¬ matBad (mcB cfg) (colWords c p.slot j) (colScales c p.slot j) ∧ (flags f i j).getLsbD k = true))

/-- The products of an entry, one after another (R310). -/
def partsGive (cfg : Word) (sat : Bool) : List MatPart → Core → Core → Prop
  | [], c, n => n = c
  | p :: r, c, n => ∃ x, partGives cfg sat p c x ∧ partsGive cfg sat r x n

/-! ### What the quay engines write (R357 to R360) -/

/-- A part of a word of a line: the word's address, its first byte, how many bytes. -/
abbrev Piece := Nat × Nat × Nat

/-- Where a part of a word stands in the line that begins at an address. -/
def pieceOff (start : Nat) (e : Piece) : Nat := e.1 + e.2.1 - start

/-- The words that the parts of a unit are given, one part after another: each from the source words that are read for it, and what
reading them leaves behind. -/
def Machine.unitGives {α : Type} (k : Nat) (c : Cmd) (asks : α → List (Layout × Nat)) (gives : α → List TWord → List TWord)
    (after : α → List TWord → Machine → Machine) : List α → Machine → Machine → List TWord → Prop
  | [], m, n, out => n = m ∧ out = []
  | e :: r, m, n, out => ∃ ts x rest, m.quayWords k c (asks e) = .ok ts x ∧ out = gives e ts ++ rest ∧
      Machine.unitGives k c asks gives after r (after e ts x) n rest

/-- A source word mismatches its residue: the engine's check fails (R360). -/
def mismatch (t : TWord) : Bool := !t.good && !t.poisoned

/-- The source words of a part of a gathered line: those that hold its bytes, but no padding of a Q4 line (R357). -/
def gatherAsks (dst src : Layout) (row : Bool) (from_ start : Nat) (e : Piece) : List (Layout × Nat) :=
  let q4 := dst.fmt = 10 ∧ row = true
  let off := pieceOff start e
  let lo := from_ + off
  let hi := lo + (if q4 then min e.2.2 (dst.codeBytes - off) else e.2.2) - 1
  if q4 ∧ dst.codeBytes ≤ off then [] else if hi / 4 = lo / 4 then [(src, lo)] else [(src, lo), (src, hi)]

/-- The word of a part of a gathered line: the source word itself, residue and poison unchanged; where the lines differ in their place
in a word, the bytes of its source words (R65, R66, R357). -/
def gatherGives (from_ start : Nat) (e : Piece) (ts : List TWord) : List TWord :=
  let lo := from_ + pieceOff start e
  match ts with
  | [] => [TWord.zero]
  | t :: r => [if lo % 4 = e.2.1 then t else shiftedWord e.2.1 e.2.2 (fun n => if n = lo / 4 then t else r.headD t) lo]

/-- One step of QRED: ADD, MIN, MAX, and the minimum and maximum of R41 that take a number before a NaN (R358). -/
def redOp (op rnd fmt : Nat) (a b : Word) : Word :=
  if op = 0 then
    if fmt = 3 then BitVec.ofNat 32 (fmF32.round (rmOfCode rnd) false false
      (Num.add (rmOfCode rnd) (fmF32.input false a.toNat) (fmF32.input false b.toNat))).1
    else a + b
  else if fmt = 3 then BitVec.ofNat 32 (fmF32.minMax false (decide (op % 2 = 1)) (decide (3 ≤ op)) a.toNat b.toNat).1
  else
    let less := if fmt = 1 then decide (a.toInt < b.toInt) else decide (a.toNat < b.toNat)
    if op % 2 = 1 then (if less then a else b) else (if less then b else a)

/-- The word of an element of QRED: poison when a value of it is bad, else the fold of the values (R358, R360). -/
def redGives (op rnd fmt : Nat) (ts : List TWord) : TWord :=
  match ts with
  | [] => TWord.zero
  | t :: r => if (t :: r).any fun t => !t.good then poisonWord else TWord.of ((r.map (·.data)).foldl (redOp op rnd fmt) t.data)

/-- The elements of a part of a line of whole bytes. -/
def pieceElems (dst : Layout) (start : Nat) (e : Piece) : List Nat :=
  let size := max 1 (dst.elembits / 8)
  (List.range (e.2.2 / size)).map (pieceOff start e / size + ·)

/-- What an element of QCVT is converted to, and whether it counts; none is poison: by CVT's conversion, or a code of a Q4 block through
its scale (R46, R149, R359). -/
def cvtResults (src dst : Layout) (i rnd : Nat) (sat : Bool) (sc : Nat → QScale) (js : List Nat) (ts : List TWord) :
    List (Option (Nat × Bool)) :=
  (js.zip ts).map fun x => cvtOne src dst rnd sat sc x.1 (elemBitsAt src x.1 (src.addr (src.at_ i x.1)) x.2)

/-- The word of a part of a converted line: poison when a source word is bad or an element has no value, else its elements side by
side (R359, R360). -/
def cvtGives (dst : Layout) (e : Piece) (outs : List (Option (Nat × Bool))) (ts : List TWord) : TWord :=
  let size := max 1 (dst.elembits / 8)
  if (ts.any fun t => !t.good) || outs.any Option.isNone then poisonWord
  else TWord.of (BitVec.ofNat 32 ((outs.zipIdx).map fun o => ((o.1.map (·.1)).getD 0) * 256 ^ (e.2.1 + size * o.2)).sum)

/-- SATCNT rises by the results that count (R360). -/
def Machine.counts (m : Machine) (k n : Nat) : Machine := m.updCmd k fun c => { c with count := min (2 ^ 32 - 1) (c.count + n) }

/-- The codes of block b of a line that goes into Q4, each with whether it counts: a null block's are zero, and codes past the line
are 0 (R48, R359). -/
def q4Codes (ty : QType) (src : Layout) (i b : Nat) (s : Int) (ts : List TWord) : List (Nat × Bool) :=
  let cs := (ts.zipIdx).map fun x =>
    let j := 32 * b + x.2
    let v := elemBitsAt src j (src.addr (src.at_ i j)) x.1
    if s = -128 then (0, false) else quantise ty s (match (cvtFmt src.fmt).getD (.flt fmF32) with
      | .flt f => f.input false v
      | .int f => Num.ofInt (f.read v) 0 false)
  (List.range 32).map fun n => cs.getD n (0, false)

/-- The four code words of a block: poison when its exponent or an element of it is bad (R359). -/
def q4Gives (bad : Bool) (cs : List (Nat × Bool)) : List TWord :=
  (List.range 4).map fun n => if bad then poisonWord
    else TWord.of (BitVec.ofNat 32 ((List.range 8).map fun i => (cs.getD (8 * n + i) (0, false)).1 % 16 * 16 ^ i).sum)

/-- A part of a line of words: the word in its place, or the bytes of the two that it takes. -/
def pieceWord (start : Nat) (e : Piece) (word : Nat → TWord) : TWord :=
  if pieceOff start e % 4 = e.2.1 then word (pieceOff start e / 4) else shiftedWord e.2.1 e.2.2 word (pieceOff start e)

/-- The addresses are at home at these physical addresses, found one after another by a core of a context. -/
def Machine.pagesAt (core ctx source : Nat) : List (Nat × Nat) → Machine → Machine → Prop
  | [], m, n => n = m
  | (va, pa) :: r, m, n => ∃ p v, m.place core ctx va 1 .read source = (p, v) ∧ p.homePa = some pa ∧
      Machine.pagesAt core ctx source r v n

/-- Where the pages of a range of n bytes at base begin in it: at base, then at each multiple of 65,536 (R265). -/
def rangeStarts (base n : Nat) : List Nat :=
  (List.range ((base + n - 1) / 65536 + 1 - base / 65536)).map fun i => if i = 0 then base else (base / 65536 + i) * 65536

/-- The strands that a WAITV re-read looks at (R264). -/
def Machine.waiting (m : Machine) (arg : Arg) : List (Nat × Entry) :=
  m.groups.flatMap fun e => (e.2.stack.filter fun x =>
    ((x.park.map (·.why)) == some .waitv) && argHits arg e.1 x.sid && m.groupRuns e.2).map fun x => (e.1, x)

end Sys2Proof.Machine
end

