-- ==== Sys2Proof/Certificates/Slice0/Obligations.lean ====
section
/-! DEFINITION. The statements about the model: what each instruction and event does and where it completes, what a step
is, how words decode, what traps save, what stays unchanged. -/

open Sys2Proof Sys2Proof.Machine

/-! ### Steps and reset -/

/-- After a device reset bring-up has not begun, every compute die is in reset, nothing volatile is left, memory lists no
byte, and no step is half done (R27, R243, R430). What the fuses hold is the model's choice (log 3). -/
def Obligations.ResetState : Prop :=
  State.reset.between ∧ State.reset.agenda = [] ∧ State.reset.cur = Machine.afterReset Fuses.blank ∧
  ∀ f : Fuses,
    let m := Machine.afterReset f
    m.bring = .off ∧ m.fuses = f ∧ m.domains = [] ∧ m.dieReset = List.range 12 ∧ m.ctxs = [] ∧ m.groups = [] ∧
    m.mem = Mem.empty ∧ m.cores = [] ∧ m.berths = [] ∧ m.chans = [] ∧ m.mem.dram.wf = true

/-- Between two steps no chain is half executed, and the machine never stops: from every such state a step answers a next
state, and that is again between steps (R90). -/
def Obligations.StepKeepsBetween : Prop :=
  ∀ s : State, s.between → s.safe ∧ ∀ t, step s = .next t → t.between

/-- DRAM keeps its canonical form: from every state whose memory lists its bytes with rising addresses and none that reads as
an unlisted one does, every step leaves a state of which the same is true. The form is the model's own. -/
def Obligations.MemoryStaysCanonical : Prop :=
  ∀ s t : State, s.canonical → step s = .next t → t.canonical

/-- A word of a chain answers a next state that goes on with the next word, or ends the issue; an event answers one in which
only the machine, and for ISSUE_SELECT the issue, changed. No step is refused and none faults. -/
def Obligations.ExecAnswers : Prop :=
  ∀ (i : Instr) (s : State),
    ((s.word i).isSome = true → i.head?.isSome = true → ∃ t, exec i s = .next t ∧
      ((t.issue = s.nextWord ∧ t.pre = s.pre) ∨
        (t.issue = none ∧ t.pre = none))) ∧
    (i.head? = none → i ≠ .issueSelect → ∃ m, exec i s = .next { s with cur := m })

/-- A step takes the next event: the head of the agenda, else an internal event that is due, else the issue of a chain. The chain
it issues runs, each word by exec in order, an atomic beside other words only when all of them pass their checks. Before an issue
strands that may be ready again merge, unless the chain that would issue then proves to be held (R81, R88, R90, R184, R185). The order
agenda, due event, issue is the model's choice (log 1), as are one clk and at most one chain a step (log 2) and the room that caches make
at the end of a step (log 76); an event of a domain in reset is passed over. -/
def Obligations.StepRunsWords : Prop :=
  ∀ s : State, s.issue = none →
    let merged := s.cur.settleAll
    let merges := s.nextInput.1.event = .issueSelect ∧ merged.groups ≠ s.cur.groups
    (¬ merges → ∀ v, s.meets s.cur v → step s = .next v) ∧
    (merges → ∀ u, s.meets merged u →
      (u.cur.heldCount ≤ merged.heldCount → step s = .next u) ∧
      (merged.heldCount < u.cur.heldCount → ∀ v, s.meets s.cur v → step s = .next v)) ∧
    (s.agenda = [] → s.due = none → s.nextInput = ({ event := .issueSelect, arg := .none }, []))

/-- A strand whose PC names the start of an instruction in a line it has fetched gets the chain of that one instruction,
when the words there decode to an unchained instruction that its group may execute (R82 to R88, R118). -/
def Obligations.FrontDecodes : Prop :=
  ∀ (m : Machine) (g : Group) (e : Entry) (l : List Word) (m' : Machine) (i : Instr) (k : Nat),
    e.park = none → m.fetchLine g.core g.ctx e.pc = (.line l, m') →
    lineKind l = 0 → (l.getD 1 0).toNat < 2 ^ 10 → e.entered = false →
    let n := (e.pc % 128 - 8) / 4
    lineStart l n = true → decodeAt l n = some (i, false, k) →
    wordTrap g (m'.ctxPriv g) (m'.hasBank g) (i, bodyAddr (e.pc / 128 * 128) n) = none →
    ∃ f, m.front g e = (.chain f, m') ∧ f.words = [(i, bodyAddr (e.pc / 128 * 128) n)] ∧
      f.next = nextAddr l (e.pc / 128 * 128) (n + 1 + k)

/-! ### Encoding -/

/-- Words that the spec writes out decode to the instructions it writes them for: one or more of each family, the fields of
each as its entry lays them out. -/
def Obligations.WorkedWords : Prop :=
  decodeWord 0x8201850C [] = .ok (.add ⟨true, .v 1, true, .op (.v 2), true, .op (.v 3)⟩) ∧
  decodeWord 0x163FFFFB [] = .ok (.addi ⟨false, 3, 0xFFFFB⟩) ∧
  decodeWord 0x1281040F [] = .ok (.bmix ⟨false, 0xAC, .v 1, .v 2, .v 3⟩) ∧
  decodeWord 0x4080DF80 [] = .ok (.plop ⟨false, 0, 6, 7, 7⟩) ∧
  decodeWord 0x20848BFC [0x40000000] = .ok (.fmul ⟨false, .v 4, true, .op (.v 5), true, .op (.k 0x40000000)⟩) ∧
  decodeWord 0x30382107 [] = .ok (.fmaRz ⟨false, .v 7, .v 1, .v 2, .v 3, true⟩) ∧
  decodeWord 0x21528914 [] = .ok (.fcmp ⟨false, .lt, 2, true, .op (.v 4), true, .op (.v 5)⟩) ∧
  decodeWord 0x36018005 [] = .ok (.fmak ⟨false, .fpc, .v 1, true, .v 0, 5⟩) ∧
  decodeWord 0x59185520 [] = .ok (.sts ⟨false, .q, .v 24, .v 21, 4, 2, false, 0⟩) ∧
  decodeWord 0x64061520 [] = .ok (.atomsAdd ⟨false, .v 6, .v 5, 4, 2, false, .group⟩) ∧
  decodeWord 0x6C4C0804 [] = .ok (.brc ⟨false, 1, true, .near 4, 4⟩) ∧
  decodeWord 0x6C3BFE00 [] = .ok (.bra ⟨false, .near 0x1FF⟩) ∧
  decodeWord 0x71400000 [] = .ok (.tail ⟨false⟩) ∧
  decodeWord 0x6B821C84 [] = .ok (.cwait ⟨false, 2, .v 7, 2⟩) ∧
  decodeWord 0x7C204632 [] = .ok (.enqL ⟨false, 2, 3, 3, 1⟩) ∧
  decodeWord 0x7E024100 [] = .ok (.rettResume ⟨false, 4, 1⟩)

/-- Decoding what the encoder gives for a well-formed instruction gives the instruction back, whatever words follow: every
operand at every value its encoding admits (R82, R83). -/
def Obligations.DecodeEncode : Prop :=
  ∀ i : Instr, i.wellFormed = true → i.head?.isSome = true →
    ∃ w, encode i = w :: i.lits ∧ ∀ rest, decodeWord w (i.lits ++ rest) = .ok i

/-- A word decodes only to a well-formed instruction whose encoding is that word with the literals that follow it: a reserved
bit that is set, or an unassigned word, is refused (R82, R101). -/
def Obligations.DecodeExact : Prop :=
  ∀ (w : Word) (lits : List Word) (i : Instr), decodeWord w lits = .ok i →
    i.wellFormed = true ∧ encode i = w :: i.lits ∧ lits.take i.lits.length = i.lits

/-! ### Integer words -/

/-- Every typed integer instruction with one result completes: for sources of the formats it takes in one domain (0 where it
does not keep the domain), full and sound, it writes the result of its entry with the residue of its data and the tag of
R121, to D and to the last-result file, and nothing else changes (R121 to R127, R137). -/
def Obligations.IntegerResults : Prop :=
  ∀ (i : Instr) (o : IntOp) (s : State) (w : W) (d : Nat),
    intOp i = some o → s.word i = some w → w.ready o.ks = true → w.agree o.ks o.ok d = true → (o.linear = true ∨ d = 0) →
    d < 16 →
    exec i s = .next (s.doneGroup w fun g =>
      g.writeResult o.slots w.mask (fun l => TWord.of (o.value (w.dat 0 l) (w.dat 1 l) (w.dat 2 l)))
        (tagOf (o.fmt.getD (familyOf (w.tag 0))) d))

/-- ADDC and SUBB write the low 32 bits of the sum with the carry, or of the difference with the borrow, and the carry or
borrow to P6 (R123). -/
def Obligations.CarryResults : Prop :=
  ∀ (f : RR) (s : State) (w : W),
    w.ready [0, 1] = true → w.agree [0, 1] (fun _ t => inFamily t) 0 = true →
    (s.word (.addc f) = some w → exec (.addc f) s = .next (s.doneGroup w fun g =>
      (g.writeResult (dstSlots f.d) w.mask
        (fun l => TWord.of (w.dat 0 l + w.dat 1 l + if w.pred 6 l then 1 else 0)) (tagOf (familyOf (w.tag 0)) 0)).writePred 6 w.mask
        fun l => decide (2 ^ 32 ≤ (w.dat 0 l).toNat + (w.dat 1 l).toNat + (w.pred 6 l).toNat))) ∧
    (s.word (.subb f) = some w → exec (.subb f) s = .next (s.doneGroup w fun g =>
      (g.writeResult (dstSlots f.d) w.mask
        (fun l => TWord.of (w.dat 0 l - w.dat 1 l - if w.pred 6 l then 1 else 0)) (tagOf (familyOf (w.tag 0)) 0)).writePred 6 w.mask
        fun l => decide ((w.dat 0 l).toNat < (w.dat 1 l).toNat + (w.pred 6 l).toNat)))

/-- Every logical, bit, shift, field and select instruction completes with the result of its entry, whatever the formats of
its sources (R110, R128 to R131, R133, R137). -/
def Obligations.PlainResults : Prop :=
  ∀ (i : Instr) (s : State) (w : W) (o : PlainOp),
    s.word i = some w → plainOp w i = some o → w.ready o.ks = true →
    exec i s = .next (s.doneGroup w fun g =>
      g.writeResult o.slots w.mask (fun l => TWord.of (o.value l (w.dat 0 l) (w.dat 1 l) (w.dat 2 l))) o.tag)

/-- MIN and MAX, and their unsigned forms, write the lesser or the greater of A and B; with equal values A (R127). -/
def Obligations.MinMaxResults : Prop :=
  ∀ (s : State) (w : W), w.ready [0, 1] = true → w.agree [0, 1] (fun _ t => inFamily t) 0 = true →
    (∀ f, s.word (.min f) = some w → exec (.min f) s = .next (s.doneGroup w fun g => g.writeResult (dstSlots f.d) w.mask
      (fun l => TWord.of (if (w.dat 1 l).toInt < (w.dat 0 l).toInt then w.dat 1 l else w.dat 0 l)) (tagOf 1 0))) ∧
    (∀ f, s.word (.max f) = some w → exec (.max f) s = .next (s.doneGroup w fun g => g.writeResult (dstSlots f.d) w.mask
      (fun l => TWord.of (if (w.dat 0 l).toInt < (w.dat 1 l).toInt then w.dat 1 l else w.dat 0 l)) (tagOf 1 0))) ∧
    (∀ f, s.word (.minU f) = some w → exec (.minU f) s = .next (s.doneGroup w fun g => g.writeResult (dstSlots f.d) w.mask
      (fun l => TWord.of (if (w.dat 1 l).toNat < (w.dat 0 l).toNat then w.dat 1 l else w.dat 0 l)) (tagOf 2 0))) ∧
    (∀ f, s.word (.maxU f) = some w → exec (.maxU f) s = .next (s.doneGroup w fun g => g.writeResult (dstSlots f.d) w.mask
      (fun l => TWord.of (if (w.dat 0 l).toNat < (w.dat 1 l).toNat then w.dat 1 l else w.dat 0 l)) (tagOf 2 0)))

/-- POPC, CLZ and BREV write the number of 1 bits, the number of leading zeros (32 for 0), and A with bit i moved to bit
31 − i (R128). -/
def Obligations.BitCounts : Prop :=
  ∀ (f : R1) (s : State) (w : W), w.ready [0] = true →
    (s.word (.popc f) = some w → ∃ v : Nat → Word, (∀ l, (v l).toNat = ((List.range 32).filter fun i => (w.dat 0 l).getLsbD i).length) ∧
      exec (.popc f) s = .next (s.doneGroup w fun g => g.writeResult (dstSlots f.d) w.mask (fun l => TWord.of (v l)) (tagOf 1 0))) ∧
    (s.word (.clz f) = some w → ∃ v : Nat → Word, (∀ l, (v l).toNat ≤ 32 ∧ (w.dat 0 l).toNat < 2 ^ (32 - (v l).toNat) ∧
        ((v l).toNat < 32 → 2 ^ (31 - (v l).toNat) ≤ (w.dat 0 l).toNat)) ∧
      exec (.clz f) s = .next (s.doneGroup w fun g => g.writeResult (dstSlots f.d) w.mask (fun l => TWord.of (v l)) (tagOf 1 0))) ∧
    (s.word (.brev f) = some w → ∃ v : Nat → Word, (∀ l i, i < 32 → (v l).getLsbD (31 - i) = (w.dat 0 l).getLsbD i) ∧
      exec (.brev f) s = .next (s.doneGroup w fun g => g.writeResult (dstSlots f.d) w.mask (fun l => TWord.of (v l)) (w.tagA [0])))

/-! ### Moves, votes, predicates -/

/-- Every class M instruction completes: it moves words with their residues, poison included, without a check; the word forms of
POLL complete with the count, the rank or the map word of the voters that vote 1, tagged N32/0 (R64, R135 to R137, R153 to
R156, R158). -/
def Obligations.MoveResults : Prop :=
  (∀ (i : Instr) (o : MoveOp) (s : State) (w : W),
    s.word i = some w → moveOp w i = some o → w.quiet = true → w.brim = true →
    exec i s = .next (s.doneGroup w fun g => g.writeResult o.slots w.mask o.word o.tag)) ∧
  (∀ (i : Instr) (s : State) (w : W) (slots : List Nat) (v : Nat → Word),
    s.word i = some w → pollOp w i = some (slots, v) → w.quiet = true →
    exec i s = .next (s.doneGroup w fun g => g.writeResult slots w.mask (fun l => TWord.of (v l)) (tagOf 2 0)))

/-- CMP, PLOP, POLL.QUORUM, POLL.SAME and ELECT complete: they write their predicate in the lanes of the mask and nothing
else; the last-result file stays as it is (R132, R134, R156, R201). -/
def Obligations.PredicateResults : Prop :=
  ∀ (i : Instr) (s : State) (w : W) (o : PredOp),
    s.word i = some w → predOp w i = some o → w.ready o.ks = true → w.agree o.ks o.ok 0 = true →
    exec i s = .next (s.doneGroup w fun g => g.writePred o.p w.mask o.bit)

/-- SRD completes with the special register's value as an N32/0 word in every lane of the mask; reading CLOCKLO latches the
high word of CLOCK, reading any other changes no special register. TAGW writes a register's tag for the whole group and no data;
SWR writes the leader's word to a special register and keeps the fields marked RO, and with no leader nothing (R158 to R160,
R381). -/
def Obligations.SpecialRegisters : Prop :=
  (∀ (f : SrdF) (s : State) (w : W), s.word (.srd f) = some w → w.quiet = true →
    exec (.srd f) s = .next (s.doneGroup w fun g =>
      ((if f.s = .clocklo then { g with clockHi := BitVec.ofNat 32 (w.m0.clock / 2 ^ 32) } else g).writeResult (dstSlots f.d) w.mask
        (fun l => TWord.of (BitVec.ofNat 32 (sregNat w.m0 w.g l f.s))) (tagOf 2 0)))) ∧
  (∀ (f : TagwF) (s : State) (w : W), s.word (.tagw f) = some w →
    exec (.tagw f) s = .next (s.doneGroup w fun g =>
      { g with regs := g.regs.set f.d.code { g.reg f.d.code with tag := f.tag } })) ∧
  (∀ (f : SwrF) (s : State) (w : W), s.word (.swr f) = some w → w.filled = true → w.checkSrcs [0] = none →
    (w.leader = none → exec (.swr f) s = .next (s.advance s.cur)) ∧
    (∀ l, w.leader = some l → exec (.swr f) s = .next (s.doneGroup w fun g => g.writeSReg f.s (w.dat 0 l)))) ∧
  (∀ (g : Group) (v : Word),
    (g.writeSReg .fpc v).fpc = v &&& 0x1F7#32 ∧ (g.writeSReg .domctl v).domctl = v &&& 0xFFFF0001#32 ∧
    (g.writeSReg .evec v).evec = v ∧ (g.writeSReg .deadline v).deadline = v ∧
    (g.writeSReg .fpc v).regs = g.regs ∧ (g.writeSReg .evec v).fpc = g.fpc)

/-! ### Float words -/

/-- F32 addition, subtraction, multiplication, fused multiply-add, rounding to an integer, minimum and maximum complete: every
lane is computed exactly, rounded once in the mode of the form or of FPC, tagged F32, and the flags of the lanes that are no
helpers are ORed into FPC (R35 to R41, R138 to R144). -/
def Obligations.FloatArithmetic : Prop :=
  ∀ (i : Instr) (s : State) (w : W) (o : FloatOp) (d : Nat),
    s.word i = some w → arithOp w i = some o → w.ready o.ks = true → w.agree o.ks o.ok d = true → (o.linear = true ∨ d = 0) →
    d < 16 → exec i s = .next (s.doneGroup w (o.write w d))

/-- PFMA, PFMA.RN, PFMA.RZ, PFMA.RD, PFMA.RU, CVT and PACK complete: each element is computed and rounded by itself, and converts
as R42 and R149 say. FRCP, FRSQ, FSQRT, FEXP2, FLOG2, FSIN and FCOS complete with an F32 result: the special inputs of R146 give its
results and flags, a power of two its exact reciprocal, no input sets NX, and every other finite result that no flush makes zero lies
within the bound of R146; that such a value is free inside the bound, and the precision of the value it is measured from, are the model's
choice (log 7) (R143, R146, R148 to R150). -/
def Obligations.FloatPackedApprox : Prop :=
  (∀ (i : Instr) (s : State) (w : W) (o : FloatOp) (d : Nat), s.word i = some w → w.ready o.ks = true → d < 16 →
    (packedOp w i = some o → w.agree o.ks o.ok d = true → (o.linear = true ∨ d = 0) → exec i s = .next (s.doneGroup w (o.write w d))) ∧
    (approxOp w i = some o → w.agree o.ks o.ok 0 = true → exec i s = .next (s.doneGroup w (o.write w 0)))) ∧
  -- each form with the formats and domain of its entry
  (∀ (i : Instr) (f : RR) (rm : Rm) (s : State) (w : W),
    ((i = .pfma f ∧ rm = w.g.rm) ∨ (i = .pfmaRn f ∧ rm = .rn) ∨ (i = .pfmaRz f ∧ rm = .rz) ∨ (i = .pfmaRd f ∧ rm = .rd) ∨
      (i = .pfmaRu f ∧ rm = .ru)) → s.word i = some w → w.ready [0, 1, 2] = true → (w.pairFmt = 4 ∨ w.pairFmt = 5) →
    w.agree [0, 1, 2] (fun _ t => t == w.pairFmt || t == 0) 0 = true →
    let x := if w.pairFmt = 5 then fmB16 else fmF16
    let half := fun (k l j : Nat) => x.input w.g.ftz ((w.dat k l).toNat / 2 ^ (16 * j) % 2 ^ 16)
    let r := fun (l j : Nat) => x.round rm w.g.ftz false (Sys2Proof.Machine.Num.fma rm (half 0 l j) (half 1 l j) (half 2 l j))
    exec i s = .next (s.doneGroup w fun g =>
      (g.writeResult (dstSlots f.d) w.mask (fun l => TWord.of (BitVec.ofNat 32 ((r l 0).1 + 2 ^ 16 * (r l 1).1)))
        (tagOf w.pairFmt 0)).orFlags (w.flagsOf fun l => (r l 0).2 ||| (r l 1).2))) ∧
  (∀ (i : Instr) (f : R1) (fn : ApproxFn) (s : State) (w : W),
    (i, fn) ∈ [(.frcp f, .rcp), (.frsq f, .rsq), (.fsqrt f, .sqrt), (.fexp2 f, .exp2), (.flog2 f, .log2), (.fsin f, .sin), (.fcos f, .cos)] →
    s.word i = some w → w.ready [0] = true → w.agree [0] (fun _ t => t == 3 || t == 0) 0 = true →
    ∃ r : Nat → Nat × FFlags, (∀ l, (r l).2 &&& fNX = 0 ∧ ∀ x, approxSpecial fn w.g.ftz (w.dat 0 l) = some x → r l = x) ∧
      exec i s = .next (s.doneGroup w fun g =>
        (g.writeResult (dstSlots f.d) w.mask (fun l => TWord.of (BitVec.ofNat 32 (r l).1)) (tagOf 3 0)).orFlags
          (w.flagsOf fun l => (r l).2))) ∧
  -- the reciprocal of a power of two with a normal result is exact
  (∀ (ftz : Bool) (e : Nat), 1 ≤ e → e ≤ 253 →
    approxF32 .rcp ftz (BitVec.ofNat 32 (e * 2 ^ 23)) = ((254 - e) * 2 ^ 23, 0)) ∧
  -- the bounds
  (∀ (fn : ApproxFn) (ftz : Bool) (w : Word) (sg : Bool) (m : Nat) (e : Int), fmF32.input ftz w.toNat = .fin sg m e →
    approxSpecial fn ftz w = none →
    let r := (approxF32 fn ftz w).1
    let c := (approxTarget fn sg m e).1
    let b := approxBound fn (.fin sg m e) c
    r % 2 ^ 31 < 0x7F800000 → (ftz = false ∨ 2 ^ 23 ≤ r % 2 ^ 31) → within (fmF32.decode r) c b.1 b.2 = true) ∧
  (∀ (fa fb : Fmt) (a b : ElFmt) (rm : Rm) (ftz sat : Bool) (v : Nat), elFmt fa = some a → elFmt fb = some b → v < 2 ^ 32 →
    (v < 2 ^ a.width → converted a b rm ftz sat v (convEl a b rm ftz sat v)) ∧
    let n := min (32 / a.width) (32 / b.width)
    (∀ j, j < n → elAt (convWord a b rm ftz sat v).1 b.width j = (convEl a b rm ftz sat (elAt v a.width j)).1) ∧
    (convWord a b rm ftz sat v).1 < 2 ^ (n * b.width))

/-- FCMP completes: it writes to its predicate whether the condition holds between the two words: with a NaN NE and UN alone hold,
−0 equals +0, and the others go by the order of the values; a signalling NaN, and nothing else, raises NV (R145). -/
def Obligations.FloatCompare : Prop :=
  ∀ (f : FcmpF) (s : State) (w : W), s.word (.fcmp f) = some w → w.ready [0, 1] = true →
    w.agree [0, 1] (fun _ t => t == 3 || t == 0) 0 = true →
    exec (.fcmp f) s = .next (s.doneGroup w fun g =>
      (g.writePred f.p w.mask fun l => holdsBetween f.cond w.g.ftz (w.dat 0 l) (w.dat 1 l)).orFlags
        (w.flagsOf fun l => if f32Sig (w.dat 0 l) || f32Sig (w.dat 1 l) then fNV else 0))

/-- UNPK completes: element j of A goes to register D + j with the format of its kind and the domain of A (R150). -/
def Obligations.UnpackResults : Prop :=
  ∀ (f : UnpkF) (s : State) (w : W) (a : ElFmt) (d : Nat), s.word (.unpk f) = some w → elFmt f.fr = some a →
    w.ready [0] = true → w.agree [0] (fun _ t => t == f.fr.code || t == 0) d = true → d < 16 →
    let b := packSource a
    let fmt := match b with
      | .flt _ => 3
      | .int x => if x.signed then 1 else 2
    let r := fun (j l : Nat) => convEl a b w.g.rm w.g.ftz false (elAt (w.dat 0 l).toNat a.width j)
    let n := 32 / a.width
    exec (.unpk f) s = .next (s.doneGroup w fun g =>
      ((List.range n).foldl (fun g j => g.writeResult [f.d.val + j] w.mask
        (fun l => TWord.of (BitVec.ofNat 32 (r j l).1)) (tagOf fmt d)) g).orFlags
        (w.flagsOf fun l => orAll ((List.range n).map fun j => (r j l).2)))

/-- CVTQ.Q and CVTQ.X complete in a strand whose quads are whole: .Q quantises the 32 elements of each quad by R48, each to a
nearest code, and writes the codes and, in the first lane of a quad, the X1 word; .X expands codes to eight F32 registers. That X1
follows D in the last-result file is the model's choice (log 77) (R48, R151, R152). -/
def Obligations.BlockConversions : Prop :=
  (∀ (f : CvtqQF) (s : State) (w : W), s.word (.cvtqQ f) = some w → w.ready (List.range 9) = true →
    w.agree (List.range 8) (fun _ t => t == 3 || t == 0) 0 = true → w.quadMask = none →
    let blk := fun (q : Nat) => quantBlock f.ty (w.dat 8 (4 * q)) ((List.range 32).map fun e =>
      fmF32.decode (w.dat (e % 8) (4 * q + e / 8)).toNat)
    exec (.cvtqQ f) s = .next (s.doneGroup w fun g =>
      (g.writeResult [f.d.code] w.mask
        (fun l => TWord.of (BitVec.ofNat 32 (packEls 4 (((blk (l / 4)).1.drop (8 * (l % 4))).take 8)))) (tagOf 10 0)).writeResult
        [57] (w.mask &&& maskWhere 128 fun l => l % 4 == 0) (fun l => TWord.of (blk (l / 4)).2) 0)) ∧
  (∀ (f : CvtqXF) (s : State) (w : W), s.word (.cvtqX f) = some w → w.ready [0, 1] = true →
    w.agree [0] (fun _ t => t == 10 || t == 0) 0 = true → w.quadMask = none →
    let r := fun (i l : Nat) =>
      let e := sext 8 ((w.dat 1 (4 * (l / 4))).toNat % 256)
      if e = -128 then (0, (0 : FFlags)) else w.toF32 w.g.rm (q4Num f.ty e (elAt (w.dat 0 l).toNat 4 i))
    exec (.cvtqX f) s = .next (s.doneGroup w fun g =>
      ((List.range 8).foldl (fun g i => g.writeResult [f.d.val + i] w.mask
        (fun l => TWord.of (BitVec.ofNat 32 (r i l).1)) (tagOf 3 0)) g).orFlags
        (w.flagsOf fun l => orAll ((List.range 8).map fun i => (r i l).2)))) ∧
  -- a code is a nearest one, ties to the even code, a zero of sign 0
  (∀ (ty : QType) (sc e u : Int) (sg : Bool) (m : Nat), u ≤ e → u ≤ sc - 3 →
    let c := (quantise ty sc (.fin sg m e)).1
    let far := fun (k : Nat) => (scaled sg m e u - codeAt ty sc u k).natAbs
    c < 16 ∧ (codeAt ty sc u c = 0 → c = 0) ∧
    ∀ k, k < 16 → far c ≤ far k ∧ (far c = far k → codeAt ty sc u c ≠ codeAt ty sc u k → c % 2 = 0))

/-- REDG completes: its result over the voters goes to every lane of the mask, with the tag of the operation; FADD alone sets
flags. IADD is the sum of the voters' words modulo 2^32, AND, OR and XOR their bitwise combination, the minima and maxima one of
them that none passes, FADD the balanced tree of R53; with no voters it is the identity (R53, R157). -/
def Obligations.GroupReductions : Prop :=
  (∀ (f : RedgF) (s : State) (w : W), s.word (.redg f) = some w → w.quiet = true → w.filled = true →
    w.checkSrcs [0] = none →
    (∀ n, redgFmt f.op = some n → w.agree [0] (fun _ t => if n = 3 then t == 3 || t == 0 else inFamily t) 0 = true) →
    let r := redg f.op w.g.rm w.g.ftz w.g.width (fun l => lane w.real l) (w.dat 0)
    exec (.redg f) s = .next (s.doneGroup w fun g =>
      (g.writeResult (vxSlots f.d) w.mask (fun _ => TWord.of (BitVec.ofNat 32 r.1))
        (match redgFmt f.op with
          | some n => tagOf n 0
          | none => w.moveTag 0)).orFlags (if w.real = 0 then 0 else r.2))) ∧
  (∀ (rm : Rm) (ftz : Bool) (width : Nat) (v : Nat → Bool) (x : Nat → Word),
    let vs := (List.range width).filter v
    (redg .iadd rm ftz width v x).1 = (vs.map fun l => (x l).toNat).sum % 2 ^ 32 ∧
    (∀ i, i < 32 → (redg .and rm ftz width v x).1.testBit i = vs.all fun l => (x l).getLsbD i) ∧
    (∀ i, i < 32 → (redg .or rm ftz width v x).1.testBit i = vs.any fun l => (x l).getLsbD i) ∧
    (∀ i, i < 32 → (redg .xor rm ftz width v x).1.testBit i = ((vs.filter fun l => (x l).getLsbD i).length % 2 == 1)) ∧
    -- the minima and maxima
    (∀ (op : RedgOp) (key : Word → Int) (idle : Word) (up : Bool),
      (op, idle, up) ∈ [(RedgOp.imin, 0x7FFFFFFF#32, false), (.imax, 0x80000000#32, true)] ∧ key = BitVec.toInt ∨
      (op, idle, up) ∈ [(RedgOp.umin, 0xFFFFFFFF#32, false), (.umax, 0#32, true)] ∧ key = (fun a => (a.toNat : Int)) ∨
      (op, idle, up) ∈ [(RedgOp.fmin, 0x7F800000#32, false), (.fmax, 0xFF800000#32, true), (.fminNum, 0x7F800000#32, false),
        (.fmaxNum, 0xFF800000#32, true)] ∧ key = f32Key ftz ∧ (∀ l ∈ vs, f32Nan (x l) = false) →
      let r := BitVec.ofNat 32 (redg op rm ftz width v x).1
      (redg op rm ftz width v x).1 < 2 ^ 32 ∧ (vs = [] → r = idle) ∧ (vs ≠ [] → ∃ l ∈ vs, key r = key (x l)) ∧
      ∀ l ∈ vs, if up then key (x l) ≤ key r else key r ≤ key (x l)) ∧
    -- the tree of FADD: lane i and lane i + s, for s half of what is left
    (redg .fadd rm ftz 1 v x).1 = (if v 0 then (x 0).toNat else 2 ^ 31) ∧
    (∀ k, let p := fun l => fmF32.input ftz (if v l then (x l).toNat else 2 ^ 31)
      (redg .fadd rm ftz (2 ^ (k + 1)) v x).1 = (redg .fadd rm ftz (2 ^ k) (fun _ => true) fun i =>
        BitVec.ofNat 32 (fmF32.round rm ftz false (Sys2Proof.Machine.Num.add rm (p i) (p (i + 2 ^ k)))).1).1))

/-! ### What a word leaves unchanged, and the checks before it -/

/-- A result write: in the lanes of the mask the destination takes the result, its other lanes stay; L1 takes L0 and L0 the
result in the lanes that are no helpers; every other register and everything else of the group stays; the tag is the
result's when the write covers the group or the register had it, else BITS/0 (R52, R93). -/
def Obligations.ResultWrite : Prop :=
  ∀ (g : Group) (slots : List Nat) (mask : Mask) (f : Nat → TWord) (tag : BitVec 8),
    (∀ s ∈ slots, s < 60) → g.regs.length = 62 →
    let h := g.writeResult slots mask f tag
    (∀ s ∈ slots, ∀ l, l < g.width → wordAt (h.reg s).lanes l = if lane mask l then f l else wordAt (g.reg s).lanes l) ∧
    (∀ s ∈ slots, (h.reg s).tag =
      if mask &&& widthMask g.width = widthMask g.width ∨ (g.reg s).tag = tag then tag else 0) ∧
    (∀ s ∈ slots, (h.reg s).empty = (g.reg s).empty) ∧
    (∀ n, n < 60 → n ∉ slots → h.reg n = g.reg n) ∧
    (∀ l, l < g.width → wordAt (h.reg 60).lanes l =
      if lane mask l && !lane g.helper l then f l else wordAt (g.reg 60).lanes l) ∧
    (∀ l, l < g.width → wordAt (h.reg 61).lanes l =
      if lane mask l && !lane g.helper l then wordAt (g.reg 60).lanes l else wordAt (g.reg 61).lanes l) ∧
    { h with regs := g.regs } = g

/-- A predicate write changes one predicate in the lanes of the mask; a write to P7 is discarded, and P7 reads 1 (R100,
R120). -/
def Obligations.PredicateWrite : Prop :=
  ∀ (g : Group) (p : Fin 8) (mask : Mask) (f : Nat → Bool), g.p.length = 7 →
    let h := g.writePred p mask f
    (p = 7 → h = g) ∧ (∀ l, g.pred 7 l = true) ∧
    (∀ (q : Fin 8) l, l < 128 → h.pred q l = if q = p ∧ q ≠ 7 ∧ lane mask l then f l else g.pred q l) ∧
    { h with p := g.p } = g

/-- The frame of every word that computes on registers (arithmetic, logic, moves, float, votes, predicates): when it
completes, only its group changed, and of it only the destination register, the last-result file, the predicate it names,
FPC's sticky flags, AUTOCNT of DOMCTL, FINJ's EN and CLOCK's latch; no core sees another byte of memory. -/
def Obligations.RegisterFrame : Prop :=
  ∀ (i : Instr) (s : State) (w : W) (t : State), s.word i = some w →
    ((intOp i).isSome = true ∨ (plainOp w i).isSome = true ∨ (moveOp w i).isSome = true ∨ (pollOp w i).isSome = true ∨
      (predOp w i).isSome = true ∨ (arithOp w i).isSome = true ∨ (approxOp w i).isSome = true ∨ (packedOp w i).isSome = true ∨
      (∃ f, i = .addc f) ∨ (∃ f, i = .subb f) ∨ (∃ f, i = .fcmp f) ∨ (∃ f, i = .srd f) ∨ (∃ f, i = .redg f)) →
    exec i s = .next t → t.issue.isSome = true →
    t = s.advance t.cur ∧
    { t.cur with groups := s.cur.groups } = s.cur ∧
    (∀ k, k ≠ w.gk → Map.get t.cur.groups k = Map.get s.cur.groups k) ∧
    s.cur.sameMemory t.cur ∧
    (∀ g h, Map.get s.cur.groups w.gk = some g → Map.get t.cur.groups w.gk = some h →
      (∀ n, n < 60 → n ∉ w.u.dst → h.reg n = g.reg n) ∧
      (∀ q : Fin 8, q ∉ w.u.pd → ∀ l, l < 128 → h.pred q l = g.pred q l) ∧
      h.fpc &&& ~~~ 0x1F0#32 = g.fpc &&& ~~~ 0x1F0#32 ∧ g.fpc &&& h.fpc = g.fpc ∧
      h.domctl &&& 0xFFFF#32 = g.domctl &&& 0xFFFF#32 ∧
      { h with regs := g.regs, p := g.p, fpc := g.fpc, domctl := g.domctl, finj := g.finj, clockHi := g.clockHi } = g)

/-- Poison in a source that a word verifies stops it: POISON names the first such slot and exactly the lanes; with none, a word that
does not match its residue traps RCHK with the operand's number. This holds for integer, float, packed and predicate words of any
number of sources, for CVTQ, whose block word is that of the quad's first lane, and for loads, stores and atomics, which verify their
base pair too (R14, R56, R58, R122, R247). What trap a word of two bad slots names is the model's choice (log 15). -/
def Obligations.PoisonStops : Prop :=
  ∀ (i : Instr) (s : State) (w : W), s.word i = some w →
    let stops := fun (ls : List Nat) (t : Trap) => exec i s = .next (applyAct s w (.trap { t with lanes := some (maskOf ls) } w.m0 w.mask))
    (∀ c, regChecks w i = some c → w.filled = true →
      (∀ ok lin, c.typed = some (ok, lin) → ∃ d, w.agree c.ks ok d = true ∧ (lin = true ∨ d = 0)) →
      (w.badLanes c.ks w.poisonIn ≠ [] →
        stops (w.badLanes c.ks w.poisonIn) { code := .poison, info := w.firstBad c.ks w.poisonIn }) ∧
      (w.badLanes c.ks w.poisonIn = [] → w.badLanes c.ks w.badIn ≠ [] →
        stops (w.badLanes c.ks w.badIn) { code := .rchk, cause := min 3 (1 + w.firstBad c.ks w.badIn) })) ∧
    (∀ ks ok n, ((∃ f, i = .cvtqQ f) ∧ n = 8 ∨ (∃ f, i = .cvtqX f) ∧ n = 1) → typedChecks w i = some (ks, ok, false) → w.filled = true →
      w.agree ks ok 0 = true → w.quadMask = none → (∀ l, lane w.mask l = true → l < w.g.width) →
      let bad := fun k l => if k < n then w.poisonIn k l else (w.srcAt n (4 * (l / 4))).poisoned
      w.badLanes (List.range (n + 1)) bad ≠ [] →
        stops (w.badLanes (List.range (n + 1)) bad) { code := .poison, info := w.firstBad (List.range (n + 1)) bad }) ∧
    (∀ ks, memSources i = some ks → w.acquireParked = false → w.syncParked = false → w.dataParked = false → w.noRoom = false →
      (∀ l, lane w.mask l = true → l < w.g.width) →
      let uni := w.u.us.any fun n => (w.uni n).poisoned
      (w.real ≠ 0 → uni = true → stops (lanesOf w.real) { code := .poison }) ∧
      (uni = false → w.badLanes ks w.poisonIn ≠ [] →
        stops (w.badLanes ks w.poisonIn) { code := .poison, info := w.firstBad ks w.poisonIn }) ∧
      (w.uniSound = true → w.badLanes ks w.poisonIn = [] → w.badLanes ks w.badIn ≠ [] →
        stops (w.badLanes ks w.badIn) { code := .rchk, cause := min 3 (1 + w.firstBad ks w.badIn) }))

/-- The tags of a typed word's sources are checked in slot order: the first format that the word does not take traps FORMAT; the first
source whose domain differs from that of the sources before it traps DOMAIN in a word that keeps the domain; in one that does not, the
first source of a domain other than 0 traps DOMAIN while DOMCTL.AUTO is 0, and while it is 1 where its depth exceeds the group's width.
The trap names slot and tag (R51, R140, R327, R375). -/
def Obligations.FormatDomainStop : Prop :=
  ∀ (i : Instr) (s : State) (w : W) (ks : List Nat) (ok : Nat → Nat → Bool) (lin : Bool) (pre post : List Nat) (k : Nat) (t : BitVec 8),
    s.word i = some w → typedChecks w i = some (ks, ok, lin) → (w.brim = true ∨ (w.filled = true ∧ (lin = true ∨ w.auto = false))) →
    ks = pre ++ k :: post → w.tag k = some t →
    let stops := fun (c : TrapCode) => exec i s = .next (applyAct s w (w.trapAt { code := c, info := k + 256 * t.toNat }))
    ((∀ j ∈ pre, ∀ x, w.tag j = some x → ok j (fmtOfTag x) = true) → ok k (fmtOfTag t) = false → stops .format) ∧
    ((∀ j ∈ ks, ∀ x, w.tag j = some x → ok j (fmtOfTag x) = true) →
      (lin = true → ∀ d, (∃ j ∈ pre, (w.tag j).isSome = true) → (∀ j ∈ pre, ∀ x, w.tag j = some x → domOfTag x = d) → domOfTag t ≠ d →
        stops .domain) ∧
      (lin = false → (∀ j ∈ pre, ∀ x, w.tag j = some x → domOfTag x = 0) → domOfTag t ≠ 0 →
        w.auto = false ∨ w.g.width < 2 ^ domOfTag t → stops .domain))

/-- A source that is read with wait bit 0 and finds its register empty traps EMPTY before any other check of the word, naming the
register and the empty lanes that are read: those of the mask that are no helpers; every lane of the group for a source that DOMCTL.AUTO
reconstructs; the source lanes of an exchange (R92, R122, R153, R327, R375). -/
def Obligations.EmptyStops : Prop :=
  ∀ (i : Instr) (s : State) (w : W) (k : Nat) (r : SrcRef), s.word i = some w → w.u.srcs[k]? = some r → r.wait = false → r.code < 56 →
    let stops := fun (lanes : Mask) => exec i s = .next (applyAct s w (w.trapAt { code := .empty, info := r.code, lanes := some lanes }))
    ((∃ c, regChecks w i = some c) ∨ (∃ c, typedChecks w i = some c) ∨ (∃ f, i = .mov f) →
      let whole := fun (j : Nat) => w.auto && (w.tag j).any (fun t => domOfTag t != 0) &&
        (typedChecks w i).any fun c => !c.2.2 && c.1.contains j
      let empty := fun (j : Nat) (x : SrcRef) => (w.g.reg x.code).empty &&& (if whole j then widthMask w.g.width else w.real)
      (∀ j x, j < k → w.u.srcs[j]? = some x → x.wait = true ∨ 56 ≤ x.code ∨ empty j x = 0) → empty k r ≠ 0 → stops (empty k r)) ∧
    (∀ pick, exchangeFrom w i = some pick → k = 0 → (∀ x, w.u.srcs[1]? = some x → x.wait = true ∨ (w.g.reg x.code).empty &&& w.real = 0) →
      let read := maskOf ((lanesOf w.real).filterMap pick)
      (w.g.reg r.code).empty &&& read ≠ 0 → stops ((w.g.reg r.code).empty &&& read))

/-- A trap of a word ends the issue with nothing of the chain done: a group of a context with a supervisor is TRAPPED with
the frame of its image, the strand noted, its registers, predicates and uniform registers as the chain found them; one
without a supervisor makes its context FAULTED (R14, R90, R367, R373). So does one whose frame lies past the end of memory: that this is
a write to the save area that fails is the model's choice (log 65). -/
def Obligations.TrapTaken : Prop :=
  ∀ (i : Instr) (s : State) (w : W) (t : Trap) (c : Ctx), s.word i = some w → Map.get w.m0.ctxs w.g.ctx = some c →
    w.g.lighter = none → w.g.pending = [] → w.g.status = .live →
    let u := applyAct s w (w.trapAt t)
    u.issue = none ∧ u.pre = none ∧
    let lost := noMemory (groupFrame c w.g.image) 65536
    (c.super ≠ 0xFF → lost = false → ∃ h, Map.get u.cur.groups w.gk = some h ∧ h.status = .trapped (groupFrame c w.g.image) ∧
      h.trapSid = w.is.sid ∧ h.regs = w.g.regs ∧ h.p = w.g.p ∧ h.g = w.g.g ∧ h.fpc = w.g.fpc ∧ h.domctl = w.g.domctl) ∧
    (c.super = 0xFF ∨ lost = true → ∃ h x, Map.get u.cur.groups w.gk = some h ∧ h.status = .saved ∧ h.regs = w.g.regs ∧ h.p = w.g.p ∧
      Map.get u.cur.ctxs w.g.ctx = some x ∧ x.state = .faulted)

/-- TRAP and BREAK are performed and then trap with their number; with no lane that is no helper, and BREAK outside a DEBUG
context, they complete with no effect (R380). -/
def Obligations.SoftwareTraps : Prop :=
  ∀ (f : TrapF) (s : State) (w : W),
    (s.word (.trap f) = some w →
      (w.real ≠ 0 → exec (.trap f) s = .next (applyAct s w (w.trapAt { code := .trapi, info := f.imm.toNat }))) ∧
      (w.real = 0 → exec (.trap f) s = .next (s.advance s.cur))) ∧
    (s.word (.brk f) = some w → ∀ c, w.ctx = some c →
      (c.debug = true → w.real ≠ 0 →
        exec (.brk f) s = .next (applyAct s w (w.trapAt { code := .brk, info := f.imm.toNat }))) ∧
      (c.debug = false ∨ w.real = 0 → exec (.brk f) s = .next (s.advance s.cur)))

/-- A privileged word in a context without PRIV traps PRIV before it issues, so that its entry has no effect (R118). -/
def Obligations.PrivilegeChecked : Prop :=
  ∀ (g : Group) (hasBank : Bool) (i : Instr) (a : Nat),
    (isPriv i = true ↔ (∃ f, i = .rettResume f) ∨ (∃ f, i = .rettSkip f) ∨ (∃ f, i = .rettEnd f) ∨ (∃ f, i = .rettFault f) ∨
      (∃ f, i = .tlbinv f) ∨ (∃ f, i = .tlbinvR f) ∨ (∃ f, i = .tlbinvAbort f) ∨ (∃ f, i = .mflush f) ∨
      (∃ f, i = .swr f ∧ (f.s = .finj ∨ f.s = .deadline))) ∧
    (isPriv i = true → namesBank i = false → ((vregsOf (usesOf g.width i)).all fun r => decide (r < g.nregs)) = true →
      wordTrap g false hasBank (i, a) = some { code := .priv, addr := a } ∧ wordTrap g true hasBank (i, a) = none)

/-- Rounding to an integer in each mode: the result differs from the exact quotient by less than one, by at most a half in
RN with ties to even, never upward in magnitude in RZ, and by the sign in RD and RU; it is inexact exactly when it
differs (R35). -/
def Obligations.RoundingCorrect : Prop :=
  ∀ (rm : Rm) (sg : Bool) (m k : Nat), 0 < k →
    let r := (roundShift rm sg m (k : Int)).1
    ((roundShift rm sg m (k : Int)).2 = true ↔ r * 2 ^ k ≠ m) ∧
    r * 2 ^ k < m + 2 ^ k ∧ m < r * 2 ^ k + 2 ^ k ∧
    (rm = .rn → 2 * (r * 2 ^ k) ≤ 2 * m + 2 ^ k ∧ 2 * m ≤ 2 * (r * 2 ^ k) + 2 ^ k ∧
      (2 * (r * 2 ^ k) = 2 * m + 2 ^ k ∨ 2 * m = 2 * (r * 2 ^ k) + 2 ^ k → r % 2 = 0)) ∧
    ((rm = .rz ∨ (rm = .rd ∧ sg = false) ∨ (rm = .ru ∧ sg = true)) → r * 2 ^ k ≤ m) ∧
    (((rm = .ru ∧ sg = false) ∨ (rm = .rd ∧ sg = true)) → m ≤ r * 2 ^ k)

/-! ### Memory -/

/-- A load of memory places completes: what each lane will receive is what its core sees at the place (for a later word of a
chain, saw before the chain), extended by the form, in a run that is empty in the lanes of the mask until it arrives; no core sees another byte of memory (R227, R245, R248).
That the words are those seen in the step of the load is the model's choice (log 4). -/
def Obligations.LoadReads : Prop :=
  ∀ (f : LdF) (s : State) (w : W), s.word (.ld f) = some w →
    let n := ldBytes f.t
    let addr := w.addrs f.g.val f.sh.val
    let ps := (w.places addr n .read true).1
    let slots := ldstSlots f.t.run f.d
    w.accessOk [0] addr n = true → w.noRoom = false → w.quiet = true → w.g.helper = 0 → f.lu = false → allPlaced ps n = true →
    ∃ t, exec (.ld f) s = .next t ∧ t.issue = s.nextWord ∧ s.cur.sameMemory t.cur ∧
      (slots = [] → t.cur.groups = s.cur.groups) ∧
      ∀ g, slots ≠ [] → Map.get s.cur.groups w.gk = some g → ∃ h p,
        Map.get t.cur.groups w.gk = some h ∧ Map.get h.pending s.cur.nextId = some p ∧
        p.slots = slots ∧ p.lanes = w.mask ∧ p.parked = 0 ∧ p.tag = ldTag f.t ∧
        (∀ l pa, (l, pa) ∈ placedLanes ps → ∀ k, k < slots.length →
          wordAt (p.words.getD k []) l =
            wordAt (loadWords f.t (addr l) ((List.range (max 1 (n / 4))).map fun i => (w.view s).seenWord w.g.core (pa + 4 * i))) k) ∧
        (g.regs.length = 62 → ∀ r ∈ slots, r < 62 → (h.reg r).empty = (g.reg r).empty ||| w.mask)

/-- A store to memory places completes: the core sees each lane's words, with their residues, or its bytes, where no later
lane wrote over them; every byte that no lane stores to, and every other core's view, stays; registers stay (R227, R249). -/
def Obligations.StoreWrites : Prop :=
  ∀ (f : StF) (s : State) (w : W), s.word (.st f) = some w →
    let n := stBytes f.t
    let addr := w.addrs f.g.val f.sh.val
    let ps := (w.places addr n .write false).1
    let es := placedLanes ps
    w.accessOk (if n < 4 then [0, 1] else [0]) addr n = true → w.noRoom = false → f.lu = false → allPlaced ps n = true →
    ∃ t, exec (.st f) s = .next t ∧ t.issue = s.nextWord ∧ t.cur.groups = s.cur.groups ∧
      (∀ core pa, core ≠ w.g.core → t.cur.seenWord core pa = s.cur.seenWord core pa) ∧
      (∀ x, (∀ e ∈ es, x < e.2 ∨ e.2 + n ≤ x) → t.cur.seenByte w.g.core x = s.cur.seenByte w.g.core x) ∧
      (∀ l pa, (l, pa) ∈ es → (∀ e ∈ es, l < e.1 → pa + n ≤ e.2 ∨ e.2 + n ≤ pa) →
        if n < 4 then ∀ j, j < n → t.cur.seenByte w.g.core (pa + j) = byteOf (w.dat 1 l) j
        else ∀ k, k < n / 4 → t.cur.seenWord w.g.core (pa + 4 * k) = w.srcAt (1 + k) l)

/-- LDS and STS complete on scratchpad addresses within the block's bound: LDS delivers what the scratchpad holds (before the word's chain), STS writes
each lane's words or bytes in ascending lane order; neither touches memory (R226, R248, R249). That LDS delivers the words of the step in
which it executes is the model's choice (log 4). -/
def Obligations.ScratchpadAccess : Prop :=
  (∀ (f : LdF) (s : State) (w : W), s.word (.lds f) = some w →
    let n := ldBytes f.t
    let addr := w.addrs f.g.val f.sh.val
    let slots := ldstSlots f.t.run f.d
    w.acquireParked = false → w.memCheck [0] = none → w.alignTrap addr n = none → w.spboundTrap addr n = none → w.quiet = true →
    w.g.helper = 0 →
    ∃ t, exec (.lds f) s = .next t ∧ t.issue = s.nextWord ∧
      t.cur.blocks = s.cur.blocks ∧ t.cur.mem = s.cur.mem ∧ t.cur.cores = s.cur.cores ∧
      ∀ g, slots ≠ [] → Map.get s.cur.groups w.gk = some g → ∃ h p,
        Map.get t.cur.groups w.gk = some h ∧ Map.get h.pending s.cur.nextId = some p ∧
        p.slots = slots ∧ p.lanes = w.mask ∧ p.tag = ldTag f.t ∧
        ∀ l b o, (l, b, o) ∈ w.spadLanes addr n w.mask → ∀ k, k < slots.length →
          wordAt (p.words.getD k []) l =
            wordAt (loadWords f.t o ((List.range (max 1 (n / 4))).map fun i => w.m0.spadWord b (o + 4 * i))) k) ∧
  (∀ (f : StF) (s : State) (w : W), s.word (.sts f) = some w →
    let n := stBytes f.t
    let addr := w.addrs f.g.val f.sh.val
    let es := w.spadLanes addr n w.real
    w.acquireParked = false → w.memCheck (if n < 4 then [0, 1] else [0]) = none → w.alignTrap addr n = none →
    w.spboundTrap addr n = none → w.quiet = true → (∀ e ∈ es, s.cur.savedAt e.2.1 0 = none) →
    ∃ t, exec (.sts f) s = .next t ∧ t.issue = s.nextWord ∧
      t.cur.groups = s.cur.groups ∧ t.cur.mem = s.cur.mem ∧ t.cur.cores = s.cur.cores ∧
      (∀ b o, (∀ e ∈ es, e.2.1 ≠ b ∨ o / 4 * 4 + 4 ≤ e.2.2 ∨ e.2.2 + n ≤ o / 4 * 4) →
        t.cur.spadWord b o = s.cur.spadWord b o) ∧
      (∀ l b o, (l, b, o) ∈ es → (∀ e ∈ es, l < e.1 → e.2.1 ≠ b ∨ o + n ≤ e.2.2 ∨ e.2.2 + n ≤ o) →
        if n < 4 then ∀ j, j < n → byteOf (t.cur.spadWord b (o + j)).data ((o + j) % 4) = byteOf (w.dat 1 l) j
        else ∀ k, k < n / 4 → t.cur.spadWord b (o + 4 * k) = w.srcAt (1 + k) l))

/-- LDA, STL and PREF complete. An LDA whose scope reaches beyond the core reads what its die holds, where its L1 has nothing
dirty, and leaves the L1 empty; an STL performs its write at the home at DEVICE and FABRIC scope, else where the scope meets;
a PREF changes what no core sees (R227 to R231, R248 to R250, R261). That LDA delivers the words of the step in which it executes is the
model's choice (log 4). -/
def Obligations.OrderedAccesses : Prop :=
  (∀ (f : LdaF) (s : State) (w : W), s.word (.lda f) = some w →
    let n := if f.dw then 8 else 4
    let addr := w.addrs f.g.val 0
    let ps := (w.places addr n .read true).1
    let slots := ldstSlots (n / 4) f.d
    w.accessOk [0] addr n = true → w.syncParked = false → w.noRoom = false → w.quiet = true → w.g.helper = 0 →
    allPlaced ps n = true →
    ∃ t, exec (.lda f) s = .next t ∧ s.ends t ∧ (scopeBeyond f.sc w.blockCores = true → (t.cur.core w.g.core).l1 = []) ∧
      (slots ≠ [] → (∀ e ∈ placedLanes ps, Map.get ((w.view s).core w.g.core).l1 (e.2 / 64) = none) →
        t.cur.awaits w.gk s.cur.nextId slots w.mask 0 fun k l =>
          match (placedLanes ps).find? fun e => e.1 == l with
          | some e => (w.view s).seenWord w.g.core (e.2 + 4 * k)
          | none => poisonWord)) ∧
  (∀ (f : StlF) (s : State) (w : W), s.word (.stl f) = some w →
    let n := if f.dw then 8 else 4
    let addr := w.addrs f.g.val 0
    let ps := (w.places addr n .write false).1
    let es := placedLanes ps
    w.accessOk [0] addr n = true → w.dataParked = false → w.noRoom = false → allPlaced ps n = true →
    (∀ e ∈ es, s.cur.unguarded (e.2 / 64) ∧ s.cur.directed (e.2 / 256)) →
    ∃ t, exec (.stl f) s = .next t ∧ s.ends t ∧ t.cur.groups = s.cur.groups ∧
      ∀ l pa, (l, pa) ∈ es → (∀ e ∈ es, l < e.1 → e.2 ≠ pa) → ∀ k, k < n / 4 →
        wordAt (if scopeAtDevice f.sc then t.cur.homeSector (pa / 64)
          else if scopeBeyond f.sc w.blockCores then t.cur.dieSector (dieOfCore w.g.core) (pa / 64)
          else t.cur.seenSector w.g.core (pa / 64)) (pa % 64 / 4 + k) = w.srcAt (1 + k) l) ∧
  (∀ (f : PrefF) (s : State) (w : W), s.word (.pref f) = some w → w.memCheck [0] = none →
    ∃ t, exec (.pref f) s = .next t ∧ s.ends t ∧ t.cur.groups = s.cur.groups ∧ s.cur.sameMemory t.cur)

/-- LD and ST with LASTUSE complete: LD.LU delivers what the core sees and leaves no copy of the lines in its L1, its die's
cache and the home; ST.LU performs its bytes at the home (R232, R248, R249). That the words are those seen in the step of the load is the
model's choice (log 4). -/
def Obligations.LastUseAccesses : Prop :=
  (∀ (f : LdF) (s : State) (w : W), s.word (.ld f) = some w →
    let n := ldBytes f.t
    let addr := w.addrs f.g.val f.sh.val
    let ps := (w.places addr n .read true).1
    let slots := ldstSlots f.t.run f.d
    w.accessOk [0] addr n = true → w.noRoom = false → w.quiet = true → w.g.helper = 0 → f.lu = true → allPlaced ps n = true →
    ∃ t, exec (.ld f) s = .next t ∧ s.ends t ∧
      (∀ e ∈ placedLanes ps, ∀ i, i < 4 → Map.get (t.cur.core w.g.core).l1 (e.2 / 256 * 4 + i) = none ∧
        Map.get (t.cur.mem.dieCache (dieOfCore w.g.core)) (e.2 / 256 * 4 + i) = none ∧
        Map.get t.cur.mem.msc (e.2 / 256 * 4 + i) = none) ∧
      (slots ≠ [] → t.cur.awaits w.gk s.cur.nextId slots w.mask (ldTag f.t) fun k l =>
          match (placedLanes ps).find? fun e => e.1 == l with
          | some e => wordAt (loadWords f.t (addr l) ((List.range (max 1 (n / 4))).map fun i => (w.view s).seenWord w.g.core (e.2 + 4 * i))) k
          | none => poisonWord)) ∧
  (∀ (f : StF) (s : State) (w : W), s.word (.st f) = some w →
    let n := stBytes f.t
    let addr := w.addrs f.g.val f.sh.val
    let ps := (w.places addr n .write false).1
    let es := placedLanes ps
    w.accessOk (if n < 4 then [0, 1] else [0]) addr n = true → w.noRoom = false → f.lu = true → allPlaced ps n = true →
    (∀ e ∈ es, s.cur.unguarded (e.2 / 64)) →
    ∃ t, exec (.st f) s = .next t ∧ s.ends t ∧ t.cur.groups = s.cur.groups ∧
      ∀ l pa, (l, pa) ∈ es → (∀ e ∈ es, l < e.1 → pa + n ≤ e.2 ∨ e.2 + n ≤ pa) →
        if n < 4 then ∀ j, j < n → byteOf (wordAt (t.cur.homeSector (pa / 64)) (pa % 64 / 4)).data (pa % 4 + j) = byteOf (w.dat 1 l) j
        else ∀ k, k < n / 4 → wordAt (t.cur.homeSector (pa / 64)) (pa % 64 / 4 + k) = w.srcAt (1 + k) l)

/-- Every atomic and reduction on memory completes where no lane fails: the lanes perform in ascending order at the home, each
lane receives the old words and leaves the new ones, 64-bit sums with the carry. At a scope that does not reach beyond the core, and
with nothing of the lines in caches, no core sees another word (R251 to R254). -/
def Obligations.AtomicValues : Prop :=
  ∀ (i : Instr) (a : AtomForm) (s : State) (w : W), atomForm i = some a → s.word i = some w →
    let n := 4 * a.op.words
    let addr := w.addrs a.g 0
    let ps := (w.places addr n .atomic false).1
    let es := placedLanes ps
    let same := fun (pa : Nat) => (es.filter fun e => e.2 == pa).map (·.1)
    let old := fun (pa : Nat) => (s.cur.homeRun pa a.op.words).map (·.data)
    w.accessOk (List.range (1 + a.op.srcRun)) addr n = true → w.syncParked = false → w.noRoom = false →
    (a.sc = .group ∨ w.dataParked = false) → w.quiet = true → allPlaced ps n = true → w.is.dry = false →
    (∀ e ∈ es, s.cur.onlyHome w.g.core (e.2 / 64) ∧ s.cur.unguarded (e.2 / 64) ∧
      (s.cur.homeRun e.2 a.op.words).all (fun t => t.good) = true ∧
      (a.lu = true → Map.get s.cur.mem.msc (e.2 / 64) = none)) →
    ∃ t, exec i s = .next t ∧ s.ends t ∧
      (∀ e ∈ es, t.cur.homeRun e.2 a.op.words = (w.atomFold a.op (same e.2) (old e.2)).map TWord.of) ∧
      (a.slots ≠ [] → t.cur.awaits w.gk s.cur.nextId a.slots w.real a.op.tag fun k l =>
        match es.find? fun e => e.1 == l with
        | some e => TWord.of ((w.atomFold a.op ((same e.2).filter fun x => decide (x < l)) (old e.2)).getD k 0)
        | none => poisonWord) ∧
      (scopeBeyond a.sc w.blockCores = false → a.lu = false → (∀ e ∈ es, ∀ i, i < 4 → s.cur.onlyHome w.g.core (e.2 / 256 * 4 + i)) →
        ∀ core x, (∀ e ∈ es, x / 4 * 4 + 4 ≤ e.2 ∨ e.2 + n ≤ x / 4 * 4) → t.cur.seenWord core x = s.cur.seenWord core x)

/-- Every scratchpad atomic completes where no lane fails: the lanes perform in ascending order in the barrier unit, each
receives the old words and leaves the new ones (R252, R253). -/
def Obligations.ScratchpadAtomics : Prop :=
  ∀ (i : Instr) (a : AtomForm) (s : State) (w : W), atomsForm i = some a → s.word i = some w →
    let n := 4 * a.op.words
    let addr := w.addrs a.g 0
    let es := w.spadLanes addr n w.real
    let same := fun (b o : Nat) => (es.filter fun e => e.2.1 == b && e.2.2 == o).map (·.1)
    let old := fun (b o : Nat) => (s.cur.spadRun b o a.op.words).map (·.data)
    w.accessOk (List.range (1 + a.op.srcRun)) addr n = true → w.syncParked = false → w.spboundTrap addr n = none →
    (a.sc = .group ∨ w.dataParked = false) → w.quiet = true → w.is.dry = false →
    (∀ e ∈ es, s.cur.savedAt e.2.1 0 = none ∧ (s.cur.spadRun e.2.1 e.2.2 a.op.words).all (fun t => t.good) = true) →
    ∃ t, exec i s = .next t ∧ s.ends t ∧
      (∀ e ∈ es, t.cur.spadRun e.2.1 e.2.2 a.op.words =
        (w.atomFold a.op (same e.2.1 e.2.2) (old e.2.1 e.2.2)).map TWord.of) ∧
      (a.slots ≠ [] → t.cur.awaits w.gk s.cur.nextId a.slots w.real a.op.tag fun k l =>
        match es.find? fun e => e.1 == l with
        | some e => TWord.of ((w.atomFold a.op ((same e.2.1 e.2.2).filter fun x => decide (x < l)) (old e.2.1 e.2.2)).getD k 0)
        | none => poisonWord)

/-- HSET, HDEM and HDROP complete with their status word: HSET makes the handle ACTIVE over the span of a sound record with
its PRI, HDEM demotes an ACTIVE handle and gives PRI 0 to the lines of its range that the memory-side cache holds, HDROP frees a
handle, its lines gone from the memory-side cache; a bad record, a handle that cannot, or a number above 255 is told so and no
handle changes (R235, R259, R262). -/
def Obligations.ResidencyHandles : Prop :=
  (∀ (f : HsetF) (s : State) (w : W) (n : Nat) (ws : List TWord) (v : W), s.word (.hset f) = some w → w.memCheck [1] = none →
    w.quiet = true → w.leaderIndex 1 = some (false, n) → w.readRecord (w.uaddr f.g.val) = .ok (ws, v) →
    let r := layoutOf ws
    let good := layoutOk (w.uaddr f.g.val) ws = true ∧ r.berth = 0
    ∃ t, exec (.hset f) s = .next t ∧ s.ends t ∧
      (good → t.cur.tells w (ldstSlots 1 f.d) n stOk ∧ ((Map.get s.cur.ctxs w.g.ctx).isSome = true →
        ∃ h, t.cur.handleOf w.g.ctx n = some h ∧ h.state = .active ∧ (h.lo, h.hi) = r.span ∧ h.pri = f.pri.val)) ∧
      (¬ good → t.cur.tells w (ldstSlots 1 f.d) n stBadRec ∧ t.cur.ctxs = s.cur.ctxs)) ∧
  (∀ (f : HdemF) (s : State) (w : W) (n : Nat), s.word (.hdem f) = some w → w.memCheck [0] = none → w.quiet = true →
    w.leaderIndex 0 = some (false, n) →
    ∃ t, exec (.hdem f) s = .next t ∧ s.ends t ∧ match s.cur.handleOf w.g.ctx n with
      | some h => if h.state = .active then
          t.cur.tells w (ldstSlots 1 f.d) n stOk ∧ t.cur.handleOf w.g.ctx n = some { h with state := .demoted } ∧
          ∀ sn e, Map.get t.cur.mem.msc sn = some e → inLines (s.cur.rangePieces w.g.ctx h.lo h.hi) (sn / 4) = true → e.pri = 0
        else t.cur.tells w (ldstSlots 1 f.d) n stBadHandle ∧ t.cur.ctxs = s.cur.ctxs
      | none => t.cur.tells w (ldstSlots 1 f.d) n stBadHandle ∧ t.cur.ctxs = s.cur.ctxs) ∧
  (∀ (f : HdropF) (s : State) (w : W) (n : Nat), s.word (.hdrop f) = some w → w.memCheck [0] = none → w.quiet = true →
    w.leaderIndex 0 = some (false, n) →
    ∃ t, exec (.hdrop f) s = .next t ∧ s.ends t ∧ match s.cur.handleOf w.g.ctx n with
      | some h => if h.state = .free then t.cur.tells w (ldstSlots 1 f.d) n stBadHandle ∧ t.cur.ctxs = s.cur.ctxs
        else t.cur.tells w (ldstSlots 1 f.d) n stOk ∧ t.cur.handleOf w.g.ctx n = none ∧
          ∀ sn, inLines (s.cur.rangePieces w.g.ctx h.lo h.hi) (sn / 4) = true → Map.get t.cur.mem.msc sn = none
      | none => t.cur.tells w (ldstSlots 1 f.d) n stBadHandle ∧ t.cur.ctxs = s.cur.ctxs) ∧
  (∀ (i : Instr) (slots : List Nat) (k : Nat) (s : State) (w : W) (n : Nat),
    ((∃ f, i = .hset f ∧ slots = ldstSlots 1 f.d ∧ k = 1) ∨ (∃ f, i = .hdem f ∧ slots = ldstSlots 1 f.d ∧ k = 0) ∨
      (∃ f, i = .hdrop f ∧ slots = ldstSlots 1 f.d ∧ k = 0)) →
    s.word i = some w → w.memCheck [k] = none → w.quiet = true → w.leaderIndex k = some (true, n) →
    ∃ t, exec i s = .next t ∧ s.ends t ∧ t.cur.tells w slots n stBadHandle ∧ t.cur.ctxs = s.cur.ctxs)

/-- SHADOW, PUBLISH and DISCARD complete with their status word: SHADOW opens the lowest handle that is free over the record's
footprint or tells why not; PUBLISH of an OPEN handle with no writer in flight swaps its pages, or discards it when a leaf
has changed, and frees it; DISCARD frees an OPEN or BROKEN handle, after its writers when there are some; a FREE handle, or a
number above 63, is told BADHANDLE (R258 to R260). -/
def Obligations.ShadowStates : Prop :=
  (∀ (f : ShadowF) (s : State) (w : W) (ws : List TWord) (v : W), s.word (.shadow f) = some w → w.memCheck [] = none →
    w.quiet = true → w.leader.isSome = true → w.readRecord (w.uaddr f.g.val) = .ok (ws, v) →
    ∃ t, exec (.shadow f) s = .next t ∧ s.ends t ∧
      match v.m.shadowOpen w.g.ctx (w.uaddr f.g.val) ws with
      | .error code => t.cur.tells w (ldstSlots 1 f.d) 0 code ∧ t.cur.ctxs = s.cur.ctxs
      | .ok foot => ∃ h sh, h < 64 ∧ s.cur.shadowOf w.g.ctx h = none ∧ (∀ k, k < h → (s.cur.shadowOf w.g.ctx k).isSome = true) ∧
          t.cur.tells w (ldstSlots 1 f.d) h stOk ∧
          t.cur.shadowOf w.g.ctx h = some sh ∧ sh.state = .open_ ∧ sh.foot = foot ∧ sh.pages = []) ∧
  (∀ (f : PubF) (s : State) (w : W) (h : Nat) (sh : Shadow), s.word (.publish f) = some w → w.memCheck [0] = none →
    w.quiet = true → w.shadowIndex = some (false, h) → s.cur.shadowOf w.g.ctx h = some sh → s.cur.writers w.g.ctx h = [] → w.dataParked = false →
    ∃ t, exec (.publish f) s = .next t ∧ s.ends t ∧
      (sh.state = .open_ → ∃ code, (code = stOk ∨ code = stDiscarded) ∧ (sh.pages = [] → code = stOk) ∧
        t.cur.tells w (ldstSlots 1 f.d) h code ∧ t.cur.shadowOf w.g.ctx h = none) ∧
      (sh.state = .broken → t.cur.tells w (ldstSlots 1 f.d) h stDiscarded ∧ t.cur.shadowOf w.g.ctx h = none) ∧
      (sh.state = .publishing ∨ sh.state = .draining →
        t.cur.tells w (ldstSlots 1 f.d) h stBadHandle ∧ t.cur.ctxs = s.cur.ctxs)) ∧
  (∀ (f : DiscF) (s : State) (w : W) (h : Nat) (sh : Shadow), s.word (.discard f) = some w → w.memCheck [0] = none →
    w.quiet = true → w.shadowIndex = some (false, h) → s.cur.shadowOf w.g.ctx h = some sh →
    ∃ t, exec (.discard f) s = .next t ∧ s.ends t ∧
      (sh.state = .open_ ∨ sh.state = .broken → t.cur.tells w (ldstSlots 1 f.d) h stOk ∧
        (s.cur.writers w.g.ctx h = [] → t.cur.shadowOf w.g.ctx h = none) ∧
        (s.cur.writers w.g.ctx h ≠ [] → t.cur.shadowOf w.g.ctx h = some { sh with state := .draining })) ∧
      (sh.state = .publishing ∨ sh.state = .draining →
        t.cur.tells w (ldstSlots 1 f.d) h stBadHandle ∧ t.cur.ctxs = s.cur.ctxs)) ∧
  (∀ (i : Instr) (slots : List Nat) (s : State) (w : W) (tooBig : Bool) (h : Nat),
    ((∃ f, i = .publish f ∧ slots = ldstSlots 1 f.d) ∨ (∃ f, i = .discard f ∧ slots = ldstSlots 1 f.d)) →
    s.word i = some w → w.memCheck [0] = none → w.quiet = true → w.shadowIndex = some (tooBig, h) →
    (tooBig = true ∨ s.cur.shadowOf w.g.ctx h = none) →
    ∃ t, exec i s = .next t ∧ s.ends t ∧ t.cur.tells w slots h stBadHandle ∧ t.cur.ctxs = s.cur.ctxs)

/-- FENCE, LRFLUSH, MFLUSH and WAITV complete. A releasing fence beyond the core whose group has nothing parked leaves nothing
dirty in its L1, nor at DEVICE scope in its die's cache; an acquiring one empties the L1; one that has to wait for parked accesses
of its group is noted with the group, which executes its next memory instruction when the fence has completed (log 28); LRFLUSH
drops the record from every core's record cache; MFLUSH leaves nothing of the range, over however many pages, dirty in the
memory-side cache, and traps PROT at the first page that the group may not read; WAITV goes on when the word it reads meets its
condition, and else parks (R230, R257, R263 to R265). -/
def Obligations.FencesAndWaits : Prop :=
  (∀ (f : FenceF) (s : State) (w : W), s.word (.fence f) = some w →
    (f.sc = .group ∨ w.dataParked = false ∨ (f.kind = .acq ∧ w.m.syncReadParked w.gk = false) → ∃ t, exec (.fence f) s = .next t ∧ s.ends t ∧
      t.cur.groups = s.cur.groups ∧ (scopeBeyond f.sc w.blockCores = true →
        (f.kind ≠ .acq → (∀ sn e, Map.get (t.cur.core w.g.core).l1 sn = some e → e.dirty = 0) ∧
          (scopeAtDevice f.sc = true → ∀ sn e, Map.get (t.cur.mem.dieCache (dieOfCore w.g.core)) sn = some e → e.dirty = 0)) ∧
        (f.kind ≠ .rel → (t.cur.core w.g.core).l1 = []))) ∧
    (f.sc ≠ .group → (f.kind ≠ .acq ∧ w.dataParked = true) ∨ (f.kind ≠ .rel ∧ w.m.syncReadParked w.gk = true) →
      ∃ t, exec (.fence f) s = .next t ∧ s.ends t ∧ { t.cur with groups := s.cur.groups } = s.cur ∧
      ∀ g, Map.get s.cur.groups w.gk = some g → Map.get t.cur.groups w.gk =
        some { g with fences := g.fences ++ [(f.sc, decide (f.kind ≠ .acq), decide (f.kind ≠ .rel))] })) ∧
  (∀ (f : LrfF) (s : State) (w : W), s.word (.lrflush f) = some w → w.memCheck [] = none → w.leader.isSome = true → w.dataParked = false →
    ∃ t, exec (.lrflush f) s = .next t ∧ s.ends t ∧ t.cur.groups = s.cur.groups ∧
      ∀ core, ∀ r ∈ (t.cur.core core).records, ¬ (r.1 = w.g.ctx ∧ r.2.1 = w.uaddr f.g.val)) ∧
  (∀ (f : MflushF) (s : State) (w : W) (l : Nat), s.word (.mflush f) = some w → w.g.lighter = none → w.memCheck [1] = none →
    w.leader = some l → w.dataParked = false →
    let n := (w.dat 1 l).toNat
    let base := w.uaddr f.g.val
    (n = 0 → ∃ t, exec (.mflush f) s = .next t ∧ s.ends t ∧ t.cur.groups = s.cur.groups ∧
      ∀ sn e, Map.get t.cur.mem.msc sn = some e → e.dirty = 0) ∧
    (∀ ps m, 0 < n → ps.map (·.1) = rangeStarts base n → Machine.pagesAt w.g.core w.g.ctx w.g.source ps w.m m →
      ∃ t, exec (.mflush f) s = .next t ∧ s.ends t ∧ t.cur.groups = s.cur.groups ∧
        ∀ va pa sn e, (va, pa) ∈ ps → pa < sn * 64 + 64 → sn * 64 < pa + min (65536 - va % 65536) (base + n - va) →
          Map.get t.cur.mem.msc sn = some e → e.dirty = 0) ∧
    (∀ ps m va lv c, 0 < n → (ps.map (·.1) ++ [va]) <+: rangeStarts base n → Machine.pagesAt w.g.core w.g.ctx w.g.source ps w.m m →
      (m.place w.g.core w.g.ctx va 1 .read w.g.source).1 = .prot lv c →
      exec (.mflush f) s = .next (applyAct s w (w.trapAt (protTrap va lv c))))) ∧
  (∀ (f : WaitvF) (s : State) (w : W) (l pa pri : Nat) (m : Machine), s.word (.waitv f) = some w → w.g.lighter = none →
    w.memCheck [1] = none → w.acquireParked = false → w.syncParked = false → w.dataParkedAt (w.uaddr f.g.val) = false →
    w.leader = some l → w.uaddr f.g.val % 4 = 0 →
    w.m.place w.g.core w.g.ctx (w.uaddr f.g.val) 4 .read w.g.source = (.pa pa pri, m) →
    Map.get (s.cur.core w.g.core).l1 (pa / 64) = none → (s.cur.seenWord w.g.core pa).poisoned = false →
    s.cur.onStrand w.gk w.is.sid →
    ∃ t, exec (.waitv f) s = .next t ∧ s.ends t ∧
      (condHolds f.cond (s.cur.seenWord w.g.core pa).data (w.dat 1 l) = true → t.cur.groups = s.cur.groups ∧ (t.cur.core w.g.core).l1 = []) ∧
      (condHolds f.cond (s.cur.seenWord w.g.core pa).data (w.dat 1 l) = false → t.cur.parkedIn w.gk w.is.sid .waitv))

/-! ### Barriers and batches -/

/-- The barrier instructions complete on a sound barrier: BINIT opens it with its count, unless it is OPEN and busy; BEXPECT
owes sectors; BARRIVE takes an arrival and tells the phase; BWAIT parks while the phase it names goes on; BTRY tells whether
it is over; BINVAL makes it GONE. A phase ends when nothing is owed, and then no strand waits in BWAIT. BEXPECT, BARRIVE, BWAIT and
BTRY trap BARINV on a barrier that is not OPEN; BINIT opens such a one, and BINVAL of one does nothing (log 20). BARRIVE, BWAIT and BTRY
are held while an ordered access of their group is parked (R210, R213 to R216, R276). -/
def Obligations.BarrierOperations : Prop :=
  ∀ (s : State) (w : W) (l : Nat) (r : BarRef) (g : Nat), s.cur.savedAt r.blk 0 = none →
    let bar := fun (t : State) => barOf (t.cur.barAt r.blk r.off)
    let woken := fun (t : State) => ∀ k x e p, Map.get t.cur.groups k = some x → e ∈ x.stack → e.park = some p → p.why ≠ .bwait r.blk r.off
    let idle := fun (b : Bar) => b.arrive = 0 ∧ b.sector = 0
    let fresh : Bar := { phase := 0, valid := true, inval := false, arrive := (w.dat 1 l).toNat, sector := 0, expect := (w.dat 1 l).toNat, faulted := 0 }
    let count := 0 < (w.dat 1 l).toNat ∧ (w.dat 1 l).toNat < 2 ^ 20
    let barinv := fun (i : Instr) => exec i s = .next (applyAct s w (w.trapAt { code := .barinv, addr := w.uaddr g }))
    (∀ f : BarS, f.g.val = g → w.atBarrier [1] g l r →
      (s.word (.binit f) = some w → count → (r.bar.valid && r.bar.busy) = false →
        ∃ t, exec (.binit f) s = .next t ∧ s.ends t ∧ bar t = fresh) ∧
      (s.word (.binit f) = some w → count → (r.bar.valid && r.bar.busy) = true → barinv (.binit f)) ∧
      (s.word (.binitForce f) = some w → count → ∃ t, exec (.binitForce f) s = .next t ∧ s.ends t ∧ bar t = fresh) ∧
      (s.word (.bexpect f) = some w → r.bar.valid = true →
        let b := { r.bar with
          faulted := if (w.dat 1 l).getLsbD 31 then 0 else r.bar.faulted
          sector := (r.bar.sector + (w.dat 1 l).toNat % 2 ^ 31) % 2 ^ 32 }
        ∃ t, exec (.bexpect f) s = .next t ∧ s.ends t ∧ bar t = b.settled ∧ (idle b → woken t)) ∧
      (s.word (.bexpect f) = some w → r.bar.valid = false → barinv (.bexpect f))) ∧
    (∀ i : Instr, s.word i = some w → w.acquireParked = false → w.syncParked = true → w.leader = some l → w.g.lighter = none →
      ((∃ f, i = .barrive f) ∨ (∃ f, i = .bwait f) ∨ (∃ f, i = .btry f)) → exec i s = .next (holdState s w.is w.m0)) ∧
    (∀ f : BarD, f.g.val = g → w.atBarrier [] g l r → w.syncParked = false → s.word (.barrive f) = some w →
      (r.bar.valid = true → r.bar.arrive ≠ 0 → (f.sc = .group ∨ w.dataParked = false) → w.quiet = true →
        let b := { r.bar with arrive := r.bar.arrive - 1 }
        ∃ t, exec (.barrive f) s = .next t ∧ s.ends t ∧ bar t = b.settled ∧ (idle b → woken t) ∧
          t.cur.resultIs s w (dstSlots f.d) r.bar.phase) ∧
      (r.bar.valid = false ∨ r.bar.arrive = 0 → barinv (.barrive f))) ∧
    (∀ f : BwaitF, f.g.val = g → w.atBarrier [1] g l r → w.syncParked = false → s.word (.bwait f) = some w → w.g.lighter = none → w.wasInvalidated = false →
      (r.bar.valid = true → r.bar.phase ≠ (w.dat 1 l).toNat % 16 →
        ∃ t, exec (.bwait f) s = .next t ∧ s.ends t ∧ t.cur.groups = s.cur.groups ∧ t.cur.blocks = s.cur.blocks) ∧
      (r.bar.valid = true → r.bar.phase = (w.dat 1 l).toNat % 16 →
        s.cur.onStrand w.gk w.is.sid →
        ∃ t, exec (.bwait f) s = .next t ∧ s.ends t ∧ t.cur.blocks = s.cur.blocks ∧ t.cur.parkedIn w.gk w.is.sid (.bwait r.blk r.off)) ∧
      (r.bar.valid = false → barinv (.bwait f))) ∧
    (∀ f : BarD, f.g.val = g → w.atBarrier [1] g l r → w.syncParked = false → s.word (.btry f) = some w →
      (r.bar.valid = true → w.quiet = true → ∃ t, exec (.btry f) s = .next t ∧ s.ends t ∧ t.cur.blocks = s.cur.blocks ∧
        t.cur.resultIs s w (dstSlots f.d) (if r.bar.phase = (w.dat 1 l).toNat % 16 then 0 else 1)) ∧
      (r.bar.valid = false → barinv (.btry f))) ∧
    (∀ f : BinvF, f.g.val = g → w.atBarrier [] g l r → s.word (.binval f) = some w →
      (r.bar.valid = true → ∃ t, exec (.binval f) s = .next t ∧ s.ends t ∧
        bar t = { r.bar with valid := false, inval := true }) ∧
      -- a barrier that is not OPEN: log 20
      (r.bar.valid = false → exec (.binval f) s = .next (s.advance s.cur)))

/-- BATCH closes the group's batch under the next number and tells it; it is held while eight are open. WAITB parks its strand
while a batch up to the one it names is open, and else goes on with an acquire of the commands' writes (R219, R220, R281). -/
def Obligations.Batches : Prop :=
  (∀ (f : BatchF) (s : State) (w : W) (g : Group), s.word (.batch f) = some w → w.g.open_.length < 8 → w.quiet = true →
    Map.get s.cur.groups w.gk = some g →
    let n := (w.g.lastb.toNat + 1) % 2 ^ 16
    ∃ t h b, exec (.batch f) s = .next t ∧ s.ends t ∧ Map.get t.cur.groups w.gk = some h ∧
      h.lastb.toNat = n ∧ h.members = [] ∧ h.open_ = g.open_ ++ [b] ∧ b.num = n ∧ b.ev = f.ev ∧ b.all = g.members ∧
      (∀ k ∈ b.left, k ∈ g.members) ∧ t.cur.resultIs s w (dstSlots f.d) n) ∧
  (∀ (f : BatchF) (s : State) (w : W), s.word (.batch f) = some w → 8 ≤ w.g.open_.length →
    exec (.batch f) s = .next (holdState s w.is w.m0)) ∧
  (∀ (f : WaitbF) (s : State) (w : W) (g : Group) (l : Nat), s.word (.waitb f) = some w → w.g.lighter = none → w.untyped = none →
    w.checkSrcs [0] = none → w.leader = some l → Map.get s.cur.groups w.gk = some g →
    let n := (w.dat 0 l).toNat % 2 ^ 16
    (g.waitsFor n = true → s.cur.onStrand w.gk w.is.sid →
      ∃ t, exec (.waitb f) s = .next t ∧ s.ends t ∧ t.cur.parkedIn w.gk w.is.sid .waitb) ∧
    (g.waitsFor n = false → s.cur.unpackPending w.gk g n = none →
      exec (.waitb f) s = .next (s.advance (s.cur.acquire w.g.core .device w.blockCores))))

/-! ### Control flow -/

/-- The branches complete when the lines of their targets are there and may be entered: each lane of the strand goes on in a
PATH entry at the packet its word sends it to, or at the next instruction; the other entries of the stack stay; a join packet
that the strand does not already wait for gets a JOIN entry that all its lanes owe. Nothing else of the group changes
(R86, R183, R196 to R198). -/
def Obligations.Branches : Prop :=
  ∀ (i : Instr) (s : State) (w : W) (g : Group) (e : Entry),
    ((∃ f, i = .bra f) ∨ (∃ f, i = .brc f) ∨ (∃ f, i = .brm f) ∨ ((∃ f, i = .brv f) ∧ w.untyped = none ∧ w.checkSrcs [0] = none)) →
    s.word i = some w → s.cur.strandIs w g e → w.mask ≠ 0 → w.g.stack.length + w.ways i ≤ w.g.stackLimit →
    w.spillRoom → (joinOf i = 0 ∨ (packetAt (packetIndex w.addr) (joinOf i)).isSome = true) →
    (w.g.entry w.is.sid).map (·.rpc) = some e.rpc → (∀ l t, lane w.mask l = true → w.laneTarget i l = some t → w.mayEnter t) →
    let j := ((packetIndex w.addr : Int) + joinOf i).toNat
    ∃ t h, exec i s = .next t ∧ s.ends t ∧ Map.get t.cur.groups w.gk = some h ∧
      (∀ l, lane w.mask l = true → ∃ x ∈ h.stack, x.kind = .path ∧ lane x.mask l = true ∧
        x.pc = ((w.laneTarget i l).getD none).getD w.is.next) ∧
      (∀ x ∈ g.stack, x.sid ≠ w.is.sid → x ∈ h.stack) ∧
      (joinOf i ≠ 0 → e.rpc ≠ some j → ∃ x ∈ h.stack, x.kind = .join ∧ x.out = w.mask ∧ x.pc = packetAddr j) ∧
      { h with stack := g.stack, nextSid := g.nextSid } = g

/-- CALL completes: its lanes go on at the target with no join of their own, over a CALL entry that resumes after the word's
packet. RET completes: its strand leaves, and the CALL entry loses the lanes, and resumes as a path when none is owed. JOUT
takes the lanes out of its N innermost JOIN entries. EVRET takes the handler and its EVENT entry away and clears the service
(R199, R200, R207, R222). -/
def Obligations.CallsAndReturns : Prop :=
  (∀ (f : BraF) (s : State) (w : W) (g : Group) (e : Entry), s.word (.call f) = some w → s.cur.strandIs w g e →
    (w.g.lighter.isSome = true → callDepth w.g w.is.sid w.mask < 4) → w.g.stack.length < w.g.stackLimit → w.spillRoom →
    w.mayEnter (packetAt (packetIndex w.addr) (targetOffset f.t)) →
    ∃ t h x y, exec (.call f) s = .next t ∧ s.ends t ∧ Map.get t.cur.groups w.gk = some h ∧
      h.stack = g.above w.is.sid ++ [x, y] ++ g.below w.is.sid ∧
      x.kind = .path ∧ x.mask = w.mask ∧ some x.pc = packetAt (packetIndex w.addr) (targetOffset f.t) ∧ x.rpc = none ∧
      y.kind = .call ∧ y.mask = w.mask ∧ y.out = w.mask ∧ y.pc = packetAddr (packetIndex w.addr + 1) ∧ y.rpc = e.rpc) ∧
  (∀ (f : C0) (s : State) (w : W) (g : Group) (e : Entry) (joins : List Nat) (call : Nat), s.word (.ret f) = some w →
    s.cur.strandIs w g e → w.g.stack.length ≤ 16 → w.g.callFrame w.is.sid w.mask = some (joins, call) →
    ∃ t h, exec (.ret f) s = .next t ∧ s.ends t ∧ Map.get t.cur.groups w.gk = some h ∧
      (∀ x ∈ h.stack, x.sid ≠ w.is.sid) ∧
      ∀ c ∈ g.stack, c.sid = call → c.sid ≠ w.is.sid → c.kind = .call → c.sid ∉ joins → c.mask ≠ 0 →
        (c.out &&& ~~~ w.mask ≠ 0 → { c with out := c.out &&& ~~~ w.mask } ∈ h.stack) ∧
        (c.out &&& ~~~ w.mask = 0 → ∃ x ∈ h.stack, x.sid = c.sid ∧ x.kind = .path ∧ x.mask = c.mask ∧ x.pc = c.pc)) ∧
  (∀ (f : JoutF) (s : State) (w : W) (g : Group) (e : Entry), s.word (.jout f) = some w → s.cur.strandIs w g e →
    w.g.stack.length ≤ 16 →
    let fs := (w.g.frames w.is.sid w.mask).take f.n.val
    fs.length = f.n.val → (∀ x ∈ fs, x.kind = .join) →
    ∃ t h, exec (.jout f) s = .next t ∧ s.ends t ∧ Map.get t.cur.groups w.gk = some h ∧
      (∀ x ∈ h.stack, ∀ y ∈ fs, x.sid = y.sid → x.out &&& w.mask = 0 ∧ x.mask &&& w.mask = 0) ∧
      (∀ x ∈ g.stack, x.kind = .path → x.mask ≠ 0 → x.sid ≠ w.is.sid → (∀ y ∈ fs, x.sid ≠ y.sid) → x ∈ h.stack)) ∧
  (∀ (f : C0) (s : State) (w : W) (ev top : Entry) (rest : List Entry), s.word (.evret f) = some w → w.g.lighter = none →
    w.g.stack = top :: ev :: rest → top.sid = w.is.sid → top.kind ≠ .event → ev.kind = .event → top.mask = ev.mask →
    ev.sid ≠ top.sid → w.g.stack.length ≤ 16 →
    (Map.get s.cur.groups w.gk).map (fun x => (x.stack.length, x.stack.map (·.kind), x.stack.drop 2)) =
      some (rest.length + 2, top.kind :: ev.kind :: rest.map (·.kind), rest) →
    ∃ t h, exec (.evret f) s = .next t ∧ s.ends t ∧ Map.get t.cur.groups w.gk = some h ∧ h.stack = rest ∧ h.ev.svc = none)

/-- YIELD gives its strand and group age 0; NAP parks its strand until its clk; EVON sets the enables; TAIL retires the group
while the retirement tracker has room, and EXIT with it when its lanes were the last that are no helpers; else EXIT makes
helpers of them and takes away the quads that are all helpers (R193, R202 to R206, R180). -/
def Obligations.StrandControl : Prop :=
  (∀ (f : C0) (s : State) (w : W) (g : Group), s.word (.yield f) = some w → Map.get s.cur.groups w.gk = some g →
    ∃ t h, exec (.yield f) s = .next t ∧ s.ends t ∧ Map.get t.cur.groups w.gk = some h ∧ h.age = 0 ∧
      (∀ x ∈ h.stack, x.sid = w.is.sid → x.age = 0) ∧ h.regs = g.regs ∧ h.p = g.p) ∧
  (∀ (f : NapF) (s : State) (w : W) (g : Group), Map.get s.cur.groups w.gk = some g → w.g.lighter = none → w.checkSrcs [0] = none →
    (s.word (.nap f) = some w → s.cur.onStrand w.gk w.is.sid →
      ∃ t, exec (.nap f) s = .next t ∧ s.ends t ∧ t.cur.parkedIn w.gk w.is.sid (.nap (s.cur.clock + (w.dat 0 0).toNat % 2 ^ 20))) ∧
    (s.word (.evon f) = some w → exec (.evon f) s = .next (s.doneGroup w fun g =>
      { g with ev := { g.ev with enable := (w.dat 0 0).setWidth 6 } }))) ∧
  (∀ (i : Instr) (s : State) (w : W) (g : Group), s.word i = some w → Map.get s.cur.groups w.gk = some g →
    w.g.lighter = none → g.lighter = none → (s.cur.core w.g.core).tracker.length < 256 →
    ((∃ f, i = .tail f) ∨ (∃ f, i = .exit f ∧
      let (h, gone) := exitLanes w.g w.real
      ∀ x ∈ w.g.stack, (x.mask &&& ~~~ gone) &&& ~~~ h = 0)) →
    ∃ t h, exec i s = .next t ∧ s.ends t ∧ Map.get t.cur.groups w.gk = some h ∧ h.status = .retired ∧ h.stack = [] ∧ h.pending = []) ∧
  (∀ (f : C0) (s : State) (w : W) (g : Group), s.word (.exit f) = some w → Map.get s.cur.groups w.gk = some g →
    w.g.stack.length ≤ 16 →
    (∃ x ∈ w.g.stack, let (h, gone) := exitLanes w.g w.real
      (x.mask &&& ~~~ gone) &&& ~~~ h ≠ 0) →
    ∃ t h, exec (.exit f) s = .next t ∧ s.ends t ∧ Map.get t.cur.groups w.gk = some h ∧ h.status = g.status ∧
      h.helper = (exitLanes w.g w.real).1 ∧ (∀ x ∈ h.stack, x.mask &&& (exitLanes w.g w.real).2 = 0))

/-! ### Haar and matrix -/

/-- The S-transform is exactly invertible: the inverse of what the forward transform of a segment of words leaves is the
segment, at every depth (R320). -/
def Obligations.TransformInverts : Prop :=
  ∀ (rm : Rm) (ftz : Bool) (d : Nat) (x : List Nat), x.length = 2 ^ d → (∀ v ∈ x, v < 2 ^ 32) →
    let y := (fwdSeg elI32 rm ftz d x).1
    (invSeg elI32 rm ftz y d (y.take 1) [0]).1 = x

/-- The Haar instructions complete: HFWD and HREC write the transform of the register's segments, of a pair the average and the
difference, HTHR the coefficients that survive, HBIAS adds to each segment's average; HST stores the rows and groups of a strip, HLD and HLDX deliver what a strip
reads as (R320 to R325, R330 to R334). -/
def Obligations.HaarInstructions : Prop :=
  (∀ (f : HfwdF) (s : State) (w : W), s.word (.hfwd f) = some w → w.haarReady f.depth.val → w.srcDom 0 = 0 →
    let rs := transformReg false (haarEl (w.srcFmt 0)) w.g.rm w.g.ftz f.depth.val (w.src 0)
    exec (.hfwd f) s = .next (s.doneGroup w fun g =>
      (g.writeResult (vxSlots f.d) w.mask (wordAt (rs.flatMap (·.1)))
        (tagOf (if w.srcFmt 0 = fmtI32 then fmtI32 else fmtF32) f.depth.val)).orFlags (segFlags f.depth.val w.real rs))) ∧
  (∀ (f : HrecF) (s : State) (w : W), s.word (.hrec f) = some w → w.haarReady (w.srcDom 0) →
    let d := w.srcDom 0
    let rs := transformReg true (haarEl (w.srcFmt 0)) w.g.rm w.g.ftz d (w.src 0)
    exec (.hrec f) s = .next (s.doneGroup w fun g =>
      if d = 0 then g.writeResult (vxSlots f.d) w.mask (fun l => w.srcAt 0 l) (tagOf (w.srcFmt 0) 0)
      else (g.writeResult (vxSlots f.d) w.mask (wordAt (rs.flatMap (·.1))) (tagOf (w.srcFmt 0) 0)).orFlags (segFlags d w.real rs))) ∧
  (∀ (f : HthrF) (s : State) (w : W), s.word (.hthr f) = some w → w.haarReady (w.srcDom 0) → w.srcDom 0 ≠ 0 →
    (w.src 0).length = w.g.width → w.g.width % 2 ^ w.srcDom 0 = 0 → (w.g.ht.all fun t => t.good) = true →
    -- a detail of level j survives when its magnitude is above the threshold of the level, or one of the two is a NaN
    let d := w.srcDom 0
    let kept := fun (l r : Nat) =>
      let x := w.dat 0 l
      let t := (wordAt w.g.ht r).data
      if w.srcFmt 0 = 1 then decide (t.toNat < x.toInt.natAbs)
      else f32Nan x || f32Nan t || decide (t.toNat % 2 ^ 31 < x.toNat % 2 ^ 31)
    let v := fun (l : Nat) =>
      let c := l % 2 ^ d
      if c = 0 then w.dat 0 l
      else match bandReg f.sel.val (d - Nat.log2 c) with
        | none => w.dat 0 l
        | some r => if kept l r then w.dat 0 l else 0
    ∃ out : Nat → Word, (∀ l, l < w.g.width → out l = v l) ∧ exec (.hthr f) s = .next (s.doneGroup w fun g =>
      g.writeResult (vxSlots f.d) w.mask (fun l => TWord.of (out l)) ((w.tag 0).getD 0))) ∧
  (∀ (f : HbiasF) (s : State) (w : W) (td : BitVec 8), s.word (.hbias f) = some w → w.tag 0 = some td →
    (fmtOfTag td = fmtI32 ∨ fmtOfTag td = fmtF32) → 2 ^ domOfTag td ≤ w.g.width → w.untyped = none →
    w.checkFmt [1] (fun _ x => x == 0 || x == fmtOfTag td) = none → w.zeroDom [1] = none → w.sound [0, 1] = true → w.quiet = true →
    let r := fun l => if fmtOfTag td = fmtI32 then (w.dat 0 l + w.dat 1 l, (0 : FFlags))
      else (BitVec.ofNat 32 (w.toF32 w.g.rm (Sys2Proof.Machine.Num.add w.g.rm (w.f32 0 l) (w.f32 1 l))).1,
        (w.toF32 w.g.rm (Sys2Proof.Machine.Num.add w.g.rm (w.f32 0 l) (w.f32 1 l))).2)
    exec (.hbias f) s = .next (s.doneGroup w fun g =>
      (g.writeResult (dstSlots f.d) w.mask
        (fun l => TWord.of (if l % 2 ^ domOfTag td = 0 then (r l).1 else w.dat 0 l)) td).orFlags
        (orAll (((lanesOf w.real).filter fun l => l % 2 ^ domOfTag td == 0).map fun l => (r l).2)))) ∧
  (∀ (f : HstF) (s : State) (w v : W) (ws : List TWord), s.word (.hst f) = some w → w.acquireParked = false → w.noRoom = false → w.is.dry = false → w.needFull = none →
    w.checkUni w.u.us = none → w.readRecord (w.pair f.gb.val) = .ok (ws, v) →
    let r := layoutOf ws
    layoutOk (w.pair f.gb.val) ws = true → r.haarOk = true → r.segLen ≤ w.g.width →
    let t0 := (w.tag 0).getD 0
    (∀ k, k < 8 → (w.tag k).getD 0 = t0) → (fmtOfTag t0 = 0 ∨ fmtOfTag t0 = if r.isInt then fmtI32 else fmtF32) →
    (domOfTag t0 = 0 ∨ domOfTag t0 = r.hlevels) → w.haarCheck (List.range 8) (bandRegs r.hlevels r.hthrsel) = none →
    let idx := coordsOf fun i => w.gWord (4 * f.gc.val + i)
    let segs := r.strip w.g.width idx
    stripAlign r idx segs = none → w.quiet = true →
    let out := ((segs.filter (w.segReal r)).map (storeSegment r w.g w.real f.sat (domOfTag t0 == 0) ((List.range 8).map w.src))).flatMap (·.1)
    let ps := (v.wordPlaces (out.map (·.1)) .write).1
    allPlaced ps 4 = true →
    ∃ t, exec (.hst f) s = .next t ∧ s.ends t ∧
      ∀ k, k < out.length → ∀ pa pri, (ps.map (·.2))[k]? = some (.pa pa pri) →
        (∀ j pb pri, k < j → (ps.map (·.2))[j]? = some (.pa pb pri) → pb ≠ pa) →
        some (t.cur.seenWord w.g.core pa) = (out.map (·.2))[k]?) ∧
  (∀ (i : Instr) (f : HldF) (inv : Bool) (s : State) (w v : W) (ws : List TWord),
    ((i = .hld f ∧ inv = false) ∨ (i = .hldx f ∧ inv = true)) → s.word i = some w → w.acquireParked = false → w.noRoom = false →
    w.needFull = none → w.checkUni w.u.us = none → w.readRecord (w.pair f.gb.val) = .ok (ws, v) →
    let r := layoutOf ws
    layoutOk (w.pair f.gb.val) ws = true → r.haarOk = true → r.segLen ≤ w.g.width →
    let idx := coordsOf fun i => w.gWord (4 * f.gc.val + i)
    let segs := r.strip w.g.width idx
    stripAlign r idx segs = none → w.quiet = true →
    placesProt ((segs.filter (w.segReal r)).flatMap (v.m.segPlaces (v.acc r.mscPri false none) w.gk w.g.source r)) = none →
    let rs := (v.loadSegments (v.acc r.mscPri false none) r inv segs).1
    (∀ e ∈ rs, ∃ c fl m, e.2 = .ok c fl m) →
    ∃ t id, exec i s = .next t ∧ s.ends t ∧
      t.cur.awaits w.gk id (List.range' f.d.val 8) w.mask (tagOf (if r.isInt then fmtI32 else fmtF32) (if inv then 0 else r.hlevels))
        fun j l => stripWord r rs j l) ∧
  -- one level of the transform: the average and the difference of each pair, and back
  (∀ (rm : Rm) (ftz : Bool) (ws : List TWord) (k : Nat), (ws.all fun t => t.good) = true → 2 * k + 2 ≤ ws.length → ws.length % 2 = 0 →
    let a := (wordAt ws (2 * k)).data
    let b := (wordAt ws (2 * k + 1)).data
    let out := fun (inv : Bool) (el : ElFmt) (l : Nat) => wordAt ((transformReg inv el rm ftz 1 ws).flatMap (·.1)) l
    let num := fun (x : Word) => fmF32.input ftz x.toNat
    let f32 := fun (x : Sys2Proof.Machine.Num) => TWord.of (BitVec.ofNat 32 (fmF32.round rm ftz false x).1)
    out false elI32 (2 * k) = TWord.of (b + (a - b).sshiftRight 1) ∧ out false elI32 (2 * k + 1) = TWord.of (a - b) ∧
    out true elI32 (2 * k) = TWord.of (b + (a - b.sshiftRight 1)) ∧ out true elI32 (2 * k + 1) = TWord.of (a - b.sshiftRight 1) ∧
    out false elF32 (2 * k) = f32 (Sys2Proof.Machine.Num.add rm (num a) (num b)).half ∧
    out false elF32 (2 * k + 1) = f32 (Sys2Proof.Machine.Num.add rm (num a) (num b).neg).half ∧
    out true elF32 (2 * k) = f32 (Sys2Proof.Machine.Num.add rm (num a) (num b)) ∧
    out true elF32 (2 * k + 1) = f32 (Sys2Proof.Machine.Num.add rm (num a) (num b).neg))

/-- The matrix instructions complete on a core whose engine is free or the block's, with room in its queue: MCFG sets the
group's configuration; MZERO, MLOADB, MMA, MMAG and MREAD append their entry, with the images, rows and scales as the
scratchpad holds them now; MREAD's registers await the words of its rows (R300 to R303, R310, R313 to R317). -/
def Obligations.MatrixInstructions : Prop :=
  ∀ (s : State) (w : W), w.engineReady = true → w.g.lighter = none → w.fullMask = true → w.uniSound = true → w.acquireParked = false →
    -- the tags of a slot and a tile fit the configuration, the descriptor and its rows are aligned and inside the scratchpad
    let tagsFit := fun (tile slot hd : Nat) =>
      let a := (Map.getD w.tagView.bslots slot { words := [], tag := 0 }).tag
      let b := (tileAt w.tagView tile).tag
      fmtOfTag a = mcB w.g.matcfg ∧ domOfTag a = 0 ∧ (b = 0 ∨ fmtOfTag b = mcFmt w.g.matcfg ∧ domOfTag b = hd)
    let rowsFit := fun (d : ADesc) (q4 : Bool) (n : Nat) => d.stride % 16 = 0 ∧ d.aoff % 16 = 0 ∧ (q4 = true → d.soff % 16 = 0) ∧
      (n ≠ 0 → d.aoff + d.stride * (n - 1) + 128 ≤ w.scratch ∧ (q4 = true → d.soff + 16 * n ≤ w.scratch))
    let put := fun (t : State) (es : List MatEntry) => t.cur.core w.g.core = { w.engine with queue := w.engine.queue ++ es }
    (∀ f, s.word (.mcfg f) = some w → mcOk (w.dat 0 0) = true →
      ∃ t, exec (.mcfg f) s = .next t ∧ s.ends t ∧ put t [] ∧
        ∀ g, Map.get s.cur.groups w.gk = some g → Map.get t.cur.groups w.gk = some { g with matcfg := w.dat 0 0 }) ∧
    (∀ f, s.word (.mzero f) = some w →
      ∃ t, exec (.mzero f) s = .next t ∧ s.ends t ∧ t.cur.groups = s.cur.groups ∧ put t [.mzero f.t.val]) ∧
    (∀ f, s.word (.mloadb f) = some w →
      let off := w.gWord f.g.val
      let so := w.gWord (f.g.val + 1)
      off % 16 = 0 → off + 16384 ≤ w.scratch → (f.fmt = .q4 → so % 16 = 0 ∧ so + 2048 ≤ w.scratch) →
      ∃ t, exec (.mloadb f) s = .next t ∧ s.ends t ∧ t.cur.groups = s.cur.groups ∧
        put t [.loadB f.slot.val (tagOf (fmtCode f.fmt) 0) (w.spad off 4096) (if f.fmt = .q4 then some (w.spad so 512) else none)]) ∧
    (∀ f, s.word (.mma f) = some w →
      let cfg := w.g.matcfg
      let q4 := mcMode cfg == .q4
      let d := w.aDesc (4 * f.g.val)
      let p : MatPart := { tile := f.t.val, slot := f.slot.val, m0 := d.row0, rows := d.m, hd := d.hd, a := [], scales := []
                           surv := if d.hd ≠ 0 then wordAt (w.spad d.bmoff 1) 0 else TWord.zero }
      matFields cfg f.sat f.slot.val = false → d.reserved = 0 → 128 ≤ d.stride → d.row0 + d.m ≤ 32 →
      tagsFit f.t.val f.slot.val d.hd → rowsFit d q4 p.fed.length → (d.hd ≠ 0 → d.bmoff % 4 = 0 ∧ d.bmoff + 4 ≤ w.scratch) →
      ∃ t, exec (.mma f) s = .next t ∧ s.ends t ∧ t.cur.groups = s.cur.groups ∧
        put t [.mma [{ p with a := (w.rowsOf d q4 0 p.fed.length).1, scales := (w.rowsOf d q4 0 p.fed.length).2 }] cfg f.sat]) ∧
    (∀ f, s.word (.mmag f) = some w →
      let cfg := w.g.matcfg
      let q4 := mcMode cfg == .q4
      let d := w.aDesc (4 * f.g.val)
      let n := f.n.val + 1
      let ts := w.spad d.bmoff n
      let es := ts.map gEntry
      matFields cfg f.sat 0 = false → d.reserved = 0 → d.m = 1 → d.row0 = 0 → d.hd = 0 → 128 ≤ d.stride →
      d.bmoff % 4 = 0 → d.bmoff + 4 * n ≤ w.scratch → (ts.all fun t => t.good) = true → (es.any fun e => e.bad q4) = false →
      tableTraps cfg w.tagView es = none → rowsFit d q4 (es.map (·.rows)).sum →
      ∃ t, exec (.mmag f) s = .next t ∧ s.ends t ∧ t.cur.groups = s.cur.groups ∧
        put t [.mma (w.tableParts d q4 0 es) cfg f.sat]) ∧
    (∀ f, s.word (.mread f) = some w →
      let nr := if f.two then 2 else 1
      let slots := List.range' f.d.val (128 / w.g.width * nr)
      let tile := tileAt w.tileView f.t.val
      let words := (List.range nr).flatMap fun j => (List.range 128).map fun n => tile.word (f.row.val + j) n
      f.row.val + nr ≤ 32 → f.d.val + 128 / w.g.width * nr ≤ w.g.nregs → w.quiet = true →
      (words.all fun t => t.good) = true → slots ≠ [] →
      ∃ t, exec (.mread f) s = .next t ∧ s.ends t ∧ put t [.mread w.gk s.cur.nextId] ∧
        t.cur.awaits w.gk s.cur.nextId slots (widthMask w.g.width) tile.tag fun k l => wordAt words (w.g.width * k + l))

/-! ### Commands of the engines, grids, the system -/

/-- Every engine-command instruction completes: its command is pending under a new number with the queue and kind of the
instruction, its entry is appended to the queue, and it is a member of the group's batch; a full queue holds the strand. First
for whatever passes the instruction's checks, then for each of TCOPY, TSTORE, XCOPY, HREAD, QGATH, QRED, QCVT, QUNPK, QTLOAD, NPUT,
NGET and NATOM with the conditions of its entry on the state and its operands (R219, R336, R338, R354, R355, R386, R412 to R414). -/
def Obligations.EngineCommands : Prop :=
  (∀ (i : Instr) (s : State) (w v : W) (c : Ctx) (x : Command), s.word i = some w → w.ctx = some c →
    w.commandOf c i = some (.ok (v, x)) → w.dataParked = false →
    match (v.release .device).m.appendEntries c x.q [x.entry] with
    | none => exec i s = .next (holdState s w.is w.m0)
    | some m => ∃ t k cmd, exec i s = .next t ∧ s.ends t ∧ Map.get t.cur.cmds k = some cmd ∧ some cmd.kind = commandKind i ∧
        cmd.ctx = w.g.ctx ∧ cmd.group = w.gk ∧ cmd.queue = x.q ∧ cmd.batch = w.g.batch ∧ cmd.state = .pending ∧
        t.cur.mem = m.mem ∧
        ∀ g, Map.get s.cur.groups w.gk = some g → ∃ h, Map.get t.cur.groups w.gk = some h ∧ h.members = g.members ++ [k] ∧ h.regs = g.regs) ∧
  -- TCOPY and TSTORE
  (∀ (f : TcopyF) (s : State) (w v : W) (c : Ctx) (ws : List TWord), w.mayIssue c (copyQ w.g.copyQueue) →
    w.readRecord (w.pair f.gr.val) = .ok (ws, v) →
    let r := layoutOf ws
    let org := coordsOf fun i => w.gWord (4 * f.gc.val + i)
    let off := w.gWord (2 * f.gs.val)
    let hi := w.gWord (2 * f.gs.val + 1)
    let box0 := r.box.getD 0 1
    layoutOk (w.pair f.gr.val) ws = true → v.berthOk r = true → box0 * r.elembits % 32 = 0 →
    (r.comp = 1 → org.getD 0 0 % 32 = 0 ∧ box0 % 32 = 0) → r.rowsAligned org 4 = true → off % 64 = 0 →
    (w.m0.spadAt w.g.block (off + hi % 65536 * 2 ^ 32) (max 1 (ceilDiv r.imageSize 64) * 64)).isSome = true →
    w.barrierOk (!f.nb) (w.pair f.gq.val) →
    (s.word (.tcopy f) = some w → hi < 2 ^ 16 → (r.hlevels ≠ 0 → r.haarOk = true ∧ org.getD 0 0 % 8 = 0 ∧ box0 % 8 = 0) →
      s.issues (.tcopy f) w v c (copyQ w.g.copyQueue)) ∧
    (s.word (.tstore f) = some w → hi < 2 ^ 23 → r.hlevels = 0 → (hi.testBit 22 = true → r.berth = 0) →
      s.issues (.tstore f) w v c (copyQ w.g.copyQueue))) ∧
  (∀ (f : XcopyF) (s : State) (w : W) (c : Ctx), s.word (.xcopy f) = some w → w.mayIssue c (copyQ w.g.copyQueue) → w.g.lighter = none →
    let t := w.gWord f.gt.val
    let n := 2 ^ bits t 13 12
    (∀ i, i < n → (w.g.reg (f.a.val + i)).empty = 0 ∧ ∀ l, lane w.real l = true → (wordAt (w.g.reg (f.a.val + i)).lanes l).good = true) →
    (∀ l, lane w.real l = true → (w.srcAt 0 l).good = true) →
    t < 2 ^ 14 → f.a.val % n = 0 → f.d.val % n = 0 → f.a.val + n ≤ w.g.nregs → f.d.val + n ≤ w.g.nregs → t % 2 ^ 12 < w.groupCount →
    s.issues (.xcopy f) w w c (copyQ w.g.copyQueue)) ∧
  (∀ (f : HreadF) (s : State) (w v : W) (c : Ctx) (gr : Grid) (ws : List TWord), s.word (.hread f) = some w →
    w.mayIssue c (copyQ w.g.copyQueue) → w.g.lighter = none → Map.get w.m0.grids w.g.grid = some gr → recLight gr.record ≠ 0 →
    w.readRecord (w.pair f.gr.val) = .ok (ws, v) →
    let r := layoutOf ws
    let org := coordsOf fun i => w.gWord (4 * f.gc.val + i)
    let bar := w.pair f.gq.val
    layoutOk (w.pair f.gr.val) ws = true → r.hlevels = 0 → r.berth = 0 → r.box.getD 0 1 * r.elembits % 2048 = 0 → r.bursts ≤ 2 ^ 24 →
    (f.bar = true → bar / 2 ^ 32 % 65536 = 0) → w.handlerOk 1 (w.gWord (2 * f.gh.val)) = true → r.rowsAligned org 256 = true →
    w.barrierOk f.bar bar → (v.m.core w.g.core).hreads.length < openReads → s.issues (.hread f) w v c (copyQ w.g.copyQueue)) ∧
  -- the quay commands
  (∀ (i : Instr) (kind : CmdKind) (f : QuayF) (s : State) (w v1 v : W) (c : Ctx) (ws : List TWord) (rs : List (List TWord)),
    (i, kind) ∈ [(.qgath f, .qgath), (.qred f, .qred), (.qcvt f, .qcvt), (.qunpk f, .qunpk)] → s.word i = some w →
    w.mayIssue c (quayQ f.q.val) → w.pair f.gd.val % 64 = 0 → w.barrierOk f.bar (w.pair f.gq.val) →
    (w.release .device).readWords (w.pair f.gd.val) 16 = .ok (ws, v1) → v1.readAll (namedRecords ws) = .ok (rs, v) → quayDescOk kind ws = true →
    quayRecsOk kind (quayDesc ws) ((quayDesc ws).present.zip rs) = true → s.issues i w v c (quayQ f.q.val)) ∧
  (∀ (f : QtlF) (s : State) (w v : W) (c : Ctx) (ws : List TWord), s.word (.qtload f) = some w → w.mayIssue c (quayQ f.q.val) →
    let n := w.gWord f.gc.val
    w.pair f.gt.val % 4 = 0 → (w.release .device).readWords (w.pair f.gt.val) n = .ok (ws, v) → n % 16 = 0 → 16 ≤ n → n ≤ 4096 →
    s.issues (.qtload f) w v c (quayQ f.q.val)) ∧
  -- the link commands
  (∀ (i : Instr) (q gl gr n : Nat) (s : State) (w : W) (c : Ctx),
    ((∃ f : NputF, i = .nput f ∧ (q, gl, gr, n) = (f.q.val, f.gl.val, f.gr.val, w.gWord f.gn.val)) ∨
      (∃ f : NgetF, i = .nget f ∧ (q, gl, gr, n) = (f.q.val, f.gl.val, f.gr.val, w.gWord f.gn.val))) →
    s.word i = some w → w.mayIssue c (linkQ q) → w.importBerth (w.remoteBerth gr) = true → n % 4 = 0 → 4 ≤ n → n ≤ 2 ^ 30 →
    w.pair gl % 4 = 0 → w.remoteOff gr % 4 = 0 → s.issues i w w c (linkQ q)) ∧
  (∀ (f : NatomF) (s : State) (w : W) (c : Ctx), s.word (.natom f) = some w → w.mayIssue c (linkQ f.q.val) →
    w.importBerth (w.remoteBerth f.gr.val) = true → w.pair f.gl.val % 16 = 0 → w.remoteOff f.gr.val % 8 = 0 →
    s.issues (.natom f) w w c (linkQ f.q.val))

/-- CDONE, CWAIT, LAUNCH and ENQ complete. CDONE sends the OR of its block's bit on its way; CWAIT goes on, with the bits, when
the grid has failed or every lane's bit is set, and else parks; LAUNCH appends the records of the first lanes the queue has
room for and tells each lane; ENQ appends all its entries or none and tells which (R171 to R174, R393). -/
def Obligations.GridInstructions : Prop :=
  (∀ (f : C0) (s : State) (w : W) (gr : Grid) (b : Block), s.word (.cdone f) = some w → w.dataParked = false →
    Map.get w.m0.grids w.g.grid = some gr → w.block = some b →
    ∃ t, exec (.cdone f) s = .next t ∧ s.ends t ∧ t.cur.groups = s.cur.groups ∧
      (recDoneMap gr.record = 0 → t.cur.parked = s.cur.parked) ∧
      (recDoneMap gr.record ≠ 0 → ∃ k r, Map.get t.cur.parked k = some r ∧ r.va = recDoneMap gr.record + 8 + b.index / 32 * 4 ∧
        r.group = w.gk ∧ r.ctx = w.g.ctx ∧ r.access = 2 ∧ r.flight = true ∧ r.instr = some (.cdone f))) ∧
  (∀ (f : CwaitF) (s : State) (w v : W) (h : TWord) (m : Machine) (bs : List (Nat × Bool)), s.word (.cwait f) = some w →
    w.g.lighter = none → w.acquireParked = false → w.syncParked = false → w.memCheck [0] = none → w.quiet = true →
    let base := w.pair f.g.val
    let idx := fun l => (w.dat 0 l).toNat
    w.dataParkedAt base = false → (∀ l, lane w.real l = true → w.dataParkedAt (doneWord base (idx l)).1 = false) →
    base % 65536 = 0 → (∀ l, lane w.real l = true → idx l < 524224) → w.bitmapWord base = .ok h m →
    w.readsTrap (lanesOf w.real) w.noBerthAt (fun l => (doneWord base (idx l)).1) = none →
    ({ w with m := m } : W).bitmapLanes base idx (lanesOf w.real) = .ok (bs, v) →
    (h.data.toNat % 256 = 3 ∨ bs.all (·.2) = true → exec (.cwait f) s = .next (s.advance
      ((v.acquire .device).m.updGroup w.gk fun g => g.writePred f.p w.mask fun l => bs.any fun e => e.1 == l && e.2))) ∧
    (h.data.toNat % 256 ≠ 3 → bs.all (·.2) = false → v.m.onStrand w.gk w.is.sid →
      ∃ t, exec (.cwait f) s = .next t ∧ s.ends t ∧ t.cur.parkedIn w.gk w.is.sid .cwait)) ∧
  (∀ (f : LaunchF) (s : State) (w v : W) (c : Ctx) (rs : List (List TWord)), s.word (.launch f) = some w → w.ctx = some c →
    w.g.lighter = none → w.acquireParked = false → w.dataParked = false → w.untyped = none → w.quiet = true →
    let q := launchQ f.q.val
    let lanes := if f.a.isRight then w.leader.toList else lanesOf w.real
    let addr := fun l => match f.a with
      | .inl _ => nat64 (w.dat 0 l) (w.dat 1 l)
      | .inr g => w.pair g.val
    (w.m0.queueDesc c q).open_ = true →
    (if f.a.isRight then w.needFull = none ∧ w.checkUni w.u.us = none
      else w.checkSrcs [0, 1] = none ∧ w.readsTrap lanes (fun _ p => p) addr = none) →
    (∀ l ∈ lanes, addr l % 64 = 0) → (w.release .device).readRecords (lanes.map addr) = .ok (rs, v) →
    let n := min ((v.m.queueDesc c q).free c q) rs.length
    exec (.launch f) s = .next (s.advance (((v.m.appendEntries c q (rs.take n)).getD v.m).updGroup w.gk fun g =>
      g.writePred f.p w.mask fun l => if f.a.isRight then decide (1 ≤ n) && !lanes.isEmpty else (lanes.take n).contains l))) ∧
  (∀ (f : EnqF) (s : State) (w v : W) (c : Ctx) (rs : List (List TWord)), w.ctx = some c → w.g.lighter = none →
    w.acquireParked = false → w.dataParked = false → w.needFull = none → w.checkUni w.u.us = none → w.pair f.ga.val % 64 = 0 →
    w.quiet = true → (∀ i, i ≤ f.n.val →
      (w.m0.place w.g.core w.g.ctx (w.pair f.ga.val + 64 * i) 4 .read w.g.source).1.protOf = none) →
    (w.release .device).readRecords ((List.range (f.n.val + 1)).map fun i => w.pair f.ga.val + 64 * i) = .ok (rs, v) →
    (s.word (.enqL f) = some w → (w.m0.queueDesc c (launchQ f.q.val)).open_ = true →
      let a := v.m.appendEntries c (launchQ f.q.val) rs
      exec (.enqL f) s = .next (s.advance ((a.getD v.m).updGroup w.gk fun g => g.writePred f.p w.mask fun _ => a.isSome))) ∧
    (s.word (.enqQ f) = some w → (w.m0.queueDesc c (quayQ f.q.val)).open_ = true →
      match v.m.appendEntries c (quayQ f.q.val) (rs.map (enqEntry w.g.gid w.g.batch)) with
      | none => exec (.enqQ f) s = .next (s.advance (v.m.updGroup w.gk fun g => g.writePred f.p w.mask fun _ => false))
      | some m => ∃ t, exec (.enqQ f) s = .next t ∧ s.ends t ∧ t.cur.mem = m.mem ∧
          (∀ j, j ≤ f.n.val → ∃ cmd, Map.get t.cur.cmds (m.nextId + j) = some cmd ∧ cmd.group = w.gk ∧ cmd.ctx = w.g.ctx ∧
            cmd.queue = quayQ f.q.val ∧ cmd.state = .pending ∧ cmd.batch = w.g.batch) ∧
          ∀ g, Map.get s.cur.groups w.gk = some g → ∃ h, Map.get t.cur.groups w.gk = some h ∧
            h.members = g.members ++ List.range' m.nextId (f.n.val + 1) ∧ h.p = (g.writePred f.p w.mask fun _ => true).p))

/-- The system instructions complete. SAVEPT parks at a save that is asked for, and else does nothing; RETT tells whether the
frame held a trapped group, and one of a running context is live again, retired, or faults its context, by the mode, while one of a
context being saved, saved or faulted takes the mode when it runs again, and parks the strand until then; PROBE delivers what the walk
of memory finds, not the translation caches (log 57); the TLBINV forms park until their effect; BOPEN sends its request to the harbour
master, of a block whose words all pass their checks the words, and BREVOKE of an open berth of the owner moves its generation, while
one that does not fit, or whose block holds no request, is only sent (log 55) (R293, R297, R298, R372, R382, R383, R407, R415). -/
def Obligations.SystemInstructions : Prop :=
  (∀ (f : SaveptF) (s : State) (w : W), s.word (.savept f) = some w → w.g.lighter = none → f.live.val ≤ w.g.nregs →
    let asked := (w.ctx.map (·.preq)).getD false && w.mask == w.g.present
    (asked = false → exec (.savept f) s = .next (s.advance s.cur)) ∧
    (asked = true → s.cur.onStrand w.gk w.is.sid →
      ∃ t, exec (.savept f) s = .next t ∧ s.ends t ∧ t.cur.parkedIn w.gk w.is.sid .savept)) ∧
  (∀ (i : Instr) (f : RettF) (mode : Nat) (s : State) (w : W) (own c : Ctx) (ck : Nat),
    ((i = .rettResume f ∧ mode = 0) ∨ (i = .rettSkip f ∧ mode = 1) ∨ (i = .rettEnd f ∧ mode = 2) ∨ (i = .rettFault f ∧ mode = 3)) →
    s.word i = some w → w.ctx = some own → w.g.lighter = none → w.checkUni w.u.us = none → w.leader.isSome = true →
    w.dataParked = false → w.quiet = true →
    let a := w.pair f.gf.val
    let v := (w.release .device).acquire .device
    a % 65536 = 0 → w.m0.frameCtx own.owner a = some (ck, c) → v.m.frameCtx own.owner a = some (ck, c) →
    let ok := v.m.frameByte a 7 == 1
    ∃ t, exec i s = .next t ∧ s.ends t ∧
      (∀ g h, v.m.trappedAt ck a = none → Map.get v.m.groups w.gk = some g → Map.get t.cur.groups w.gk = some h →
        h.p = (g.writePred f.p w.mask fun _ => ok).p) ∧
      (ok = false → t.cur.mem = v.m.mem) ∧
      (∀ gk g, v.m.trappedAt ck a = some (gk, g) → gk ≠ w.gk → g.lighter = none → Map.get v.m.groups gk = some g →
        ok = true → c.state = .running →
        (mode ≤ 1 → ∃ h, Map.get t.cur.groups gk = some h ∧ h.status = .live ∧ h.regs = g.regs ∧ h.p = g.p) ∧
        (mode = 2 → ∃ h, Map.get t.cur.groups gk = some h ∧ h.status = .retired) ∧
        (mode = 3 → ∀ x, Map.get t.cur.ctxs g.ctx = some x → x.state = .faulted)) ∧
      (∀ gk g, v.m.trappedAt ck a = some (gk, g) → v.m.onStrand w.gk w.is.sid → ok = true →
        c.state = .yielding ∨ c.state = .saved ∨ c.state = .faulted →
        t.cur.parkedIn w.gk w.is.sid (.rett gk) ∧ ∀ x, Map.get t.cur.ctxs ck = some x → Map.get x.modes gk = some mode)) ∧
  (∀ (f : ProbeF) (s : State) (w : W), s.word (.probe f) = some w → w.untyped = none → w.sound [0, 1] = true →
    let out := fun l => probeWords ((w.ctx.map (·.priv)).getD false) (nat64 (w.dat 0 l) (w.dat 1 l))
      (w.m0.probe w.g.ctx (nat64 (w.dat 0 l) (w.dat 1 l))).1
    ∃ t, exec (.probe f) s = .next t ∧ s.ends t ∧
      t.cur.awaits w.gk s.cur.nextId [2 * f.d.val, 2 * f.d.val + 1] w.mask 2 fun k l =>
        TWord.of (BitVec.ofNat 32 (if k = 0 then (out l).1 else (out l).2))) ∧
  (∀ (i : Instr) (f : TlbF) (mode : Nat) (s : State) (w : W) (own x : Ctx),
    ((i = .tlbinv f ∧ mode = 0) ∨ (i = .tlbinvR f ∧ mode = 1) ∨ (i = .tlbinvAbort f ∧ mode = 2)) → s.word i = some w →
    w.g.lighter = none → w.checkUni w.u.us = none → w.dataParked = false → w.ctx = some own →
    let base := w.pair f.gb.val
    let target := w.gWord (2 * f.gc.val + 1)
    base % 65536 = 0 → target < 64 → Map.get w.m0.ctxs target = some x → x.owner = own.owner → s.cur.onStrand w.gk w.is.sid →
    ∃ t, exec i s = .next t ∧ s.ends t ∧ t.cur.parkedIn w.gk w.is.sid (.tlbinv target base (w.gWord (2 * f.gc.val)) mode)) ∧
  (∀ (f : BreqF) (s : State) (w v : W) (c : Ctx) (ws : List TWord), w.ctx = some c → w.needFull = none → w.checkUni w.u.us = none →
    w.pair f.ga.val % 64 = 0 → w.blockTrap (w.pair f.ga.val) = none → w.acquireParked = false → w.dataParked = false →
    (w.release .device).readWords (w.pair f.ga.val) 8 = .ok (ws, v) →
    let sound := ws.all fun t => t.good
    let req := fun (o : Bool) => ({ ctx := w.g.ctx, addr := w.pair f.ga.val, open_ := o
                                    words := if sound then ws.map (·.data) else [] } : HmReq)
    (s.word (.bopen f) = some w → exec (.bopen f) s = .next (s.advance { v.m with hmReqs := v.m.hmReqs ++ [req true] })) ∧
    (s.word (.brevoke f) = some w → sound = false →
      exec (.brevoke f) s = .next (s.advance { v.m with hmReqs := v.m.hmReqs ++ [req false] })) ∧
    (s.word (.brevoke f) = some w → sound = true →
      let b := (wordAt ws 0).data.toNat
      let w1 := (wordAt ws 1).data.toNat
      match Map.get v.m.berths b with
      | some r =>
        if r.owner = c.owner ∧ r.state = .opened ∧ w1 < 2 ∧ (ws.drop 2).all (fun t => t.data == 0) = true then
          ∃ t n, exec (.brevoke f) s = .next t ∧ s.ends t ∧ Map.get t.cur.berths b = some n ∧ n.state = .revoking ∧
            n.revoke.isSome = true ∧ (n.gen = r.gen + 1 ∨ n.retired = true)
        else exec (.brevoke f) s = .next (s.advance { v.m with hmReqs := v.m.hmReqs ++ [req false] })
      | none => exec (.brevoke f) s = .next (s.advance { v.m with hmReqs := v.m.hmReqs ++ [req false] })))

/-! ### Events -/

/-- Bring-up, the life cycle, the management port. BRING_UP first completes a life-cycle change that is under way (log 73); a RETIRED
module then goes to safe hold; else it checks the image against the vendor's key and the rollback counter. Each test passes on to the
next step or leaves the module in safe hold with a report; CLOCK_START makes it READY with CLOCK 0. Reset and power loss keep what the
fuses hold. A request before READY is answered BUSY; the life cycle moves only as R435 allows, each move a full reset (R28, R160,
R430 to R437). The model's choices: which outcome a test has when the input names none (log 10); what a request that is not
allowed answers (log 72); when a change is fused and completed (log 73); the layouts of the identity record and the
attestation (log 78). -/
def Obligations.BringUpEvents : Prop :=
  ∀ s : State,
    let m := s.cur
    let f := m.fuses
    let becomes := fun (i : Instr) (n : Machine) => exec i s = .next (s.becomes n)
    -- the fuses once a change under way is completed, the boot counted; and the certificate request that provisioning emits
    let key := Config.identityKey f.serial f.boots
    let lcs := f.change.getD f.lcs
    let g : Fuses := { f with
      boots := f.boots + 1, change := none, lcs := lcs
      identity := if f.change = some .provisioned then some key else if f.change = some .retired then none else f.identity }
    let out := m.mgmtOut ++ if f.change = some .provisioned then [certRequestOf f.serial key] else []
    let held := fun (n : Machine) (unit : UnitKind) (digest : List Byte) => n.bring = .hold ∧ n.domains = [0] ∧ n.fuses = g ∧
      n.mgmtOut = out ∧ n.digest = digest ∧ ∃ r, n.report = some r ∧ r.step = 1 ∧ r.unit = unit ∧ r.digest = digest ∧
        r.boots = f.boots + 1 ∧ r.lcs = lcs
    (∀ w, s.input = .firmware w →
      (lcs = .retired → ∃ n, becomes .bringUp n ∧ held n .lifeCycle []) ∧
      (lcs ≠ .retired → w.rollback < f.rollback ∨ Config.verifies f.vendor w.image w.sig = false →
        ∃ n, becomes .bringUp n ∧ held n .firmware (imageDigest w.image)) ∧
      (lcs ≠ .retired → f.rollback ≤ w.rollback → Config.verifies f.vendor w.image w.sig = true →
        becomes .bringUp { m.restarted { g with rollback := w.rollback } with
          bring := .steps 1, domains := [0], digest := imageDigest w.image, mgmtOut := out })) ∧
    (∀ i k, (i, k) ∈ [(Instr.stackTraining, 2), (.ringLoopback, 3), (.phyLoopback, 4), (.sramBist, 5), (.residueCheckerTest, 6)] →
      m.bring = .steps (k - 1) →
      (s.input = .outcome .pass ∨ s.input = .none → ∃ n, becomes i n ∧ n.bring = .steps k ∧ n.fuses = f ∧ n.digest = m.digest ∧
        (i = .stackTraining → n.mem = Mem.empty ∧ n.domains = [0, 1]) ∧ (i = .phyLoopback → n.domains = [0, 1, 2]) ∧
        (i = .sramBist → n.cores = [] ∧ n.dieReset = [])) ∧
      (∀ u num d, s.input = .outcome (.fail u num d) → ∃ n r, becomes i n ∧ n.bring = .hold ∧ n.domains = [0] ∧ n.fuses = f ∧
        n.report = some r ∧ r.step = k ∧ r.unit = u ∧ r.number = num ∧ r.detail = d ∧ r.digest = m.digest)) ∧
    -- the harbour master's channel of each port is set up
    (m.bring = .steps 6 → ∃ n, becomes .clockStart n ∧
      n = { m.says .ready with bring := .ready, clock := 0, timerAt := 0, chans := n.chans } ∧
      (∀ p, p < 4 → Map.get n.chans (chanKey harbourOwner p) = some (Channel.new 0)) ∧
      (∀ k, (∀ p, p < 4 → k ≠ chanKey harbourOwner p) → Map.get n.chans k = Map.get m.chans k)) ∧
    becomes .powerLoss { Machine.afterReset f with supplyLost := true, netCount := m.netCount, placements := m.placements } ∧
    (m.bring = .off ∨ (∃ k, m.bring = .steps k) →
      ∀ i ∈ [Instr.resetRequest, .readFailureReport, .readIdentity], becomes i (m.says .busy)) ∧
    (m.bring = .ready ∨ m.bring = .hold →
      becomes .resetRequest ((m.says .ok).restarted f) ∧
      (∀ r, m.report = some r → becomes .readFailureReport (m.says (.report r))) ∧
      (f.lcs = .manufacture ∨ f.lcs = .retired → becomes .readIdentity (m.says (identityOf f.serial f.lcs))) ∧
      (f.lcs = .provisioned ∨ f.lcs = .deployed ∨ f.lcs = .debug →
        (∀ c, f.certificate = some c → becomes .readIdentity (m.says (.certificate c))) ∧
        (∀ k, f.certificate = none → f.identity = some k → becomes .readIdentity (m.says (certRequestOf f.serial k))))) ∧
    (∀ r, s.input = .signed r → m.bring = .ready → f.change = none →
      let moves := fun (i : Instr) (l : Lcs) (op : Option Nat) =>
        becomes i ((m.says .ok).restarted { f with change := some l, operator := op })
      let operator := r.signer = .operator ∧ f.operator.isSome = true
      (f.lcs = .manufacture ∧ r.signer = .vendor → moves .provisioningRequest .provisioned f.operator) ∧
      (¬ (f.lcs = .manufacture ∧ r.signer = .vendor) → becomes .provisioningRequest (m.says .denied)) ∧
      (f.lcs = .provisioned → moves .deployRequest .deployed (some r.key)) ∧
      (f.lcs = .debug ∧ operator → moves .deployRequest .deployed f.operator) ∧
      (f.lcs ≠ .provisioned ∧ ¬ (f.lcs = .debug ∧ operator) → becomes .deployRequest (m.says .denied)) ∧
      (f.lcs = .deployed ∧ operator → moves .debugRequest .debug f.operator) ∧
      (¬ (f.lcs = .deployed ∧ operator) → becomes .debugRequest (m.says .denied)) ∧
      ((r.signer = .vendor ∧ (f.lcs = .manufacture ∨ f.lcs = .provisioned)) ∨ operator → moves .retireRequest .retired f.operator)) ∧
    (∀ c, s.input = .certificate c → m.bring = .ready →
      let fits := (f.lcs = .provisioned ∨ f.lcs = .deployed ∨ f.lcs = .debug) ∧ f.takesCertificate c.bytes = true
      (fits → becomes .installCertificate { m.says .ok with fuses := { f with certificate := some c.bytes } }) ∧
      (¬ fits → becomes .installCertificate (m.says .badCert))) ∧
    (∀ o p bytes, s.input = .nonce o p bytes → m.listens o p (managementQp o p) .management →
      becomes .attestationRequest { m with netOut := m.netOut ++
        [if bytes.length = 32 then m.attestationOf o p bytes else .status (managementQp o p) 3] })

/-- Owners' requests, and what arrives from Ethernet. Each request that is allowed answers OK with its effect; one that names
another owner's context is DENIED and changes nothing. A frame takes its number; a SEND appends launch entries; RDMA on an
export berth is performed at the home and acknowledged, or refused; notices, exhausted retries and lost ports make import
berths STALE (R22, R26, R241, R365 to R367, R384, R385, R389, R399 to R411). The model's choices: the numbers of queue pairs, the
endpoint that an answer goes to, the harbour master's own channel (log 21); the berth that a key names (log 42); the order in which
an RDMA request is checked and answered (log 48); a BREVOKE whose block holds no request (log 55); what a request needs and
answers where the rule does not say (log 72). -/
def Obligations.OwnerEvents : Prop :=
  ∀ s : State,
    let m := s.cur
    let becomes := fun (i : Instr) (n : Machine) => exec i s = .next (s.becomes n)
    let tells := fun (n : Machine) (x : NetMsg) => { n with netOut := n.netOut ++ [x] }
    (∀ o window, s.input = .n2 o window → o < 16 → o ∉ m.owners → window ≤ 1024 → m.bring = .ready →
      (m.fuses.lcs = .deployed ∨ m.fuses.lcs = .debug) →
      ∃ n, becomes .createOwner n ∧ n.owners = insertNat o m.owners ∧ ∀ p, p < 4 →
        (∃ c, Map.get n.chans (chanKey o p) = some c ∧ c.key = { an := 0, pn := 0, seen := [] } ∧ c.old = none ∧ c.window = window ∧
          c.closed = false) ∧
        Map.get n.qps (managementQp o p) = some { owner := o, port := p, use := .management }) ∧
    (∀ r id, s.input = .create r → m.serves r.owner → (r.debug = true → m.fuses.lcs = .debug) → createFormOk r = true →
      m.freeCtxId = some id → m.superOk r id = true →
      becomes .createContext (tells { m with ctxs := Map.set m.ctxs id (Ctx.new r) } (m.statusOf r.owner 0))) ∧
    (∀ o k c, s.input = .n2 o k → m.serves o → Map.get m.ctxs k = some c →
      (c.owner ≠ o → ∀ i ∈ [Instr.loadContext, .startContext], becomes i (tells m (m.statusOf o 1))) ∧
      (c.owner = o → c.state = .created →
        becomes .loadContext (tells (m.updCtx k fun c => { c with state := .loading }) (m.statusOf o 0))) ∧
      (c.owner = o → c.state = .loading → ∃ n, becomes .startContext (tells n (m.statusOf o 0)) ∧
        n.ctxs = Map.set m.ctxs k { c with state := .running } ∧
        ∀ p, p < 4 → Map.get n.qps (launchQp k p) = some { owner := o, port := p, use := .launch k })) ∧
    (∀ o k c r, s.input = .queue o k r → m.serves o → Map.get m.ctxs k = some c → c.owner = o → c.alive = true → queueFormOk r = true →
      (m.queueDesc c r.queue).open_ = false → (m.queueDesc c r.queue).progress = (m.queueDesc c r.queue).tail →
      ∃ n, becomes .openQueue (tells n (m.statusOf o 0)) ∧ n.mem = (m.setHomeData (descAddr c r.queue) (descWords r)).mem ∧
        n.groups = m.groups) ∧
    (∀ o k c q, s.input = .n3 o k q → m.serves o → Map.get m.ctxs k = some c → c.owner = o → c.alive = true →
      -- the OPEN bit of the descriptor is cleared; the residue of the word moves with it
      (q < 32 → (m.queueDesc c q).open_ = true → ∀ t n, m.homeWord (descAddr c q + 0xC) = (t, n) →
        becomes .closeQueue (tells (n.setHomeWord (descAddr c q + 0xC) (setWordByte t 1 (byteOf (t.data &&& ~~~ 256#32) 1)))
          (m.statusOf o 0))) ∧
      (q < 2 ^ 32 → becomes .setDeadline (tells (m.updCtx k fun c => { c with deadline := q }) (m.statusOf o 0)))) ∧
    (∀ o p c k, s.input = .n2 o p → m.serves o → p < 4 → Map.get m.chans (chanKey o p) = some c → c.closed = false →
      ((List.range 65535).find? fun p => !Map.has m.paths p) = some k →
      becomes .openPath (tells { m with
        paths := Map.set m.paths k { owner := o, port := p, usable := true }
        qps := Map.set m.qps (pathQp k) { owner := o, port := p, use := .peer } } (m.statusOf o 0))) ∧
    (∀ o p x, s.input = .n2 o p → m.serves o → Map.get m.paths p = some x → x.owner = o →
      ∃ n, becomes .closePath (tells n (m.statusOf o 0)) ∧ Map.get n.paths p = none ∧ Map.get n.qps (pathQp p) = none ∧
        ∀ b r, Map.get m.berths b = some r → r.import_ = true → r.path = p → r.state = .opened →
          ∃ r', Map.get n.berths b = some r' ∧ r'.state = .stale) ∧
    (∀ o p retire c, s.input = .flag o p retire → Map.get m.chans (chanKey o p) = some c →
      -- the old key is retired once frames have gone under the new one in both directions
      (retire = true → m.keySettled o p c = false → becomes .pilotKeyRotation m) ∧
      (retire = true → m.keySettled o p c = true →
        becomes .pilotKeyRotation { m with chans := Map.set m.chans (chanKey o p) { c with old := none } }) ∧
      (retire = false → becomes .pilotKeyRotation { m with chans := Map.set m.chans (chanKey o p) { c with
        key := { an := (c.key.an + 1) % 4, pn := 0, seen := [] }, old := some c.key, closed := false
        seenNew := false, sentAt := m.netOut.length } })) ∧
    -- an answer goes to the management endpoint of a port that is up, where the owner's channel is open
    (∀ o v p, m.openPort o = some p → m.statusOf o v = .status (managementQp o p) v ∧ p < 4 ∧ m.portLost.contains p = false ∧
      ∃ c, Map.get m.chans (chanKey o p) = some c ∧ c.closed = false) ∧
    (∀ k v, s.input = .n2 k v → k < 36 → 32 ≤ v → v ≤ 32768 → ∃ n, becomes .setThr n ∧ n.thrOf k = v ∧
      (∀ j, j ≠ k → n.thrOf j = m.thrOf j) ∧ n = { m with thr := n.thr }) ∧
    (∀ v, s.input = .n v → becomes .powerLimit { m with throttled := decide (v ≠ 0) }) ∧
    (∀ o p, s.input = .n2 o p → becomes .counterClear { m with counters := Map.del m.counters (chanKey o p) }) ∧
    (∀ b lo size, s.input = .n3 b lo size → (∀ r, Map.get m.berths b = some r → r.state = .free) → m.ctxs = [] → lo % 65536 = 0 →
      size % 65536 = 0 → lo + size ≤ dramTop → ∃ n, becomes .berthPageReassign n ∧
        (∀ a, lo ≤ a → a < lo + size → n.mem.dram.byte a = 0) ∧
        (∀ a, (a < lo ∨ lo + size ≤ a) → n.mem.dram.byte a = m.mem.dram.byte a) ∧
        ∀ k x, Map.get n.cores k = some x → x.records = []) ∧
    -- the harbour master's answers
    (∀ q, s.input = .none → m.hmReqs.find? (fun q => q.open_) = some q →
      let o := m.ownerOf q.ctx
      let r := berthOfWords q.words o q.ctx
      let said := fun (code id : Nat) (key : Word) (n : Machine) => m.answerBlock q.ctx q.addr code id key = some n
      (openFormOk q.words = false → ∀ n, said 3 0 0 n → becomes .bopenAnswer (n.dropReq q)) ∧
      (openFormOk q.words = true → r.import_ = false →
        (m.windowOk q.ctx r = false → ∀ n, said 1 0 0 n → becomes .bopenAnswer (n.dropReq q)) ∧
        (m.windowOk q.ctx r = true → m.freeBerth = none → ∀ n, said 2 0 0 n → becomes .bopenAnswer (n.dropReq q)) ∧
        ∀ b, m.windowOk q.ctx r = true → m.freeBerth = some b →
          let gen := ((Map.get m.berths b).map (·.gen)).getD 0
          ∀ n, said 0 b (berthKey o b gen) n → ∃ t, becomes .bopenAnswer t ∧ t.hmReqs = n.hmReqs.erase q ∧ t.mem = n.mem ∧
            Map.get t.berths b = some { r with gen := gen }) ∧
      (openFormOk q.words = true → r.import_ = true → r.path ≠ 0xFFFF → Map.get m.paths r.path = none →
        ∀ n, said 1 0 0 n → becomes .bopenAnswer (n.dropReq q))) ∧
    (∀ b r close k a old, s.input = .n b → Map.get m.berths b = some r →
      (r.revoke = some (close, k, a, old, false) → ∃ n, becomes .berthRevokeInForce n ∧
        n = { m with berths := Map.set m.berths b { r with revoke := some (close, k, a, old, true) }, ctxs := n.ctxs } ∧
        (r.import_ = true → n.ctxs = m.ctxs) ∧
        (r.import_ = false → ∀ h sh, m.shadowOf r.ctx h = some sh → n.shadowOf r.ctx h = some
          (if sh.state = .open_ ∧ (sh.foot.any fun p => decide (p.1 < r.base + r.size) && decide (r.base < p.1 + p.2)) = true then
            { sh with state := .broken } else sh))) ∧
      -- once no operation that was accepted under the old key waits
      (r.revoke = some (close, k, a, old, true) → m.windowBusy b r = true → becomes .berthRevokeDone m) ∧
      (r.revoke = some (close, k, a, old, true) → m.windowBusy b r = false → ∀ n,
        m.answerBlock k a 0 b (if r.import_ then 0 else berthKey r.owner b r.gen) = some n → ∃ t x, becomes .berthRevokeDone t ∧
          Map.get t.berths b = some x ∧ x.state = (if close then .free else .opened) ∧ x.revoke = none ∧ x.used = [] ∧
          t.netOut = n.netOut ++ r.used.map fun q => .notice q old)) ∧
    (∀ q, s.input = .none → m.hmReqs.find? (fun q => !q.open_) = some q → q.words = [] →
      ∀ n, m.answerBlock q.ctx q.addr 3 0 0 = some n → becomes .berthRevokeDone (n.dropReq q)) ∧
    -- frames
    (∀ f c q, s.input = .frame f → m.bring = .ready → m.portLost.contains f.port = false →
      Map.get m.chans (chanKey f.owner f.port) = some c →
      Map.get m.qps f.qp = some q → q.owner = f.owner → q.port = f.port → c.closed = false →
      (f.owner ≠ harbourOwner → f.icvOk = true → f.an = c.key.an → c.key.pn ≤ f.pn → f.pn < 2 ^ 62 →
        ∃ c', becomes .ethernetFrameReceive { m with
            chans := Map.set m.chans (chanKey f.owner f.port) c'
            netOut := m.netOut ++ (if f.ecn then [.cnp f.qp] else []) ++ (if f.unsupported then [.nakInvalid f.qp] else []) } ∧
          c'.key.pn = f.pn + 1 ∧ c'.closed = false) ∧
      (f.icvOk = false → ∃ n, becomes .ethernetFrameReceive n ∧ n = { m with counters := n.counters } ∧
        ∀ x, Map.get m.counters (chanKey f.owner f.port) = some x →
          Map.get n.counters (chanKey f.owner f.port) = some { x with dropped := x.dropped + 1, icv := x.icv + 1 })) ∧
    (∀ r imm k c n, s.input = .launch r → m.listens r.owner r.port r.qp (.launch k) → Map.get m.ctxs k = some c →
      r.imm = some imm → imm.toNat < 16 → (m.queueDesc c imm.toNat).open_ = true → (m.queueDesc c imm.toNat).net = true →
      (m.logBusy k 2 = true → becomes .roceLaunchSend (tells m (.rnr r.qp))) ∧
      (m.logBusy k 2 = false → r.data.length = 64 * n → 1 ≤ n → n ≤ 16 →
      let es := (List.range n).map fun i => ((wordsOf r.data).drop (16 * i)).take 16
      (∀ n', m.appendEntries c imm.toNat es = some n' →
        becomes .roceLaunchSend (tells (n'.logInput k 0 imm.toNat r.data.length r.data) (.ack r.qp))) ∧
      (m.appendEntries c imm.toNat es = none → becomes .roceLaunchSend (tells m (.rnr r.qp))))) ∧
    (∀ r use, s.input = .rdma r → m.listens r.owner r.port r.qp use →
      let b := keyBerth r.key
      let placed := fun (k : Access) (size : Nat) => m.berthCheck r.owner b r.key k r.offset size = none ∧
        (k = .read ∨ m.logBusy (m.exporter b) 2 = false) ∧
        ∀ o ∈ windowPages r.offset size, ∃ pa off, (m.exportPlace b o k).1 = .window b pa off
      (rdmaPublishes r = false → placed .write r.data.length → ∀ n, m.putBytes b r.offset r.data = .done n →
        becomes .rdmaWrite (tells ((n.usedBy b r.qp).logInput (n.exporter b) b r.offset r.data.length r.data) (.ack r.qp))) ∧
      (rdmaPublishes r = true → placed .write r.data.length → ∀ n, m.putBytes b r.offset r.data = .done n →
        becomes .rdmaWritePublish
          (tells (((n.usedBy b r.qp).logInput (n.exporter b) b r.offset r.data.length r.data).publishWindow b) (.ack r.qp))) ∧
      (placed .read r.len → becomes .rdmaRead (tells (m.usedBy b r.qp) (.readData r.qp (m.getBytes b r.offset r.len)))) ∧
      (r.offset % 8 = 0 → placed .atomic 8 → ∀ pa off n n' ws, m.exportPlace b r.offset .atomic = (.window b pa off, n) →
        n.atomPlace { core := 0, ctx := n.exporter b, pri := 0, lu := false, order := none } 0 (.window b pa off)
          (if r.cas then .casD else .addD) ((words64 r.operand.toNat ++ words64 r.swap.toNat).map TWord.of) = (.old ws, n') →
        -- the input that is logged is the value the bytes were left with
        let old := nat64 (wordAt ws 0).data (wordAt ws 1).data
        let new := if r.cas then (if old = r.operand.toNat then r.swap.toNat else old) else (old + r.operand.toNat) % 2 ^ 64
        becomes .rdmaAtomic (tells ((n'.usedBy b r.qp).logInput (n'.exporter b) b r.offset 8 (bytesOf 8 new))
          (.atomicOld r.qp (BitVec.ofNat 64 old)))) ∧
      (∀ i ∈ [Instr.rdmaWrite, .rdmaRead], rdmaPublishes r = false → ∀ k size,
        (i = .rdmaWrite ∧ k = Access.write ∧ size = r.data.length ∨ i = .rdmaRead ∧ k = Access.read ∧ size = r.len) →
        (m.berthCheck r.owner b r.key k r.offset size = some .revoked → becomes i (tells m (.nakRevoked r.qp))) ∧
        -- what the berth does not grant is refused and counted
        (m.berthCheck r.owner b r.key k r.offset size = some .access → ∃ n, becomes i (tells n (.nakAccess r.qp)) ∧
          n = { m with counters := n.counters } ∧ ∀ x, Map.get m.counters (chanKey r.owner r.port) = some x →
            Map.get n.counters (chanKey r.owner r.port) = some { x with refused := x.refused + 1 }))) ∧
    -- paths and ports
    (∀ b r, s.input = .n b → Map.get m.berths b = some r → r.import_ = true → r.state = .opened →
      ∃ n, becomes .revocationNoticeReceive n ∧ Map.get n.berths b = some { r with state := .stale } ∧
        ∀ k g c, Map.get m.groups k = some g → Map.get m.ctxs g.ctx = some c → c.owner = r.owner → c.state = .running →
          g.lighter = none → g.status = .live → n.groupHas k fun g => g.ev.pend.getLsbD 5 = true) ∧
    (∀ p x, s.input = .n p → Map.get m.paths p = some x → ∃ n, becomes .roceRetryExhausted n ∧
      (∃ y, Map.get n.paths p = some y ∧ y.usable = false) ∧
      ∀ b r, Map.get m.berths b = some r → r.import_ = true → r.path = p → r.state = .opened →
        ∃ r', Map.get n.berths b = some r' ∧ r'.state = .stale) ∧
    (∀ p, s.input = .n p → p < 4 → becomes .portLossOfSignal { m with
      portLost := insertNat p m.portLost, shared := m.shared ++ [(2, p)] })

/-- Contexts, grids and blocks as the scheduler and the distributor move them, each event when its condition holds. A descheduled
context is YIELDING, its groups get EV_PREEMPT and its commands stop; with all saved it is SAVED, and restored RUNNING; a killed one
has no live group, and its wipe leaves zeros in every byte of its pages. A launch entry that is taken becomes a grid with its record,
an aged queue head is raised one level, a group past its deadline is saved, a block is saved or retired with its scratchpad gone; a buoy
returns, a die resets and comes out with its memories wiped; a grid starts, fails with the code of its checks, places its next gang and
ends DONE; a tracker entry whose work is done is freed, its stores performed at their home (R28, R163 to R168, R193, R194, R365 to R372,
R377, R387 to R392, R400, R243). The model's choices: where a gang is placed (log 64); which writes to the save area fail, what a save and a restore
need and which pages a wipe clears (log 65); when a buoy returns and when the block of an HREAD is saved (log 66). -/
def Obligations.ScheduleEvents : Prop :=
  ∀ s : State,
    let m := s.cur
    let becomes := fun (i : Instr) (n : Machine) => exec i s = .next (s.becomes n)
    let ctxIs := fun (n : Machine) (k : Nat) (P : Ctx → Prop) => ∃ c, Map.get n.ctxs k = some c ∧ P c
    (∀ k c, s.input = .n k → Map.get m.ctxs k = some c →
      (c.state = .running → c.buoy = false → ∃ n, becomes .schedulerDeschedule n ∧
        ctxIs n k (fun x => x.state = .yielding ∧ x.preq = true ∧ x.preqAt = m.clock) ∧
        (∀ j g, Map.get m.groups j = some g → g.ctx = k → g.lighter = none → g.status = .live →
          n.groupHas j fun h => h.ev.pend.getLsbD 3 = true ∧ h.regs = g.regs) ∧
        ∀ j x, Map.get n.cmds j = some x → x.ctx = k → x.state ≠ .running) ∧
      (c.state = .yielding → c.quiet = true → m.allSaved k = true →
        becomes .contextSaved ((m.updCtx k fun c => { c with state := .saved }).dropRecords k)) ∧
      (c.state = .yielding → m.buoyOut k = false → ((m.openCmds k).all fun e => e.2.asked.isEmpty) = true →
        becomes .engineQuiet (m.updCtx k fun c => { c with quiet := true })) ∧
      (c.state = .saved → m.residents < 64 → ∀ n, m.restoreContext k c = some n → becomes .schedulerRestore n ∧
        (c.modes = [] → c.tlbDue = [] → ∀ x, Map.get n.ctxs k = some x → x.state = .running ∧ x.preq = false)) ∧
      (c.state ≠ .killed → c.state ≠ .wiped → m.parked = [] → m.cmds = [] → ∃ n, becomes .killContext n ∧
        ctxIs n k (fun x => x.state = .killed) ∧ ∀ j g, Map.get n.groups j = some g → g.ctx = k → g.status = .retired) ∧
      (c.state = .killed → ∃ n, becomes .contextWiped n ∧ ctxIs n k (fun x => x.state = .wiped ∧ x.wiping = false) ∧
        ∀ p ∈ m.pagesToWipe k c, ∀ a, p.1 ≤ a → a < p.1 + p.2 → n.mem.dram.byte a = 0) ∧
      (∀ q, c.state = .running → m.gridsTaken k < 256 → m.logBusy k 1 = false → m.launchChoice k c = some q → ∃ n g, becomes .takeLaunchEntry n ∧
        Map.get n.grids m.nextId = some g ∧ g.ctx = k ∧ g.queue = q ∧ g.entry = (m.queueDesc c (launchQ q)).head ∧
        g.record = m.headRecord c q)) ∧
    (∀ o k c, s.input = .n2 o k → Map.get m.ctxs k = some c → c.owner = o → m.reaches o = true → c.state = .faulted → c.quiet = true →
      m.allSaved k = true → m.residents < 64 → ∀ n, m.restoreContext k c = some n →
      becomes .resumeContext { n with netOut := n.netOut ++ [m.statusOf o 0] }) ∧
    (∀ k q c, s.input = .n2 k q → Map.get m.ctxs k = some c → q < 16 → (m.queueDesc c (launchQ q)).open_ = true →
      (m.queueDesc c (launchQ q)).head < (m.queueDesc c (launchQ q)).tail → Map.getD c.headSince q 0 + 100000 ≤ m.clock →
      ∃ n, becomes .launchQueueAging n ∧
        ctxIs n k fun x => Map.getD x.boost q 0 = min 7 (Map.getD c.boost q 0 + 1) ∧ Map.getD x.headSince q 0 = Map.getD c.headSince q 0 + 100000) ∧
    (∀ k g c, s.input = .n k → Map.get m.groups k = some g → Map.get m.ctxs g.ctx = some c → c.state = .yielding → g.status = .live →
      g.lighter = none → g.atSavePoint = false → c.preqAt + g.deadline.toNat ≤ m.clock →
      ∃ n, becomes .deadlineExpiry n ∧ n.groupHas k (fun h => h.status = .saved) ∧
        ∀ j, j ≠ k → Map.get n.groups j = Map.get m.groups j) ∧
    (∀ k b c, s.input = .n k → Map.get m.blocks k = some b → Map.get m.ctxs b.ctx = some c → b.state = .live →
      -- a write to the save area that fails makes the context FAULTED
      (c.state = .yielding → ((m.gangOf b.grid b.gang).all fun e => m.saveReady e.1 e.2) = true →
        ((m.gangOf b.grid b.gang).any fun e => m.imageFails e.1 c e.2) = true → becomes .blockSave (m.faultContext b.ctx)) ∧
      (c.state = .yielding ∨ c.state = .faulted → ((m.gangOf b.grid b.gang).all fun e => m.saveReady e.1 e.2) = true →
        (c.state = .yielding → ((m.gangOf b.grid b.gang).any fun e => m.imageFails e.1 c e.2) = false) → ∃ n, becomes .blockSave n ∧ (∃ x, Map.get n.blocks k = some x ∧ x.state = .saved ∧ x.spad = []) ∧
          ∀ j g, Map.get n.groups j = some g → g.block = k → g.status ≠ .live) ∧
      ((m.groups.all fun e => e.2.block != k || e.2.status == .retired) = true → m.tracked k = false →
        ∃ n, becomes .blockRetire n ∧ (∃ x, Map.get n.blocks k = some x ∧ x.state = .retired ∧ x.spad = []) ∧
          ∀ g, Map.get m.grids b.grid = some g → Map.get n.grids b.grid = some { g with retired := g.retired + 1 })) ∧
    (∀ k b c, s.input = .n k → Map.get m.cmds k = some b → Map.get m.ctxs b.ctx = some c → b.kind = .buoy → b.state = .pending →
      b.barrier = none → b.shadow = none →
      (m.cmds.all fun e => !(e.2.ctx == b.ctx && e.2.queue == b.queue && decide (e.2.entry < b.entry) && e.2.state != QState.done)) = true →
      ∃ n, becomes .buoyReturn n ∧ ctxIs n b.ctx (fun x => b.queue ∈ x.buoyed) ∧ ∃ x, Map.get n.cmds k = some x ∧ x.state = .done) ∧
    (∀ d, s.input = .n d → d < 12 → d ∉ m.dieReset →
      (d ∉ m.diesClosed → becomes .computeDieReset { m with diesClosed := insertNat d m.diesClosed }) ∧
      (d ∈ m.diesClosed → (m.blocks.all fun e => !(e.2.placed && e.2.die == d)) = true → ∃ n, becomes .computeDieReset n ∧
        n.dieReset = insertNat d m.dieReset ∧ Map.get n.mem.die d = none ∧
        ∀ k, 48 * d ≤ k → k < 48 * d + 48 → Map.get n.cores k = none)) ∧
    -- the memories of the die are wiped as it comes out of reset
    (∀ d, s.input = .n d → d < 12 → d ∈ m.dieReset → m.bring = .ready → ∃ n, becomes .computeDieResetExit n ∧
      n.dieReset = m.dieReset.filter (· != d) ∧ n.diesClosed = m.diesClosed.filter (· != d) ∧ Map.get n.mem.die d = none ∧
      (∀ k, 48 * d ≤ k → k < 48 * d + 48 → Map.get n.cores k = none) ∧
      ∀ k, (k < 48 * d ∨ 48 * d + 48 ≤ k) → Map.get n.cores k = Map.get m.cores k) ∧
    (∀ k gr g c, s.input = .n2 k gr → Map.get m.grids gr = some g → g.ctx = k → Map.get m.ctxs k = some c → c.state = .running →
      g.state = .queued → g.failing = none → g.waits = none → anyPoison g.record = false → recDepend g.record = 0 →
      ∃ n, becomes .dependencePoll n ∧ Map.get n.grids gr = some { g with state := .starting, depOk := true }) ∧
    (∀ gr g, s.input = .n gr → Map.get m.grids gr = some g → g.waits = none →
      (g.state = .starting → g.failing = none →
        (∀ code, m.startChecks gr g = .fail code → becomes .gridStarting (m.failGrid gr code)) ∧
        (∀ n h bank, m.startChecks gr g = .ok n h bank → recDoneMap g.record = 0 → becomes .gridStarting (n.updGrid gr fun g => { g with
          state := .running, header := h, bank := bank
          uni := if recUinit g.record then ((bank.drop 488).take 24).map fun t => TWord.of t.data else [] }))) ∧
      (g.state = .draining → g.retired = recBlocks g.record → g.refusing = 0 → g.refused = false → recDoneMap g.record = 0 →
        ∃ n, becomes .gridDrained n ∧ ∃ x, Map.get n.grids gr = some x ∧ x.state = .done ∧ x.record = g.record)) ∧
    (∀ k c gr g n, s.input = .none → m.ctxs = [(k, c)] → c.state = .running → m.placeable k = [(gr, g)] →
      Map.get m.grids gr = some g → m.logBusy k 1 = false → m.tryGang gr g c none = some n →
      becomes .placeGang (({ n with robin := k } : Machine).logLaunches k) ∧
        ∃ x, Map.get n.grids gr = some x ∧ x.gangs = g.gangs + 1 ∧ g.next < x.next) ∧
    (∀ k x, s.input = .n k → Map.get m.cores k = some x → ∃ n y, becomes .retirementTrackerDrain n ∧ Map.get n.cores k = some y ∧
      y = { x with tracker := y.tracker, l1 := y.l1 } ∧
      ((∃ e ∈ x.tracker, storesId ∈ e.2.2) → (∀ sn e, Map.get y.l1 sn = some e → e.dirty = 0) ∧
        ∀ sn e, Map.get (n.mem.dieCache (dieOfCore k)) sn = some e → e.dirty = 0) ∧
      ∀ e ∈ y.tracker, e.2.2 ≠ [] ∧ ∀ id ∈ e.2.2,
        (id % 2 = 0 → ∃ c, Map.get m.cmds (id / 2) = some c ∧ c.state ≠ .done) ∧ (id % 2 = 1 → Map.has m.parked (id / 2) = true))

/-- The cores, their groups and engines: what ISSUE_SELECT issues, events entered, data that returns, waits that end, matrix entries
and the words they leave, ring entries and requests that find room (R81, R86 to R90, R173, R174, R179, R190, R191, R203, R219 to R223,
R258, R260, R264, R291, R292, R294, R298, R305 to R310, R314, R316). The model's choices: ISSUE_SELECT names no port, and a step
is one clk (log 2); WAITV_REREAD tests the word and unparks, CWAIT_REREAD and BATCH_COMPLETE make the instruction run again (log 69). -/
def Obligations.GroupEvents : Prop :=
  ∀ s : State,
    let m := s.cur
    let becomes := fun (i : Instr) (n : Machine) => exec i s = .next (s.becomes n)
    let alone := fun (gk sid : Nat) (g : Group) (e : Entry) (p : Park) =>
      s.input = .n2 gk sid ∧ Map.get m.groups gk = some g ∧ g.entry sid = some e ∧ e.park = some p
    let parksAs := fun (n : Machine) (gk sid : Nat) (e : Entry) (p : Option Park) =>
      n.groupHas gk fun h => h.entry sid = some { e with park := p }
    let now := m.tick.timer
    (s.input = .none → now.candidates none = [] → becomes .issueSelect now.clearHeld) ∧
    (∀ gk g e, s.input = .none → pickGroup (now.candidates none) = some (gk, g, .strand e) →
      ∀ c n, now.front g e = (.chain c, n) →
        let before := if g.fences.isEmpty || !(Front.chain c).usesMemory then n else n.completeFences gk g
        ∃ t is, exec .issueSelect s = .next t ∧ t.issue = some is ∧ t.pre = some before ∧ is.grp = gk ∧ is.sid = e.sid ∧
          is.mask = e.mask ∧ is.words = c.words ∧ is.pos = 0 ∧ is.next = c.next ∧ is.dry = false ∧
          (∀ h, Map.get before.groups gk = some h → t.cur.groupHas gk fun h' => h'.regs = h.regs ∧ h'.p = h.p ∧ h'.g = h.g)) ∧
    (∀ gk g k, s.input = .n gk → Map.get m.groups gk = some g → m.takesEvent g = some k → ∃ n, becomes .eventEntry n ∧
      n.groupHas gk fun h => h.ev.svc = some k ∧ h.ev.pend.getLsbD k = false ∧ h.regs = g.regs ∧
        ∃ p f r, h.stack = p :: f :: r ∧ p.kind = .path ∧ p.pc = (m.codeOf g.grid + g.evec.toNat) % 2 ^ 64 ∧ p.mask = g.present ∧
          f.kind = .event ∧ f.evno = k ∧ r.length = g.stack.length) ∧
    (m.clock % 65536 = 0 → m.clock ≠ m.timerAt → ∃ n, becomes .clockWrap n ∧ n.timerAt = m.clock ∧
      ∀ gk g, Map.get m.groups gk = some g → n.groupHas gk fun h => h.regs = g.regs ∧ h.stack = g.stack ∧
        (g.lighter = none → g.status ≠ .retired → h.ev.pend.getLsbD 4 = true)) ∧
    (∀ gk pid g p, s.input = .n2 gk pid → Map.get m.groups gk = some g → Map.get g.pending pid = some p → p.ready = true →
      ∃ n, becomes .loadDataReturn n ∧ n.groupHas gk fun h => (p.lanes &&& p.parked = 0 → Map.get h.pending pid = none) ∧
        ∀ k slot l, p.slots[k]? = some slot → (∀ j, p.slots[j]? = some slot → j = k) → slot < g.regs.length → k < p.words.length →
          l < g.width → lane p.lanes l = true → lane p.parked l = false →
          wordAt (h.reg slot).lanes l = wordAt (p.words.getD k []) l ∧ lane (h.reg slot).empty l = false) ∧
    (∀ gk sid g e p t, alone gk sid g e p → p.why = .nap t → t ≤ m.clock → ∃ n, becomes .napExpiry n ∧ parksAs n gk sid e none) ∧
    (∀ gk sid g e p, alone gk sid g e p → p.why = .cwait → ∃ n, becomes .cwaitReread n ∧
      parksAs n gk sid e (some { p with why := .again })) ∧
    (∀ gk x p f w l q m1 t m2, m.waiting s.input = [(gk, x)] → x.park = some p → p.instr = .waitv f → m.parkedWord gk x p = some w →
      w.leader = some l → m.place w.g.core w.g.ctx (w.uaddr f.g.val) 4 .read w.g.source = (q, m1) →
      m1.deviceWord w.g.core w.g.ctx (w.uaddr f.g.val) (q.noBerth (m1.berthAt w.g.ctx (w.uaddr f.g.val))) = some (t, m2) → t.poisoned = false →
      (condHolds f.cond t.data (w.dat 1 l) = true → becomes .waitvReread
        ((m2.acquire w.g.core .device w.blockCores).updGroup gk fun g => g.updEntry x.sid fun e => { e with park := none })) ∧
      (condHolds f.cond t.data (w.dat 1 l) = false → becomes .waitvReread m2)) ∧
    (∀ gk g, s.input = .n gk → Map.get m.groups gk = some g → ∃ n, becomes .batchComplete n ∧ n.groupHas gk fun h =>
      h.open_ = g.open_.dropWhile (fun b => b.left.isEmpty) ∧
      (∀ b r, g.open_ = b :: r → b.left = [] → b.ev = true → g.lighter = none → g.status = .live → h.ev.pend.getLsbD 1 = true) ∧
      ∀ sid e p, g.entry sid = some e → e.park = some p → p.why = .waitb → h.entry sid = some { e with park := some { p with why := .again } }) ∧
    (∀ core k va l n, s.input = .n3 core k va → dieOfCore core ∉ m.dieReset → m.fetchLine core k va = (.line l, n) → becomes .instructionLineArrival n ∧
      ∃ x, (n.core core).icache.find? (fun x => x.1 == k && x.2.1 == va / 128) = some x ∧ x.2.2 = l) ∧
    (∀ k c ws, s.input = .ring k .fault → Map.get m.ctxs k = some c → c.fqWait = [ws] →
      (∀ n, m.ringAppend c.fqBase c.fqSize (fqEntry ws c.resolve c.fqSeq) = some n →
        becomes .queueHeadReread (n.updCtx k fun c => { c with fqSeq := c.fqSeq + 1, fqWait := c.fqWait.drop 1 })) ∧
      (m.ringAppend c.fqBase c.fqSize (fqEntry ws c.resolve c.fqSeq) = none → becomes .queueHeadReread m)) ∧
    (∀ core k r, s.input = .n core → (m.parked.find? fun e => e.2.core == core && e.2.waiting) = some (k, r) →
      m.faultsHeld core < faultBerths → ((Map.get m.ctxs r.ctx).map (·.resolve)).getD 0 = r.count →
      becomes .faultBerthFreed (({ m with parked := Map.set m.parked k { r with waiting := false } } : Machine).reportFault
        r.ctx r.va 1 r.access r.source)) ∧
    (∀ gk sid g e p t b n mode, alone gk sid g e p → p.why = .tlbinv t b n mode → ∃ n', becomes .tlbinvEffectComplete n' ∧
      (mode = 0 → parksAs n' gk sid e none ∧ n'.ctxs = m.ctxs ∧ ∀ j l, Map.get n'.tlb j = some l → ∀ x ∈ l, x.ctx = t →
        ¬ (n = 0 ∨ (x.base * 2 ^ levelShift x.level < b + 65536 * n ∧
          b < x.base * 2 ^ levelShift x.level + 2 ^ levelShift x.level))) ∧
      (mode = 1 → m.parked = [] → m.cmds = [] → m.grids = [] → ∀ c, Map.get m.ctxs t = some c → c.state = .running →
        parksAs n' gk sid e none ∧ ∃ c', Map.get n'.ctxs t = some c' ∧ c'.resolve = (c.resolve + 1) % 2 ^ 32)) ∧
    (∀ k h c sh n, s.input = .n2 k h → Map.get m.ctxs k = some c → Map.get c.shadows h = some sh → sh.state = .publishing →
      ((m.writers k h).any (·.2.prior)) = false → (m.updCtx k fun c => { c with shadows := Map.del c.shadows h }).swap k c sh = some n →
      ∃ n', becomes .publishSwap n' ∧ n'.mem = n.mem ∧ n'.tlb = n.tlb ∧ n'.shadowOf k h = none) ∧
    -- a matrix entry: the words that each leaves in its tile, its slot or its tiles
    (∀ core e r, s.input = .n core → (m.core core).queue = e :: r →
      let c := m.core core
      let gives := fun (P : Core → Prop) => ∃ n, becomes .matrixEntryDone (m.setCore core { n with queue := r }) ∧ P n
      (∀ t, e = .mzero t → gives fun n => n = { c with tiles := n.tiles } ∧
        (∀ row j, (tileAt n t).word row j = TWord.zero) ∧ (tileAt n t).tag = 0 ∧ (tileAt n t).tflag = 0 ∧
        ∀ u, u ≠ t → tileAt n u = tileAt c u) ∧
      (∀ slot tag image sc, e = .loadB slot tag image sc → gives fun n => n = { c with bslots := n.bslots } ∧
        (∀ i, slotWord n slot i = wordAt image i) ∧
        (∃ b, Map.get n.bslots slot = some b ∧ b.tag = tag) ∧
        (∀ u, u ≠ slot → (sc.isSome = true → u ≠ slot + 1) → Map.get n.bslots u = Map.get c.bslots u) ∧
        ∀ ws, sc = some ws → (∃ b, Map.get n.bslots (slot + 1) = some b ∧ b.tag = tag) ∧
          ∀ col i, col < 128 → i < 4 → slotWord n (slot + 1) (32 * col + i) = wordAt ws (4 * col + i)) ∧
      (∀ ps cfg sat, e = .mma ps cfg sat → mcOk cfg = true → gives (partsGive cfg sat ps c)) ∧
      (∀ gk pid, e = .mread gk pid → gives fun n => n = c)) ∧
    (∀ gk pid g p fl, s.input = .n2 gk pid → Map.get m.groups gk = some g → Map.get g.pending pid = some p → p.mread = some fl →
      (m.core g.core).queue.contains (.mread gk pid) = false → becomes .mreadDataArrival (m.updGroup gk fun g =>
        ({ g with pending := Map.upd g.pending pid fun p => { p with mread := none } }.deliver pid).orFlags (flagsOfT fl))) ∧
    (∀ k r g b pa pri old n, s.input = .n k → Map.get m.parked k = some r → r.flight = true → Map.get m.groups r.group = some g →
      Map.get m.blocks g.block = some b → (m.place g.core r.ctx r.va 4 .atomic (if g.lighter.isSome then 1 else 0)).1 = .pa pa pri →
      ({ m with parked := Map.del m.parked k } : Machine).atomHome g.core pa (m.handlePri r.ctx r.va pri) false .or
        [TWord.of (BitVec.ofNat 32 (2 ^ (b.index % 32)))] = (.old old, n) →
      becomes .cdoneOrPerform n)

/-- The commands of the engines: an entry is taken in the order of its queue, a quay command by a free engine of its home stack; a
sector, burst or unit is done once and counted, and a copy with LASTUSE drops its lines before its last sector is counted (log 35); a
burst is born as a lighter of its block; a command that has done all its work is DONE, and its batch and group are told. A unit of
QGATH is given poison for a bad index, OOBVALUE for one outside the source, else the words of the source line; one of QRED the fold of
its values; one of QCVT the converted elements, or the codes of its blocks and the scale stream of their exponents, which decodes to
them (R48, R211, R219, R340 to R349, R352 to R364, R387, R388). The model's choices: which drops a last use makes (log 35); that an engine
works by units of one sector, rerun after a fault, and which engine takes a command (log 51); what QTLOAD and QUNPK do where R361 and
R362 leave it open (log 53); which burst is requested next and which place a lighter takes (log 58). -/
def Obligations.EngineEvents : Prop :=
  ∀ s : State,
    let m := s.cur
    let becomes := fun (i : Instr) (n : Machine) => exec i s = .next (s.becomes n)
    let one := fun (k : Nat) (c : Cmd) (kind : CmdKind) =>
      s.input = .n k ∧ Map.get m.cmds k = some c ∧ c.kind = kind ∧ c.state = .running
    let part := fun (k u : Nat) (c : Cmd) => s.input = .n2 k u ∧ Map.get m.cmds k = some c ∧ c.state = .running ∧ u ∉ c.sectors
    let counted := fun (n : Machine) (k u : Nat) => n.updCmd k fun c => { c with sectors := insertNat u c.sectors }
    (∀ k q c j x, s.input = .n2 k q → Map.get m.ctxs k = some c → m.engineTakes k c q = true →
      (m.queueDesc c q).head < (m.queueDesc c q).tail →
      (m.cmds.find? fun e => (e.2.ctx == k && e.2.queue == q && e.2.kind != .buoy) && e.2.raw && e.2.state == .running) = none →
      (m.cmds.find? fun e => (e.2.ctx == k && e.2.queue == q && e.2.kind != .buoy) && e.2.entry == (m.queueDesc c q).head &&
        e.2.state == .pending) = some (j, x) → x.raw = false →
      ∀ en, (if x.onQuay then m.freeEngine x else some 0) = some en →
      ∃ n, becomes .engineTakeEntry n ∧ (∃ y, Map.get n.cmds j = some y ∧ y.state = .running ∧ y.engine = en) ∧ n.groups = m.groups) ∧
    (∀ k u c ws n blk off, part k u c → c.kind = .tcopy → u < c.imageSectors → m.imageWords copySource c (16 * u) 16 = .ok ws n →
      n.imageAt c = some (blk, off) →
      let laid := (List.range 16).foldl (fun n i => n.setSpad blk (off + 64 * u + 4 * i) (wordAt ws i)) n
      let n' := counted (if (insertNat u c.sectors).length = c.imageSectors then laid.dropRead copySource c c.layout c.readAddrs
        else laid) k u
      (c.barrier = none → becomes .copySectorDelivered n') ∧
      (∀ b o x, c.barrier = some (b, o) → c.orphan = false → n'.barSector b o false = (true, x) → becomes .copySectorDelivered x)) ∧
    (∀ k u c blk off p n n', part k u c → c.kind = .tstore → u ∈ c.destSectors → c.shadow = none → m.imageAt c = some (blk, off) →
      -- the image's words of the sector, and the padding codes of its Q4 blocks
      let ws := ((c.storeWords.filter fun e => e.2.va / 64 == u).map fun e =>
          let t := storedWord e.2 (m.spadWord blk (off + 4 * e.1))
          (e.2.va, t.1, t.2)) ++
        (c.padBytes.filter fun e => e.1 / 64 == u).map fun e => (e.1, e.2, TWord.zero)
      ws ≠ [] → m.enginePlace copySource c c.layout (u * 64) 64 .write = (p, n) →
      (n.lastUseWrite c c.layout p).storeAt (n.engineStop copySource c) p (u * 64) (n.enginePriAt c.ctx c.layout (u * 64) p) ws =
        .done n' →
      (c.barrier = none → becomes .tstoreSectorWritten (counted n' k u)) ∧
      (∀ b o x, c.barrier = some (b, o) → c.orphan = false → (counted n' k u).barSector b o false = (true, x) →
        becomes .tstoreSectorWritten x)) ∧
    (∀ k c gk g, one k c .xcopy → c.sectors = [] → m.xcopyTarget c = some (gk, g) → g.status ≠ .retired →
      (∀ i, i < c.run.length → (g.reg (c.op 1 + i)).empty &&& widthMask g.width = 0) →
      becomes .xcopyDelivery ((m.updGroup gk fun g => (c.run.zipIdx).foldl (fun g e =>
        g.deliverReg (c.op 1 + e.2) (widthMask g.width) (widthMask g.width) e.1.2 e.1.1) g).updCmd k fun c => { c with sectors := [0] })) ∧
    (∀ k c, s.input = .n k → Map.get m.cmds k = some c → c.state = .running → c.finished = true → c.shadow = none → c.barrier = none →
      ∃ n, becomes .commandCompletion n ∧ (∃ x, Map.get n.cmds k = some x ∧ x = { c with state := .done }) ∧
        ∀ g, Map.get m.groups c.group = some g → n.groupHas c.group fun h => h.regs = g.regs ∧ ∀ b ∈ h.open_, k ∉ b.left) ∧
    (∀ k c pa pri n, one k c .hread → c.again = [] → m.waitingBursts (m.cmdCore c) = [] → c.unp.1 < c.layout.bursts → m.berthsUsed (m.cmdCore c) < burstBerths →
      c.layout.inside (c.layout.burstAt c.org c.unp.1) = true →
      (m.updCmd k fun x => { x with unp := (c.unp.1 + 1, 0, 0) }).enginePlace copySource c c.layout
        (c.layout.addr (c.layout.burstAt c.org c.unp.1)) 256 .read = (.pa pa pri, n) →
      becomes .hreadBurstRequest (n.updCmd k fun x => { x with asked := x.asked ++ [c.unp.1] })) ∧
    (∀ k b c ws n, s.input = .n2 k b → Map.get m.cmds k = some c → c.kind = .hread → b ∈ c.asked →
      m.readBurst c (c.layout.addr (c.layout.burstAt c.org b)) = .ok ws n →
      let n' := ({ n with nextId := n.nextId + 1 } : Machine).updCmd k fun x => { x with
        asked := x.asked.filter (· != b), arrivals := x.arrivals ++ [(b, n.nextId)] }
      becomes .hreadBurstReturn (n'.updCore (n'.cmdCore c) fun x => { x with berths := x.berths ++ [(k, b, ws)] })) ∧
    (∀ core k b ws r c g p, s.input = .n core → m.waitingBursts core = [] → (m.core core).berths = (k, b, ws) :: r →
      Map.get m.cmds k = some c →
      Map.get m.groups c.group = some g → m.mayBear c g b = true → m.freePlace core g.grid = some p → ∃ n, becomes .lighterBirth n ∧
        n.groupHas m.nextId fun h => h.width = 16 ∧ h.nregs = 16 ∧ h.block = c.block ∧ h.core = core ∧ h.slot = p.1 ∧ h.status = .live ∧
          h.lighter = some { cmd := k, burst := b, place := p.2, group := c.group } ∧
          ∀ n l, n < 4 → l < 16 → wordAt (h.reg n).lanes l = wordAt ws (16 * n + l)) ∧
    (∀ k c, s.input = .n k → Map.get m.cmds k = some c → c.kind = .hread → (c.state = .running ∨ c.state = .stopped) →
      c.unp.1 = c.layout.bursts → c.retired.length = c.layout.bursts → c.shadow = none → c.arrive = false →
      c.barrier = none →
      (m.recorded (((Map.get m.groups c.group).map (·.grid)).getD 0) 1 && m.logBusy c.ctx 3) = false →
      ∃ n, becomes .hreadCompletion n ∧ (∃ x, Map.get n.cmds k = some x ∧ x.state = .done) ∧
        ∀ g, Map.get m.groups c.group = some g → g.lighter = none → g.status = .live →
          n.groupHas c.group fun h => h.ev.pend.getLsbD 0 = true ∧ h.regs = g.regs) ∧
    (∀ k c st p o, one k c .qunpk → c.raw = false → c.engine ≠ 0 → c.sectors = [] → c.unp = (st, p, o) →
      -- the first symbol takes the slot's table whole
      let tbl := if c.table.isEmpty then m.slotTable c.ctx (c.op 3) else c.table
      let m1 := m.updCmd k fun y => { y with table := tbl }
      (p = c.op 4 → st = 0 → ∃ n, becomes .qunpkSymbol n ∧ n = { m with cmds := n.cmds } ∧
        ∃ x, Map.get n.cmds k = some x ∧ x.sectors = [0] ∧ x.code = c.code ∧ x.bytes = o) ∧
      (∀ nib n e, ¬ (p = c.op 4 ∧ st = 0) → m1.inputBits k { c with table := tbl } p 4 = .ok nib n →
        e = (tbl.getD (16 * st + nib) 0).toNat → e % 4 = 2 → p + (e / 4 % 4 + 1) ≤ c.op 4 →
        becomes .qunpkSymbol (n.updCmd k fun c => { c with unp := (bits e 11 4, p + (e / 4 % 4 + 1), o) }))) ∧
    (∀ k u c, part k u c → c.raw = false → c.engine ≠ 0 → u < c.units →
      let rs := c.recs.map layoutOf
      let dst := rs.getD 0 (layoutOf [])
      let src := rs.getD 1 (layoutOf [])
      let line := fun (per : Nat) => dst.addr (dst.at_ (u / per) 0)
      (c.kind = .qgath →
        let ix := rs.getD 2 (layoutOf [])
        let i := u / dst.gatherParts
        let p := u % dst.gatherParts
        let row := line dst.gatherParts
        -- a part of the line, or of its scale slot
        let scale := decide (dst.lineSectors ≤ p)
        let start := if scale then dst.scaleAddr i else row
        let q := if scale then p - dst.lineSectors else p
        let es := lineWords start (if scale then (if dst.comp = 1 ∧ src.comp = 1 then dst.slot else 0) else dst.rowBytes) q
        let put := fun (n : Machine) (out : List TWord) => becomes .quayCommandRun (n.endUnit k c dst u (start / 64 * 64 + 64 * q)
          ((es.zip out).map fun e => (e.1, if scale then e.2 else padWord dst (pieceOff row e.1) e.1 e.2)))
        ∀ t m1, m.quayWord k c ix (ix.addr [i, 0, 0, 0, 0]) = .ok t m1 →
          let x : Int := if ix.fmt = 1 then t.data.toInt else t.data.toNat
          let from_ := if scale then src.scaleAddr x.toNat else src.addr (src.at_ x.toNat 0)
          (t.poisoned = true → put m1 (es.map fun _ => poisonWord)) ∧
          (mismatch t = true → put (m1.failCmd k 9) (es.map fun _ => poisonWord)) ∧
          (t.good = true → x < 0 ∨ (src.dimAt 1 : Int) ≤ x →
            put m1 (es.map fun _ => if scale then TWord.zero else TWord.of (BitVec.ofNat 32 src.fill))) ∧
          (t.good = true → 0 ≤ x → x < (src.dimAt 1 : Int) → ∀ n out,
            Machine.unitGives k c (gatherAsks dst src (!scale) from_ start) (gatherGives from_ start) (fun _ _ y => y) es m1 n out →
            put n out)) ∧
      (c.kind = .qred →
        let row := line dst.lineSectors
        let q := u % dst.lineSectors
        let es := lineWords row dst.rowBytes q
        let vs := if (c.op 2).testBit 7 then rs else rs.drop 1
        ∀ n out, Machine.unitGives k c (fun e => vs.map fun r => (r, r.addr (r.at_ (u / dst.lineSectors) ((e.1 - row) / 4))))
            (fun _ ts => [redGives (c.op 0) (c.op 1) dst.fmt ts])
            (fun _ ts y => if !(ts.any TWord.poisoned) && ts.any mismatch then y.failCmd k 9 else y) es m n out →
          becomes .quayCommandRun (n.endUnit k c dst u (row / 64 * 64 + 64 * q) (es.zip out))) ∧
      (c.kind = .qcvt → dst.fmt ≠ 10 →
        let row := line dst.lineSectors
        let q := u % dst.lineSectors
        let i := u / dst.lineSectors
        let es := lineWords row dst.rowBytes q
        ∀ sw m1, m.readScales k c src i (if src.fmt = 10 then src.slot / 4 else 0) = .ok sw m1 →
          let outs := fun (e : Piece) (ts : List TWord) =>
            cvtResults src dst i (c.op 1) ((c.op 2).testBit 8) (lineScales src sw) (pieceElems dst row e) ts
          let hits := fun (e : Piece) (ts : List TWord) =>
            if (ts.any fun t => !t.good) || (outs e ts).any Option.isNone then 0
            else ((outs e ts).filter fun o => (o.map (·.2)).getD false).length
          ∀ n out, Machine.unitGives k c (fun e => (pieceElems dst row e).map fun j => (src, src.addr (src.at_ i j)))
              (fun e ts => [cvtGives dst e (outs e ts) ts])
              (fun e ts y => let z := y.counts k (hits e ts)
                if ts.any mismatch then z.failCmd k 9 else z)
              es (if src.fmt = 10 && scalesMismatch src sw then m1.failCmd k 9 else m1) n out →
            becomes .quayCommandRun (n.endUnit k c dst u (row / 64 * 64 + 64 * q) (es.zip out))) ∧
      (c.kind = .qcvt → dst.fmt = 10 →
        let side := rs.getD 2 (layoutOf [])
        let i := u / dst.q4Parts
        let p := u % dst.q4Parts
        let blocks := ceilDiv (dst.dimAt 0) 32
        let codes := decide (p < dst.q4Sectors)
        let q := if codes then p else p - dst.q4Sectors
        let start := if codes then line dst.q4Parts else dst.scaleAddr i
        let es := lineWords start (if codes then 16 * blocks else dst.slot) q
        let put := fun (n : Machine) (word : Nat → TWord) => becomes .quayCommandRun
          (n.endUnit k c dst u (start / 64 * 64 + 64 * q) (es.map fun e => (e, pieceWord start e word)))
        let at_ := fun (b : Nat) => side.addr (side.at_ i b)
        ∀ e0 e1, es.head? = some e0 → es.getLast? = some e1 →
        ∀ st m1, m.quayWords k c ((List.range blocks).map fun b => (side, at_ b)) = .ok st m1 →
          let exps := (st.zipIdx).map fun e => (sext 8 (elemBitsAt side e.2 (at_ e.2) e.1), !e.1.good)
          let m2 := if st.any mismatch then m1.failCmd k 9 else m1
          -- the scale slot: the records of the blocks' exponents, one after another
          (codes = false → put m2 fun n => if n < dst.slot / 4 then (if exps.any (·.2) then poisonWord else
            TWord.of (BitVec.ofNat 32 ((List.range 4).map fun b =>
              (scaleStream (qtypeOf (c.op 0)) 0 (exps.map (·.1))).getD (4 * n + b) 0 * 256 ^ b).sum)) else TWord.zero) ∧
          -- the code words of the blocks that the sector takes
          (codes = true →
            let first := pieceOff start e0
            let bs := (List.range blocks).filter fun b => decide (16 * b < pieceOff start e1 + e1.2.2) && decide (first < 16 * b + 16)
            let cs := fun (b : Nat) (ts : List TWord) => q4Codes (qtypeOf (c.op 0)) src i b (exps.getD b (0, true)).1 ts
            let bad := fun (b : Nat) (ts : List TWord) => (exps.getD b (0, true)).2 || ts.any fun t => !t.good
            ∀ n out, Machine.unitGives k c
                (fun b => (List.range (min 32 (src.dimAt 0 - 32 * b))).map fun j => (src, src.addr (src.at_ i (32 * b + j))))
                (fun b ts => q4Gives (bad b ts) (cs b ts))
                (fun b ts y => let z := if ts.any mismatch then y.failCmd k 9 else y
                  -- a block is counted with its first byte
                  z.counts k (if first ≤ 16 * b ∧ bad b ts = false then ((cs b ts).filter (·.2)).length else 0))
                bs m2 n out →
              put n fun n => out.getD (n - 4 * bs.headD 0) TWord.zero)) ∧
      (∀ ts n x, c.kind = .qtload → Map.get m.ctxs c.ctx = some x →
        m.quayWords k c ((List.range (c.op 2)).map fun i => (layoutOf [], c.op 0 + c.op 1 * 2 ^ 32 + 4 * i)) = .ok ts n →
        (ts.all fun t => t.good && tableEntryOk (c.op 2) t.data.toNat) = true →
        becomes .quayCommandRun ((n.setHomeWords (tableArea x (c.op 3)) ts).updCmd k fun c => { c with sectors := [0] }))) ∧
    -- what an element is converted to
    (∀ src dst rnd sat sc j v d, cvtFmt dst.fmt = some d →
      (∀ f, src.fmt ≠ 10 → cvtFmt src.fmt = some f →
        (cvtOne src dst rnd sat sc j v).map (·.1) = some (convEl f d (rmOfCode rnd) false sat v).1) ∧
      (∀ f, src.fmt = 10 → d = .flt f →
        (sc (j / 32) = .null → cvtOne src dst rnd sat sc j v = some (0, false)) ∧
        (sc (j / 32) = .malformed → cvtOne src dst rnd sat sc j v = none) ∧
        ∀ ty e, sc (j / 32) = .ok ty e → (cvtOne src dst rnd sat sc j v).map (·.1) = some (f.round (rmOfCode rnd) false false (q4Num ty e v)).1)) ∧
    -- the scale stream decodes to the exponents it was made of
    (∀ ty (ss : List Int), (∀ s ∈ ss, -128 ≤ s ∧ s ≤ 127) →
      decodeScales (fun p => (scaleStream ty 0 ss).getD p 0) ss.length 0 0 = ss.map fun s => if s = -128 then .null else .ok ty s)

/-- Caches, DRAM and the hawser ring: a line leaves every die's cache with its dirty bytes at home; a sector evicted or cleaned
stands in DRAM under the line code; a full set evicts a line of its lowest PRI; row alerts are served by refreshing the neighbours
and clear the row's counter, and the requests that waited go on; refreshes are postponed at most 8 times; flits pass from stop to stop,
those of a packet one after another, again when their check fails, and a link that fails 8 times is marked failed and its flits go the
other way round; a storage error changes what the spec says (R72 to R77, R228 to R232, R239 to R242, R394 to R397, R442). The
model's choices: what a storage error of each kind does and counts (log 70); ring packets carry accesses whose effect on memory
the access itself has (log 71); the sets and ways of the caches and which line leaves (log 76). -/
def Obligations.StorageEvents : Prop :=
  ∀ s : State,
    let m := s.cur
    let d := m.mem.dram
    let becomes := fun (i : Instr) (n : Machine) => exec i s = .next (s.becomes n)
    let holds := fun (n : Machine) (sn : Nat) (ws : List TWord) =>
      ∀ i, i < 64 → n.mem.dram.byte (sn * 64 + i) = (encodeSector ws true).1.getD i 0
    (∀ line, s.input = .n line → ∃ n, becomes .directoryInvalidate n ∧ Map.get n.mem.presence line = none ∧
      (∀ k i, k < 12 → i < 4 → (Map.getD m.mem.presence line 0).getLsbD k = true →
        Map.get (n.mem.dieCache k) (line * 4 + i) = none) ∧
      ((∀ k i x, k < 12 → i < 4 → Map.get (m.mem.dieCache k) (line * 4 + i) = some x → x.dirty = 0) →
        ∀ sn, n.homeSector sn = m.homeSector sn)) ∧
    (∀ k sn v, s.input = .level k sn → cacheWays ≤ ((m.cacheAt k).setLines k (sn / 4)).length → m.victim k (sn / 4) = some v →
      v ∈ (m.cacheAt k).setLines k (sn / 4) ∧
      (∀ l ∈ (m.cacheAt k).setLines k (sn / 4), ((m.cacheAt k).linePri v).getD 0 ≤ ((m.cacheAt k).linePri l).getD 0) ∧
      ∃ n, becomes .cacheEviction n ∧ ∀ i, i < 4 → Map.get (n.cacheAt k) (v * 4 + i) = none ∧
        (∀ core x, k = .l1 core → Map.get (m.core core).l1 (v * 4 + i) = some x → x.dirty ≠ 0 →
          (∀ d, d < 12 → (Map.getD m.mem.presence v 0).getLsbD d = true → d = dieOfCore core) →
          n.dieSector (dieOfCore core) (v * 4 + i) = mergeSector (m.dieSector (dieOfCore core) (v * 4 + i)) x.words x.dirty) ∧
        (∀ x, k = .msc → Map.get m.mem.msc (v * 4 + i) = some x → x.dirty ≠ 0 → holds n (v * 4 + i) x.words)) ∧
    (∀ sn, (∀ x, s.input = .n sn → Map.get m.mem.msc sn = some x → x.dirty ≠ 0 → ∃ n, becomes .dramWrite n ∧ holds n sn x.words ∧
        Map.get n.mem.msc sn = some { x with dirty := 0 }) ∧
      (s.input = .n sn → Map.get m.mem.msc sn = none → sn * 64 < dramTop → ∃ n, becomes .dramRead n ∧
        (∃ x, Map.get n.mem.msc sn = some x ∧ x.words = d.sector sn ∧ x.dirty = 0) ∧ n.mem.dram.bytes = d.bytes)) ∧
    (∀ b row, s.input = .bank b row →
      (∀ clk, (d.alerts.find? fun a => a.2.1 == BankId.key b) = some (clk, BankId.key b, b.bank, row) →
        Map.get d.alert (BankId.key b) = none →
        becomes .rowAlert (m.withDram fun d => { d with
          alerts := d.alerts.erase (clk, BankId.key b, b.bank, row)
          alert := Map.set d.alert (BankId.key b) (b.bank, row, neighbours row) })) ∧
      (∀ agg r, Map.get d.alert (BankId.key b) = some (b.bank, agg, row :: r) →
        becomes .refreshManagementCommand (m.withDram fun d => { d with alert := Map.set d.alert (BankId.key b) (b.bank, agg, r) })) ∧
      (Map.get d.alert (BankId.key b) = some (b.bank, row, []) → ∃ n, becomes .backoffWindowClose n ∧
        Map.get n.mem.dram.alert (BankId.key b) = none ∧ n.mem.dram.bytes = d.bytes ∧
        (Map.getD d.queued (bankKey (BankId.key b) b.bank) [] = [] →
          Map.getD n.mem.dram.act (rowKey (BankId.key b) b.bank row) 0 = 0) ∧
        ∀ r rest, Map.getD d.queued (bankKey (BankId.key b) b.bank) [] = r :: rest →
          1 ≤ Map.getD n.mem.dram.act (rowKey (BankId.key b) b.bank r) 0)) ∧
    (∀ pch bank later, s.input = .flag pch bank later →
      (later = true → Map.getD d.postponed (bankKey pch bank) 0 < 8 → becomes .regularRefresh (m.withDram fun d => { d with
        postponed := Map.set d.postponed (bankKey pch bank) (Map.getD d.postponed (bankKey pch bank) 0 + 1) })) ∧
      (later = false → becomes .regularRefresh (m.withDram fun d => { d with postponed := Map.del d.postponed (bankKey pch bank) }))) ∧
    (∀ pch, s.input = .n pch → pch < 2304 → pch ∉ d.asleep → Map.getD d.lastReq pch 0 + 7000 ≤ m.clock →
      becomes .selfRefreshEntry (m.withDram fun d => { d with asleep := insertNat pch d.asleep })) ∧
    (∀ gk slot g, s.input = .storage (.tag gk slot) → Map.get m.groups gk = some g → slot < g.regs.length →
      ∃ n, becomes .storageError n ∧ n.groupHas gk fun h => (h.reg slot).tag = 0 ∧ (h.reg slot).empty = (g.reg slot).empty ∧
        (h.reg slot).lanes = (g.reg slot).lanes.map TWord.poison) ∧
    (∀ sn i e, s.input = .storage (.dram sn [(i, e)]) → i < 64 → ∃ n, becomes .storageError n ∧
      ∀ a, n.mem.dram.byte a = if a = sn * 64 + i then d.byte a ^^^ e else d.byte a) ∧
    (∀ blk off b, s.input = .storage (.scratch blk off true) → Map.get m.blocks blk = some b → m.savedAt blk (off / 4 * 4) = none →
      ∃ n, becomes .storageError n ∧ n.groups = m.groups ∧ n.mem = m.mem ∧
        n.spadWord blk (off / 4 * 4) = (m.spadWord blk (off / 4 * 4)).poison) ∧
    (∀ stop p r dir, s.input = .n stop → Map.getD m.ring.waiting stop [] = p :: r → m.ring.direction stop p.dest = some dir →
      -- nothing on the ring goes over the link first
      m.ring.taken stop dir = false → (m.ring.buffer (2 * stop + dir)).length + 1 + p.data.length + 2 ≤ flitSlots →
      let link := 2 * stop + dir
      ∃ n, becomes .ringPacketInject n ∧ Map.getD n.ring.waiting stop [] = r ∧
        n.ring.buffer link = m.ring.buffer link ++ packetFlits p (Map.getD m.ring.seq link 0) m.nextId) ∧
    (∀ stop up f r, s.input = .flit stop up none → stop < 12 →
      let link := 2 * (if up then (stop + 11) % 12 else (stop + 1) % 12) + (if up then 0 else 1)
      let out := 2 * stop + (if up then 0 else 1)
      m.ring.buffer link = f :: r → f.resend = false → link ∉ m.ring.failed →
      let room := f.dest = stop ∨ out ∉ m.ring.failed ∧ (m.ring.buffer out).length < flitSlots ∧
        (∀ p, Map.get m.ring.passing out = some p → p = f.pkt)
      (flitOk f.bytes = true → f.dest ≠ stop → room →
        ∃ n, becomes .ringFlitReceive n ∧ n.ring.buffer link = r ∧
          n.ring.buffer out = m.ring.buffer out ++ [{ f with fails := 0, resend := false }] ∧
          Map.get n.ring.passing out = if f.index = f.len then none else some f.pkt) ∧
      -- at its stop; the last flit of a packet delivers it
      (flitOk f.bytes = true → f.dest = stop → ∃ n, becomes .ringFlitReceive n ∧ n.ring.buffer link = r ∧
        let parts := Map.set (Map.getD m.ring.parts f.pkt []) f.index f.bytes
        n.ring.arrived = m.ring.arrived ++ if parts.length = f.len + 1 then [(stop, Map.getD parts 0 [],
          (List.range f.len).map fun i => flitWords (Map.getD parts (i + 1) []))] else []) ∧
      (flitOk f.bytes = false → room → f.fails < 7 → ∃ n, becomes .ringFlitReceive n ∧
        n.ring.buffer link = { f with fails := f.fails + 1, resend := true } :: r) ∧
      (flitOk f.bytes = false → room → 7 ≤ f.fails → ∃ n, becomes .ringFlitReceive n ∧ link ∈ n.ring.failed ∧
        n.shared = m.shared ++ [(1, link)] ∧
        n.ring.buffer link = (f :: r).map fun f => { f with fails := 0, resend := false })) ∧
    (∀ stop dir f r, s.input = .n2 stop dir → m.ring.buffer (2 * stop + dir) = f :: r → dir < 2 →
      let link := 2 * stop + dir
      let other := 2 * stop + (1 - dir)
      (link ∉ m.ring.failed → f.resend = true →
        ∃ n, becomes .ringFlitResend n ∧ n.ring.buffer link = { f with resend := false } :: r) ∧
      (link ∈ m.ring.failed → other ∉ m.ring.failed → m.ring.takes other f = true →
        ∃ n, becomes .ringFlitResend n ∧ n.ring.buffer link = r ∧
          n.ring.buffer other = m.ring.buffer other ++ [{ f with fails := 0, resend := false }]))
end

