-- ==== Sys2Proof/Laws/Map.lean ====
section
/-! SUPPORT. Finite maps: what reads give after a write, and that writes keep the canonical form. -/

namespace Sys2Proof.Machine

open Sys2Proof

theorem map_get_set_same {α : Type} (m : Map α) (k : Nat) (a : α) : Map.get (Map.set m k a) k = some a := by
  induction m with
  | nil => simp [Map.set, Map.get]
  | cons e r ih =>
    obtain ⟨j, b⟩ := e
    simp only [Map.set]
    split
    · simp [Map.get]
    · split
      · simp [Map.get]
      · have h : j ≠ k := by omega
        simp [Map.get, h, ih]

theorem map_get_set_other {α : Type} (m : Map α) (k j : Nat) (a : α) (h : j ≠ k) : Map.get (Map.set m k a) j = Map.get m j := by
  induction m with
  | nil => simp [Map.set, Map.get, Ne.symm h]
  | cons e r ih =>
    obtain ⟨i, b⟩ := e
    simp only [Map.set]
    split
    · simp [Map.get, Ne.symm h]
    · split
      · next hk => subst hk; simp [Map.get, Ne.symm h]
      · simp [Map.get, ih]

theorem map_get_del_same {α : Type} (m : Map α) (k : Nat) : Map.get (Map.del m k) k = none := by
  induction m with
  | nil => simp [Map.del, Map.get]
  | cons e r ih =>
    by_cases h : e.1 = k
    · simpa [Map.del, h] using ih
    · simpa [Map.del, h, Map.get] using ih

theorem map_get_del_other {α : Type} (m : Map α) (k j : Nat) (h : j ≠ k) : Map.get (Map.del m k) j = Map.get m j := by
  induction m with
  | nil => simp [Map.del, Map.get]
  | cons e r ih =>
    by_cases hk : e.1 = k
    · have : ¬ e.1 = j := by omega
      simpa [Map.del, hk, Map.get, Ne.symm h] using ih
    · have : Map.del (e :: r) k = e :: Map.del r k := by simp [Map.del, hk]
      rw [this]
      simp only [Map.get, ih]

theorem map_get_upd_same {α : Type} (m : Map α) (k : Nat) (f : α → α) : Map.get (Map.upd m k f) k = (Map.get m k).map f := by
  unfold Map.upd
  split
  · next a h => simp [map_get_set_same, h]
  · next h => simp [h]

theorem map_get_upd_other {α : Type} (m : Map α) (k j : Nat) (f : α → α) (h : j ≠ k) : Map.get (Map.upd m k f) j = Map.get m j := by
  unfold Map.upd
  split
  · exact map_get_set_other m k j _ h
  · rfl

/-- A value stored sparsely is read back. -/
theorem map_getD_put_same {α : Type} [DecidableEq α] (m : Map α) (k : Nat) (a d : α) : Map.getD (Map.put m k a d) k d = a := by
  unfold Map.put Map.getD
  split
  · next h => simp [map_get_del_same, h]
  · simp [map_get_set_same]

theorem map_getD_put_other {α : Type} [DecidableEq α] (m : Map α) (k j : Nat) (a d : α) (h : j ≠ k) :
    Map.getD (Map.put m k a d) j d = Map.getD m j d := by
  unfold Map.put Map.getD
  split
  · rw [map_get_del_other m k j h]
  · rw [map_get_set_other m k j a h]

/-! ### Rising keys -/

theorem map_rising_weaken {α : Type} (m : Map α) (b c : Nat) (h : c ≤ b) (hm : Map.risingFrom b m = true) : Map.risingFrom c m = true := by
  cases m with
  | nil => rfl
  | cons e r =>
    obtain ⟨k, a⟩ := e
    simp only [Map.risingFrom, Bool.and_eq_true, decide_eq_true_eq] at hm ⊢
    exact ⟨by omega, hm.2⟩

theorem map_rising_set {α : Type} (m : Map α) (b k : Nat) (a : α) (hk : b ≤ k) (hm : Map.risingFrom b m = true) :
    Map.risingFrom b (Map.set m k a) = true := by
  induction m generalizing b with
  | nil => simp [Map.set, Map.risingFrom, hk]
  | cons e r ih =>
    obtain ⟨j, v⟩ := e
    simp only [Map.risingFrom, Bool.and_eq_true, decide_eq_true_eq] at hm
    simp only [Map.set]
    split
    · simp only [Map.risingFrom, Bool.and_eq_true, decide_eq_true_eq]
      exact ⟨hk, by omega, hm.2⟩
    · split
      · next h => subst h; simp [Map.risingFrom, hk, hm.2]
      · simp only [Map.risingFrom, Bool.and_eq_true, decide_eq_true_eq]
        exact ⟨hm.1, ih (j + 1) (by omega) hm.2⟩

theorem map_rising_filter {α : Type} (m : Map α) (b : Nat) (p : Nat × α → Bool) (hm : Map.risingFrom b m = true) :
    Map.risingFrom b (m.filter p) = true := by
  induction m generalizing b with
  | nil => simpa using hm
  | cons e r ih =>
    obtain ⟨k, a⟩ := e
    simp only [Map.risingFrom, Bool.and_eq_true, decide_eq_true_eq] at hm
    simp only [List.filter_cons]
    split
    · simp only [Map.risingFrom, Bool.and_eq_true, decide_eq_true_eq]
      exact ⟨hm.1, ih (k + 1) hm.2⟩
    · exact map_rising_weaken _ (k + 1) b (by omega) (ih (k + 1) hm.2)

theorem map_all_set {α : Type} (m : Map α) (k : Nat) (a : α) (p : Nat × α → Bool) (ha : p (k, a) = true) (hm : m.all p = true) :
    (Map.set m k a).all p = true := by
  induction m with
  | nil => simp [Map.set, ha]
  | cons e r ih =>
    obtain ⟨j, v⟩ := e
    simp only [List.all_cons, Bool.and_eq_true] at hm
    simp only [Map.set]
    split
    · simp [ha, hm.1]; simpa using hm.2
    · split
      · next h => simp [ha]; simpa using hm.2
      · simp only [List.all_cons, Bool.and_eq_true]; exact ⟨hm.1, ih hm.2⟩

theorem map_all_filter {α : Type} (m : List α) (p q : α → Bool) (hm : m.all p = true) : (m.filter q).all p = true := by
  rw [List.all_eq_true] at hm ⊢
  intro x hx
  exact hm x (List.mem_filter.mp hx).1

/-! ### The canonical form of memory -/

theorem memory_wf_nil : Memory.wf [] = true := rfl

/-- Dropping entries keeps the form. -/
theorem memory_wf_filter (l : List Host.Cell) (p : Host.Cell → Bool) (h : Memory.wf l = true) : Memory.wf (l.filter p) = true := by
  simp only [Memory.wf, Map.rising, Bool.and_eq_true] at h ⊢
  exact ⟨map_rising_filter l 0 p h.1, map_all_filter l _ p h.2⟩

/-- Storing a byte keeps the form: the byte an unlisted address reads as removes its entry. -/
theorem memory_wf_put (l : List Host.Cell) (a : Nat) (b : Byte) (h : Memory.wf l = true) : Memory.wf (Map.put l a b 0) = true := by
  unfold Map.put
  split
  · exact memory_wf_filter l _ h
  · next hb =>
    simp only [Memory.wf, Map.rising, Bool.and_eq_true] at h ⊢
    exact ⟨map_rising_set l 0 a b (by omega) h.1, map_all_set l a b _ (by simpa using hb) h.2⟩

end Sys2Proof.Machine
end

