-- ==== Sys2Proof/Laws/Memory.lean ====
section
/-! SUPPORT. Every operation of the memory hierarchy keeps the canonical form of DRAM, and only writes to DRAM change its
bytes. -/

namespace Sys2Proof.Machine

open Sys2Proof

/-- DRAM of a machine lists its bytes in canonical form. -/
abbrev Machine.memWf (m : Machine) : Prop := m.mem.dram.wf = true

theorem foldl_keeps {α β : Type} (P : β → Prop) (f : β → α → β) (h : ∀ b a, P b → P (f b a)) (l : List α) (b : β) (hb : P b) :
    P (l.foldl f b) := by
  induction l generalizing b with
  | nil => exact hb
  | cons a r ih => exact ih (f b a) (h b a hb)

theorem setByte_wf (d : Dram) (a : Nat) (b : Byte) (h : d.wf = true) : (d.setByte a b).wf = true := memory_wf_put d.bytes a b h

theorem memWf_of_bytes {m n : Machine} (e : n.mem.dram.bytes = m.mem.dram.bytes) (h : m.memWf) : n.memWf := by
  unfold Machine.memWf Dram.wf at *
  rw [e]; exact h

/-! ### What leaves the bytes alone -/

theorem dramTouch_bytes (m : Machine) (pa : Nat) : (m.dramTouch pa).mem.dram.bytes = m.mem.dram.bytes := by
  unfold Machine.dramTouch Machine.withDram
  dsimp only
  split <;> rfl

theorem countErr_mem (m : Machine) (k d : Nat) (f : Bool) : (m.countErr k d f).mem = m.mem := rfl

theorem dramDecode_bytes (m : Machine) (sn : Nat) : (m.dramDecode sn).2.mem.dram.bytes = m.mem.dram.bytes := by
  unfold Machine.dramDecode
  dsimp only
  split <;> rfl

theorem dramRead_bytes (m : Machine) (sn : Nat) : (m.dramRead sn).2.mem.dram.bytes = m.mem.dram.bytes :=
  (dramDecode_bytes _ sn).trans (dramTouch_bytes m _)

theorem use_dram (e : Mem) (k : CacheLevel) (line : Nat) : (e.use k line).dram = e.dram := by
  unfold Mem.use
  dsimp only
  split <;> rfl

/-- Holding a sector in a cache leaves DRAM alone. -/
theorem mscPut_bytes (m : Machine) (sn : Nat) (s : Sector) : (m.mscPut sn s).mem.dram.bytes = m.mem.dram.bytes :=
  congrArg Dram.bytes (use_dram _ .msc (sn / 4))

theorem diePut_bytes (m : Machine) (d sn : Nat) (s : Sector) : (m.diePut d sn s).mem.dram.bytes = m.mem.dram.bytes :=
  congrArg Dram.bytes (use_dram _ (.die d) (sn / 4))

theorem l1Put_bytes (m : Machine) (core sn : Nat) (s : Sector) : (m.l1Put core sn s).mem.dram.bytes = m.mem.dram.bytes :=
  congrArg Dram.bytes (use_dram _ (.l1 core) (sn / 4))

theorem mscRead_bytes (m : Machine) (sn pri : Nat) : (m.mscRead sn pri).2.mem.dram.bytes = m.mem.dram.bytes := by
  unfold Machine.mscRead
  split
  · exact mscPut_bytes m sn _
  · exact (mscPut_bytes _ sn _).trans (dramRead_bytes m sn)

theorem mscMerge_bytes (m : Machine) (sn : Nat) (ws : List TWord) (dirty : BitVec 64) (pri : Nat) :
    (m.mscMerge sn ws dirty pri).mem.dram.bytes = m.mem.dram.bytes := by
  unfold Machine.mscMerge
  exact (mscPut_bytes _ sn _).trans (mscRead_bytes m sn pri)

theorem recall_bytes (m : Machine) (d sn : Nat) : (m.recall d sn).mem.dram.bytes = m.mem.dram.bytes := by
  unfold Machine.recall
  split
  · rfl
  · dsimp only
    split
    · rfl
    · exact mscMerge_bytes m sn _ _ _

theorem refresh_bytes (m : Machine) (d sn : Nat) : (m.refresh d sn).mem.dram.bytes = m.mem.dram.bytes := by
  unfold Machine.refresh
  split <;> rfl

theorem invalidateLine_bytes (m : Machine) (line : Nat) (keep : Option Nat) :
    (m.invalidateLine line keep).mem.dram.bytes = m.mem.dram.bytes := by
  have recalled : ∀ ds : List Nat,
      (ds.foldl (fun m d => (List.range 4).foldl (fun m i => m.recall d (line * 4 + i)) m) m).mem.dram.bytes = m.mem.dram.bytes :=
    fun ds => foldl_keeps (fun n : Machine => n.mem.dram.bytes = m.mem.dram.bytes) _ (fun n d hn =>
      foldl_keeps (fun x : Machine => x.mem.dram.bytes = m.mem.dram.bytes) _ (fun x i hx => (recall_bytes x d _).trans hx) _ n hn) ds m rfl
  cases keep with
  | none => exact recalled _
  | some d =>
    exact foldl_keeps (fun n : Machine => n.mem.dram.bytes = m.mem.dram.bytes) _
      (fun n i hn => (refresh_bytes n d _).trans hn) _ _ (recalled _)

theorem homeMerge_bytes (m : Machine) (sn : Nat) (ws : List TWord) (dirty : BitVec 64) (pri : Nat) :
    (m.homeMerge sn ws dirty pri).mem.dram.bytes = m.mem.dram.bytes :=
  (mscMerge_bytes _ sn ws dirty pri).trans (invalidateLine_bytes m _ _)

theorem dieWriteBack_bytes (m : Machine) (d sn : Nat) : (m.dieWriteBack d sn).mem.dram.bytes = m.mem.dram.bytes := by
  unfold Machine.dieWriteBack
  split
  · rfl
  · split
    · rfl
    · exact (mscMerge_bytes _ sn _ _ _).trans (invalidateLine_bytes m _ _)

theorem dieRead_bytes (m : Machine) (d sn pri : Nat) : (m.dieRead d sn pri).2.mem.dram.bytes = m.mem.dram.bytes := by
  unfold Machine.dieRead
  split
  · exact diePut_bytes m d sn _
  · exact (diePut_bytes _ d sn _).trans (mscRead_bytes m sn pri)

theorem dieMerge_bytes (m : Machine) (d sn : Nat) (ws : List TWord) (dirty : BitVec 64) (pri : Nat) :
    (m.dieMerge d sn ws dirty pri).mem.dram.bytes = m.mem.dram.bytes := by
  unfold Machine.dieMerge
  exact (diePut_bytes _ d sn _).trans ((dieRead_bytes _ d sn pri).trans (invalidateLine_bytes m _ _))

theorem l1Read_bytes (m : Machine) (core sn p q : Nat) : (m.l1Read core sn p q).2.mem.dram.bytes = m.mem.dram.bytes := by
  unfold Machine.l1Read
  split
  · exact l1Put_bytes m core sn _
  · exact (l1Put_bytes _ core sn _).trans (dieRead_bytes m _ sn q)

theorem l1Merge_bytes (m : Machine) (core sn : Nat) (ws : List TWord) (dirty : BitVec 64) (p q : Nat) :
    (m.l1Merge core sn ws dirty p q).mem.dram.bytes = m.mem.dram.bytes := by
  unfold Machine.l1Merge
  exact (l1Put_bytes _ core sn _).trans (l1Read_bytes m core sn p q)

theorem l1WriteBack_bytes (m : Machine) (core sn : Nat) : (m.l1WriteBack core sn).mem.dram.bytes = m.mem.dram.bytes := by
  unfold Machine.l1WriteBack
  split
  · rfl
  · split
    · rfl
    · exact dieMerge_bytes m _ sn _ _ _

theorem l1Drop_mem (m : Machine) (core sn : Nat) : (m.l1Drop core sn).mem = m.mem := rfl

theorem flushL1_bytes (m : Machine) (core : Nat) : (m.flushL1 core).mem.dram.bytes = m.mem.dram.bytes :=
  foldl_keeps (fun n : Machine => n.mem.dram.bytes = m.mem.dram.bytes) _ (fun n sn hn => (l1WriteBack_bytes n core sn).trans hn) _ m rfl

theorem flushDie_bytes (m : Machine) (d : Nat) : (m.flushDie d).mem.dram.bytes = m.mem.dram.bytes :=
  foldl_keeps (fun n : Machine => n.mem.dram.bytes = m.mem.dram.bytes) _ (fun n sn hn => (dieWriteBack_bytes n d sn).trans hn) _ m rfl

theorem release_bytes (m : Machine) (core : Nat) (sc : Scope) (n : Nat) : (m.release core sc n).mem.dram.bytes = m.mem.dram.bytes := by
  unfold Machine.release
  split
  · dsimp only
    split
    · exact (flushDie_bytes _ _).trans (flushL1_bytes m core)
    · exact flushL1_bytes m core
  · rfl

theorem acquire_bytes (m : Machine) (core : Nat) (sc : Scope) (n : Nat) : (m.acquire core sc n).mem.dram.bytes = m.mem.dram.bytes := by
  unfold Machine.acquire
  split
  · exact flushL1_bytes m core
  · rfl

theorem homeWord_bytes (m : Machine) (pa : Nat) : (m.homeWord pa).2.mem.dram.bytes = m.mem.dram.bytes :=
  mscRead_bytes m _ _

theorem homeWords_bytes (m : Machine) (pa n : Nat) : (m.homeWords pa n).2.mem.dram.bytes = m.mem.dram.bytes := by
  unfold Machine.homeWords
  refine foldl_keeps (fun x : List TWord × Machine => x.2.mem.dram.bytes = m.mem.dram.bytes) _ (fun x i hx => ?_) _ _ rfl
  exact (homeWord_bytes x.2 (pa + 4 * i)).trans hx

theorem homeNat64_bytes (m : Machine) (pa : Nat) : (m.homeNat64 pa).2.mem.dram.bytes = m.mem.dram.bytes :=
  (homeWord_bytes _ (pa + 4)).trans (homeWord_bytes m pa)

theorem setHomeWord_bytes (m : Machine) (pa : Nat) (t : TWord) : (m.setHomeWord pa t).mem.dram.bytes = m.mem.dram.bytes :=
  homeMerge_bytes m _ _ _ _

theorem setHomeWords_bytes (m : Machine) (pa : Nat) (ts : List TWord) : (m.setHomeWords pa ts).mem.dram.bytes = m.mem.dram.bytes := by
  unfold Machine.setHomeWords
  refine foldl_keeps (fun x : Nat × Machine => x.2.mem.dram.bytes = m.mem.dram.bytes) _ (fun x t hx => ?_) _ _ rfl
  exact (setHomeWord_bytes x.2 x.1 t).trans hx

theorem setHomeData_bytes (m : Machine) (pa : Nat) (ws : List Word) : (m.setHomeData pa ws).mem.dram.bytes = m.mem.dram.bytes :=
  setHomeWords_bytes m pa _

theorem dropLine_bytes (m : Machine) (core sn : Nat) : (m.dropLine core sn).mem.dram.bytes = m.mem.dram.bytes := by
  unfold Machine.dropLine
  refine foldl_keeps (fun n : Machine => n.mem.dram.bytes = m.mem.dram.bytes) _ (fun n i hn => ?_) _ _ ?_
  · exact hn
  · unfold Machine.dropCopies
    exact foldl_keeps (fun n : Machine => n.mem.dram.bytes = m.mem.dram.bytes)
      (fun m i => (m.l1Drop core (sn / 4 * 4 + i)).dieDrop (dieOfCore core) (sn / 4 * 4 + i)) (fun n i hn => hn) _ m rfl

/-! ### What writes DRAM -/

theorem setBytes_wf (d : Dram) (f : Nat → Nat) (g : Nat → Byte) (l : List Nat) (h : d.wf = true) :
    (l.foldl (fun d i => d.setByte (f i) (g i)) d).wf = true :=
  foldl_keeps (fun d : Dram => d.wf = true) _ (fun d i hd => setByte_wf d (f i) (g i) hd) l d h

theorem dramWrite_wf (m : Machine) (sn : Nat) (ws : List TWord) (h : m.memWf) : (m.dramWrite sn ws).memWf := by
  have h' : (m.dramTouch (sn * 64)).mem.dram.wf = true := memWf_of_bytes (dramTouch_bytes m _) h
  generalize he : encodeSector ws true = e
  have := setBytes_wf (m.dramTouch (sn * 64)).mem.dram (fun i => sn * 64 + i) (fun i => e.1.getD i 0) (List.range 64) h'
  unfold Machine.dramWrite
  rw [he]
  exact this

theorem mscEvict_wf (m : Machine) (sn : Nat) (h : m.memWf) : (m.mscEvict sn).memWf := by
  unfold Machine.mscEvict
  split
  · exact h
  · dsimp only
    split
    · exact h
    · exact dramWrite_wf m sn _ h

theorem mscClean_wf (m : Machine) (sn : Nat) (h : m.memWf) : (m.mscClean sn).memWf := by
  unfold Machine.mscClean
  split
  · exact h
  · split
    · exact h
    · exact dramWrite_wf m sn _ h

theorem wipe_wf (m : Machine) (lo size : Nat) (h : m.memWf) : (m.wipe lo size).memWf := memory_wf_filter _ _ h

/-- A wiped byte reads 0 (R243). -/
theorem wipe_reads (m : Machine) (lo size a : Nat) (h : lo ≤ a ∧ a < lo + size) : (m.wipe lo size).mem.dram.byte a = 0 := by
  have key : ∀ l : List Host.Cell, Map.get (l.filter fun b => !(decide (lo ≤ b.1) && decide (b.1 < lo + size))) a = none := by
    intro l
    induction l with
    | nil => rfl
    | cons e r ih =>
      rw [List.filter_cons]
      split
      · next he =>
        have hn : e.1 ≠ a := by
          rintro rfl
          simp [h.1, h.2] at he
        show (if e.1 = a then _ else _) = _
        rw [if_neg hn]; exact ih
      · exact ih
  have e : (m.wipe lo size).mem.dram.byte a =
      (Map.get (m.mem.dram.bytes.filter fun b => !(decide (lo ≤ b.1) && decide (b.1 < lo + size))) a).getD 0 := rfl
  rw [e, key]; rfl

theorem l1Drop_wf (m : Machine) (core sn : Nat) (h : m.memWf) : (m.l1Drop core sn).memWf := h

theorem dieDrop_wf (m : Machine) (d sn : Nat) (h : m.memWf) : (m.dieDrop d sn).memWf := h

theorem clearPresence_wf (m : Machine) (d line : Nat) (h : m.memWf) : (m.clearPresence d line).memWf := by
  unfold Machine.clearPresence
  split
  · exact h
  · exact h

/-- Making room keeps the canonical form: what leaves a cache is written as DRAM lists it. -/
theorem evictLine_wf (m : Machine) (k : CacheLevel) (line : Nat) (h : m.memWf) : (m.evictLine k line).memWf := by
  unfold Machine.evictLine
  dsimp only
  split
  · exact foldl_keeps Machine.memWf _ (fun n sn hn => l1Drop_wf _ _ sn (memWf_of_bytes (l1WriteBack_bytes n _ sn) hn)) _ m h
  · exact clearPresence_wf _ _ _
      (foldl_keeps Machine.memWf _ (fun n sn hn => dieDrop_wf _ _ sn (memWf_of_bytes (dieWriteBack_bytes n _ sn) hn)) _ m h)
  · exact foldl_keeps Machine.memWf _ (fun n sn hn => mscEvict_wf n sn hn) _ m h

theorem trimCache_wf (k : CacheLevel) (n : Nat) (m : Machine) (h : m.memWf) : (Machine.trimCache k n m).memWf := by
  induction n generalizing m with
  | zero => exact h
  | succ n ih =>
    unfold Machine.trimCache
    split
    · exact h
    · split
      · exact ih _ (evictLine_wf m k _ h)
      · exact h

theorem makeRoom_wf (m : Machine) (h : m.memWf) : m.makeRoom.memWf := by
  have trims : ∀ (ks : List Nat) (f : Nat → CacheLevel) (n : Machine), n.memWf →
      (ks.foldl (fun m c => Machine.trimCache (f c) (m.cacheAt (f c)).length m) n).memWf := fun ks f n hn =>
    foldl_keeps (fun x : Machine => x.memWf) _ (fun x c hx => trimCache_wf (f c) _ x hx) ks n hn
  unfold Machine.makeRoom
  dsimp only
  split
  · exact trimCache_wf .msc _ _ (trims _ CacheLevel.die _ (trims _ CacheLevel.l1 m h))
  · exact trimCache_wf .msc _ _ (trims _ CacheLevel.die _ (trims _ CacheLevel.l1 m h))

theorem afterReset_wf (f : Fuses) : (Machine.afterReset f).memWf := rfl

theorem reset_wf : State.reset.cur.memWf := rfl

/-! ### Reading back (R74, R75) -/

theorem byte_setByte_same (d : Dram) (a : Nat) (b : Byte) : (d.setByte a b).byte a = b := map_getD_put_same d.bytes a b 0

theorem byte_setByte_other (d : Dram) (a c : Nat) (b : Byte) (h : c ≠ a) : (d.setByte a b).byte c = d.byte c :=
  map_getD_put_other d.bytes a c b 0 h

end Sys2Proof.Machine
end

