-- ==== Sys2Proof/Laws/State.lean ====
section
/-! SUPPORT. What each update of the state leaves alone and what it changes: one lemma per field and update, true by
definition. -/

namespace Sys2Proof.Machine

open Sys2Proof

/-! ### Machine.updGroup -/

@[simp] theorem updGroup_bring (m : Machine) (k : Nat) (f : Group → Group) : (m.updGroup k f).bring = m.bring := rfl
@[simp] theorem updGroup_fuses (m : Machine) (k : Nat) (f : Group → Group) : (m.updGroup k f).fuses = m.fuses := rfl
@[simp] theorem updGroup_digest (m : Machine) (k : Nat) (f : Group → Group) : (m.updGroup k f).digest = m.digest := rfl
@[simp] theorem updGroup_report (m : Machine) (k : Nat) (f : Group → Group) : (m.updGroup k f).report = m.report := rfl
@[simp] theorem updGroup_mgmtOut (m : Machine) (k : Nat) (f : Group → Group) : (m.updGroup k f).mgmtOut = m.mgmtOut := rfl
@[simp] theorem updGroup_domains (m : Machine) (k : Nat) (f : Group → Group) : (m.updGroup k f).domains = m.domains := rfl
@[simp] theorem updGroup_dieReset (m : Machine) (k : Nat) (f : Group → Group) : (m.updGroup k f).dieReset = m.dieReset := rfl
@[simp] theorem updGroup_diesClosed (m : Machine) (k : Nat) (f : Group → Group) : (m.updGroup k f).diesClosed = m.diesClosed := rfl
@[simp] theorem updGroup_supplyLost (m : Machine) (k : Nat) (f : Group → Group) : (m.updGroup k f).supplyLost = m.supplyLost := rfl
@[simp] theorem updGroup_throttled (m : Machine) (k : Nat) (f : Group → Group) : (m.updGroup k f).throttled = m.throttled := rfl
@[simp] theorem updGroup_clock (m : Machine) (k : Nat) (f : Group → Group) : (m.updGroup k f).clock = m.clock := rfl
@[simp] theorem updGroup_thr (m : Machine) (k : Nat) (f : Group → Group) : (m.updGroup k f).thr = m.thr := rfl
@[simp] theorem updGroup_owners (m : Machine) (k : Nat) (f : Group → Group) : (m.updGroup k f).owners = m.owners := rfl
@[simp] theorem updGroup_chans (m : Machine) (k : Nat) (f : Group → Group) : (m.updGroup k f).chans = m.chans := rfl
@[simp] theorem updGroup_counters (m : Machine) (k : Nat) (f : Group → Group) : (m.updGroup k f).counters = m.counters := rfl
@[simp] theorem updGroup_qps (m : Machine) (k : Nat) (f : Group → Group) : (m.updGroup k f).qps = m.qps := rfl
@[simp] theorem updGroup_paths (m : Machine) (k : Nat) (f : Group → Group) : (m.updGroup k f).paths = m.paths := rfl
@[simp] theorem updGroup_portLost (m : Machine) (k : Nat) (f : Group → Group) : (m.updGroup k f).portLost = m.portLost := rfl
@[simp] theorem updGroup_shared (m : Machine) (k : Nat) (f : Group → Group) : (m.updGroup k f).shared = m.shared := rfl
@[simp] theorem updGroup_errs (m : Machine) (k : Nat) (f : Group → Group) : (m.updGroup k f).errs = m.errs := rfl
@[simp] theorem updGroup_berths (m : Machine) (k : Nat) (f : Group → Group) : (m.updGroup k f).berths = m.berths := rfl
@[simp] theorem updGroup_hmReqs (m : Machine) (k : Nat) (f : Group → Group) : (m.updGroup k f).hmReqs = m.hmReqs := rfl
@[simp] theorem updGroup_netOut (m : Machine) (k : Nat) (f : Group → Group) : (m.updGroup k f).netOut = m.netOut := rfl
@[simp] theorem updGroup_ctxs (m : Machine) (k : Nat) (f : Group → Group) : (m.updGroup k f).ctxs = m.ctxs := rfl
@[simp] theorem updGroup_grids (m : Machine) (k : Nat) (f : Group → Group) : (m.updGroup k f).grids = m.grids := rfl
@[simp] theorem updGroup_blocks (m : Machine) (k : Nat) (f : Group → Group) : (m.updGroup k f).blocks = m.blocks := rfl
@[simp] theorem updGroup_groups (m : Machine) (k : Nat) (f : Group → Group) : (m.updGroup k f).groups = Map.upd m.groups k f := rfl
@[simp] theorem updGroup_cmds (m : Machine) (k : Nat) (f : Group → Group) : (m.updGroup k f).cmds = m.cmds := rfl
@[simp] theorem updGroup_cores (m : Machine) (k : Nat) (f : Group → Group) : (m.updGroup k f).cores = m.cores := rfl
@[simp] theorem updGroup_parked (m : Machine) (k : Nat) (f : Group → Group) : (m.updGroup k f).parked = m.parked := rfl
@[simp] theorem updGroup_mem (m : Machine) (k : Nat) (f : Group → Group) : (m.updGroup k f).mem = m.mem := rfl
@[simp] theorem updGroup_tlb (m : Machine) (k : Nat) (f : Group → Group) : (m.updGroup k f).tlb = m.tlb := rfl
@[simp] theorem updGroup_ring (m : Machine) (k : Nat) (f : Group → Group) : (m.updGroup k f).ring = m.ring := rfl
@[simp] theorem updGroup_nextId (m : Machine) (k : Nat) (f : Group → Group) : (m.updGroup k f).nextId = m.nextId := rfl
@[simp] theorem updGroup_netCount (m : Machine) (k : Nat) (f : Group → Group) : (m.updGroup k f).netCount = m.netCount := rfl
@[simp] theorem updGroup_robin (m : Machine) (k : Nat) (f : Group → Group) : (m.updGroup k f).robin = m.robin := rfl
@[simp] theorem updGroup_timerAt (m : Machine) (k : Nat) (f : Group → Group) : (m.updGroup k f).timerAt = m.timerAt := rfl
@[simp] theorem updGroup_placements (m : Machine) (k : Nat) (f : Group → Group) : (m.updGroup k f).placements = m.placements := rfl

/-! ### Machine.updBlock -/

@[simp] theorem updBlock_bring (m : Machine) (k : Nat) (f : Block → Block) : (m.updBlock k f).bring = m.bring := rfl
@[simp] theorem updBlock_fuses (m : Machine) (k : Nat) (f : Block → Block) : (m.updBlock k f).fuses = m.fuses := rfl
@[simp] theorem updBlock_digest (m : Machine) (k : Nat) (f : Block → Block) : (m.updBlock k f).digest = m.digest := rfl
@[simp] theorem updBlock_report (m : Machine) (k : Nat) (f : Block → Block) : (m.updBlock k f).report = m.report := rfl
@[simp] theorem updBlock_mgmtOut (m : Machine) (k : Nat) (f : Block → Block) : (m.updBlock k f).mgmtOut = m.mgmtOut := rfl
@[simp] theorem updBlock_domains (m : Machine) (k : Nat) (f : Block → Block) : (m.updBlock k f).domains = m.domains := rfl
@[simp] theorem updBlock_dieReset (m : Machine) (k : Nat) (f : Block → Block) : (m.updBlock k f).dieReset = m.dieReset := rfl
@[simp] theorem updBlock_diesClosed (m : Machine) (k : Nat) (f : Block → Block) : (m.updBlock k f).diesClosed = m.diesClosed := rfl
@[simp] theorem updBlock_supplyLost (m : Machine) (k : Nat) (f : Block → Block) : (m.updBlock k f).supplyLost = m.supplyLost := rfl
@[simp] theorem updBlock_throttled (m : Machine) (k : Nat) (f : Block → Block) : (m.updBlock k f).throttled = m.throttled := rfl
@[simp] theorem updBlock_clock (m : Machine) (k : Nat) (f : Block → Block) : (m.updBlock k f).clock = m.clock := rfl
@[simp] theorem updBlock_thr (m : Machine) (k : Nat) (f : Block → Block) : (m.updBlock k f).thr = m.thr := rfl
@[simp] theorem updBlock_owners (m : Machine) (k : Nat) (f : Block → Block) : (m.updBlock k f).owners = m.owners := rfl
@[simp] theorem updBlock_chans (m : Machine) (k : Nat) (f : Block → Block) : (m.updBlock k f).chans = m.chans := rfl
@[simp] theorem updBlock_counters (m : Machine) (k : Nat) (f : Block → Block) : (m.updBlock k f).counters = m.counters := rfl
@[simp] theorem updBlock_qps (m : Machine) (k : Nat) (f : Block → Block) : (m.updBlock k f).qps = m.qps := rfl
@[simp] theorem updBlock_paths (m : Machine) (k : Nat) (f : Block → Block) : (m.updBlock k f).paths = m.paths := rfl
@[simp] theorem updBlock_portLost (m : Machine) (k : Nat) (f : Block → Block) : (m.updBlock k f).portLost = m.portLost := rfl
@[simp] theorem updBlock_shared (m : Machine) (k : Nat) (f : Block → Block) : (m.updBlock k f).shared = m.shared := rfl
@[simp] theorem updBlock_errs (m : Machine) (k : Nat) (f : Block → Block) : (m.updBlock k f).errs = m.errs := rfl
@[simp] theorem updBlock_berths (m : Machine) (k : Nat) (f : Block → Block) : (m.updBlock k f).berths = m.berths := rfl
@[simp] theorem updBlock_hmReqs (m : Machine) (k : Nat) (f : Block → Block) : (m.updBlock k f).hmReqs = m.hmReqs := rfl
@[simp] theorem updBlock_netOut (m : Machine) (k : Nat) (f : Block → Block) : (m.updBlock k f).netOut = m.netOut := rfl
@[simp] theorem updBlock_ctxs (m : Machine) (k : Nat) (f : Block → Block) : (m.updBlock k f).ctxs = m.ctxs := rfl
@[simp] theorem updBlock_grids (m : Machine) (k : Nat) (f : Block → Block) : (m.updBlock k f).grids = m.grids := rfl
@[simp] theorem updBlock_blocks (m : Machine) (k : Nat) (f : Block → Block) : (m.updBlock k f).blocks = Map.upd m.blocks k f := rfl
@[simp] theorem updBlock_groups (m : Machine) (k : Nat) (f : Block → Block) : (m.updBlock k f).groups = m.groups := rfl
@[simp] theorem updBlock_cmds (m : Machine) (k : Nat) (f : Block → Block) : (m.updBlock k f).cmds = m.cmds := rfl
@[simp] theorem updBlock_cores (m : Machine) (k : Nat) (f : Block → Block) : (m.updBlock k f).cores = m.cores := rfl
@[simp] theorem updBlock_parked (m : Machine) (k : Nat) (f : Block → Block) : (m.updBlock k f).parked = m.parked := rfl
@[simp] theorem updBlock_mem (m : Machine) (k : Nat) (f : Block → Block) : (m.updBlock k f).mem = m.mem := rfl
@[simp] theorem updBlock_tlb (m : Machine) (k : Nat) (f : Block → Block) : (m.updBlock k f).tlb = m.tlb := rfl
@[simp] theorem updBlock_ring (m : Machine) (k : Nat) (f : Block → Block) : (m.updBlock k f).ring = m.ring := rfl
@[simp] theorem updBlock_nextId (m : Machine) (k : Nat) (f : Block → Block) : (m.updBlock k f).nextId = m.nextId := rfl
@[simp] theorem updBlock_netCount (m : Machine) (k : Nat) (f : Block → Block) : (m.updBlock k f).netCount = m.netCount := rfl
@[simp] theorem updBlock_robin (m : Machine) (k : Nat) (f : Block → Block) : (m.updBlock k f).robin = m.robin := rfl
@[simp] theorem updBlock_timerAt (m : Machine) (k : Nat) (f : Block → Block) : (m.updBlock k f).timerAt = m.timerAt := rfl
@[simp] theorem updBlock_placements (m : Machine) (k : Nat) (f : Block → Block) : (m.updBlock k f).placements = m.placements := rfl

/-! ### Machine.updCtx -/

@[simp] theorem updCtx_bring (m : Machine) (k : Nat) (f : Ctx → Ctx) : (m.updCtx k f).bring = m.bring := rfl
@[simp] theorem updCtx_fuses (m : Machine) (k : Nat) (f : Ctx → Ctx) : (m.updCtx k f).fuses = m.fuses := rfl
@[simp] theorem updCtx_digest (m : Machine) (k : Nat) (f : Ctx → Ctx) : (m.updCtx k f).digest = m.digest := rfl
@[simp] theorem updCtx_report (m : Machine) (k : Nat) (f : Ctx → Ctx) : (m.updCtx k f).report = m.report := rfl
@[simp] theorem updCtx_mgmtOut (m : Machine) (k : Nat) (f : Ctx → Ctx) : (m.updCtx k f).mgmtOut = m.mgmtOut := rfl
@[simp] theorem updCtx_domains (m : Machine) (k : Nat) (f : Ctx → Ctx) : (m.updCtx k f).domains = m.domains := rfl
@[simp] theorem updCtx_dieReset (m : Machine) (k : Nat) (f : Ctx → Ctx) : (m.updCtx k f).dieReset = m.dieReset := rfl
@[simp] theorem updCtx_diesClosed (m : Machine) (k : Nat) (f : Ctx → Ctx) : (m.updCtx k f).diesClosed = m.diesClosed := rfl
@[simp] theorem updCtx_supplyLost (m : Machine) (k : Nat) (f : Ctx → Ctx) : (m.updCtx k f).supplyLost = m.supplyLost := rfl
@[simp] theorem updCtx_throttled (m : Machine) (k : Nat) (f : Ctx → Ctx) : (m.updCtx k f).throttled = m.throttled := rfl
@[simp] theorem updCtx_clock (m : Machine) (k : Nat) (f : Ctx → Ctx) : (m.updCtx k f).clock = m.clock := rfl
@[simp] theorem updCtx_thr (m : Machine) (k : Nat) (f : Ctx → Ctx) : (m.updCtx k f).thr = m.thr := rfl
@[simp] theorem updCtx_owners (m : Machine) (k : Nat) (f : Ctx → Ctx) : (m.updCtx k f).owners = m.owners := rfl
@[simp] theorem updCtx_chans (m : Machine) (k : Nat) (f : Ctx → Ctx) : (m.updCtx k f).chans = m.chans := rfl
@[simp] theorem updCtx_counters (m : Machine) (k : Nat) (f : Ctx → Ctx) : (m.updCtx k f).counters = m.counters := rfl
@[simp] theorem updCtx_qps (m : Machine) (k : Nat) (f : Ctx → Ctx) : (m.updCtx k f).qps = m.qps := rfl
@[simp] theorem updCtx_paths (m : Machine) (k : Nat) (f : Ctx → Ctx) : (m.updCtx k f).paths = m.paths := rfl
@[simp] theorem updCtx_portLost (m : Machine) (k : Nat) (f : Ctx → Ctx) : (m.updCtx k f).portLost = m.portLost := rfl
@[simp] theorem updCtx_shared (m : Machine) (k : Nat) (f : Ctx → Ctx) : (m.updCtx k f).shared = m.shared := rfl
@[simp] theorem updCtx_errs (m : Machine) (k : Nat) (f : Ctx → Ctx) : (m.updCtx k f).errs = m.errs := rfl
@[simp] theorem updCtx_berths (m : Machine) (k : Nat) (f : Ctx → Ctx) : (m.updCtx k f).berths = m.berths := rfl
@[simp] theorem updCtx_hmReqs (m : Machine) (k : Nat) (f : Ctx → Ctx) : (m.updCtx k f).hmReqs = m.hmReqs := rfl
@[simp] theorem updCtx_netOut (m : Machine) (k : Nat) (f : Ctx → Ctx) : (m.updCtx k f).netOut = m.netOut := rfl
@[simp] theorem updCtx_ctxs (m : Machine) (k : Nat) (f : Ctx → Ctx) : (m.updCtx k f).ctxs = Map.upd m.ctxs k f := rfl
@[simp] theorem updCtx_grids (m : Machine) (k : Nat) (f : Ctx → Ctx) : (m.updCtx k f).grids = m.grids := rfl
@[simp] theorem updCtx_blocks (m : Machine) (k : Nat) (f : Ctx → Ctx) : (m.updCtx k f).blocks = m.blocks := rfl
@[simp] theorem updCtx_groups (m : Machine) (k : Nat) (f : Ctx → Ctx) : (m.updCtx k f).groups = m.groups := rfl
@[simp] theorem updCtx_cmds (m : Machine) (k : Nat) (f : Ctx → Ctx) : (m.updCtx k f).cmds = m.cmds := rfl
@[simp] theorem updCtx_cores (m : Machine) (k : Nat) (f : Ctx → Ctx) : (m.updCtx k f).cores = m.cores := rfl
@[simp] theorem updCtx_parked (m : Machine) (k : Nat) (f : Ctx → Ctx) : (m.updCtx k f).parked = m.parked := rfl
@[simp] theorem updCtx_mem (m : Machine) (k : Nat) (f : Ctx → Ctx) : (m.updCtx k f).mem = m.mem := rfl
@[simp] theorem updCtx_tlb (m : Machine) (k : Nat) (f : Ctx → Ctx) : (m.updCtx k f).tlb = m.tlb := rfl
@[simp] theorem updCtx_ring (m : Machine) (k : Nat) (f : Ctx → Ctx) : (m.updCtx k f).ring = m.ring := rfl
@[simp] theorem updCtx_nextId (m : Machine) (k : Nat) (f : Ctx → Ctx) : (m.updCtx k f).nextId = m.nextId := rfl
@[simp] theorem updCtx_netCount (m : Machine) (k : Nat) (f : Ctx → Ctx) : (m.updCtx k f).netCount = m.netCount := rfl
@[simp] theorem updCtx_robin (m : Machine) (k : Nat) (f : Ctx → Ctx) : (m.updCtx k f).robin = m.robin := rfl
@[simp] theorem updCtx_timerAt (m : Machine) (k : Nat) (f : Ctx → Ctx) : (m.updCtx k f).timerAt = m.timerAt := rfl
@[simp] theorem updCtx_placements (m : Machine) (k : Nat) (f : Ctx → Ctx) : (m.updCtx k f).placements = m.placements := rfl

/-! ### Machine.updGrid -/

@[simp] theorem updGrid_bring (m : Machine) (k : Nat) (f : Grid → Grid) : (m.updGrid k f).bring = m.bring := rfl
@[simp] theorem updGrid_fuses (m : Machine) (k : Nat) (f : Grid → Grid) : (m.updGrid k f).fuses = m.fuses := rfl
@[simp] theorem updGrid_digest (m : Machine) (k : Nat) (f : Grid → Grid) : (m.updGrid k f).digest = m.digest := rfl
@[simp] theorem updGrid_report (m : Machine) (k : Nat) (f : Grid → Grid) : (m.updGrid k f).report = m.report := rfl
@[simp] theorem updGrid_mgmtOut (m : Machine) (k : Nat) (f : Grid → Grid) : (m.updGrid k f).mgmtOut = m.mgmtOut := rfl
@[simp] theorem updGrid_domains (m : Machine) (k : Nat) (f : Grid → Grid) : (m.updGrid k f).domains = m.domains := rfl
@[simp] theorem updGrid_dieReset (m : Machine) (k : Nat) (f : Grid → Grid) : (m.updGrid k f).dieReset = m.dieReset := rfl
@[simp] theorem updGrid_diesClosed (m : Machine) (k : Nat) (f : Grid → Grid) : (m.updGrid k f).diesClosed = m.diesClosed := rfl
@[simp] theorem updGrid_supplyLost (m : Machine) (k : Nat) (f : Grid → Grid) : (m.updGrid k f).supplyLost = m.supplyLost := rfl
@[simp] theorem updGrid_throttled (m : Machine) (k : Nat) (f : Grid → Grid) : (m.updGrid k f).throttled = m.throttled := rfl
@[simp] theorem updGrid_clock (m : Machine) (k : Nat) (f : Grid → Grid) : (m.updGrid k f).clock = m.clock := rfl
@[simp] theorem updGrid_thr (m : Machine) (k : Nat) (f : Grid → Grid) : (m.updGrid k f).thr = m.thr := rfl
@[simp] theorem updGrid_owners (m : Machine) (k : Nat) (f : Grid → Grid) : (m.updGrid k f).owners = m.owners := rfl
@[simp] theorem updGrid_chans (m : Machine) (k : Nat) (f : Grid → Grid) : (m.updGrid k f).chans = m.chans := rfl
@[simp] theorem updGrid_counters (m : Machine) (k : Nat) (f : Grid → Grid) : (m.updGrid k f).counters = m.counters := rfl
@[simp] theorem updGrid_qps (m : Machine) (k : Nat) (f : Grid → Grid) : (m.updGrid k f).qps = m.qps := rfl
@[simp] theorem updGrid_paths (m : Machine) (k : Nat) (f : Grid → Grid) : (m.updGrid k f).paths = m.paths := rfl
@[simp] theorem updGrid_portLost (m : Machine) (k : Nat) (f : Grid → Grid) : (m.updGrid k f).portLost = m.portLost := rfl
@[simp] theorem updGrid_shared (m : Machine) (k : Nat) (f : Grid → Grid) : (m.updGrid k f).shared = m.shared := rfl
@[simp] theorem updGrid_errs (m : Machine) (k : Nat) (f : Grid → Grid) : (m.updGrid k f).errs = m.errs := rfl
@[simp] theorem updGrid_berths (m : Machine) (k : Nat) (f : Grid → Grid) : (m.updGrid k f).berths = m.berths := rfl
@[simp] theorem updGrid_hmReqs (m : Machine) (k : Nat) (f : Grid → Grid) : (m.updGrid k f).hmReqs = m.hmReqs := rfl
@[simp] theorem updGrid_netOut (m : Machine) (k : Nat) (f : Grid → Grid) : (m.updGrid k f).netOut = m.netOut := rfl
@[simp] theorem updGrid_ctxs (m : Machine) (k : Nat) (f : Grid → Grid) : (m.updGrid k f).ctxs = m.ctxs := rfl
@[simp] theorem updGrid_grids (m : Machine) (k : Nat) (f : Grid → Grid) : (m.updGrid k f).grids = Map.upd m.grids k f := rfl
@[simp] theorem updGrid_blocks (m : Machine) (k : Nat) (f : Grid → Grid) : (m.updGrid k f).blocks = m.blocks := rfl
@[simp] theorem updGrid_groups (m : Machine) (k : Nat) (f : Grid → Grid) : (m.updGrid k f).groups = m.groups := rfl
@[simp] theorem updGrid_cmds (m : Machine) (k : Nat) (f : Grid → Grid) : (m.updGrid k f).cmds = m.cmds := rfl
@[simp] theorem updGrid_cores (m : Machine) (k : Nat) (f : Grid → Grid) : (m.updGrid k f).cores = m.cores := rfl
@[simp] theorem updGrid_parked (m : Machine) (k : Nat) (f : Grid → Grid) : (m.updGrid k f).parked = m.parked := rfl
@[simp] theorem updGrid_mem (m : Machine) (k : Nat) (f : Grid → Grid) : (m.updGrid k f).mem = m.mem := rfl
@[simp] theorem updGrid_tlb (m : Machine) (k : Nat) (f : Grid → Grid) : (m.updGrid k f).tlb = m.tlb := rfl
@[simp] theorem updGrid_ring (m : Machine) (k : Nat) (f : Grid → Grid) : (m.updGrid k f).ring = m.ring := rfl
@[simp] theorem updGrid_nextId (m : Machine) (k : Nat) (f : Grid → Grid) : (m.updGrid k f).nextId = m.nextId := rfl
@[simp] theorem updGrid_netCount (m : Machine) (k : Nat) (f : Grid → Grid) : (m.updGrid k f).netCount = m.netCount := rfl
@[simp] theorem updGrid_robin (m : Machine) (k : Nat) (f : Grid → Grid) : (m.updGrid k f).robin = m.robin := rfl
@[simp] theorem updGrid_timerAt (m : Machine) (k : Nat) (f : Grid → Grid) : (m.updGrid k f).timerAt = m.timerAt := rfl
@[simp] theorem updGrid_placements (m : Machine) (k : Nat) (f : Grid → Grid) : (m.updGrid k f).placements = m.placements := rfl

/-! ### Machine.updCmd -/

@[simp] theorem updCmd_bring (m : Machine) (k : Nat) (f : Cmd → Cmd) : (m.updCmd k f).bring = m.bring := rfl
@[simp] theorem updCmd_fuses (m : Machine) (k : Nat) (f : Cmd → Cmd) : (m.updCmd k f).fuses = m.fuses := rfl
@[simp] theorem updCmd_digest (m : Machine) (k : Nat) (f : Cmd → Cmd) : (m.updCmd k f).digest = m.digest := rfl
@[simp] theorem updCmd_report (m : Machine) (k : Nat) (f : Cmd → Cmd) : (m.updCmd k f).report = m.report := rfl
@[simp] theorem updCmd_mgmtOut (m : Machine) (k : Nat) (f : Cmd → Cmd) : (m.updCmd k f).mgmtOut = m.mgmtOut := rfl
@[simp] theorem updCmd_domains (m : Machine) (k : Nat) (f : Cmd → Cmd) : (m.updCmd k f).domains = m.domains := rfl
@[simp] theorem updCmd_dieReset (m : Machine) (k : Nat) (f : Cmd → Cmd) : (m.updCmd k f).dieReset = m.dieReset := rfl
@[simp] theorem updCmd_diesClosed (m : Machine) (k : Nat) (f : Cmd → Cmd) : (m.updCmd k f).diesClosed = m.diesClosed := rfl
@[simp] theorem updCmd_supplyLost (m : Machine) (k : Nat) (f : Cmd → Cmd) : (m.updCmd k f).supplyLost = m.supplyLost := rfl
@[simp] theorem updCmd_throttled (m : Machine) (k : Nat) (f : Cmd → Cmd) : (m.updCmd k f).throttled = m.throttled := rfl
@[simp] theorem updCmd_clock (m : Machine) (k : Nat) (f : Cmd → Cmd) : (m.updCmd k f).clock = m.clock := rfl
@[simp] theorem updCmd_thr (m : Machine) (k : Nat) (f : Cmd → Cmd) : (m.updCmd k f).thr = m.thr := rfl
@[simp] theorem updCmd_owners (m : Machine) (k : Nat) (f : Cmd → Cmd) : (m.updCmd k f).owners = m.owners := rfl
@[simp] theorem updCmd_chans (m : Machine) (k : Nat) (f : Cmd → Cmd) : (m.updCmd k f).chans = m.chans := rfl
@[simp] theorem updCmd_counters (m : Machine) (k : Nat) (f : Cmd → Cmd) : (m.updCmd k f).counters = m.counters := rfl
@[simp] theorem updCmd_qps (m : Machine) (k : Nat) (f : Cmd → Cmd) : (m.updCmd k f).qps = m.qps := rfl
@[simp] theorem updCmd_paths (m : Machine) (k : Nat) (f : Cmd → Cmd) : (m.updCmd k f).paths = m.paths := rfl
@[simp] theorem updCmd_portLost (m : Machine) (k : Nat) (f : Cmd → Cmd) : (m.updCmd k f).portLost = m.portLost := rfl
@[simp] theorem updCmd_shared (m : Machine) (k : Nat) (f : Cmd → Cmd) : (m.updCmd k f).shared = m.shared := rfl
@[simp] theorem updCmd_errs (m : Machine) (k : Nat) (f : Cmd → Cmd) : (m.updCmd k f).errs = m.errs := rfl
@[simp] theorem updCmd_berths (m : Machine) (k : Nat) (f : Cmd → Cmd) : (m.updCmd k f).berths = m.berths := rfl
@[simp] theorem updCmd_hmReqs (m : Machine) (k : Nat) (f : Cmd → Cmd) : (m.updCmd k f).hmReqs = m.hmReqs := rfl
@[simp] theorem updCmd_netOut (m : Machine) (k : Nat) (f : Cmd → Cmd) : (m.updCmd k f).netOut = m.netOut := rfl
@[simp] theorem updCmd_ctxs (m : Machine) (k : Nat) (f : Cmd → Cmd) : (m.updCmd k f).ctxs = m.ctxs := rfl
@[simp] theorem updCmd_grids (m : Machine) (k : Nat) (f : Cmd → Cmd) : (m.updCmd k f).grids = m.grids := rfl
@[simp] theorem updCmd_blocks (m : Machine) (k : Nat) (f : Cmd → Cmd) : (m.updCmd k f).blocks = m.blocks := rfl
@[simp] theorem updCmd_groups (m : Machine) (k : Nat) (f : Cmd → Cmd) : (m.updCmd k f).groups = m.groups := rfl
@[simp] theorem updCmd_cmds (m : Machine) (k : Nat) (f : Cmd → Cmd) : (m.updCmd k f).cmds = Map.upd m.cmds k f := rfl
@[simp] theorem updCmd_cores (m : Machine) (k : Nat) (f : Cmd → Cmd) : (m.updCmd k f).cores = m.cores := rfl
@[simp] theorem updCmd_parked (m : Machine) (k : Nat) (f : Cmd → Cmd) : (m.updCmd k f).parked = m.parked := rfl
@[simp] theorem updCmd_mem (m : Machine) (k : Nat) (f : Cmd → Cmd) : (m.updCmd k f).mem = m.mem := rfl
@[simp] theorem updCmd_tlb (m : Machine) (k : Nat) (f : Cmd → Cmd) : (m.updCmd k f).tlb = m.tlb := rfl
@[simp] theorem updCmd_ring (m : Machine) (k : Nat) (f : Cmd → Cmd) : (m.updCmd k f).ring = m.ring := rfl
@[simp] theorem updCmd_nextId (m : Machine) (k : Nat) (f : Cmd → Cmd) : (m.updCmd k f).nextId = m.nextId := rfl
@[simp] theorem updCmd_netCount (m : Machine) (k : Nat) (f : Cmd → Cmd) : (m.updCmd k f).netCount = m.netCount := rfl
@[simp] theorem updCmd_robin (m : Machine) (k : Nat) (f : Cmd → Cmd) : (m.updCmd k f).robin = m.robin := rfl
@[simp] theorem updCmd_timerAt (m : Machine) (k : Nat) (f : Cmd → Cmd) : (m.updCmd k f).timerAt = m.timerAt := rfl
@[simp] theorem updCmd_placements (m : Machine) (k : Nat) (f : Cmd → Cmd) : (m.updCmd k f).placements = m.placements := rfl

/-! ### Machine.setCore -/

@[simp] theorem setCore_bring (m : Machine) (k : Nat) (c : Core) : (m.setCore k c).bring = m.bring := rfl
@[simp] theorem setCore_fuses (m : Machine) (k : Nat) (c : Core) : (m.setCore k c).fuses = m.fuses := rfl
@[simp] theorem setCore_digest (m : Machine) (k : Nat) (c : Core) : (m.setCore k c).digest = m.digest := rfl
@[simp] theorem setCore_report (m : Machine) (k : Nat) (c : Core) : (m.setCore k c).report = m.report := rfl
@[simp] theorem setCore_mgmtOut (m : Machine) (k : Nat) (c : Core) : (m.setCore k c).mgmtOut = m.mgmtOut := rfl
@[simp] theorem setCore_domains (m : Machine) (k : Nat) (c : Core) : (m.setCore k c).domains = m.domains := rfl
@[simp] theorem setCore_dieReset (m : Machine) (k : Nat) (c : Core) : (m.setCore k c).dieReset = m.dieReset := rfl
@[simp] theorem setCore_diesClosed (m : Machine) (k : Nat) (c : Core) : (m.setCore k c).diesClosed = m.diesClosed := rfl
@[simp] theorem setCore_supplyLost (m : Machine) (k : Nat) (c : Core) : (m.setCore k c).supplyLost = m.supplyLost := rfl
@[simp] theorem setCore_throttled (m : Machine) (k : Nat) (c : Core) : (m.setCore k c).throttled = m.throttled := rfl
@[simp] theorem setCore_clock (m : Machine) (k : Nat) (c : Core) : (m.setCore k c).clock = m.clock := rfl
@[simp] theorem setCore_thr (m : Machine) (k : Nat) (c : Core) : (m.setCore k c).thr = m.thr := rfl
@[simp] theorem setCore_owners (m : Machine) (k : Nat) (c : Core) : (m.setCore k c).owners = m.owners := rfl
@[simp] theorem setCore_chans (m : Machine) (k : Nat) (c : Core) : (m.setCore k c).chans = m.chans := rfl
@[simp] theorem setCore_counters (m : Machine) (k : Nat) (c : Core) : (m.setCore k c).counters = m.counters := rfl
@[simp] theorem setCore_qps (m : Machine) (k : Nat) (c : Core) : (m.setCore k c).qps = m.qps := rfl
@[simp] theorem setCore_paths (m : Machine) (k : Nat) (c : Core) : (m.setCore k c).paths = m.paths := rfl
@[simp] theorem setCore_portLost (m : Machine) (k : Nat) (c : Core) : (m.setCore k c).portLost = m.portLost := rfl
@[simp] theorem setCore_shared (m : Machine) (k : Nat) (c : Core) : (m.setCore k c).shared = m.shared := rfl
@[simp] theorem setCore_errs (m : Machine) (k : Nat) (c : Core) : (m.setCore k c).errs = m.errs := rfl
@[simp] theorem setCore_berths (m : Machine) (k : Nat) (c : Core) : (m.setCore k c).berths = m.berths := rfl
@[simp] theorem setCore_hmReqs (m : Machine) (k : Nat) (c : Core) : (m.setCore k c).hmReqs = m.hmReqs := rfl
@[simp] theorem setCore_netOut (m : Machine) (k : Nat) (c : Core) : (m.setCore k c).netOut = m.netOut := rfl
@[simp] theorem setCore_ctxs (m : Machine) (k : Nat) (c : Core) : (m.setCore k c).ctxs = m.ctxs := rfl
@[simp] theorem setCore_grids (m : Machine) (k : Nat) (c : Core) : (m.setCore k c).grids = m.grids := rfl
@[simp] theorem setCore_blocks (m : Machine) (k : Nat) (c : Core) : (m.setCore k c).blocks = m.blocks := rfl
@[simp] theorem setCore_groups (m : Machine) (k : Nat) (c : Core) : (m.setCore k c).groups = m.groups := rfl
@[simp] theorem setCore_cmds (m : Machine) (k : Nat) (c : Core) : (m.setCore k c).cmds = m.cmds := rfl
@[simp] theorem setCore_cores (m : Machine) (k : Nat) (c : Core) : (m.setCore k c).cores = Map.set m.cores k c := rfl
@[simp] theorem setCore_parked (m : Machine) (k : Nat) (c : Core) : (m.setCore k c).parked = m.parked := rfl
@[simp] theorem setCore_mem (m : Machine) (k : Nat) (c : Core) : (m.setCore k c).mem = m.mem := rfl
@[simp] theorem setCore_tlb (m : Machine) (k : Nat) (c : Core) : (m.setCore k c).tlb = m.tlb := rfl
@[simp] theorem setCore_ring (m : Machine) (k : Nat) (c : Core) : (m.setCore k c).ring = m.ring := rfl
@[simp] theorem setCore_nextId (m : Machine) (k : Nat) (c : Core) : (m.setCore k c).nextId = m.nextId := rfl
@[simp] theorem setCore_netCount (m : Machine) (k : Nat) (c : Core) : (m.setCore k c).netCount = m.netCount := rfl
@[simp] theorem setCore_robin (m : Machine) (k : Nat) (c : Core) : (m.setCore k c).robin = m.robin := rfl
@[simp] theorem setCore_timerAt (m : Machine) (k : Nat) (c : Core) : (m.setCore k c).timerAt = m.timerAt := rfl
@[simp] theorem setCore_placements (m : Machine) (k : Nat) (c : Core) : (m.setCore k c).placements = m.placements := rfl

/-! ### Machine.updCore -/

@[simp] theorem updCore_bring (m : Machine) (k : Nat) (f : Core → Core) : (m.updCore k f).bring = m.bring := rfl
@[simp] theorem updCore_fuses (m : Machine) (k : Nat) (f : Core → Core) : (m.updCore k f).fuses = m.fuses := rfl
@[simp] theorem updCore_digest (m : Machine) (k : Nat) (f : Core → Core) : (m.updCore k f).digest = m.digest := rfl
@[simp] theorem updCore_report (m : Machine) (k : Nat) (f : Core → Core) : (m.updCore k f).report = m.report := rfl
@[simp] theorem updCore_mgmtOut (m : Machine) (k : Nat) (f : Core → Core) : (m.updCore k f).mgmtOut = m.mgmtOut := rfl
@[simp] theorem updCore_domains (m : Machine) (k : Nat) (f : Core → Core) : (m.updCore k f).domains = m.domains := rfl
@[simp] theorem updCore_dieReset (m : Machine) (k : Nat) (f : Core → Core) : (m.updCore k f).dieReset = m.dieReset := rfl
@[simp] theorem updCore_diesClosed (m : Machine) (k : Nat) (f : Core → Core) : (m.updCore k f).diesClosed = m.diesClosed := rfl
@[simp] theorem updCore_supplyLost (m : Machine) (k : Nat) (f : Core → Core) : (m.updCore k f).supplyLost = m.supplyLost := rfl
@[simp] theorem updCore_throttled (m : Machine) (k : Nat) (f : Core → Core) : (m.updCore k f).throttled = m.throttled := rfl
@[simp] theorem updCore_clock (m : Machine) (k : Nat) (f : Core → Core) : (m.updCore k f).clock = m.clock := rfl
@[simp] theorem updCore_thr (m : Machine) (k : Nat) (f : Core → Core) : (m.updCore k f).thr = m.thr := rfl
@[simp] theorem updCore_owners (m : Machine) (k : Nat) (f : Core → Core) : (m.updCore k f).owners = m.owners := rfl
@[simp] theorem updCore_chans (m : Machine) (k : Nat) (f : Core → Core) : (m.updCore k f).chans = m.chans := rfl
@[simp] theorem updCore_counters (m : Machine) (k : Nat) (f : Core → Core) : (m.updCore k f).counters = m.counters := rfl
@[simp] theorem updCore_qps (m : Machine) (k : Nat) (f : Core → Core) : (m.updCore k f).qps = m.qps := rfl
@[simp] theorem updCore_paths (m : Machine) (k : Nat) (f : Core → Core) : (m.updCore k f).paths = m.paths := rfl
@[simp] theorem updCore_portLost (m : Machine) (k : Nat) (f : Core → Core) : (m.updCore k f).portLost = m.portLost := rfl
@[simp] theorem updCore_shared (m : Machine) (k : Nat) (f : Core → Core) : (m.updCore k f).shared = m.shared := rfl
@[simp] theorem updCore_errs (m : Machine) (k : Nat) (f : Core → Core) : (m.updCore k f).errs = m.errs := rfl
@[simp] theorem updCore_berths (m : Machine) (k : Nat) (f : Core → Core) : (m.updCore k f).berths = m.berths := rfl
@[simp] theorem updCore_hmReqs (m : Machine) (k : Nat) (f : Core → Core) : (m.updCore k f).hmReqs = m.hmReqs := rfl
@[simp] theorem updCore_netOut (m : Machine) (k : Nat) (f : Core → Core) : (m.updCore k f).netOut = m.netOut := rfl
@[simp] theorem updCore_ctxs (m : Machine) (k : Nat) (f : Core → Core) : (m.updCore k f).ctxs = m.ctxs := rfl
@[simp] theorem updCore_grids (m : Machine) (k : Nat) (f : Core → Core) : (m.updCore k f).grids = m.grids := rfl
@[simp] theorem updCore_blocks (m : Machine) (k : Nat) (f : Core → Core) : (m.updCore k f).blocks = m.blocks := rfl
@[simp] theorem updCore_groups (m : Machine) (k : Nat) (f : Core → Core) : (m.updCore k f).groups = m.groups := rfl
@[simp] theorem updCore_cmds (m : Machine) (k : Nat) (f : Core → Core) : (m.updCore k f).cmds = m.cmds := rfl
@[simp] theorem updCore_cores (m : Machine) (k : Nat) (f : Core → Core) : (m.updCore k f).cores = Map.set m.cores k (f (m.core k)) := rfl
@[simp] theorem updCore_parked (m : Machine) (k : Nat) (f : Core → Core) : (m.updCore k f).parked = m.parked := rfl
@[simp] theorem updCore_mem (m : Machine) (k : Nat) (f : Core → Core) : (m.updCore k f).mem = m.mem := rfl
@[simp] theorem updCore_tlb (m : Machine) (k : Nat) (f : Core → Core) : (m.updCore k f).tlb = m.tlb := rfl
@[simp] theorem updCore_ring (m : Machine) (k : Nat) (f : Core → Core) : (m.updCore k f).ring = m.ring := rfl
@[simp] theorem updCore_nextId (m : Machine) (k : Nat) (f : Core → Core) : (m.updCore k f).nextId = m.nextId := rfl
@[simp] theorem updCore_netCount (m : Machine) (k : Nat) (f : Core → Core) : (m.updCore k f).netCount = m.netCount := rfl
@[simp] theorem updCore_robin (m : Machine) (k : Nat) (f : Core → Core) : (m.updCore k f).robin = m.robin := rfl
@[simp] theorem updCore_timerAt (m : Machine) (k : Nat) (f : Core → Core) : (m.updCore k f).timerAt = m.timerAt := rfl
@[simp] theorem updCore_placements (m : Machine) (k : Nat) (f : Core → Core) : (m.updCore k f).placements = m.placements := rfl

/-! ### Machine.withMem -/

@[simp] theorem withMem_bring (m : Machine) (f : Mem → Mem) : (m.withMem f).bring = m.bring := rfl
@[simp] theorem withMem_fuses (m : Machine) (f : Mem → Mem) : (m.withMem f).fuses = m.fuses := rfl
@[simp] theorem withMem_digest (m : Machine) (f : Mem → Mem) : (m.withMem f).digest = m.digest := rfl
@[simp] theorem withMem_report (m : Machine) (f : Mem → Mem) : (m.withMem f).report = m.report := rfl
@[simp] theorem withMem_mgmtOut (m : Machine) (f : Mem → Mem) : (m.withMem f).mgmtOut = m.mgmtOut := rfl
@[simp] theorem withMem_domains (m : Machine) (f : Mem → Mem) : (m.withMem f).domains = m.domains := rfl
@[simp] theorem withMem_dieReset (m : Machine) (f : Mem → Mem) : (m.withMem f).dieReset = m.dieReset := rfl
@[simp] theorem withMem_diesClosed (m : Machine) (f : Mem → Mem) : (m.withMem f).diesClosed = m.diesClosed := rfl
@[simp] theorem withMem_supplyLost (m : Machine) (f : Mem → Mem) : (m.withMem f).supplyLost = m.supplyLost := rfl
@[simp] theorem withMem_throttled (m : Machine) (f : Mem → Mem) : (m.withMem f).throttled = m.throttled := rfl
@[simp] theorem withMem_clock (m : Machine) (f : Mem → Mem) : (m.withMem f).clock = m.clock := rfl
@[simp] theorem withMem_thr (m : Machine) (f : Mem → Mem) : (m.withMem f).thr = m.thr := rfl
@[simp] theorem withMem_owners (m : Machine) (f : Mem → Mem) : (m.withMem f).owners = m.owners := rfl
@[simp] theorem withMem_chans (m : Machine) (f : Mem → Mem) : (m.withMem f).chans = m.chans := rfl
@[simp] theorem withMem_counters (m : Machine) (f : Mem → Mem) : (m.withMem f).counters = m.counters := rfl
@[simp] theorem withMem_qps (m : Machine) (f : Mem → Mem) : (m.withMem f).qps = m.qps := rfl
@[simp] theorem withMem_paths (m : Machine) (f : Mem → Mem) : (m.withMem f).paths = m.paths := rfl
@[simp] theorem withMem_portLost (m : Machine) (f : Mem → Mem) : (m.withMem f).portLost = m.portLost := rfl
@[simp] theorem withMem_shared (m : Machine) (f : Mem → Mem) : (m.withMem f).shared = m.shared := rfl
@[simp] theorem withMem_errs (m : Machine) (f : Mem → Mem) : (m.withMem f).errs = m.errs := rfl
@[simp] theorem withMem_berths (m : Machine) (f : Mem → Mem) : (m.withMem f).berths = m.berths := rfl
@[simp] theorem withMem_hmReqs (m : Machine) (f : Mem → Mem) : (m.withMem f).hmReqs = m.hmReqs := rfl
@[simp] theorem withMem_netOut (m : Machine) (f : Mem → Mem) : (m.withMem f).netOut = m.netOut := rfl
@[simp] theorem withMem_ctxs (m : Machine) (f : Mem → Mem) : (m.withMem f).ctxs = m.ctxs := rfl
@[simp] theorem withMem_grids (m : Machine) (f : Mem → Mem) : (m.withMem f).grids = m.grids := rfl
@[simp] theorem withMem_blocks (m : Machine) (f : Mem → Mem) : (m.withMem f).blocks = m.blocks := rfl
@[simp] theorem withMem_groups (m : Machine) (f : Mem → Mem) : (m.withMem f).groups = m.groups := rfl
@[simp] theorem withMem_cmds (m : Machine) (f : Mem → Mem) : (m.withMem f).cmds = m.cmds := rfl
@[simp] theorem withMem_cores (m : Machine) (f : Mem → Mem) : (m.withMem f).cores = m.cores := rfl
@[simp] theorem withMem_parked (m : Machine) (f : Mem → Mem) : (m.withMem f).parked = m.parked := rfl
@[simp] theorem withMem_mem (m : Machine) (f : Mem → Mem) : (m.withMem f).mem = f m.mem := rfl
@[simp] theorem withMem_tlb (m : Machine) (f : Mem → Mem) : (m.withMem f).tlb = m.tlb := rfl
@[simp] theorem withMem_ring (m : Machine) (f : Mem → Mem) : (m.withMem f).ring = m.ring := rfl
@[simp] theorem withMem_nextId (m : Machine) (f : Mem → Mem) : (m.withMem f).nextId = m.nextId := rfl
@[simp] theorem withMem_netCount (m : Machine) (f : Mem → Mem) : (m.withMem f).netCount = m.netCount := rfl
@[simp] theorem withMem_robin (m : Machine) (f : Mem → Mem) : (m.withMem f).robin = m.robin := rfl
@[simp] theorem withMem_timerAt (m : Machine) (f : Mem → Mem) : (m.withMem f).timerAt = m.timerAt := rfl
@[simp] theorem withMem_placements (m : Machine) (f : Mem → Mem) : (m.withMem f).placements = m.placements := rfl

/-! ### Machine.withDram -/

@[simp] theorem withDram_bring (m : Machine) (f : Dram → Dram) : (m.withDram f).bring = m.bring := rfl
@[simp] theorem withDram_fuses (m : Machine) (f : Dram → Dram) : (m.withDram f).fuses = m.fuses := rfl
@[simp] theorem withDram_digest (m : Machine) (f : Dram → Dram) : (m.withDram f).digest = m.digest := rfl
@[simp] theorem withDram_report (m : Machine) (f : Dram → Dram) : (m.withDram f).report = m.report := rfl
@[simp] theorem withDram_mgmtOut (m : Machine) (f : Dram → Dram) : (m.withDram f).mgmtOut = m.mgmtOut := rfl
@[simp] theorem withDram_domains (m : Machine) (f : Dram → Dram) : (m.withDram f).domains = m.domains := rfl
@[simp] theorem withDram_dieReset (m : Machine) (f : Dram → Dram) : (m.withDram f).dieReset = m.dieReset := rfl
@[simp] theorem withDram_diesClosed (m : Machine) (f : Dram → Dram) : (m.withDram f).diesClosed = m.diesClosed := rfl
@[simp] theorem withDram_supplyLost (m : Machine) (f : Dram → Dram) : (m.withDram f).supplyLost = m.supplyLost := rfl
@[simp] theorem withDram_throttled (m : Machine) (f : Dram → Dram) : (m.withDram f).throttled = m.throttled := rfl
@[simp] theorem withDram_clock (m : Machine) (f : Dram → Dram) : (m.withDram f).clock = m.clock := rfl
@[simp] theorem withDram_thr (m : Machine) (f : Dram → Dram) : (m.withDram f).thr = m.thr := rfl
@[simp] theorem withDram_owners (m : Machine) (f : Dram → Dram) : (m.withDram f).owners = m.owners := rfl
@[simp] theorem withDram_chans (m : Machine) (f : Dram → Dram) : (m.withDram f).chans = m.chans := rfl
@[simp] theorem withDram_counters (m : Machine) (f : Dram → Dram) : (m.withDram f).counters = m.counters := rfl
@[simp] theorem withDram_qps (m : Machine) (f : Dram → Dram) : (m.withDram f).qps = m.qps := rfl
@[simp] theorem withDram_paths (m : Machine) (f : Dram → Dram) : (m.withDram f).paths = m.paths := rfl
@[simp] theorem withDram_portLost (m : Machine) (f : Dram → Dram) : (m.withDram f).portLost = m.portLost := rfl
@[simp] theorem withDram_shared (m : Machine) (f : Dram → Dram) : (m.withDram f).shared = m.shared := rfl
@[simp] theorem withDram_errs (m : Machine) (f : Dram → Dram) : (m.withDram f).errs = m.errs := rfl
@[simp] theorem withDram_berths (m : Machine) (f : Dram → Dram) : (m.withDram f).berths = m.berths := rfl
@[simp] theorem withDram_hmReqs (m : Machine) (f : Dram → Dram) : (m.withDram f).hmReqs = m.hmReqs := rfl
@[simp] theorem withDram_netOut (m : Machine) (f : Dram → Dram) : (m.withDram f).netOut = m.netOut := rfl
@[simp] theorem withDram_ctxs (m : Machine) (f : Dram → Dram) : (m.withDram f).ctxs = m.ctxs := rfl
@[simp] theorem withDram_grids (m : Machine) (f : Dram → Dram) : (m.withDram f).grids = m.grids := rfl
@[simp] theorem withDram_blocks (m : Machine) (f : Dram → Dram) : (m.withDram f).blocks = m.blocks := rfl
@[simp] theorem withDram_groups (m : Machine) (f : Dram → Dram) : (m.withDram f).groups = m.groups := rfl
@[simp] theorem withDram_cmds (m : Machine) (f : Dram → Dram) : (m.withDram f).cmds = m.cmds := rfl
@[simp] theorem withDram_cores (m : Machine) (f : Dram → Dram) : (m.withDram f).cores = m.cores := rfl
@[simp] theorem withDram_parked (m : Machine) (f : Dram → Dram) : (m.withDram f).parked = m.parked := rfl
@[simp] theorem withDram_mem (m : Machine) (f : Dram → Dram) : (m.withDram f).mem = ({ m.mem with dram := f m.mem.dram } : Mem) := rfl
@[simp] theorem withDram_tlb (m : Machine) (f : Dram → Dram) : (m.withDram f).tlb = m.tlb := rfl
@[simp] theorem withDram_ring (m : Machine) (f : Dram → Dram) : (m.withDram f).ring = m.ring := rfl
@[simp] theorem withDram_nextId (m : Machine) (f : Dram → Dram) : (m.withDram f).nextId = m.nextId := rfl
@[simp] theorem withDram_netCount (m : Machine) (f : Dram → Dram) : (m.withDram f).netCount = m.netCount := rfl
@[simp] theorem withDram_robin (m : Machine) (f : Dram → Dram) : (m.withDram f).robin = m.robin := rfl
@[simp] theorem withDram_timerAt (m : Machine) (f : Dram → Dram) : (m.withDram f).timerAt = m.timerAt := rfl
@[simp] theorem withDram_placements (m : Machine) (f : Dram → Dram) : (m.withDram f).placements = m.placements := rfl

/-! ### Machine.send -/

@[simp] theorem send_bring (m : Machine) (x : NetMsg) : (m.send x).bring = m.bring := rfl
@[simp] theorem send_fuses (m : Machine) (x : NetMsg) : (m.send x).fuses = m.fuses := rfl
@[simp] theorem send_digest (m : Machine) (x : NetMsg) : (m.send x).digest = m.digest := rfl
@[simp] theorem send_report (m : Machine) (x : NetMsg) : (m.send x).report = m.report := rfl
@[simp] theorem send_mgmtOut (m : Machine) (x : NetMsg) : (m.send x).mgmtOut = m.mgmtOut := rfl
@[simp] theorem send_domains (m : Machine) (x : NetMsg) : (m.send x).domains = m.domains := rfl
@[simp] theorem send_dieReset (m : Machine) (x : NetMsg) : (m.send x).dieReset = m.dieReset := rfl
@[simp] theorem send_diesClosed (m : Machine) (x : NetMsg) : (m.send x).diesClosed = m.diesClosed := rfl
@[simp] theorem send_supplyLost (m : Machine) (x : NetMsg) : (m.send x).supplyLost = m.supplyLost := rfl
@[simp] theorem send_throttled (m : Machine) (x : NetMsg) : (m.send x).throttled = m.throttled := rfl
@[simp] theorem send_clock (m : Machine) (x : NetMsg) : (m.send x).clock = m.clock := rfl
@[simp] theorem send_thr (m : Machine) (x : NetMsg) : (m.send x).thr = m.thr := rfl
@[simp] theorem send_owners (m : Machine) (x : NetMsg) : (m.send x).owners = m.owners := rfl
@[simp] theorem send_chans (m : Machine) (x : NetMsg) : (m.send x).chans = m.chans := rfl
@[simp] theorem send_counters (m : Machine) (x : NetMsg) : (m.send x).counters = m.counters := rfl
@[simp] theorem send_qps (m : Machine) (x : NetMsg) : (m.send x).qps = m.qps := rfl
@[simp] theorem send_paths (m : Machine) (x : NetMsg) : (m.send x).paths = m.paths := rfl
@[simp] theorem send_portLost (m : Machine) (x : NetMsg) : (m.send x).portLost = m.portLost := rfl
@[simp] theorem send_shared (m : Machine) (x : NetMsg) : (m.send x).shared = m.shared := rfl
@[simp] theorem send_errs (m : Machine) (x : NetMsg) : (m.send x).errs = m.errs := rfl
@[simp] theorem send_berths (m : Machine) (x : NetMsg) : (m.send x).berths = m.berths := rfl
@[simp] theorem send_hmReqs (m : Machine) (x : NetMsg) : (m.send x).hmReqs = m.hmReqs := rfl
@[simp] theorem send_netOut (m : Machine) (x : NetMsg) : (m.send x).netOut = m.netOut ++ [x] := rfl
@[simp] theorem send_ctxs (m : Machine) (x : NetMsg) : (m.send x).ctxs = m.ctxs := rfl
@[simp] theorem send_grids (m : Machine) (x : NetMsg) : (m.send x).grids = m.grids := rfl
@[simp] theorem send_blocks (m : Machine) (x : NetMsg) : (m.send x).blocks = m.blocks := rfl
@[simp] theorem send_groups (m : Machine) (x : NetMsg) : (m.send x).groups = m.groups := rfl
@[simp] theorem send_cmds (m : Machine) (x : NetMsg) : (m.send x).cmds = m.cmds := rfl
@[simp] theorem send_cores (m : Machine) (x : NetMsg) : (m.send x).cores = m.cores := rfl
@[simp] theorem send_parked (m : Machine) (x : NetMsg) : (m.send x).parked = m.parked := rfl
@[simp] theorem send_mem (m : Machine) (x : NetMsg) : (m.send x).mem = m.mem := rfl
@[simp] theorem send_tlb (m : Machine) (x : NetMsg) : (m.send x).tlb = m.tlb := rfl
@[simp] theorem send_ring (m : Machine) (x : NetMsg) : (m.send x).ring = m.ring := rfl
@[simp] theorem send_nextId (m : Machine) (x : NetMsg) : (m.send x).nextId = m.nextId := rfl
@[simp] theorem send_netCount (m : Machine) (x : NetMsg) : (m.send x).netCount = m.netCount := rfl
@[simp] theorem send_robin (m : Machine) (x : NetMsg) : (m.send x).robin = m.robin := rfl
@[simp] theorem send_timerAt (m : Machine) (x : NetMsg) : (m.send x).timerAt = m.timerAt := rfl
@[simp] theorem send_placements (m : Machine) (x : NetMsg) : (m.send x).placements = m.placements := rfl

/-! ### Machine.tick -/

@[simp] theorem tick_bring (m : Machine) : m.tick.bring = m.bring := rfl
@[simp] theorem tick_fuses (m : Machine) : m.tick.fuses = m.fuses := rfl
@[simp] theorem tick_digest (m : Machine) : m.tick.digest = m.digest := rfl
@[simp] theorem tick_report (m : Machine) : m.tick.report = m.report := rfl
@[simp] theorem tick_mgmtOut (m : Machine) : m.tick.mgmtOut = m.mgmtOut := rfl
@[simp] theorem tick_domains (m : Machine) : m.tick.domains = m.domains := rfl
@[simp] theorem tick_dieReset (m : Machine) : m.tick.dieReset = m.dieReset := rfl
@[simp] theorem tick_diesClosed (m : Machine) : m.tick.diesClosed = m.diesClosed := rfl
@[simp] theorem tick_supplyLost (m : Machine) : m.tick.supplyLost = m.supplyLost := rfl
@[simp] theorem tick_throttled (m : Machine) : m.tick.throttled = m.throttled := rfl
@[simp] theorem tick_clock (m : Machine) : m.tick.clock = m.clock + 1 := rfl
@[simp] theorem tick_thr (m : Machine) : m.tick.thr = m.thr := rfl
@[simp] theorem tick_owners (m : Machine) : m.tick.owners = m.owners := rfl
@[simp] theorem tick_chans (m : Machine) : m.tick.chans = m.chans := rfl
@[simp] theorem tick_counters (m : Machine) : m.tick.counters = m.counters := rfl
@[simp] theorem tick_qps (m : Machine) : m.tick.qps = m.qps := rfl
@[simp] theorem tick_paths (m : Machine) : m.tick.paths = m.paths := rfl
@[simp] theorem tick_portLost (m : Machine) : m.tick.portLost = m.portLost := rfl
@[simp] theorem tick_shared (m : Machine) : m.tick.shared = m.shared := rfl
@[simp] theorem tick_errs (m : Machine) : m.tick.errs = m.errs := rfl
@[simp] theorem tick_berths (m : Machine) : m.tick.berths = m.berths := rfl
@[simp] theorem tick_hmReqs (m : Machine) : m.tick.hmReqs = m.hmReqs := rfl
@[simp] theorem tick_netOut (m : Machine) : m.tick.netOut = m.netOut := rfl
@[simp] theorem tick_ctxs (m : Machine) : m.tick.ctxs = m.ctxs := rfl
@[simp] theorem tick_grids (m : Machine) : m.tick.grids = m.grids := rfl
@[simp] theorem tick_blocks (m : Machine) : m.tick.blocks = m.blocks := rfl
@[simp] theorem tick_groups (m : Machine) : m.tick.groups = m.groups := rfl
@[simp] theorem tick_cmds (m : Machine) : m.tick.cmds = m.cmds := rfl
@[simp] theorem tick_cores (m : Machine) : m.tick.cores = m.cores := rfl
@[simp] theorem tick_parked (m : Machine) : m.tick.parked = m.parked := rfl
@[simp] theorem tick_mem (m : Machine) : m.tick.mem = m.mem := rfl
@[simp] theorem tick_tlb (m : Machine) : m.tick.tlb = m.tlb := rfl
@[simp] theorem tick_ring (m : Machine) : m.tick.ring = m.ring := rfl
@[simp] theorem tick_nextId (m : Machine) : m.tick.nextId = m.nextId := rfl
@[simp] theorem tick_netCount (m : Machine) : m.tick.netCount = m.netCount := rfl
@[simp] theorem tick_robin (m : Machine) : m.tick.robin = m.robin := rfl
@[simp] theorem tick_timerAt (m : Machine) : m.tick.timerAt = m.timerAt := rfl
@[simp] theorem tick_placements (m : Machine) : m.tick.placements = m.placements := rfl

/-! ### Group.updEntry -/

@[simp] theorem updEntry_ctx (g : Group) (sid : Nat) (f : Entry → Entry) : (g.updEntry sid f).ctx = g.ctx := rfl
@[simp] theorem updEntry_grid (g : Group) (sid : Nat) (f : Entry → Entry) : (g.updEntry sid f).grid = g.grid := rfl
@[simp] theorem updEntry_block (g : Group) (sid : Nat) (f : Entry → Entry) : (g.updEntry sid f).block = g.block := rfl
@[simp] theorem updEntry_gid (g : Group) (sid : Nat) (f : Entry → Entry) : (g.updEntry sid f).gid = g.gid := rfl
@[simp] theorem updEntry_width (g : Group) (sid : Nat) (f : Entry → Entry) : (g.updEntry sid f).width = g.width := rfl
@[simp] theorem updEntry_nregs (g : Group) (sid : Nat) (f : Entry → Entry) : (g.updEntry sid f).nregs = g.nregs := rfl
@[simp] theorem updEntry_core (g : Group) (sid : Nat) (f : Entry → Entry) : (g.updEntry sid f).core = g.core := rfl
@[simp] theorem updEntry_slot (g : Group) (sid : Nat) (f : Entry → Entry) : (g.updEntry sid f).slot = g.slot := rfl
@[simp] theorem updEntry_offset (g : Group) (sid : Nat) (f : Entry → Entry) : (g.updEntry sid f).offset = g.offset := rfl
@[simp] theorem updEntry_image (g : Group) (sid : Nat) (f : Entry → Entry) : (g.updEntry sid f).image = g.image := rfl
@[simp] theorem updEntry_regs (g : Group) (sid : Nat) (f : Entry → Entry) : (g.updEntry sid f).regs = g.regs := rfl
@[simp] theorem updEntry_p (g : Group) (sid : Nat) (f : Entry → Entry) : (g.updEntry sid f).p = g.p := rfl
@[simp] theorem updEntry_g (g : Group) (sid : Nat) (f : Entry → Entry) : (g.updEntry sid f).g = g.g := rfl
@[simp] theorem updEntry_fpc (g : Group) (sid : Nat) (f : Entry → Entry) : (g.updEntry sid f).fpc = g.fpc := rfl
@[simp] theorem updEntry_domctl (g : Group) (sid : Nat) (f : Entry → Entry) : (g.updEntry sid f).domctl = g.domctl := rfl
@[simp] theorem updEntry_finj (g : Group) (sid : Nat) (f : Entry → Entry) : (g.updEntry sid f).finj = g.finj := rfl
@[simp] theorem updEntry_ht (g : Group) (sid : Nat) (f : Entry → Entry) : (g.updEntry sid f).ht = g.ht := rfl
@[simp] theorem updEntry_evec (g : Group) (sid : Nat) (f : Entry → Entry) : (g.updEntry sid f).evec = g.evec := rfl
@[simp] theorem updEntry_deadline (g : Group) (sid : Nat) (f : Entry → Entry) : (g.updEntry sid f).deadline = g.deadline := rfl
@[simp] theorem updEntry_clockHi (g : Group) (sid : Nat) (f : Entry → Entry) : (g.updEntry sid f).clockHi = g.clockHi := rfl
@[simp] theorem updEntry_matcfg (g : Group) (sid : Nat) (f : Entry → Entry) : (g.updEntry sid f).matcfg = g.matcfg := rfl
@[simp] theorem updEntry_ev (g : Group) (sid : Nat) (f : Entry → Entry) : (g.updEntry sid f).ev = g.ev := rfl
@[simp] theorem updEntry_stack (g : Group) (sid : Nat) (f : Entry → Entry) : (g.updEntry sid f).stack = (g.stack.map fun e => if e.sid == sid then f e else e) := rfl
@[simp] theorem updEntry_nextSid (g : Group) (sid : Nat) (f : Entry → Entry) : (g.updEntry sid f).nextSid = g.nextSid := rfl
@[simp] theorem updEntry_helper (g : Group) (sid : Nat) (f : Entry → Entry) : (g.updEntry sid f).helper = g.helper := rfl
@[simp] theorem updEntry_age (g : Group) (sid : Nat) (f : Entry → Entry) : (g.updEntry sid f).age = g.age := rfl
@[simp] theorem updEntry_pending (g : Group) (sid : Nat) (f : Entry → Entry) : (g.updEntry sid f).pending = g.pending := rfl
@[simp] theorem updEntry_lastb (g : Group) (sid : Nat) (f : Entry → Entry) : (g.updEntry sid f).lastb = g.lastb := rfl
@[simp] theorem updEntry_open_ (g : Group) (sid : Nat) (f : Entry → Entry) : (g.updEntry sid f).open_ = g.open_ := rfl
@[simp] theorem updEntry_members (g : Group) (sid : Nat) (f : Entry → Entry) : (g.updEntry sid f).members = g.members := rfl
@[simp] theorem updEntry_status (g : Group) (sid : Nat) (f : Entry → Entry) : (g.updEntry sid f).status = g.status := rfl
@[simp] theorem updEntry_trapSid (g : Group) (sid : Nat) (f : Entry → Entry) : (g.updEntry sid f).trapSid = g.trapSid := rfl
@[simp] theorem updEntry_waitTrap (g : Group) (sid : Nat) (f : Entry → Entry) : (g.updEntry sid f).waitTrap = g.waitTrap := rfl
@[simp] theorem updEntry_replay (g : Group) (sid : Nat) (f : Entry → Entry) : (g.updEntry sid f).replay = g.replay := rfl
@[simp] theorem updEntry_lighter (g : Group) (sid : Nat) (f : Entry → Entry) : (g.updEntry sid f).lighter = g.lighter := rfl
@[simp] theorem updEntry_fences (g : Group) (sid : Nat) (f : Entry → Entry) : (g.updEntry sid f).fences = g.fences := rfl

/-! ### State.advance, State.becomes -/

@[simp] theorem advance_cur (s : State) (m : Machine) : (s.advance m).cur = m := rfl
@[simp] theorem advance_issue (s : State) (m : Machine) : (s.advance m).issue = s.nextWord := rfl
@[simp] theorem advance_pre (s : State) (m : Machine) : (s.advance m).pre = s.pre := rfl
@[simp] theorem advance_input (s : State) (m : Machine) : (s.advance m).input = s.input := rfl
@[simp] theorem advance_agenda (s : State) (m : Machine) : (s.advance m).agenda = s.agenda := rfl
@[simp] theorem becomes_cur (s : State) (m : Machine) : (s.becomes m).cur = m := rfl
@[simp] theorem becomes_issue (s : State) (m : Machine) : (s.becomes m).issue = s.issue := rfl
@[simp] theorem becomes_pre (s : State) (m : Machine) : (s.becomes m).pre = s.pre := rfl
@[simp] theorem becomes_input (s : State) (m : Machine) : (s.becomes m).input = s.input := rfl
@[simp] theorem becomes_agenda (s : State) (m : Machine) : (s.becomes m).agenda = s.agenda := rfl

end Sys2Proof.Machine
end

