-- ==== Sys2Proof/Laws/Run.lean ====
section
/-! SUPPORT. What running a word or an event can do, once for all meanings; what a step is made of; what writing a result or a
predicate leaves in a group; that the checkers of the residue test work. -/

namespace Sys2Proof.Machine

open Sys2Proof

/-! ### Words -/

/-- Running a word in the context of its chain answers a next state, and which. -/
theorem runWord_eq {i : Instr} {s : State} {w : W} (f : W → Act) (h : s.word i = some w) :
    runWord i s f = .next (applyAct s w (f w)) := by
  unfold runWord
  rw [h]

/-- A word that is done advances the chain. -/
theorem runWord_done {i : Instr} {s : State} {w : W} {f : W → Act} {m : Machine} (h : s.word i = some w)
    (hf : f w = .done m) : runWord i s f = .next (s.advance m) := by
  rw [runWord_eq f h, hf]
  rfl

/-- A word that is held leaves the chain as it was before it, its strand held. -/
theorem runWord_hold {i : Instr} {s : State} {w : W} {f : W → Act} (h : s.word i = some w) (hf : f w = .hold) :
    runWord i s f = .next (holdState s w.is w.m0) := by
  rw [runWord_eq f h, hf]
  rfl

/-- A word outside a chain faults; no step reaches it. -/
theorem runWord_none {i : Instr} {s : State} (f : W → Act) (h : s.word i = none) : runWord i s f = .fault .noIssue := by
  unfold runWord
  rw [h]

/-- A word goes on with the chain or ends the issue; it changes nothing of the state but the machine and the issue. -/
theorem applyAct_frame (s : State) (w : W) (a : Act) :
    (applyAct s w a).input = s.input ∧ (applyAct s w a).agenda = s.agenda ∧
      (((applyAct s w a).issue = s.nextWord ∧ (applyAct s w a).pre = s.pre) ∨
        ((applyAct s w a).issue = none ∧ (applyAct s w a).pre = none)) := by
  cases a with
  | trap t m k => exact ⟨rfl, rfl, .inr ⟨rfl, rfl⟩⟩
  | hold => exact ⟨rfl, rfl, .inr ⟨rfl, rfl⟩⟩
  | wait y m => exact ⟨rfl, rfl, .inr ⟨rfl, rfl⟩⟩
  | done m => exact ⟨rfl, rfl, .inl ⟨rfl, rfl⟩⟩

/-- The context of a word: what of it comes from where. -/
theorem word_some {s : State} {i : Instr} {w : W} (h : s.word i = some w) :
    ∃ is, s.issue = some is ∧ s.pre = some w.m0 ∧ Map.get w.m0.groups is.grp = some w.g ∧ w.m = s.cur ∧ w.gk = is.grp ∧
      w.is = is.restricted i ∧ w.instr = i ∧ w.u = usesOf w.g.width i := by
  unfold State.word at h
  split at h
  · next is m0 hi hp =>
    split at h
    · exact absurd h (by simp)
    · next g hg =>
      cases h
      exact ⟨is, hi, hp, hg, rfl, rfl, rfl, rfl, rfl⟩
  · exact absurd h (by simp)

@[simp] theorem guard_pass (w : W) (k : Act) : w.guard none k = k := rfl
@[simp] theorem guard_trap (w : W) (t : Trap) (k : Act) : w.guard (some t) k = w.trapAt t := rfl
@[simp] theorem done_eq (w : W) : w.done = .done w.m := rfl
@[simp] theorem upd_machine (w : W) (f : Group → Group) : (w.upd f).m = w.m.updGroup w.gk f := rfl
@[simp] theorem upd_base (w : W) (f : Group → Group) : (w.upd f).m0 = w.m0 := rfl

/-- The first of the checks that fails. -/
theorem firstTrap_cons (t : Option Trap) (l : List (Option Trap)) :
    firstTrap (t :: l) = match t with
      | some t => some t
      | none => firstTrap l := by
  cases t <;> rfl

/-- Every check passes when each does. -/
theorem firstTrap_none {l : List (Option Trap)} (h : ∀ t ∈ l, t = none) : firstTrap l = none := by
  induction l with
  | nil => rfl
  | cons t r ih =>
    rw [h t (by simp)]
    exact ih fun x hx => h x (by simp [hx])

/-! ### Events -/

/-- An event answers a next state in which only the machine may have changed. -/
theorem runEvent_next (s : State) (f : Machine → Arg → Option Machine) : ∃ m, runEvent s f = .next (s.becomes m) := by
  unfold runEvent
  split
  · exact ⟨_, rfl⟩
  · exact ⟨s.cur, rfl⟩

theorem runEvent_some {s : State} {f : Machine → Arg → Option Machine} {m : Machine} (h : f s.cur s.input = some m) :
    runEvent s f = .next (s.becomes m) := by
  unfold runEvent
  rw [h]
  rfl

theorem runEvent_none {s : State} {f : Machine → Arg → Option Machine} (h : f s.cur s.input = none) : runEvent s f = .next s := by
  unfold runEvent
  rw [h]

/-! ### Steps -/

theorem step_event {s : State} (h : s.issue = none) : step s = runInput s s.nextInput.1 s.nextInput.2 := by
  unfold step
  rw [h]

theorem step_chain {s : State} {is : Issue} (h : s.issue = some is) : step s = runChain s := by
  unfold step
  rw [h]

theorem runWords_nil (s : State) : runWords [] s = .next s := rfl

/-- A chain goes on with its next word. -/
theorem runWords_cons {s t : State} {i : Instr} {p : Nat} {r : List (Instr × Nat)} (h : exec i (s.atWord p) = .next t)
    (hi : t.issue.isNone = false) : runWords ((i, p) :: r) s = runWords r t := by
  simp only [runWords, h, hi]
  rfl

/-- A chain that a word has ended runs no further word. -/
theorem runWords_ended {s t : State} {i : Instr} {p : Nat} (r : List (Instr × Nat)) (h : exec i (s.atWord p) = .next t)
    (hi : t.issue = none) : runWords ((i, p) :: r) s = .next t := by
  simp [runWords, h, hi]

/-! ### What a group keeps -/

@[simp] theorem orFlags_regs (g : Group) (f : FFlags) : (g.orFlags f).regs = g.regs := rfl
@[simp] theorem orFlags_p (g : Group) (f : FFlags) : (g.orFlags f).p = g.p := rfl
@[simp] theorem orFlags_g (g : Group) (f : FFlags) : (g.orFlags f).g = g.g := rfl
@[simp] theorem orFlags_stack (g : Group) (f : FFlags) : (g.orFlags f).stack = g.stack := rfl
@[simp] theorem orFlags_status (g : Group) (f : FFlags) : (g.orFlags f).status = g.status := rfl
@[simp] theorem writePred_regs (g : Group) (p : Fin 8) (l : Mask) (f : Nat → Bool) : (g.writePred p l f).regs = g.regs := by
  unfold Group.writePred
  split <;> rfl
@[simp] theorem writePred_g (g : Group) (p : Fin 8) (l : Mask) (f : Nat → Bool) : (g.writePred p l f).g = g.g := by
  unfold Group.writePred
  split <;> rfl
@[simp] theorem writePred_stack (g : Group) (p : Fin 8) (l : Mask) (f : Nat → Bool) : (g.writePred p l f).stack = g.stack := by
  unfold Group.writePred
  split <;> rfl
@[simp] theorem writePred_fpc (g : Group) (p : Fin 8) (l : Mask) (f : Nat → Bool) : (g.writePred p l f).fpc = g.fpc := by
  unfold Group.writePred
  split <;> rfl

/-! ### Groups of a machine -/

theorem groups_updGroup_same (m : Machine) (k : Nat) (f : Group → Group) :
    Map.get (m.updGroup k f).groups k = (Map.get m.groups k).map f :=
  map_get_upd_same m.groups k f

theorem groups_updGroup_other (m : Machine) (k j : Nat) (f : Group → Group) (h : j ≠ k) :
    Map.get (m.updGroup k f).groups j = Map.get m.groups j := map_get_upd_other m.groups k j f h

/-! ### The residue checker test -/

/-- The checkers of R431's test find every fault that is injected, so step 6 of bring-up has the outcome that its input names. -/
theorem checkersWork_true : checkersWork = true := by decide +kernel

end Sys2Proof.Machine
end

