-- ==== Sys2Proof/Tests/Slice0.lean ====
section
/-! SUPPORT. Tests: ill-formed terms that WellFormed refuses, words of the spec that decode, results of the spec's worked
examples, and for every obligation a state that meets its hypotheses. -/

namespace Sys2Proof.Tests

open Sys2Proof Sys2Proof.Machine

set_option Elab.async false

/-! ### Ill-formed terms, each refused -/

def refusedAll (l : List Instr) : Bool := l.all fun i => !i.wellFormed

/-- Two K fields that read different literals; two uniform sources (R83, R95). -/
theorem test_ill_sources : refusedAll [
    .add ⟨false, .v 1, true, .op (.k 1), true, .op (.k 2)⟩, .add ⟨false, .v 1, true, .g 1, true, .g 2⟩,
    .addSat ⟨false, .v 1, true, .k 1, true, .k 2⟩,
    .cmpLt ⟨false, 1, true, .op (.k 1), true, .op (.k 2)⟩, .cmpLt ⟨false, 1, true, .g 1, true, .g 2⟩,
    .sel ⟨false, 1, .v 1, true, .k 1, true, .k 2⟩, .bmix ⟨false, 0, .v 1, .k 1, .k 2⟩,
    .fcmp ⟨false, .lt, 1, true, .op (.k 1), true, .op (.k 2)⟩, .fcmp ⟨false, .lt, 1, true, .g 1, true, .g 2⟩,
    .fma ⟨false, .v 1, .k 1, .v 2, .k 2, true⟩] = true := by decide +kernel

/-- Conversions that no pair allows, or with a mode that nothing rounds; runs past V55; formats that do not pack (R148 to R151). -/
theorem test_ill_conversions : refusedAll [
    .cvt ⟨false, false, .q4, .f32, .v 1, .v 2, true, .fpc⟩, .cvt ⟨false, false, .i32, .n32, .v 1, .v 2, true, .rz⟩,
    .cvtqQ ⟨false, .v 1, 49, .uni⟩, .cvtqQ ⟨false, .x 1, 8, .uni⟩, .cvtqX ⟨false, 50, .v 2, .uni⟩,
    .pack ⟨false, .v 1, 54, .i8⟩, .pack ⟨false, .v 1, 8, .f32⟩, .unpk ⟨false, 53, .v 1, .n8⟩, .unpk ⟨false, 8, .v 1, .q4⟩] = true := by
  decide +kernel

/-- Polls over more than 128 lanes, tags of Z, reserved tags, registers no word may write (R50, R156, R158, R381). -/
theorem test_ill_lane_words : refusedAll [
    .pollQuorum ⟨false, 1, 1, false, 129⟩, .tagr ⟨false, .v 1, .z⟩, .tagr ⟨false, .v 1, .k 5⟩, .tagw ⟨false, .v 1, 0x0E⟩,
    .tagw ⟨false, .v 1, 0x81⟩, .swr ⟨false, .v 1, .laneid⟩, .savept ⟨false, 12⟩] = true := by decide +kernel

/-- Runs that are not aligned or leave V55; a run held by an X register (R245). -/
theorem test_ill_runs : refusedAll [
    .ld ⟨false, .d, .v 1, .z, 0, 2, false, 0⟩, .ld ⟨false, .q, .v 54, .z, 0, 2, false, 0⟩, .lds ⟨false, .q, .v 2, .z, 0, 2, false, 0⟩,
    .st ⟨false, .d, .v 3, .z, 0, 2, false, 0⟩, .st ⟨false, .q, .x 0, .z, 0, 2, false, 0⟩, .st ⟨false, .w, .k 1, .k 2, 0, 2, false, 0⟩,
    .sts ⟨false, .d, .k 1, .z, 0, 2, false, 0⟩, .lda ⟨false, true, .v 1, .z, 0, 2, false, .die⟩,
    .stl ⟨false, true, .v 1, .z, 0, 2, false, .die⟩, .stl ⟨false, false, .k 1, .k 2, 0, 2, false, .die⟩,
    .atomCas ⟨false, .v 1, .z, 0, 2, false, .die⟩, .atomAddD ⟨false, .v 3, .z, 0, 2, false, .die⟩,
    .atomExchD ⟨false, .v 5, .z, 0, 2, false, .die⟩, .atomCasD ⟨false, .v 2, .z, 0, 2, false, .die⟩,
    .atomsCas ⟨false, .v 7, .z, 0, 2, false, .die⟩] = true := by decide +kernel

/-- Two different literals in one memory or barrier word (R83). -/
theorem test_ill_literals : refusedAll [
    .waitv ⟨false, .k 1, .k 2, 0, .eq⟩, .redAdd ⟨false, .k 1, .k 2, 0, 2, false, .die⟩, .binit ⟨false, .k 1, .k 2, 0⟩,
    .bexpect ⟨false, .k 1, .k 2, 0⟩, .binitForce ⟨false, .k 1, .k 2, 0⟩, .bwait ⟨false, .k 1, .k 2, 0, .die⟩,
    .mflush ⟨false, .k 1, .k 2, 0⟩] = true := by decide +kernel

/-- Offsets of -256, BRV with a target Z, BRM of no pair or of five, JOUT of no frame (R100, R101, R195). -/
theorem test_ill_branches : refusedAll [
    .bra ⟨false, .near 256⟩, .call ⟨false, .near 256⟩, .brc ⟨false, 1, false, .near 256, 0⟩, .brc ⟨false, 1, false, .near 1, 256⟩,
    .brv ⟨false, 1, false, true, .v 1, 256⟩, .brv ⟨false, 1, false, true, .z, 0⟩, .brm ⟨[], 0⟩,
    .brm ⟨List.replicate 5 ⟨1, false, 3⟩, 0⟩, .brm ⟨[⟨1, false, 3⟩], 256⟩, .jout ⟨false, 0⟩] = true := by decide +kernel

/-- MLOADB of other formats or of an odd slot in Q4, MREAD past row 31, copies without a barrier that name one, strips not
aligned, depth 0, a pair with the wait bit, a quay queue above 7 (R171, R313, R316, R328, R340, R344, R354, R393). -/
theorem test_ill_engines : refusedAll [
    .mloadb ⟨false, 0, .i16, 0⟩, .mloadb ⟨false, 1, .q4, 0⟩, .mloadb ⟨false, 0, .q4, 31⟩, .mread ⟨false, 0, 0, 31, true⟩,
    .tcopy ⟨false, 0, 0, 1, 0, true⟩, .tstore ⟨false, 0, 0, 1, 0, true⟩, .hread ⟨false, 0, 0, 0, 1, false⟩,
    .hst ⟨false, 4, 0, 0, false⟩, .hld ⟨false, 4, 0, 0⟩, .hldx ⟨false, 12, 0, 0⟩, .hfwd ⟨false, .v 1, .v 2, true, 0⟩,
    .qgath ⟨false, 0, 1, false, 0⟩, .qred ⟨false, 0, 1, false, 0⟩, .qcvt ⟨false, 0, 1, false, 0⟩, .qunpk ⟨false, 0, 1, false, 0⟩,
    .launch ⟨false, 1, 0, .inr 2, true⟩, .enqQ ⟨false, 0, 8, 0, 0⟩] = true := by decide +kernel

/-! ### Words of the spec -/

def reads (w : Word) (lits : List Word) (i : Instr) : Bool :=
  match decodeWord w lits with
  | .ok j => decide (j = i)
  | .error _ => false

/-- Integer words of the line of R102's chapter and of the 64-bit add (R109, R123, R134, R137). -/
theorem test_decode_integer :
    reads 0x8201850C [] (.add ⟨true, .v 1, true, .op (.v 2), true, .op (.v 3)⟩) = true ∧
    reads 0x8206030D [] (.add ⟨true, .v 6, false, .op (.v 1), true, .g 3⟩) = true ∧
    reads 0x02868510 [] (.addc ⟨false, .v 6, true, .op (.v 2), true, .op (.v 4)⟩) = true ∧
    reads 0x02878714 [] (.addc ⟨false, .v 7, true, .op (.v 3), true, .op (.v 5)⟩) = true ∧
    reads 0x163FFFFB [] (.addi ⟨false, 3, 0xFFFFB⟩) = true ∧
    reads 0x1281040F [] (.bmix ⟨false, 0xAC, .v 1, .v 2, .v 3⟩) = true ∧
    reads 0x4080DF80 [] (.plop ⟨false, 0, 6, 7, 7⟩) = true := by decide +kernel

/-- Float words: a literal, the RQ wait bit, FCMP's condition, FMAK's bank word, CVT (R96, R110 to R112). -/
theorem test_decode_float :
    reads 0x20848BFC [0x40000000] (.fmul ⟨false, .v 4, true, .op (.v 5), true, .op (.k 0x40000000)⟩) = true ∧
    reads 0x30382107 [] (.fmaRz ⟨false, .v 7, .v 1, .v 2, .v 3, true⟩) = true ∧
    reads 0x21528914 [] (.fcmp ⟨false, .lt, 2, true, .op (.v 4), true, .op (.v 5)⟩) = true ∧
    reads 0x36018005 [] (.fmak ⟨false, .fpc, .v 1, true, .v 0, 5⟩) = true ∧
    reads 0x3C13F000 [] (.faddi ⟨false, 1, 0x3F000⟩) = true ∧
    reads 0x38410818 [] (.cvt ⟨false, false, .f16, .i32, .v 2, .v 1, true, .fpc⟩) = true ∧
    reads 0x40306401 [] (.pollQuorum ⟨false, 3, 1, false, 1⟩) = true := by decide +kernel

/-- Memory words, each with its base pair, PRI and scope (R99, R114, R115). -/
theorem test_decode_memory :
    reads 0x50090460 [] (.ld ⟨false, .i8, .v 9, .v 1, 1, 2, false, 0⟩) = true ∧
    reads 0x52070460 [] (.st ⟨false, .b, .v 7, .v 1, 1, 2, false, 0⟩) = true ∧
    reads 0x59185520 [] (.sts ⟨false, .q, .v 24, .v 21, 4, 2, false, 0⟩) = true ∧
    reads 0x6405F8A1 [] (.atomsAdd ⟨false, .v 5, .z, 2, 2, false, .block⟩) = true ∧
    reads 0x6A000004 [] (.fence ⟨false, .both, .device⟩) = true ∧
    reads 0x6A010001 [] (.fence ⟨false, .rel, .block⟩) = true ∧
    reads 0x5B42F8C1 [] (.waitv ⟨false, .v 2, .z, 3, .ne⟩) = true ∧
    reads 0x6B01F804 [] (.mflush ⟨false, .v 1, .z, 0⟩) = true ∧
    reads 0x6883F881 [] (.barrive ⟨false, .v 3, .z, 2, .block⟩) = true ∧
    reads 0x68C3F881 [] (.bwait ⟨false, .v 3, .z, 2, .block⟩) = true ∧
    reads 0x6802F880 [] (.binit ⟨false, .v 2, .z, 2⟩) = true ∧
    reads 0x7A051A00 [] (.batch ⟨false, .v 6, true⟩) = true ∧
    reads 0x7A060D00 [] (.waitb ⟨false, .g 3, false⟩) = true ∧
    reads 0x7A061A00 [] (.waitb ⟨false, .op (.v 6), true⟩) = true := by decide +kernel

/-- Control words (R100, R101, R116, R195 to R207). -/
theorem test_decode_control :
    reads 0x6C3BFE00 [] (.bra ⟨false, .near 0x1FF⟩) = true ∧
    reads 0x6C500605 [] (.brc ⟨false, 2, false, .near 3, 5⟩) = true ∧
    reads 0x6E120006 [0x40000001, 0x50000002, 0xF0FFFFFF]
      (.brm ⟨[⟨2, false, 1⟩, ⟨2, true, 2⟩, ⟨7, true, 0xFFFFFF⟩], 6⟩) = true ∧
    reads 0x6CB80E00 [] (.call ⟨false, .near 7⟩) = true ∧
    reads 0x70000000 [] (.ret ⟨false⟩) = true ∧ reads 0x70410000 [] (.jout ⟨false, 1⟩) = true ∧
    reads 0x70830000 [] (.elect ⟨false, 3⟩) = true ∧ reads 0x70C00000 [] (.yield ⟨false⟩) = true ∧
    reads 0x71000115 [] (.nap ⟨false, true, .g 5⟩) = true ∧ reads 0x71400000 [] (.tail ⟨false⟩) = true ∧
    reads 0x71800000 [] (.exit ⟨false⟩) = true ∧ reads 0x71C00000 [] (.evret ⟨false⟩) = true ∧
    reads 0x72000109 [] (.evon ⟨false, true, .g 2⟩) = true := by decide +kernel

/-- Words of the matrix engine, the strips and the copies (R303, R313 to R317, R328, R344, R361). -/
theorem test_decode_engines :
    reads 0x78067E00 [0xBB] (.mcfg ⟨false, .k 0xBB⟩) = true ∧ reads 0x78050000 [] (.mzero ⟨false, 0⟩) = true ∧
    reads 0x780102D0 [] (.mloadb ⟨false, 0, .i8, 8⟩) = true ∧ reads 0x78020018 [] (.mma ⟨false, 0, 0, 3, false⟩) = true ∧
    reads 0x78040200 [] (.mread ⟨false, 0, 8, 0, false⟩) = true ∧
    reads 0x7A13081B [] (.hfwd ⟨false, .v 2, .v 1, true, 3⟩) = true ∧
    reads 0x7A150C28 [] (.hthr ⟨false, .v 3, .v 2, true, 0⟩) = true ∧
    reads 0x7A141038 [] (.hrec ⟨false, .v 4, .v 3, true⟩) = true ∧
    reads 0x7A042420 [] (.hread ⟨false, 2, 2, 1, 0, false⟩) = true ∧
    reads 0x7C053480 [] (.qtload ⟨false, 3, 9, 0, 0⟩) = true ∧ reads 0x7C042000 [] (.qunpk ⟨false, 2, 0, false, 0⟩) = true := by
  decide +kernel

/-- Words of grids, links and the system (R171, R173, R174, R297, R298, R379 to R383, R393, R412). -/
theorem test_decode_system :
    reads 0x7C212422 [] (.launch ⟨false, 1, 2, .inl 2, true⟩) = true ∧ reads 0x6B400004 [] (.cdone ⟨false⟩) = true ∧
    reads 0x6B821C84 [] (.cwait ⟨false, 2, .v 7, 2⟩) = true ∧ reads 0x7C204632 [] (.enqL ⟨false, 2, 3, 3, 1⟩) = true ∧
    reads 0x7C102462 [] (.nput ⟨false, 2, 4, 12, 1, false⟩) = true ∧
    reads 0x7C123460 [] (.natom ⟨false, 3, 4, 3, .add, 0⟩) = true ∧
    reads 0x7C142000 [] (.brevoke ⟨false, 2⟩) = true ∧
    reads 0x7E010042 [] (.trap ⟨false, 0x42⟩) = true ∧ reads 0x7E070001 [] (.brk ⟨false, 1⟩) = true ∧
    reads 0x7E030C12 [] (.swr ⟨false, .v 3, .finj⟩) = true ∧
    reads 0x7E03FC23 [0xC350] (.swr ⟨false, .k 0xC350, .deadline⟩) = true ∧
    reads 0x7E040018 [] (.savept ⟨false, 24⟩) = true ∧ reads 0x7E051828 [] (.probe ⟨false, 3, 1, true⟩) = true ∧
    reads 0x7E0621A0 [] (.tlbinvR ⟨false, 2, 3⟩) = true ∧
    reads 0x7E024100 [] (.rettResume ⟨false, 4, 1⟩) = true ∧ reads 0x7E024140 [] (.rettSkip ⟨false, 4, 1⟩) = true := by decide +kernel

def refusesWord (w : Word) : Bool :=
  match decodeWord w [0, 0, 0, 0] with
  | .ok _ => false
  | .error _ => true

/-- Words that no instruction has: the zero word; L0 as destination; a uniform number above 31; a reserved bit of TAIL; .R with
.ABORT; CDONE without its scope (R82, R91, R95, R102, R298). -/
theorem test_decode_refused :
    ([0x00000000, 0x023C850C, 0x0201858D, 0x71400001, 0x7E0621B0, 0x6B400000, 0x62000007] : List Word).all refusesWord = true := by
  decide +kernel

/-! ### One word on a small machine -/

def same8 (x : Word) : List TWord := List.replicate 8 (TWord.of x)

def regOf (tag : BitVec 8) (x : Word) : Reg := { tag := tag, lanes := same8 x, empty := 0 }

/-- The loaded group with some registers set. -/
def withRegs (l : List (Nat × Reg)) : Group := { loadedGroup with regs := l.foldl (fun r e => r.set e.1 e.2) loadedGroup.regs }

/-- V1 and V2 of one tag. -/
def pairOf (tag : BitVec 8) (a b : Word) : Group := withRegs [(1, regOf tag a), (2, regOf tag b)]

/-- Uniform registers from G0. -/
def Group.uniforms (g : Group) (l : List Word) : Group := { g with g := l.map TWord.of ++ g.g.drop l.length }

def mach (g : Group) : Machine := { Machine.loaded Fuses.blank [] with groups := [(3, g)] }

def issueOf (i : Instr) : Issue :=
  { grp := 3, sid := 0, mask := widthMask 8, pc := loadedPc, words := [(i, loadedPc)], raw := [], pos := 0, next := loadedPc + 12
    cap := none, replay := false, alone := false, dry := false }

/-- The state about to run a chain of one word in strand 0 of group 3. -/
def stateAt (i : Instr) (m : Machine) : State :=
  { cur := m, issue := some (issueOf i), pre := some m, input := .none, agenda := [] }

def after (i : Instr) (m : Machine) : Option Machine :=
  match exec i (stateAt i m) with
  | .next t => some t.cur
  | _ => none

/-- Register n, lane l, and its tag, after the word. -/
def out (i : Instr) (g : Group) (n l : Nat) : Option (TWord × BitVec 8) :=
  ((after i (mach g)).bind fun m => Map.get m.groups 3).map fun h => (wordAt (h.reg n).lanes l, (h.reg n).tag)

def outPred (i : Instr) (g : Group) (p : Fin 8) (l : Nat) : Option Bool :=
  ((after i (mach g)).bind fun m => Map.get m.groups 3).map fun h => h.pred p l

/-- D = V3, A = V1, B = V2. -/
def rr : RR := { c := false, d := .v 3, wa := true, a := .op (.v 1), wb := true, b := .op (.v 2) }
def r1 : R1 := { c := false, d := .v 3, wa := true, a := .v 1 }
/-- B is a literal. -/
def rk (k : Word) : RR := { rr with b := .op (.k k) }

/-! ### Results of the spec's examples -/

/-- R64: ADD 0xFFFFFFFF + 2, residue 1. -/
theorem test_add_wraps : out (.add rr) (pairOf 1 0xFFFFFFFF 2) 3 0 = some (⟨1, 1⟩, 1) := by decide +kernel
/-- R64: MUL 0x10001 · 0x10003, residue 7. -/
theorem test_mul_low : out (.mul rr) (pairOf 1 0x10001 0x10003) 3 7 = some (⟨0x40003, 7⟩, 1) := by decide +kernel
/-- R64: SHL by 1 drops bit 31, residue 6. -/
theorem test_shl : out (.shl (rk 1)) (pairOf 1 0x80000003 0) 3 0 = some (⟨6, 6⟩, 1) := by decide +kernel
/-- R64: SHR by 4, residue 0. -/
theorem test_shr : out (.shr (rk 4)) (pairOf 2 0xF5 0) 3 0 = some (⟨0xF, 0⟩, 2) := by decide +kernel
/-- R64: SAR by 2 keeps the sign, residue 12. -/
theorem test_sar : out (.sar (rk 2)) (pairOf 1 0xFFFFFFF0 0) 3 0 = some (⟨0xFFFFFFFC, 12⟩, 1) := by decide +kernel
/-- R64: FMUL 1.5 · 1.5 = 2.25, residue 5. -/
theorem test_fmul : out (.fmul rr) (pairOf 3 0x3FC00000 0x3FC00000) 3 5 = some (⟨0x40100000, 5⟩, 3) := by decide +kernel
/-- R126: DOT4 of the worked example, residue 6, I32/0. -/
theorem test_dot4 : out (.dot4 rr) (withRegs [(1, regOf 0x0B 0xFF05FE03), (2, regOf 0x0B 0x02FD0704), (3, regOf 1 0x64)]) 3 2 =
    some (⟨0x51, 6⟩, 1) := by decide +kernel
/-- R123: the low limb of the 64-bit add, its tag I64 half; the carry is 1. -/
theorem test_addc_low : out (.addc rr) (pairOf 0x0D 0xFFFFFFFF 3) 3 0 = some (⟨2, 2⟩, 0x0D) ∧
    outPred (.addc rr) (pairOf 0x0D 0xFFFFFFFF 3) 6 0 = some true := by decide +kernel
/-- R123: the high limb with the carry. -/
theorem test_addc_high : out (.addc rr) { pairOf 0x0D 1 2 with p := List.replicate 7 0xFF } 3 0 = some (⟨4, 4⟩, 0x0D) ∧
    outPred (.addc rr) { pairOf 0x0D 1 2 with p := List.replicate 7 0xFF } 6 0 = some false := by decide +kernel
/-- The line of the chapter on instructions: V6 = V1 + G3 = 12 + 100, residue 7. -/
theorem test_add_uniform : out (.add { rr with b := .g 3 }) (Group.uniforms (pairOf 1 12 0) [0, 0, 0, 100]) 3 0 =
    some (⟨112, 7⟩, 1) := by decide +kernel
/-- R92: the read `V1!` of an empty register traps and nothing is written. -/
theorem test_empty_traps : out (.add { rr with wa := false })
    (withRegs [(1, { regOf 1 5 with empty := 1 }), (2, regOf 1 6)]) 3 0 = some (⟨0, 0⟩, 0) := by decide +kernel
/-- R127: MAX compares as signed, MAX.U as unsigned. -/
theorem test_max_signs : out (.max rr) (pairOf 1 0xFFFFFFFF 2) 3 0 = some (⟨2, 2⟩, 1) ∧
    out (.maxU { c := false, d := .v 3, wa := true, a := .v 1, wb := true, b := .v 2 }) (pairOf 2 0xFFFFFFFF 2) 3 0 =
      some (⟨0xFFFFFFFF, 0⟩, 2) := by decide +kernel
/-- R128: POPC, CLZ of 0, BREV. -/
theorem test_bit_counts : out (.popc r1) (pairOf 1 0xF00F0001 0) 3 0 = some (⟨9, 9⟩, 1) ∧
    out (.clz r1) (pairOf 1 0 0) 3 0 = some (⟨32, 2⟩, 1) ∧ out (.brev r1) (pairOf 1 1 0) 3 0 = some (⟨0x80000000, 8⟩, 1) := by
  decide +kernel
/-- R110: lut[a + 2b + 4c] with 0xAC. -/
theorem test_bmix : out (.bmix ⟨false, 0xAC, .v 3, .v 1, .v 2⟩)
    (withRegs [(1, regOf 1 0xFF), (2, regOf 1 0xF0F), (3, regOf 1 0x3333)]) 3 0 = some (TWord.of 0x0C3F, 1) := by decide +kernel
/-- R98: ADDI adds the sign-extended immediate. -/
theorem test_addi : out (.addi ⟨false, 3, 0xFFFFB⟩) (withRegs [(3, regOf 1 3)]) 3 0 = some (⟨0xFFFFFFFE, 14⟩, 1) := by decide +kernel
/-- R98: `#1.5` of FADDI is 0x3FC00. -/
theorem test_faddi : out (.faddi ⟨false, 3, 0x3FC00⟩) (withRegs [(3, regOf 3 0x3FC00000)]) 3 0 = some (⟨0x40400000, 8⟩, 3) := by
  decide +kernel
/-- R132: CMP.LT of −1 and 1, signed and unsigned. -/
theorem test_compare : outPred (.cmpLt ⟨false, 2, true, .op (.v 1), true, .op (.v 2)⟩) (pairOf 1 0xFFFFFFFF 1) 2 0 = some true ∧
    outPred (.cmpLtU ⟨false, 2, true, .op (.v 1), true, .op (.v 2)⟩) (pairOf 1 0xFFFFFFFF 1) 2 0 = some false := by decide +kernel
/-- R145: an unordered pair is not less, and UN holds. -/
theorem test_fcmp_nan : outPred (.fcmp ⟨false, .lt, 2, true, .op (.v 1), true, .op (.v 2)⟩) (pairOf 3 0x7FC00000 0) 2 0 = some false ∧
    outPred (.fcmp ⟨false, .un, 2, true, .op (.v 1), true, .op (.v 2)⟩) (pairOf 3 0x7FC00000 0) 2 0 = some true := by decide +kernel
/-- R154: QXCH.H gives each lane its neighbour's word. -/
theorem test_qxch : out (.qxch ⟨false, .h, .v 3, .v 1, true⟩)
    (withRegs [(1, { tag := 2, lanes := (List.range 8).map fun l => TWord.of (BitVec.ofNat 32 l), empty := 0 })]) 3 4 =
      some (⟨5, 5⟩, 2) := by decide +kernel
/-- R54: the worked REDG.FADD over lanes 0 to 5: 4.0, NX set, the exact sum lost by the fixed order. -/
def redgMach : Machine :=
  mach (withRegs [(1, { tag := 3, empty := 0
                        lanes := ([0x3F800000, 0x33800000, 0x33800000, 0x33800000, 0x33800000, 0x40400000, 7, 7] : List Word).map TWord.of })])

theorem test_redg_fadd :
    (match exec (.redg ⟨false, .fadd, .v 3, .v 1, true⟩)
        { stateAt (.redg ⟨false, .fadd, .v 3, .v 1, true⟩) redgMach with
          issue := some { issueOf (.redg ⟨false, .fadd, .v 3, .v 1, true⟩) with mask := 0x3F } } with
      | .next t => (Map.get t.cur.groups 3).map fun h => ((wordAt (h.reg 3).lanes 0).data, h.fpc)
      | _ => none) = some (0x40800000, 0x100) := by decide +kernel

/-- R148: CVT.F16.I32 of 2049, −3 and 100,000; .SAT clamps; .RU rounds up; residues as in the table. -/
def cvtF (sat : Bool) (r : RSel) : Instr := .cvt ⟨false, sat, .f16, .i32, .v 3, .v 1, true, r⟩
theorem test_cvt :
    out (cvtF false .fpc) (pairOf 1 2049 0) 3 0 = some (⟨0x6800, 14⟩, 4) ∧
    out (cvtF false .fpc) (pairOf 1 0xFFFFFFFD 0) 3 0 = some (⟨0xC200, 14⟩, 4) ∧
    out (cvtF false .fpc) (pairOf 1 100000 0) 3 0 = some (⟨0x7C00, 4⟩, 4) := by decide +kernel
theorem test_cvt_forms :
    out (cvtF true .fpc) (pairOf 1 100000 0) 3 0 = some (⟨0x7BFF, 3⟩, 4) ∧
    out (cvtF false .ru) (pairOf 1 2049 0) 3 0 = some (⟨0x6801, 0⟩, 4) := by decide +kernel

/-- R330 to R332: the worked Haar example: HFWD #3, HTHR with HT0 = 1.0, HREC. -/
def haarIn : Group :=
  { withRegs [(1, { tag := 3, empty := 0
                    lanes := ([0x40800000, 0x40000000, 0x40A00000, 0x40E00000, 0x3F800000, 0x3F800000, 0x41000000, 0] : List Word).map TWord.of }),
      (2, { tag := 0x33, empty := 0
            lanes := ([0x40600000, 0x3F800000, 0xBFC00000, 0xBFC00000, 0x3F800000, 0xBF800000, 0, 0x40800000] : List Word).map TWord.of }),
      (3, { tag := 0x33, empty := 0
            lanes := ([0x40600000, 0, 0xBFC00000, 0xBFC00000, 0, 0, 0, 0x40800000] : List Word).map TWord.of })] with
    ht := ([0x3F800000, 0, 0, 0] : List Word).map TWord.of }

def outReg (i : Instr) (g : Group) (n : Nat) : Option Reg :=
  ((after i (mach g)).bind fun m => Map.get m.groups 3).map fun h => h.reg n

theorem test_hfwd : outReg (.hfwd ⟨false, .v 2, .v 1, true, 3⟩) haarIn 2 = some (haarIn.reg 2) := by decide +kernel
theorem test_hthr : outReg (.hthr ⟨false, .v 3, .v 2, true, 0⟩) haarIn 3 = some (haarIn.reg 3) := by decide +kernel
theorem test_hrec : outReg (.hrec ⟨false, .v 4, .v 3, true⟩) haarIn 4 = some { tag := 3, empty := 0, lanes :=
    ([0x40000000, 0x40000000, 0x40A00000, 0x40A00000, 0x40000000, 0x40000000, 0x41100000, 0x3F800000] : List Word).map TWord.of } := by
  decide +kernel

/-- R248, R249: the byte load and the byte store of the example at 0x2000, in every lane of address 0x2003 or 0x2001. -/
def homeWords (g : Group) : Machine :=
  (mach (Group.uniforms g [0, 0, 0x2000, 0])).setHomeData 0x2000 [0x12345678]

theorem test_load_byte :
    ((after (.ld ⟨false, .i8, .v 9, .v 1, 1, 2, false, 0⟩) (homeWords (pairOf 1 3 0))).bind fun m => Map.get m.groups 3).map
      (fun h => h.pending.map fun p => ((p.2.words.map fun r => wordAt r 0), p.2.tag)) = some [([⟨0x12, 3⟩], 1)] := by decide +kernel

theorem test_store_byte :
    (after (.st ⟨false, .b, .v 7, .v 1, 1, 2, false, 0⟩) (homeWords (withRegs [(1, regOf 1 1), (7, regOf 1 0xAB)]))).map
      (fun m => m.seenWord 0 0x2000) = some ⟨0x1234AB78, 1⟩ := by decide +kernel

/-- The barrier of R218's example at offset 0x40: its four words before each operation and after. -/
def barMach (ws : List Word) (a b : Word) : Machine :=
  (mach (Group.uniforms (withRegs [(2, regOf 2 a), (5, regOf 2 b)]) [0, 0, 0, 0, 0x40, 0])).setBarWords 2 0x40 (ws.map TWord.of)

def barAfter (i : Instr) (ws : List Word) (a b : Word) : Option (List TWord) := (after i (barMach ws a b)).map fun m => m.barAt 2 0x40

theorem test_binit : barAfter (.binit ⟨false, .v 2, .z, 2⟩) [0, 0, 0, 0] 2 0 = some (([0x210, 0, 2, 0] : List Word).map TWord.of) := by
  decide +kernel
theorem test_bexpect : barAfter (.bexpect ⟨false, .v 5, .z, 2⟩) [0x210, 0, 2, 0] 2 0x80000008 =
    some (([0x210, 8, 2, 0] : List Word).map TWord.of) := by decide +kernel
theorem test_barrive : barAfter (.barrive ⟨false, .v 3, .z, 2, .block⟩) [0x210, 8, 2, 0] 0 0 =
    some (([0x110, 8, 2, 0] : List Word).map TWord.of) := by decide +kernel
/-- The last arrival with no sector owed ends the phase, and the arrivals are owed again. -/
theorem test_barrive_completes : barAfter (.barrive ⟨false, .v 3, .z, 2, .block⟩) [0x110, 0, 2, 1] 0 0 =
    some (([0x211, 0, 2, 1] : List Word).map TWord.of) := by decide +kernel
/-- A BTRY with token 0 after it writes 1. -/
theorem test_btry : ((after (.btry ⟨false, .v 3, .z, 2, .block⟩) (barMach [0x211, 0, 2, 1] 0 0)).bind fun m => Map.get m.groups 3).map
    (fun h => h.reg 3) = some (regOf 2 1) := by decide +kernel

/-- R255: ATOMS.ADD.BLOCK on the scratchpad word at 0x100 that holds 16, lanes 0 to 3 adding 1 to 4: 26 stays, residue 11; the
lanes receive 16, 17, 19, 22. -/
def atomsState : State :=
  let i : Instr := .atomsAdd ⟨false, .v 5, .z, 2, 2, false, .block⟩
  let m := (mach (Group.uniforms (withRegs [(5, { tag := 1, empty := 0, lanes := ([1, 2, 3, 4, 0, 0, 0, 0] : List Word).map TWord.of })]) [0, 0, 0, 0, 0x100, 0])).setSpad 2 0x100 (TWord.of 16)
  { stateAt i m with issue := some { issueOf i with mask := 0xF } }

theorem test_atoms_add :
    (match exec (.atomsAdd ⟨false, .v 5, .z, 2, 2, false, .block⟩) atomsState with
      | .next t => (t.cur.spadWord 2 0x100, (Map.get t.cur.groups 3).map fun h =>
          h.pending.map fun p => p.2.words.map fun r => (r.take 4).map (·.data))
      | _ => (TWord.zero, none)) = (⟨26, 11⟩, some [[[16, 17, 19, 22]]]) := by decide +kernel

/-- R56, R74, R75: residue 14 of 0xDEADBEEF; virtual byte 0 is 0xAE. -/
theorem test_residue : resOf 0xDEADBEEF = 14 ∧ resOf 0x64 = 10 ∧ residueBytes ((resOf 0xDEADBEEF).toNat :: (resOf 0x64).toNat ::
    List.replicate 14 0) = [0xAE, 0, 0, 0, 0, 0, 0, 0] := by decide +kernel

/-- R73: g(x) with roots α^0 to α^7, multiplied out by hand: x^8 + 255x^7 + 11x^6 + 81x^5 + 54x^4 + 239x^3 + 173x^2 + 200x + 24. -/
theorem test_line_generator : rsGen = [24, 200, 173, 239, 54, 81, 11, 255, 1] := by decide +kernel

/-- R225: the physical address of the worked example. -/
theorem test_address : stackOf 0x512347AD40 = 5 ∧ rowOf 0x512347AD40 = 0x1234 ∧ bankOf 0x512347AD40 = 7 ∧
    pchOf 0x512347AD40 = 5 * 64 + 0x2D ∧ bits 0x512347AD40 15 14 = 2 ∧ bankOf 0x512407AD40 = 7 ∧ rowOf 0x512407AD40 = 0x1240 := by
  decide +kernel

/-- R395: CRC-32C of the bytes of "123456789", the check value that goes with the polynomial. -/
theorem test_crc : crc32c [0x31, 0x32, 0x33, 0x34, 0x35, 0x36, 0x37, 0x38, 0x39] = 0xE3069283 := by decide +kernel


/-! ### Witnesses: for each obligation, states and operands that meet its hypotheses together -/

/-- The word's context exists and has the property. -/
def meets (s : State) (i : Instr) (P : W → Bool) : Bool :=
  match s.word i with
  | some w => P w
  | none => false

/-- The word runs in strand 0 of group 3 of the machine, with the property. -/
def runs (i : Instr) (m : Machine) (P : W → Bool) : Bool := meets (stateAt i m) i P

theorem witness_ResetState_StepKeepsBetween : State.reset.between ∧
    (match step State.reset with
      | .next t => decide (t.issue = none)
      | _ => false) = true := ⟨⟨rfl, rfl⟩, by decide +kernel⟩

theorem witness_MemoryStaysCanonical : State.reset.canonical ∧
    ({ State.reset with cur := State.reset.cur.setHomeData 0x40 [7] } : State).canonical :=
  ⟨⟨by decide +kernel, by intro m h; exact absurd h (by simp [State.reset])⟩,
    ⟨by decide +kernel, by intro m h; exact absurd h (by simp [State.reset])⟩⟩

theorem witness_ExecAnswers : runs (.add rr) (mach (pairOf 1 1 2)) (fun _ => (Instr.add rr).head?.isSome) = true ∧
    Instr.clockWrap.head? = none ∧ Instr.clockWrap ≠ .issueSelect := by decide +kernel

/-- A state about to fetch a word from memory, as the host places it. -/
def fetching (w : Nat) : State := State.reset.withFetchWord 32 w

/-- A chain of one word is issued and runs; the reset state has nothing to issue. -/
theorem witness_StepRunsWords :
    (match exec (fetching 0x02038308).nextInput.1.event
        { fetching 0x02038308 with input := (fetching 0x02038308).nextInput.1.arg, agenda := (fetching 0x02038308).nextInput.2 } with
      | .next t => match t.issue with
        | some is => is.words.length == 1 && is.pos == 0 && !is.dry && (match is.words with
          | [(i, _)] => match exec i t with
            | .next _ => true
            | _ => false
          | _ => false)
        | none => false
      | _ => false) = true ∧
    State.reset.agenda = [] ∧ State.reset.due = none ∧ State.reset.nextInput.1.event = .issueSelect := by decide +kernel

/-- The line of `fetching`: an ADD at its first word. -/
def lineOfAdd : List Word := placeWord [] 0 0x02038308

theorem witness_FrontDecodes :
    let m := Machine.loaded Fuses.blank lineOfAdd
    let e := { firstEntry loadedPc 8 with entered := false }
    let g := loadedGroup
    (match m.fetchLine g.core g.ctx e.pc with
      | (.line l, m') => decide (l = lineOfAdd) && lineKind l == 0 && decide ((l.getD 1 0).toNat < 2 ^ 10) && lineStart l 0 &&
        (match decodeAt l 0 with
          | some (i, c, k) => decide (i = .add rr) && k == 0 && !c &&
            (wordTrap g (m'.ctxPriv g) (m'.hasBank g) (i, bodyAddr (e.pc / 128 * 128) 0)).isNone
          | none => false)
      | _ => false) = true := by decide +kernel

theorem witness_DecodeEncode_DecodeExact : (Instr.add rr).wellFormed = true ∧ (Instr.add rr).head?.isSome = true ∧
    reads 0x8201850C [] (.add ⟨true, .v 1, true, .op (.v 2), true, .op (.v 3)⟩) = true := by decide +kernel

/-- A typed integer word in domain 0, and one that keeps domain 3. -/
theorem witness_IntegerResults :
    runs (.mul rr) (mach (pairOf 1 5 6)) (fun w => (intOp (.mul rr)).any fun o => w.ready o.ks && w.agree o.ks o.ok 0) = true ∧
    runs (.add rr) (mach (pairOf 0x31 5 6)) (fun w => (intOp (.add rr)).any fun o =>
      w.ready o.ks && w.agree o.ks o.ok 3 && o.linear) = true := by decide +kernel

theorem witness_CarryResults : runs (.addc rr) (mach (pairOf 1 5 6)) (fun w => w.ready [0, 1] &&
      w.agree [0, 1] (fun _ t => inFamily t) 0) = true ∧
    runs (.subb rr) (mach (pairOf 1 5 6)) (fun w => w.ready [0, 1] && w.agree [0, 1] (fun _ t => inFamily t) 0) = true := by
  decide +kernel

theorem witness_PlainResults : runs (.bfx rr) (mach (pairOf 3 5 6)) (fun w => (plainOp w (.bfx rr)).any fun o => w.ready o.ks) = true := by
  decide +kernel

def rs : RS := { c := false, d := .v 3, wa := true, a := .v 1, wb := true, b := .v 2 }

theorem witness_MinMaxResults : ([.min rr, .max rr, .minU rs, .maxU rs] : List Instr).all (fun i =>
    runs i (mach (pairOf 1 5 5)) fun w => w.ready [0, 1] && w.agree [0, 1] (fun _ t => inFamily t) 0) = true := by decide +kernel

theorem witness_BitCounts : ([.popc r1, .clz r1, .brev r1] : List Instr).all (fun i =>
    runs i (mach (pairOf 1 0 0)) fun w => w.ready [0]) = true := by decide +kernel

/-- Poisoned words move; a poll counts. -/
theorem witness_MoveResults :
    runs (.mov r1) (mach (withRegs [(1, { regOf 1 5 with lanes := List.replicate 8 TWord.zero.poison })])) (fun w =>
      (moveOp w (.mov r1)).isSome && w.quiet && w.brim) = true ∧
    runs (.pollRank ⟨false, .v 3, 1, true⟩) (mach (pairOf 1 0 0)) (fun w =>
      (pollOp w (.pollRank ⟨false, .v 3, 1, true⟩)).isSome && w.quiet) = true := by decide +kernel

theorem witness_PredicateResults :
    runs (.cmpLt ⟨false, 2, true, .op (.v 1), true, .op (.v 2)⟩) (mach (pairOf 1 5 6)) (fun w =>
      (predOp w (.cmpLt ⟨false, 2, true, .op (.v 1), true, .op (.v 2)⟩)).any fun o => w.ready o.ks && w.agree o.ks o.ok 0) = true ∧
    runs (.elect ⟨false, 7⟩) (mach (pairOf 1 5 6)) (fun w => (predOp w (.elect ⟨false, 7⟩)).any fun o => w.ready o.ks) = true := by
  decide +kernel

/-- SWR with a leader, and in a strand of helper lanes only. -/
theorem witness_SpecialRegisters :
    runs (.srd ⟨false, .v 3, .clocklo⟩) (mach (pairOf 1 5 6)) (fun w => w.quiet) = true ∧
    runs (.tagw ⟨false, .x 2, 0x33⟩) (mach (pairOf 1 5 6)) (fun _ => true) = true ∧
    runs (.swr ⟨false, .v 1, .evec⟩) (mach (pairOf 1 5 6)) (fun w => w.filled && (w.checkSrcs [0]).isNone && w.leader == some 0) = true ∧
    runs (.swr ⟨false, .v 1, .evec⟩) (mach { pairOf 1 5 6 with helper := 0xFF }) (fun w =>
      w.filled && (w.checkSrcs [0]).isNone && w.leader.isNone) = true := by decide +kernel

theorem witness_FloatArithmetic :
    runs (.fma ⟨false, .v 3, .v 1, .v 2, .v 1, true⟩) (mach (pairOf 3 0x3F800000 0x80000000)) (fun w =>
      (arithOp w (.fma ⟨false, .v 3, .v 1, .v 2, .v 1, true⟩)).any fun o => w.ready o.ks && w.agree o.ks o.ok 0) = true ∧
    runs (.fadd rr) (mach (pairOf 0x23 0x3F800000 0x80000000)) (fun w => (arithOp w (.fadd rr)).any fun o =>
      w.ready o.ks && w.agree o.ks o.ok 2 && o.linear) = true := by decide +kernel

/-- PFMA in its five forms on pairs of F16 and of B16; the seven approximations at an ordinary word. -/
theorem witness_FloatPackedApprox_forms :
    ([(tagOf 4 0, 0x3C003C00), (tagOf 5 0, 0x3F803F80)] : List (BitVec 8 × Word)).all (fun (t, x) =>
      ([.pfma rr, .pfmaRn rr, .pfmaRz rr, .pfmaRd rr, .pfmaRu rr] : List Instr).all fun i =>
        runs i (mach (withRegs [(1, regOf t x), (2, regOf t x), (3, regOf t x)])) fun w => w.ready [0, 1, 2] &&
          (w.pairFmt == 4 || w.pairFmt == 5) && w.agree [0, 1, 2] (fun _ t => t == w.pairFmt || t == 0) 0) = true ∧
    ([(.frcp r1, .rcp), (.frsq r1, .rsq), (.fsqrt r1, .sqrt), (.fexp2 r1, .exp2), (.flog2 r1, .log2), (.fsin r1, .sin),
      (.fcos r1, .cos)] : List (Instr × ApproxFn)).all (fun (i, fn) => ([0x3F8CCCCD, 0x7FC00000] : List Word).all fun x =>
        runs i (mach (pairOf 3 x 0)) fun w => w.ready [0] && w.agree [0] (fun _ t => t == 3 || t == 0) 0 &&
          ((approxSpecial fn w.g.ftz (w.dat 0 0)).isSome == (x == 0x7FC00000))) = true ∧
    (elFmt .f16).isSome = true ∧ (elFmt .i32).isSome = true := by decide +kernel

/-- An ordinary input of the approximations: 1.1 is finite, and no special input of any. -/
theorem witness_FloatPackedApprox_bounds :
    (match fmF32.input false 0x3F8CCCCD with
      | .fin false 0x8CCCCD (-23) => true
      | _ => false) = true ∧
    ([.rcp, .rsq, .sqrt, .exp2, .log2, .sin, .cos] : List ApproxFn).all (fun fn => (approxSpecial fn false 0x3F8CCCCD).isNone) = true := by
  decide +kernel

theorem witness_FloatPackedApprox :
    runs (.pack ⟨false, .v 3, 4, .f16⟩) (mach (withRegs [(4, regOf 3 0x3F800000), (5, regOf 3 0)])) (fun w =>
      (packedOp w (.pack ⟨false, .v 3, 4, .f16⟩)).any fun o => w.ready o.ks && w.agree o.ks o.ok 0) = true ∧
    runs (.flog2 r1) (mach (pairOf 3 0x3F800000 0)) (fun w => (approxOp w (.flog2 r1)).any fun o =>
      w.ready o.ks && w.agree o.ks o.ok 0) = true := by decide +kernel

theorem witness_FloatCompare : runs (.fcmp ⟨false, .un, 2, true, .op (.v 1), true, .op (.v 2)⟩) (mach (pairOf 3 0x7FC00000 0)) (fun w =>
    w.ready [0, 1] && w.agree [0, 1] (fun _ t => t == 3 || t == 0) 0) = true := by decide +kernel

theorem witness_UnpackResults : (elFmt .e4m3).isSome = true ∧ runs (.unpk ⟨false, 8, .v 1, .e4m3⟩) (mach (pairOf 0x18 0x12345678 0)) (fun w =>
    w.ready [0] && w.agree [0] (fun _ t => t == Fmt.e4m3.code || t == 0) 1) = true := by decide +kernel

theorem witness_BlockConversions :
    runs (.cvtqQ ⟨false, .v 3, 8, .uni⟩) (mach (withRegs ((List.range 8).map fun k => (8 + k, regOf 3 0x3F800000)))) (fun w =>
      w.ready (List.range 9) && w.agree (List.range 8) (fun _ t => t == 3 || t == 0) 0 && w.quadMask.isNone) = true ∧
    runs (.cvtqX ⟨false, 8, .v 1, .hyb⟩) (mach (pairOf 10 0x12345678 0)) (fun w => w.ready [0, 1] &&
      w.agree [0] (fun _ t => t == 10 || t == 0) 0 && w.quadMask.isNone) = true ∧
    (-149 : Int) ≤ -149 ∧ (-149 : Int) ≤ 0 - 3 := by decide +kernel

theorem witness_GroupReductions :
    runs (.redg ⟨false, .fminNum, .v 3, .v 1, true⟩) (mach (pairOf 3 0x7FC00000 0)) (fun w => w.quiet && w.filled &&
      (w.checkSrcs [0]).isNone && redgFmt .fminNum == some 3 && w.agree [0] (fun _ t => t == 3 || t == 0) 0) = true ∧
    runs (.redg ⟨false, .xor, .v 3, .v 1, true⟩) (mach (pairOf 0x31 5 0)) (fun w => w.quiet && w.filled &&
      (w.checkSrcs [0]).isNone && redgFmt .xor == none) = true ∧
    f32Nan 0x3F800000 = false ∧ ((List.range 8).filter fun l => lane 0x5 l) = [0, 2] := by decide +kernel

theorem witness_ResultWrite_PredicateWrite : loadedGroup.regs.length = 62 ∧ loadedGroup.p.length = 7 ∧ (∀ s ∈ [3, 59], s < 60) := by
  decide +kernel

/-- The word completes and the issue stays. -/
theorem witness_RegisterFrame : runs (.xor rr) (mach (pairOf 1 5 6)) (fun w => (plainOp w (.xor rr)).isSome) = true ∧
    (match exec (.xor rr) (stateAt (.xor rr) (mach (pairOf 1 5 6))) with
      | .next t => t.issue.isSome
      | _ => false) = true := by decide +kernel

/-- Register n of a tag whose lane 6 is the word. -/
def marred (n : Nat) (tag : BitVec 8) (x : TWord) : Nat × Reg := (n, { regOf tag 5 with lanes := (same8 5).set 6 x })
/-- A word that does not match its residue. -/
def wrongWord : TWord := ⟨5, 6⟩

/-- Words of one, two and three sources, integer, float, packed, predicate and plain, whose last source is poison or mismatches. -/
theorem witness_PoisonStops :
    ([(.abs r1, 1, 1), (.mul rr, 2, 1), (.xor rr, 2, 1), (.fma ⟨false, .v 4, .v 1, .v 2, .v 3, true⟩, 3, 3),
      (.pack ⟨false, .v 7, 2, .f16⟩, 3, 3), (.cmpLt ⟨false, 2, true, .op (.v 1), true, .op (.v 2)⟩, 2, 1)] : List (Instr × Nat × BitVec 8)).all
      (fun (i, n, tag) => ([(poisonWord, true), (wrongWord, false)] : List (TWord × Bool)).all fun (x, b) =>
        runs i (mach (withRegs ([(1, regOf tag 5), (2, regOf tag 5), (3, regOf tag 5)] ++ [marred n tag x]))) fun w =>
          w.filled && (regChecks w i).any fun c => (c.typed.all fun t => w.agree c.ks t.1 0) &&
            (w.badLanes c.ks w.poisonIn).isEmpty != b && w.badLanes c.ks w.badIn == [6]) = true := by decide +kernel

/-- CVTQ whose block word is poison in the first lane of a quad. -/
theorem witness_PoisonStops_blocks :
    let first : Reg := { regOf 0 0 with lanes := (same8 0).set 4 poisonWord }
    runs (.cvtqX ⟨false, 8, .v 2, .uni⟩) (mach (withRegs [(2, regOf 10 5), (56, first)])) (fun w => w.filled &&
      (typedChecks w (.cvtqX ⟨false, 8, .v 2, .uni⟩)).any (fun c => w.agree c.1 c.2.1 0) && w.quadMask.isNone && decide (w.mask = widthMask 8) &&
      w.badLanes [0, 1] (fun k l => if k < 1 then w.poisonIn k l else (w.srcAt 1 (4 * (l / 4))).poisoned) == [4, 5, 6, 7]) = true := by
  decide +kernel

/-- Memory words with a poisoned address or value, a value that mismatches, and a poisoned base. -/
theorem witness_PoisonStops_memory :
    ([(.ld ⟨false, .w, .v 4, .v 1, 0, 2, false, 0⟩, 1), (.st ⟨false, .b, .v 2, .v 1, 0, 2, false, 0⟩, 2),
      (.atomAdd ⟨false, .v 2, .v 1, 0, 2, false, .block⟩, 2)] : List (Instr × Nat)).all (fun (i, n) =>
      ([(poisonWord, true), (wrongWord, false)] : List (TWord × Bool)).all fun (x, b) =>
        runs i (mach (Group.uniforms (withRegs ([(1, regOf 1 0), (2, regOf 1 0)] ++ [marred n 1 x])) [0x2000, 0])) fun w =>
          !w.acquireParked && !w.syncParked && !w.dataParked && !w.noRoom && decide (w.mask = widthMask 8) && w.uniSound &&
          (memSources i).any fun ks => (w.badLanes ks w.poisonIn).isEmpty != b && w.badLanes ks w.badIn == [6]) = true ∧
    runs (.ld ⟨false, .w, .v 4, .v 1, 0, 2, false, 0⟩) (mach { pairOf 1 0 0 with g := List.replicate 32 poisonWord }) (fun w =>
      !w.acquireParked && !w.noRoom && w.real != 0 && w.u.us.any fun n => (w.uni n).poisoned) = true := by decide +kernel

/-- A source of format F32; sources of domains 0 and 1; domain 2 in a word that does not keep it. -/
theorem witness_FormatDomainStop :
    runs (.add rr) (mach (withRegs [(1, regOf 1 5), (2, regOf 3 6)])) (fun w => w.filled && w.tag 0 == some 1 && w.tag 1 == some 3 &&
      inFamily (fmtOfTag 1) && !inFamily (fmtOfTag 3) && !w.auto) = true ∧
    runs (.add rr) (mach (withRegs [(1, regOf 1 5), (2, regOf 0x11 6)])) (fun w => w.filled && w.tag 0 == some 1 && w.tag 1 == some 0x11 &&
      inFamily (fmtOfTag 0x11) && domOfTag 0x11 != domOfTag 1) = true ∧
    runs (.mulh rr) (mach (pairOf 0x21 5 6)) (fun w => w.filled && w.tag 0 == some 0x21 && domOfTag 0x21 != 0 && !w.auto) = true ∧
    -- AUTO, and a depth of 16 lanes in a group of 8
    runs (.mulh rr) (mach { pairOf 0x41 5 6 with domctl := 1 }) (fun w => w.brim && w.auto && w.tag 0 == some 0x41 &&
      decide (w.g.width < 2 ^ domOfTag 0x41)) = true := by decide +kernel

/-- A source of one lane empty; the source lane of an exchange; a lane that AUTO reconstructs with, out of the mask; a move. -/
theorem witness_EmptyStops :
    let one := fun (tag : BitVec 8) => withRegs [(1, { regOf tag 5 with empty := 4 }), (2, regOf 1 5), (3, regOf 1 0x700)]
    ([.neg { r1 with wa := false }, .mul { rr with wa := false }, .mov { r1 with wa := false }] : List Instr).all (fun i =>
      runs i (mach (one 1)) (fun w => ((w.g.reg 1).empty &&& w.real != 0) && !w.auto)) = true ∧
    ([.qxch ⟨false, .h, .v 3, .v 1, false⟩, .xlane ⟨false, .rot, .v 3, .v 1, false⟩] : List Instr).all (fun i =>
      runs i (mach (one 1)) (fun w => (exchangeFrom w i).any fun pick =>
        (w.g.reg 1).empty &&& maskOf ((lanesOf w.real).filterMap pick) != 0)) = true ∧
    (let i : Instr := .mulh { rr with wa := false }
     let m := mach { one 0x21 with domctl := 1 }
     (match (stateAt i m).word i with
       | some w => w.auto && (w.tag 0).any (fun t => domOfTag t != 0) && (w.g.reg 1).empty &&& widthMask w.g.width != 0
       | none => false) = true) := by decide +kernel

/-- A context with a supervisor, and one without. -/
theorem witness_TrapTaken :
    let orphan := { mach (pairOf 1 5 6) with ctxs := [(0, { loadedCtx with super := 0xFF })] }
    ([mach (pairOf 1 5 6), orphan]).all (fun m => runs (.trap ⟨false, 7⟩) m fun w => (Map.get w.m0.ctxs w.g.ctx).isSome &&
      w.g.lighter.isNone && w.g.pending.isEmpty && w.g.status == .live) = true ∧
    (Map.get orphan.ctxs 0).map (·.super) = some 0xFF := by decide +kernel

/-- A chain left in the replay queue stands in the frame behind the trapping one (R373, R374). -/
theorem test_frame_keeps_replay :
    let left : Replay := { pc := 0x100088, words := [0x71400000], mask := 0xFF, sid := 0
                           cap := { slots := [], uniforms := [], tags := [] } }
    let m := (mach { pairOf 1 5 6 with replay := [left] }).takeTrap 3 { code := .trapi, info := 7 } none 0 0 0 0
    m.frameByte (groupFrame loadedCtx 0) 4 = 1 ∧ m.frameByte (groupFrame loadedCtx 0) 0x108 = 1 ∧
      m.frameByte (groupFrame loadedCtx 0) 0x113 = 0x71 := by decide +kernel

/-- TRAP and BREAK with a leader and with none; a DEBUG context and another. -/
theorem witness_SoftwareTraps :
    runs (.trap ⟨false, 7⟩) (mach (pairOf 1 5 6)) (fun w => w.real != 0) = true ∧
    runs (.trap ⟨false, 7⟩) (mach { pairOf 1 5 6 with helper := 0xFF }) (fun w => w.real == 0) = true ∧
    runs (.brk ⟨false, 7⟩) { mach (pairOf 1 5 6) with ctxs := [(0, { loadedCtx with debug := true })] } (fun w =>
      w.ctx.any (fun c => c.debug) && w.real != 0) = true ∧
    runs (.brk ⟨false, 7⟩) (mach (pairOf 1 5 6)) (fun w => w.ctx.any fun c => !c.debug) = true := by decide +kernel

theorem witness_PrivilegeChecked : isPriv (.tlbinv ⟨false, 2, 3⟩) = true ∧ namesBank (.tlbinv ⟨false, 2, 3⟩) = false ∧
    ((vregsOf (usesOf 8 (.tlbinv ⟨false, 2, 3⟩))).all fun r => decide (r < loadedGroup.nregs)) = true := by decide +kernel

theorem witness_TransformInverts_RoundingCorrect : ([1, 2, 0xFFFFFFFF, 4] : List Nat).length = 2 ^ 2 ∧
    (∀ v ∈ ([1, 2, 0xFFFFFFFF, 4] : List Nat), v < 2 ^ 32) ∧ 0 < 1 := by decide


/-! Memory: addresses in G0, G1; records at 0x40000. -/

/-- The word of a handle's or count's leader: V1; the base pair G0, G1. -/
def atPlace (base : Word) (v1 : Word) : Machine := mach (Group.uniforms (pairOf 2 v1 6) [base, 0])

theorem witness_LoadReads :
    let i : Instr := .ld ⟨false, .d, .v 4, .v 1, 0, 2, false, 3⟩
    runs i (atPlace 0x2000 1) (fun w => w.accessOk [0] (w.addrs 0 3) 8 && !w.noRoom && w.quiet && w.g.helper == 0 &&
      allPlaced (w.places (w.addrs 0 3) 8 .read true).1 8) = true := by decide +kernel

theorem witness_StoreWrites :
    ([(.st ⟨false, .q, .v 4, .v 1, 0, 2, false, 4⟩, 16, [0], 4), (.st ⟨false, .b, .v 2, .v 1, 0, 2, false, 0⟩, 1, [0, 1], 0)] :
        List (Instr × Nat × List Nat × Nat)).all (fun (i, n, ks, sh) => runs i (atPlace 0x2000 1) (fun w =>
      w.accessOk ks (w.addrs 0 sh) n && !w.noRoom && allPlaced (w.places (w.addrs 0 sh) n .write false).1 n)) = true := by decide +kernel

theorem witness_ScratchpadAccess :
    runs (.lds ⟨false, .w, .v 4, .v 1, 0, 2, false, 2⟩) (atPlace 0x10 1) (fun w => !w.acquireParked && (w.memCheck [0]).isNone &&
      (w.alignTrap (w.addrs 0 2) 4).isNone && (w.spboundTrap (w.addrs 0 2) 4).isNone && w.quiet && w.g.helper == 0) = true ∧
    runs (.sts ⟨false, .h, .v 2, .v 1, 0, 2, false, 1⟩) (atPlace 0x10 1) (fun w => !w.acquireParked && (w.memCheck [0, 1]).isNone &&
      (w.alignTrap (w.addrs 0 1) 2).isNone && (w.spboundTrap (w.addrs 0 1) 2).isNone && w.quiet &&
      (w.spadLanes (w.addrs 0 1) 2 w.real).all fun e => (w.m.savedAt e.2.1 0).isNone) = true := by decide +kernel

theorem witness_OrderedAccesses :
    runs (.lda ⟨false, false, .v 4, .z, 0, 2, false, .device⟩) (atPlace 0x2000 0) (fun w =>
      w.accessOk [0] (w.addrs 0 0) 4 && !w.syncParked && !w.noRoom && w.quiet && w.g.helper == 0 &&
      allPlaced (w.places (w.addrs 0 0) 4 .read true).1 4 &&
      (placedLanes (w.places (w.addrs 0 0) 4 .read true).1).all fun e => (Map.get (w.m.core 0).l1 (e.2 / 64)).isNone) = true ∧
    runs (.stl ⟨false, true, .v 2, .z, 0, 2, false, .device⟩) (atPlace 0x2000 0) (fun w =>
      w.accessOk [0] (w.addrs 0 0) 8 && !w.dataParked && !w.noRoom && allPlaced (w.places (w.addrs 0 0) 8 .write false).1 8) = true ∧
    (∀ sn, sn < 0x10020000 / 64 → (atPlace 0x2000 0).unguarded sn) ∧ (∀ line, (atPlace 0x2000 0).directed line) ∧
    runs (.pref ⟨false, .msc, .z, 0, 2, 0⟩) (atPlace 0x2000 0) (fun w => (w.memCheck [0]).isNone) = true := by
  refine ⟨by decide +kernel, by decide +kernel, fun sn h => ?_, fun line d i x _ hx => ?_, by decide +kernel⟩
  · have hn : ¬ (0x10000000 + 0x20000) / 64 = sn := by omega
    simp [Machine.unguarded, Machine.logSector, atPlace, mach, Machine.loaded, loadedCtx, hn]
  · cases hx

theorem witness_LastUseAccesses :
    runs (.ld ⟨false, .w, .v 4, .z, 0, 2, true, 0⟩) (atPlace 0x2000 0) (fun w => w.accessOk [0] (w.addrs 0 0) 4 && !w.noRoom && w.quiet &&
      w.g.helper == 0 && allPlaced (w.places (w.addrs 0 0) 4 .read true).1 4) = true ∧
    runs (.st ⟨false, .w, .v 2, .z, 0, 2, true, 0⟩) (atPlace 0x2000 0) (fun w => w.accessOk [0] (w.addrs 0 0) 4 && !w.noRoom &&
      allPlaced (w.places (w.addrs 0 0) 4 .write false).1 4) = true := by decide +kernel

/-- Every sector of this machine is at home only: no die cache and no L1 holds one. -/
theorem witness_onlyHome (sn : Nat) : (atPlace 0x2000 0).onlyHome 0 sn := ⟨rfl, fun _ => rfl⟩

theorem witness_AtomicValues :
    runs (.atomCas ⟨false, .v 4, .z, 0, 2, false, .device⟩) (atPlace 0x2000 0) (fun w =>
      ((atomForm (.atomCas ⟨false, .v 4, .z, 0, 2, false, .device⟩)).any fun a => a.op.words == 1 && a.op.srcRun == 2) &&
      w.accessOk [0, 1, 2] (w.addrs 0 0) 4 && !w.syncParked && !w.noRoom && !w.dataParked && w.quiet && !w.is.dry &&
      allPlaced (w.places (w.addrs 0 0) 4 .atomic false).1 4 &&
      (placedLanes (w.places (w.addrs 0 0) 4 .atomic false).1).all fun e => (w.m.homeRun e.2 1).all fun t => t.good) = true := by
  decide +kernel

theorem witness_ScratchpadAtomics :
    runs (.atomsExch ⟨false, .v 4, .z, 0, 2, false, .block⟩) (atPlace 0x20 0) (fun w =>
      ((atomsForm (.atomsExch ⟨false, .v 4, .z, 0, 2, false, .block⟩)).any fun a => a.op.words == 1 && a.op.srcRun == 1) &&
      w.accessOk [0, 1] (w.addrs 0 0) 4 && !w.syncParked && (w.spboundTrap (w.addrs 0 0) 4).isNone && !w.dataParked && w.quiet && !w.is.dry &&
      (w.spadLanes (w.addrs 0 0) 4 w.real).all fun e => (w.m.savedAt e.2.1 0).isNone &&
        (w.m.spadRun e.2.1 e.2.2 1).all fun t => t.good) = true := by decide +kernel

/-- A layout record with the fields given, by word, and its check word. -/
def recordOf (l : List (Nat × Word)) : List Word :=
  let ws := l.foldl (fun ws e => ws.set e.1 e.2) (List.replicate 48 (0 : Word))
  ws.set 47 (0 - ws.foldl (· + ·) 0)

/-- 16 by 4 I32 elements at 0x30000, box 16 by 4, no handle. -/
def boxRecord : List Word := recordOf [(0, 0x30000), (2, 16), (3, 4), (4, 1), (5, 1), (6, 1), (7, 0x200001), (8, 64), (10, 256),
  (12, 256), (14, 256), (16, 0x40010), (17, 0x10001), (18, 0x10001), (25, 0xFFFFFFFF)]

/-- 8 by 8 F32 coefficients of depth 1 at 0x30000, survivor masks at 0x38000. -/
def haarRecord : List Word := recordOf [(0, 0x30000), (2, 8), (3, 8), (4, 1), (5, 1), (6, 1), (7, 0x200103), (8, 32), (10, 256),
  (12, 256), (14, 256), (16, 0x80008), (17, 0x10001), (18, 0x1010001), (22, 0x38000), (25, 0xFFFFFFFF)]

def withRecord (m : Machine) (ws : List Word) : Machine := m.setHomeData 0x40000 ws

theorem witness_records : layoutOk 0x40000 (boxRecord.map TWord.of) = true ∧ layoutOk 0x40000 (haarRecord.map TWord.of) = true ∧
    (layoutOf (haarRecord.map TWord.of)).haarOk = true := by decide +kernel

/-- The record that the pair G(2g) names is read and has a property. -/
def recordIs (w : W) (va : Nat) (P : List TWord → W → Bool) : Bool :=
  match w.readRecord va with
  | .ok (ws, v) => P ws v
  | .error _ => false

def someHandle (st : HState) : Handle := { state := st, lo := 0x30000, hi := 0x300FF, pri := 3, order := 0 }
def withHandle (m : Machine) (st : HState) : Machine := { m with ctxs := [(0, { loadedCtx with handles := [(1, someHandle st)] })] }

/-- HSET of a sound record and of a bad one; HDEM and HDROP of an ACTIVE handle and of none. -/
theorem witness_ResidencyHandles :
    runs (.hset ⟨false, .v 1, .z, 0, 2⟩) (withRecord (atPlace 0x40000 1) boxRecord) (fun w => (w.memCheck [1]).isNone &&
      w.leaderIndex 1 == some (false, 1) && recordIs w 0x40000 fun ws _ => layoutOk 0x40000 ws && (layoutOf ws).berth == 0) = true ∧
    runs (.hset ⟨false, .v 1, .z, 0, 2⟩) (atPlace 0x40000 1) (fun w => (w.memCheck [1]).isNone &&
      w.leaderIndex 1 == some (false, 1) && recordIs w 0x40000 fun ws _ => !layoutOk 0x40000 ws) = true ∧
    ([atPlace 0 1, withHandle (atPlace 0 1) .active, withHandle (atPlace 0 1) .demoted] : List Machine).all (fun m =>
      runs (.hdem ⟨false, .v 1⟩) m (fun w => (w.memCheck [0]).isNone && w.leaderIndex 0 == some (false, 1)) &&
      runs (.hdrop ⟨false, .v 1, false⟩) m (fun w => (w.memCheck [0]).isNone && w.leaderIndex 0 == some (false, 1))) = true ∧
    -- a number above 255
    runs (.hdem ⟨false, .v 1⟩) (atPlace 0 256) (fun w => (w.memCheck [0]).isNone && w.leaderIndex 0 == some (true, 0)) = true := by
  decide +kernel

def someShadow (st : ShState) : Shadow := { state := st, foot := [(0x30000, 256)], pages := [], waiter := none }
def withShadow (m : Machine) (st : ShState) : Machine := { m with ctxs := [(0, { loadedCtx with shadows := [(1, someShadow st)] })] }

/-- SHADOW of a sound record; PUBLISH and DISCARD of a handle in each state. -/
theorem witness_ShadowStates :
    runs (.shadow ⟨false, .v 1, .z, 0⟩) (withRecord (atPlace 0x40000 1) boxRecord) (fun w => (w.memCheck []).isNone && w.leader.isSome &&
      recordIs w 0x40000 fun _ _ => true) = true ∧
    ([.open_, .broken, .publishing, .draining] : List ShState).all (fun st =>
      runs (.publish ⟨false, .v 4, .v 1, .device⟩) (withShadow (atPlace 0 1) st) (fun w => (w.memCheck [0]).isNone &&
        w.shadowIndex == some (false, 1) && (w.m.writers 0 1).isEmpty && !w.dataParked) &&
      runs (.discard ⟨false, .v 4, .v 1⟩) (withShadow (atPlace 0 1) st) (fun w => (w.memCheck [0]).isNone &&
        w.shadowIndex == some (false, 1))) = true ∧
    -- a number above 63, and a handle that is FREE
    ([(64, (true, 0)), (5, (false, 5))] : List (Word × Bool × Nat)).all (fun (v, r) =>
      runs (.discard ⟨false, .v 4, .v 1⟩) (withShadow (atPlace 0 v) .open_) (fun w => (w.memCheck [0]).isNone &&
        w.shadowIndex == some r)) = true := by decide +kernel

def entryIs (w : W) (P : Entry → Bool) : Bool := (w.g.entry w.is.sid).any P

/-- A store of group 3 that a page fault parked. -/
def parkedStore : Parked :=
  { core := 0, group := 3, ctx := 0, va := 0x40000000, access := 1, ova := 0x40000000, lane := 0, words := [TWord.of 1], size := 4
    instr := some (.st ⟨false, .w, .v 2, .z, 0, 2, false, 0⟩), slots := [], pendingId := 0, count := 0, waiting := false, flight := false }

theorem witness_FencesAndWaits :
    runs (.fence ⟨false, .both, .device⟩) (atPlace 0 1) (fun w => !w.dataParked) = true ∧
    runs (.fence ⟨false, .rel, .die⟩) { atPlace 0 1 with parked := [(4, parkedStore)] } (fun w => w.dataParked &&
      entryIs w fun e => e.kind == .path) = true ∧
    runs (.lrflush ⟨false, .z, 0⟩) (atPlace 0x40000 1) (fun w => (w.memCheck []).isNone && w.leader.isSome && !w.dataParked) = true ∧
    ([0, 256] : List Word).all (fun n => runs (.mflush ⟨false, .v 1, .z, 0⟩) (atPlace 0x2000 n) (fun w => w.g.lighter.isNone &&
      (w.memCheck [1]).isNone && w.leader == some 0 && !w.dataParked && (match (w.m.translate 0 0 0x2000 .read).1 with
        | .ok pa _ => pa == 0x2000
        | _ => false))) = true ∧
    ([.eq, .ne] : List VCond).all (fun c => runs (.waitv ⟨false, .v 1, .z, 0, c⟩) (atPlace 0x2000 1) (fun w => w.g.lighter.isNone &&
      (w.memCheck [1]).isNone && !w.acquireParked && !w.syncParked && !w.dataParkedAt (w.uaddr 0) && w.leader == some 0 &&
      (match (w.m.place 0 0 0x2000 4 .read w.g.source).1 with
        | .pa pa _ => (Map.get (w.m.core 0).l1 (pa / 64)).isNone && !(w.m.seenWord 0 pa).poisoned
        | _ => false) && entryIs w fun e => e.kind == .path)) = true := by decide +kernel

/-- A range of MFLUSH over two pages. -/
theorem witness_FencesAndWaits_ranges :
    rangeStarts 0x2FF80 0x100 = [0x2FF80, 0x30000] ∧ [0x2FF80] ++ [0x30000] <+: rangeStarts 0x2FF80 0x100 ∧
    runs (.mflush ⟨false, .v 1, .z, 0⟩) (atPlace 0x2FF80 0x100) (fun w => w.dat 1 0 == 0x100 && w.uaddr 0 == 0x2FF80 &&
      (match w.m.place 0 0 0x2FF80 1 .read w.g.source with
        | (p, v) => p.homePa == some 0x2FF80 && (v.place 0 0 0x30000 1 .read w.g.source).1.homePa == some 0x30000)) = true := by
  decide +kernel

/-! Barriers and batches -/

/-- The barrier named by G4, G5 is at offset 0x40 of the block and sound. -/
def atBar (w : W) (ks : List Nat) : Bool :=
  w.leader == some 0 && (w.memCheck ks).isNone && w.uaddr 2 % 16 == 0 && w.m.spadAt w.g.block (w.uaddr 2) 16 == some (2, 0x40) &&
    ((w.m.barAt 2 0x40).all fun t => t.good) && (w.m.savedAt 2 0).isNone

def barIs (w : W) (P : Bar → Bool) : Bool := P (barOf (w.m.barAt 2 0x40))

/-- A BARRIVE while an STL of its group is parked. -/
theorem witness_BarrierOperations_held :
    let stl : Parked := { parkedStore with instr := some (.stl ⟨false, false, .v 2, .z, 0, 2, false, .device⟩) }
    runs (.barrive ⟨false, .v 3, .z, 2, .block⟩) { barMach [0x110, 0, 2, 0] 0 0 with parked := [(4, stl)] } (fun w =>
      !w.acquireParked && w.syncParked && w.leader == some 0 && w.g.lighter.isNone) = true := by decide +kernel

/-- BINIT on a free and on a busy barrier; the others on an OPEN and on a barrier that is not OPEN. -/
theorem witness_BarrierOperations :
    ([.binit ⟨false, .v 2, .z, 2⟩, .binitForce ⟨false, .v 2, .z, 2⟩, .bexpect ⟨false, .v 2, .z, 2⟩] : List Instr).all (fun i =>
      runs i (barMach [0, 0, 0, 0] 2 0) (fun w => atBar w [1] && (w.dat 1 0).toNat == 2 && barIs w fun b => !b.valid) &&
      runs i (barMach [0x110, 8, 2, 0] 2 0) (fun w => atBar w [1] && barIs w fun b => b.valid && b.busy)) = true ∧
    ([[0x110, 0, 2, 0], [0x010, 0, 2, 0], [0, 0, 0, 0]] : List (List Word)).all (fun ws =>
      runs (.barrive ⟨false, .v 3, .z, 2, .block⟩) (barMach ws 0 0) (fun w => atBar w [] && !w.syncParked && !w.dataParked && w.quiet)) = true ∧
    ([[0x110, 0, 2, 0], [0x111, 0, 2, 0], [0, 0, 0, 0]] : List (List Word)).all (fun ws =>
      runs (.bwait ⟨false, .v 3, .z, 2, .block⟩) (barMach ws 0 0) (fun w => atBar w [1] && w.g.lighter.isNone && !w.wasInvalidated &&
        entryIs w fun e => e.kind == .path) &&
      runs (.btry ⟨false, .v 3, .z, 2, .block⟩) (barMach ws 0 0) (fun w => atBar w [1] && w.quiet) &&
      runs (.binval ⟨false, .z, 2⟩) (barMach ws 0 0) (fun w => atBar w [])) = true := by decide +kernel

def batchOf (n : Nat) : Batch := { num := n, ev := false, all := [], left := [] }

/-- BATCH with room and with eight open; WAITB that waits and that does not. -/
theorem witness_Batches :
    runs (.batch ⟨false, .v 3, true⟩) (mach (pairOf 1 0 0)) (fun w => decide (w.g.open_.length < 8) && w.quiet) = true ∧
    runs (.batch ⟨false, .v 3, true⟩) (mach { pairOf 1 0 0 with open_ := List.replicate 8 (batchOf 1) }) (fun w =>
      decide (8 ≤ w.g.open_.length)) = true ∧
    ([(1, true), (0, false)] : List (Word × Bool)).all (fun (n, b) =>
      runs (.waitb ⟨false, .op (.v 1), true⟩) (mach { pairOf 1 n 0 with open_ := [batchOf 1] }) (fun w => w.g.lighter.isNone &&
        w.untyped.isNone && (w.checkSrcs [0]).isNone && w.leader == some 0 && w.g.waitsFor n.toNat == b &&
        (w.m.unpackPending 3 w.g n.toNat).isNone && entryIs w fun e => e.kind == .path)) = true := by decide +kernel

/-! Control flow: a line whose packets 0 and 1 start and may be entered. -/

def twoPackets : List Word := [0x9, 0x3] ++ List.replicate 30 0

/-- The spill area of the word's group lies in memory. -/
def roomToSpill (w : W) : Bool := w.ctx.any fun c => !noMemory (spillAddr c w.g.image 256) 64

def withLine (g : Group) : Machine :=
  { mach g with cores := [(0, { Core.empty with icache := [(0, loadedPc / 128, twoPackets)] })] }

def path (sid : Nat) (mask : Mask) : Entry := { firstEntry loadedPc 8 with sid := sid, mask := mask }
def frame (sid : Nat) (k : EKind) (mask : Mask) : Entry := { firstEntry (loadedPc + 12) 8 with sid := sid, kind := k, mask := mask, out := mask }
def stacked (l : List Entry) : Group := { pairOf 2 1 0 with stack := l, nextSid := 9, p := List.replicate 7 0x0F }

def strandOk (w : W) : Bool := entryIs w fun e => e.kind == .path && e.mask == w.mask

/-- Every lane that a branch sends somewhere goes to packet 1 of the line. -/
def goesNext (w : W) (i : Instr) : Bool :=
  (lanesOf w.mask).all fun l => match w.laneTarget i l with
    | none => true
    | some t => t == some (loadedPc + 12)

theorem witness_Branches :
    ([.bra ⟨false, .near 1⟩, .brc ⟨false, 1, false, .far 1, 2⟩, .brv ⟨false, 1, true, true, .v 1, 0⟩,
        .brm ⟨[⟨1, false, 1⟩, ⟨2, true, 1⟩], 2⟩] : List Instr).all (fun i =>
      runs i (withLine (stacked [path 0 0xFF])) (fun w => strandOk w && w.mask != 0 && w.untyped.isNone && (w.checkSrcs [0]).isNone &&
        decide (w.g.stack.length + w.ways i ≤ w.g.stackLimit) && roomToSpill w &&
        (joinOf i == 0 || (packetAt (packetIndex w.addr) (joinOf i)).isSome) && goesNext w i)) = true ∧
    ((withLine (stacked [path 0 0xFF])).core 0).icache.find? (fun e => e.1 == 0 && e.2.1 == (loadedPc + 12) / 128) =
      some (0, (loadedPc + 12) / 128, twoPackets) ∧ targetOk twoPackets (loadedPc + 12) = true := by decide +kernel

/-- CALL; RET over a CALL frame with one JOIN between; JOUT of that JOIN; EVRET above an EVENT. -/
theorem witness_CallsAndReturns :
    runs (.call ⟨false, .near 1⟩) (withLine (stacked [path 0 0xFF])) (fun w => strandOk w && w.g.lighter.isNone &&
      decide (w.g.stack.length < w.g.stackLimit) && roomToSpill w && packetAt (packetIndex w.addr) 1 == some (loadedPc + 12)) = true ∧
    runs (.ret ⟨false⟩) (withLine (stacked [path 0 0xFF, frame 1 .join 0xFF, frame 2 .call 0xFF])) (fun w => strandOk w &&
      decide (w.g.stack.length ≤ 16) && w.g.callFrame 0 w.mask == some ([1], 2)) = true ∧
    runs (.jout ⟨false, 1⟩) (withLine (stacked [path 0 0xFF, frame 1 .join 0xFF])) (fun w => strandOk w &&
      decide (w.g.stack.length ≤ 16) && ((w.g.frames 0 w.mask).take 1).length == 1 &&
      ((w.g.frames 0 w.mask).take 1).all fun x => x.kind == .join) = true ∧
    runs (.evret ⟨false⟩) (withLine (stacked [path 0 0xFF, frame 1 .event 0xFF, path 2 0xFF])) (fun w => w.g.lighter.isNone &&
      (match w.g.stack with
        | top :: ev :: _ => top.sid == 0 && top.kind != .event && ev.kind == .event && top.mask == ev.mask && ev.sid != top.sid
        | _ => false) && decide (w.g.stack.length ≤ 16)) = true := by decide +kernel

/-- EXIT of every lane and of half of them. -/
theorem witness_StrandControl :
    runs (.yield ⟨false⟩) (mach (pairOf 1 0 0)) (fun _ => true) = true ∧
    ([.nap ⟨false, true, .k 100⟩, .evon ⟨false, true, .k 63⟩, .tail ⟨false⟩] : List Instr).all (fun i =>
      runs i (mach (pairOf 1 0 0)) (fun w => w.g.lighter.isNone && (w.checkSrcs [0]).isNone && strandOk w &&
        decide ((w.m.core w.g.core).tracker.length < 256))) = true ∧
    runs (.exit ⟨false⟩) (mach (pairOf 1 0 0)) (fun w => w.g.lighter.isNone && decide (w.g.stack.length ≤ 16) &&
      w.g.stack.all fun x => (x.mask &&& ~~~ (exitLanes w.g w.real).2) &&& ~~~ (exitLanes w.g w.real).1 == 0) = true ∧
    runs (.exit ⟨false⟩) (mach (stacked [path 0 0xFF, path 1 0xFF00])) (fun w => decide (w.g.stack.length ≤ 16) &&
      w.g.stack.any fun x => (x.mask &&& ~~~ (exitLanes w.g w.real).2) &&& ~~~ (exitLanes w.g w.real).1 != 0) = true := by
  decide +kernel


/-! Haar and matrix -/

/-- V8 to V15 are F32 of depth 0; the record is at G0, coordinates 0 in G4 to G7. -/
def haarGroup : Group := Group.uniforms (withRegs ((List.range 8).map fun k => (8 + k, regOf 3 0x40800000))) [0x40000, 0, 0, 0, 0, 0, 0, 0]

def haarMach : Machine := withRecord (mach haarGroup) haarRecord

def stripOk (w : W) (ws : List TWord) : Bool :=
  let r := layoutOf ws
  let idx := coordsOf fun i => w.gWord (4 + i)
  layoutOk 0x40000 ws && r.haarOk && decide (r.segLen ≤ w.g.width) && (stripAlign r idx (r.strip w.g.width idx)).isNone

/-- The operand of a Haar register instruction is ready, at depth d. -/
def transforms (w : W) (d : Nat) : Bool :=
  decide (2 ^ d ≤ w.g.width) && w.fullMask && w.brim && (w.tag 0).all (fun t => [0, 1, 3].contains (fmtOfTag t)) &&
    ((w.src 0).all fun t => t.good) && w.quiet

theorem witness_HaarInstructions_registers :
    runs (.hfwd ⟨false, .v 2, .v 1, true, 3⟩) (mach haarIn) (fun w => transforms w 3 && w.srcDom 0 == 0) = true ∧
    runs (.hrec ⟨false, .v 4, .v 3, true⟩) (mach haarIn) (fun w => w.srcDom 0 == 3 && transforms w 3) = true ∧
    ([0, 1] : List (Fin 4)).all (fun k => runs (.hthr ⟨false, .v 3, .v 2, true, k⟩) (mach haarIn) (fun w => w.srcDom 0 == 3 &&
      transforms w 3 && (w.src 0).length == w.g.width && w.g.width % 8 == 0 && w.g.ht.all fun t => t.good)) = true ∧
    runs (.hbias ⟨false, .v 2, .op (.k 0x3F800000), true⟩) (mach haarIn) (fun w => w.tag 0 == some 0x33 && w.untyped.isNone &&
      (w.checkFmt [1] (fun _ x => x == 0 || x == 3)).isNone && (w.zeroDom [1]).isNone && w.sound [0, 1] && w.quiet) = true := by
  decide +kernel

theorem witness_HaarInstructions_store :
    runs (.hst ⟨false, 8, 0, 1, false⟩) haarMach (fun w => !w.acquireParked && !w.noRoom && !w.is.dry && w.needFull.isNone && (w.checkUni w.u.us).isNone &&
      w.quiet && (w.haarCheck (List.range 8) (bandRegs 1 0)).isNone && (List.range 8).all (fun k => (w.tag k).getD 0 == 3) &&
      recordIs w 0x40000 fun ws v =>
        let r := layoutOf ws
        let segs := r.strip w.g.width (coordsOf fun i => w.gWord (4 + i))
        let out := ((segs.filter (w.segReal r)).map (storeSegment r w.g w.real false true ((List.range 8).map w.src))).flatMap (·.1)
        stripOk w ws && !out.isEmpty && allPlaced (v.wordPlaces (out.map (·.1)) .write).1 4) = true := by decide +kernel

theorem witness_HaarInstructions_load :
    ([(.hld ⟨false, 8, 0, 1⟩, false), (.hldx ⟨false, 8, 0, 1⟩, true)] : List (Instr × Bool)).all (fun (i, inv) =>
      runs i haarMach (fun w => !w.acquireParked && !w.noRoom && w.needFull.isNone && (w.checkUni w.u.us).isNone && w.quiet &&
        recordIs w 0x40000 fun ws v =>
          let r := layoutOf ws
          let segs := r.strip w.g.width (coordsOf fun i => w.gWord (4 + i))
          stripOk w ws && (placesProt ((segs.filter (w.segReal r)).flatMap (v.m.segPlaces (v.acc r.mscPri false none) w.gk w.g.source r))).isNone &&
          ((v.loadSegments (v.acc r.mscPri false none) r inv segs).1.all fun e => match e.2 with
            | .ok _ _ _ => true
            | _ => false))) = true := by decide +kernel

/-- A block with 64 KiB of scratchpad whose core's engine holds I8 columns in slot 0; an A descriptor in G12 to G15, one row. -/
def matMach : Machine :=
  { mach (Group.uniforms (pairOf 1 0xBB 0) ([0x100, 0x200] ++ List.replicate 10 0 ++ [0x8000, 0x80, 0, 0x400])) with
    blocks := [(2, { loadedBlock with scratch := 0x10000 })]
    cores := [(0, { Core.empty with claim := some 2, bslots := [(0, { words := [], tag := 0x0B })] })] }

/-- The engine is ready and the word's group and uniform operands pass their checks. -/
def engineFor (w : W) : Bool := w.engineReady && w.g.lighter.isNone && w.fullMask && w.uniSound && !w.acquireParked

/-- Rows of an A operand that are aligned and inside the scratchpad. -/
def rowsIn (w : W) (d : ADesc) (n : Nat) : Bool :=
  d.stride % 16 == 0 && d.aoff % 16 == 0 && d.soff % 16 == 0 && decide (d.aoff + d.stride * (n - 1) + 128 ≤ w.scratch)

theorem witness_MatrixInstructions :
    ([.mcfg ⟨false, .k 0xBB⟩, .mzero ⟨false, 3⟩] : List Instr).all (fun i => runs i matMach (fun w => engineFor w &&
      (i == .mzero ⟨false, 3⟩ || mcOk (w.dat 0 0)))) = true ∧
    runs (.mloadb ⟨false, 2, .q4, 0⟩) matMach (fun w => engineFor w && w.gWord 0 % 16 == 0 &&
      decide (w.gWord 0 + 16384 ≤ w.scratch) && w.gWord 1 % 16 == 0 && decide (w.gWord 1 + 2048 ≤ w.scratch)) = true ∧
    runs (.mma ⟨false, 0, 0, 3, false⟩) matMach (fun w =>
      let d := w.aDesc 12
      let a := (Map.getD w.tagView.bslots 0 { words := [], tag := 0 }).tag
      engineFor w && !matFields w.g.matcfg false 0 && d.reserved == 0 && decide (128 ≤ d.stride) && decide (d.row0 + d.m ≤ 32) &&
      fmtOfTag a == mcB w.g.matcfg && domOfTag a == 0 && (tileAt w.tagView 0).tag == 0 && d.hd == 0 && rowsIn w d 1) = true ∧
    runs (.mmag ⟨false, 0, 3, false⟩) matMach (fun w =>
      let d := w.aDesc 12
      let es := (w.spad d.bmoff 1).map gEntry
      engineFor w && !matFields w.g.matcfg false 0 && d.reserved == 0 && d.m == 1 && d.row0 == 0 && d.hd == 0 &&
      decide (128 ≤ d.stride) && d.bmoff % 4 == 0 && decide (d.bmoff + 4 ≤ w.scratch) && ((w.spad d.bmoff 1).all fun t => t.good) && !(es.any fun e => e.bad false) &&
      (tableTraps w.g.matcfg w.tagView es).isNone && rowsIn w d (es.map (·.rows)).sum) = true ∧
    runs (.mread ⟨false, 0, 8, 31, false⟩) matMach (fun w => engineFor w && decide (8 + 16 ≤ w.g.nregs) && w.quiet &&
      ((List.range 128).all fun n => ((tileAt w.tileView 0).word 31 n).good)) = true := by decide +kernel

/-! Engine commands, grids, the system -/

def someBerth (st : BState) : Berth :=
  { base := 0x80000, size := 0x10000, owner := 0, import_ := false, shadowed := false, perm := 7, state := st, ctx := 0, peers := 0
    gen := 1, path := 0, rid := 0, rkey := 0, retired := false, revoke := none, shadow := none, used := [] }

/-- Four rows of 64 words, a burst each. -/
def burstRecord : List Word := recordOf [(0, 0x30000), (2, 64), (3, 4), (4, 1), (5, 1), (6, 1), (7, 0x200001), (8, 256), (10, 1024),
  (12, 1024), (14, 1024), (16, 0x40040), (17, 0x10001), (18, 0x10001), (25, 0xFFFFFFFF)]

/-- A machine with an open queue of four entries; `used` of them are taken. -/
def withQueue (m : Machine) (q used : Nat) : Machine :=
  m.setHomeData (descAddr loadedCtx q) ((descWords { queue := q, base := 0x350000, size := 4, prio := 0, net := false, ordered := false }).set 6
    (BitVec.ofNat 32 used))

def commanded (w : W) (i : Instr) (fits : Bool) : Bool :=
  !w.dataParked && w.ctx.any fun c => (w.commandOf c i).any fun r => match r with
    | .ok (v, x) => ((v.release .device).m.appendEntries c x.q [x.entry]).isSome == fits
    | .error _ => false

/-- TCOPY with and without a free entry, TSTORE, XCOPY, QTLOAD. -/
theorem witness_EngineCommands :
    let g := Group.uniforms (pairOf 1 5 6) [0x40000, 0]
    ([(0, true), (4, false)] : List (Nat × Bool)).all (fun (n, b) =>
      runs (.tcopy ⟨false, 0, 2, 0, 2, true⟩) (withQueue (withRecord (mach g) boxRecord) 16 n) (fun w =>
        commanded w (.tcopy ⟨false, 0, 2, 0, 2, true⟩) b)) = true ∧
    runs (.tstore ⟨false, 0, 2, 0, 2, true⟩) (withQueue (withRecord (mach g) boxRecord) 16 0) (fun w =>
      commanded w (.tstore ⟨false, 0, 2, 0, 2, true⟩) true) = true ∧
    runs (.xcopy ⟨false, 4, 1, 4⟩) (withQueue (mach g) 16 0) (fun w => commanded w (.xcopy ⟨false, 4, 1, 4⟩) true) = true ∧
    runs (.qtload ⟨false, 0, 6, 1, 3⟩) (withQueue (mach (Group.uniforms (pairOf 1 5 6) [0x40000, 0, 0, 0, 0, 0, 16])) (quayQ 3) 0) (fun w =>
      commanded w (.qtload ⟨false, 0, 6, 1, 3⟩) true) = true := by decide +kernel

/-- The group is whole, the uniform operands sound, no store parked, and the queue OPEN. -/
def canIssue (w : W) (q : Nat) : Bool :=
  w.fullMask && w.uniSound && !w.dataParked && w.ctx.any fun c => (w.m0.queueDesc c q).open_

def placeOfBarrier (w : W) (q : Nat) : Bool := q % 16 == 0 && (w.m0.spadAt w.g.block q 16).isSome

/-- A word on the machine, its queue with 0 and with 4 entries taken. -/
def issuing (i : Instr) (m : Machine) (q : Nat) (P : W → Bool) : Bool :=
  ([(0, true), (4, false)] : List (Nat × Bool)).all fun (n, b) => runs i (withQueue m q n) fun w => canIssue w q && commanded w i b && P w

/-- The conditions of a copy on its record and its operands. -/
def boxFits (w : W) (f : TcopyF) : Bool :=
  recordIs w (w.pair f.gr.val) fun ws v =>
    let r := layoutOf ws
    let org := coordsOf fun i => w.gWord (4 * f.gc.val + i)
    let hi := w.gWord (2 * f.gs.val + 1)
    layoutOk (w.pair f.gr.val) ws && v.berthOk r && r.box.getD 0 1 * r.elembits % 32 == 0 && r.comp == 0 && r.rowsAligned org 4 &&
      w.gWord (2 * f.gs.val) % 64 == 0 && hi == 0 && r.hlevels == 0 &&
      (w.m0.spadAt w.g.block (w.gWord (2 * f.gs.val)) (max 1 (ceilDiv r.imageSize 64) * 64)).isSome &&
      (f.nb || placeOfBarrier w (w.pair f.gq.val))

/-- Copies with a barrier at offset 0 and without one. -/
theorem witness_EngineCommands_copies :
    let g := Group.uniforms (pairOf 1 5 6) [0x40000, 0]
    ([⟨false, 0, 2, 0, 2, true⟩, ⟨false, 0, 2, 4, 2, false⟩] : List TcopyF).all (fun f =>
      issuing (.tcopy f) (withRecord (mach g) boxRecord) 16 (fun w => w.g.copyQueue == 0 && boxFits w f) &&
      issuing (.tstore f) (withRecord (mach g) boxRecord) 16 (fun w => boxFits w f)) = true ∧
    issuing (.xcopy ⟨false, 4, 8, 2⟩) (mach (Group.uniforms (withRegs ((List.range 4).map fun k => (8 + k, regOf 2 7))) [0, 0, 0, 0, 0x2000]))
      16 (fun w =>
        let t := w.gWord 2
        let n := 2 ^ bits t 13 12
        w.g.lighter.isNone && (List.range n).all (fun i => (w.g.reg (8 + i)).empty == 0 &&
          (lanesOf w.real).all fun l => (wordAt (w.g.reg (8 + i)).lanes l).good) && ((lanesOf w.real).all fun l => (w.srcAt 0 l).good) &&
        decide (t < 2 ^ 14) && 8 % n == 0 && 4 % n == 0 && decide (8 + n ≤ w.g.nregs) && decide (t % 2 ^ 12 < w.groupCount)) = true := by
  decide +kernel

/-- A descriptor of a quay command at 0x60000 and its records. -/
def withDesc (ws : List (Nat × Word)) (recs : List (Nat × List Word)) : Machine :=
  recs.foldl (fun m e => m.setHomeData e.1 e.2) ((mach (Group.uniforms (pairOf 1 5 6) [0x60000, 0])).setHomeData 0x60000
    (ws.foldl (fun l e => l.set e.1 e.2) (List.replicate 16 0)))

/-- One row of 4 I32 elements, 16 by 4 F32 elements, 64 bytes. -/
def rowRecord : List Word := recordOf [(0, 0x30000), (2, 4), (3, 1), (4, 1), (5, 1), (6, 1), (7, 0x200001), (8, 64), (10, 64), (12, 64),
  (14, 64), (16, 0x10004), (17, 0x10001), (18, 0x10001), (25, 0xFFFFFFFF)]
def floatRecord : List Word := recordOf [(0, 0x38000), (2, 16), (3, 4), (4, 1), (5, 1), (6, 1), (7, 0x200003), (8, 64), (10, 256),
  (12, 256), (14, 256), (16, 0x40010), (17, 0x10001), (18, 0x10001), (25, 0xFFFFFFFF)]
def byteRecord : List Word := recordOf [(0, 0x30000), (2, 64), (3, 1), (4, 1), (5, 1), (6, 1), (7, 0x8000C), (8, 64), (10, 64), (12, 64),
  (14, 64), (16, 0x10040), (17, 0x10001), (18, 0x10001), (25, 0xFFFFFFFF)]

def quayIssues (i : QuayF → Instr) (kind : CmdKind) (ws : List (Nat × Word)) (recs : List (Nat × List Word)) : Bool :=
  issuing (i ⟨false, 0, 1, false, 2⟩) (withDesc ws recs) (quayQ 2) fun w => w.pair 0 % 64 == 0 &&
    match (w.release .device).readWords (w.pair 0) 16 with
    | .ok (ws, v) => match v.readAll (namedRecords ws) with
      | .ok (rs, _) => quayDescOk kind ws && quayRecsOk kind (quayDesc ws) ((quayDesc ws).present.zip rs)
      | .error _ => false
    | .error _ => false

theorem witness_EngineCommands_gather :
    quayIssues .qgath .qgath [(0, 0x40000), (2, 0x40000), (4, 0x41000)] [(0x40000, boxRecord), (0x41000, rowRecord)] = true := by
  decide +kernel
theorem witness_EngineCommands_reduce : quayIssues .qred .qred [(0, 0x40000), (2, 0x40000)] [(0x40000, boxRecord)] = true := by
  decide +kernel
theorem witness_EngineCommands_convert :
    quayIssues .qcvt .qcvt [(0, 0x42000), (2, 0x40000)] [(0x40000, boxRecord), (0x42000, floatRecord)] = true := by decide +kernel
theorem witness_EngineCommands_unpack :
    quayIssues .qunpk .qunpk [(0, 0x43000), (2, 0x43000), (10, 0x10000)] [(0x43000, byteRecord)] = true := by decide +kernel

theorem witness_EngineCommands_tables :
    ([16, 32] : List Word).all (fun n => issuing (.qtload ⟨false, 0, 6, 1, 3⟩)
      (mach (Group.uniforms (pairOf 1 5 6) [0x40000, 0, 0, 0, 0, 0, n])) (quayQ 3) fun w => w.pair 0 % 4 == 0 && w.gWord 6 % 16 == 0 &&
        (match (w.release .device).readWords (w.pair 0) (w.gWord 6) with
          | .ok _ => true
          | .error _ => false)) = true := by decide +kernel

/-- An import berth 3; the local address 0x40000, the remote offset 0x40, 4 and 2^30 bytes. -/
def linked (n : Word) : Machine :=
  { mach (Group.uniforms (pairOf 1 5 6) [0x40000, 0, 0x40, 0x300000, n]) with berths := [(3, { someBerth .opened with import_ := true })] }

theorem witness_EngineCommands_links :
    ([4, 0x40000000] : List Word).all (fun n =>
      ([.nput ⟨false, 0, 1, 4, 1, true⟩, .nget ⟨false, 0, 1, 4, 1⟩] : List Instr).all fun i => issuing i (linked n) (linkQ 1) fun w =>
        w.importBerth (w.remoteBerth 1) && w.gWord 4 % 4 == 0 && w.pair 0 % 4 == 0 && w.remoteOff 1 % 4 == 0) = true ∧
    issuing (.natom ⟨false, 0, 1, 2, .add, 1⟩) (linked 0) (linkQ 1) (fun w => w.importBerth (w.remoteBerth 1) && w.pair 0 % 16 == 0 &&
      w.remoteOff 1 % 8 == 0) = true := by decide +kernel

/-- A grid with LIGHT, whose code header names a handler of lighters at 0x400. -/
def handlerMach : Machine :=
  let m := mach (Group.uniforms (pairOf 1 0 0) [0x40000, 0, 0, 0, 0x400, 0])
  { withRecord m burstRecord with
    grids := [(1, { loadedGrid with
      record := loadedRecord.set 11 (TWord.of 1)
      header := ((List.replicate 32 (0 : Word)).set 7 1 |>.set 8 1 |>.set 9 0x400).map TWord.of })] }

theorem witness_EngineCommands_reads : issuing (.hread ⟨false, 0, 2, 2, 3, false⟩) handlerMach 16 (fun w =>
    w.g.lighter.isNone && (Map.get w.m0.grids w.g.grid).any (fun gr => recLight gr.record == 1) &&
    recordIs w (w.pair 0) fun ws v =>
      let r := layoutOf ws
      layoutOk (w.pair 0) ws && r.hlevels == 0 && r.berth == 0 && r.box.getD 0 1 * r.elembits % 2048 == 0 && decide (r.bursts ≤ 2 ^ 24) &&
        w.handlerOk 1 (w.gWord 4) && r.rowsAligned (coordsOf fun i => w.gWord (8 + i)) 256 &&
        decide ((v.m.core w.g.core).hreads.length < openReads)) = true := by decide +kernel

/-- A grid with a completion bitmap at 0x50000. -/
def withBitmap (m : Machine) : Machine :=
  { m with grids := [(1, { loadedGrid with record := loadedGrid.record.set 14 (TWord.of 0x50000) })] }

/-- CDONE with and without a bitmap; CWAIT whose grid failed, whose blocks are done, and that waits. -/
theorem witness_GridInstructions_done :
    ([mach (pairOf 1 0 0), withBitmap (mach (pairOf 1 0 0))] : List Machine).all (fun m =>
      runs (.cdone ⟨false⟩) m (fun w => !w.dataParked && (Map.get w.m0.grids w.g.grid).isSome && w.block.isSome)) = true ∧
    recDoneMap loadedGrid.record = 0 ∧ recDoneMap (loadedGrid.record.set 14 (TWord.of 0x50000)) = 0x50000 ∧
    ([([3, 0, 0], true), ([0, 0, 1], true), ([0, 0, 0], false)] : List (List Word × Bool)).all (fun (ws, b) =>
      runs (.cwait ⟨false, 1, .v 1, 0⟩) ((mach (Group.uniforms (pairOf 2 0 0) [0x50000, 0])).setHomeData 0x50000 ws) (fun w =>
        w.g.lighter.isNone && !w.acquireParked && !w.syncParked && w.quiet && (w.memCheck [0]).isNone && w.pair 0 % 65536 == 0 && strandOk w &&
        !w.dataParkedAt 0x50000 && ((lanesOf w.real).all fun l => !w.dataParkedAt (doneWord 0x50000 (w.dat 0 l).toNat).1) &&
        (w.readsTrap (lanesOf w.real) w.noBerthAt (fun l => (doneWord 0x50000 (w.dat 0 l).toNat).1)).isNone &&
        (match w.bitmapWord 0x50000 with
          | .ok h m => match ({ w with m := m } : W).bitmapLanes 0x50000 (fun l => (w.dat 0 l).toNat) (lanesOf w.real) with
            | .ok (bs, _) => (h.data.toNat % 256 == 3 || bs.all (·.2)) == b
            | .error _ => false
          | _ => false))) = true := by decide +kernel

/-- LAUNCH by lanes and by the leader, ENQ.L, ENQ.Q, with room; ENQ.Q without. -/
theorem witness_GridInstructions_append :
    let lanes := withQueue (mach (Group.uniforms (withRegs [(4, regOf 2 0x60000), (5, regOf 2 0)]) [0x60000, 0])) 2 0
    let quay := fun n => withQueue (mach (Group.uniforms (pairOf 1 0 0) [0x60000, 0])) (quayQ 2) n
    runs (.launch ⟨false, 1, 2, .inl 2, true⟩) lanes (fun w => w.g.lighter.isNone && !w.acquireParked && !w.dataParked && w.quiet &&
      w.untyped.isNone && (w.checkSrcs [0, 1]).isNone && w.ctx.any (fun c => (w.m0.queueDesc c 2).open_) &&
      (w.readsTrap (lanesOf w.real) (fun _ p => p) (fun l => nat64 (w.dat 0 l) (w.dat 1 l))).isNone &&
      (match (w.release .device).readRecords ((lanesOf w.real).map fun l => nat64 (w.dat 0 l) (w.dat 1 l)) with
        | .ok (rs, v) => rs.length == 8 && w.ctx.any fun c => (v.m.queueDesc c 2).free c 2 == 4
        | .error _ => false)) = true ∧
    runs (.launch ⟨false, 1, 2, .inr 0, false⟩) lanes (fun w => !w.acquireParked && !w.dataParked && w.untyped.isNone &&
      w.needFull.isNone && (w.checkUni w.u.us).isNone && (match (w.release .device).readRecords [w.pair 0] with
        | .ok _ => true
        | .error _ => false)) = true ∧
    runs (.enqL ⟨false, 1, 2, 0, 1⟩) lanes (fun w => !w.acquireParked && !w.dataParked && w.quiet && w.needFull.isNone &&
      ((List.range 2).all fun i => (w.m0.place 0 0 (0x60000 + 64 * i) 4 .read w.g.source).1.protOf.isNone) &&
      (w.checkUni w.u.us).isNone && w.pair 0 % 64 == 0 && w.ctx.any (fun c => (w.m0.queueDesc c 2).open_) &&
      (match (w.release .device).readRecords [0x60000, 0x60040] with
        | .ok _ => true
        | .error _ => false)) = true ∧
    ([(0, true), (4, false)] : List (Nat × Bool)).all (fun (n, b) => runs (.enqQ ⟨false, 1, 2, 0, 0⟩) (quay n) (fun w =>
      w.ctx.any (fun c => (w.m0.queueDesc c (quayQ 2)).open_) && (w.checkUni w.u.us).isNone &&
      (match (w.release .device).readRecords [0x60000] with
        | .ok (rs, v) => w.ctx.any fun c => (v.m.appendEntries c (quayQ 2) (rs.map (enqEntry w.g.gid w.g.batch))).isSome == b
        | .error _ => false))) = true := by decide +kernel

/-- A second group, trapped with the frame of image 0, whose frame is taken. -/
def withTrapped (g : Group) : Machine :=
  let f := groupFrame loadedCtx 0
  ({ mach g with groups := [(3, { g with image := 1 }), (5, { loadedGroup with status := .trapped f })] } : Machine).setHomeData (f + 4) [0x1000000]

theorem witness_SystemInstructions :
    runs (.savept ⟨false, 56⟩) (mach (pairOf 1 0 0)) (fun w => w.g.lighter.isNone && decide (56 ≤ w.g.nregs) &&
      !((w.ctx.map (·.preq)).getD false)) = true ∧
    runs (.savept ⟨false, 56⟩) { mach (pairOf 1 0 0) with ctxs := [(0, { loadedCtx with preq := true })] } (fun w =>
      (w.ctx.map (·.preq)).getD false && w.mask == w.g.present && strandOk w) = true ∧
    ([.rettResume ⟨false, 0, 1⟩, .rettSkip ⟨false, 0, 1⟩, .rettEnd ⟨false, 0, 1⟩, .rettFault ⟨false, 0, 1⟩] : List Instr).all (fun i =>
      ([.running, .yielding] : List CtxState).all (fun st =>
        runs i { withTrapped (Group.uniforms (pairOf 1 0 0) [0x10040000, 0]) with ctxs := [(0, { loadedCtx with state := st })] } fun w =>
        w.g.lighter.isNone && (w.checkUni w.u.us).isNone && w.quiet && strandOk w &&
        w.leader.isSome && !w.dataParked && w.pair 0 % 65536 == 0 && (w.m0.frameCtx 0 0x10040000).map (·.1) == some 0 &&
        (((w.release .device).acquire .device).m.frameCtx 0 0x10040000).map (·.1) == some 0 &&
        ((w.release .device).acquire .device).m.frameByte 0x10040000 7 == 1 &&
        (((w.release .device).acquire .device).m.trappedAt 0 0x10040000).map (·.1) == some 5) &&
      runs i (mach (Group.uniforms (pairOf 1 0 0) [0x10040000, 0])) (fun w => (w.checkUni w.u.us).isNone && !w.dataParked &&
        (w.m0.frameCtx 0 0x10040000).isSome && ((w.release .device).acquire .device).m.frameByte 0x10040000 7 == 0)) = true ∧
    runs (.probe ⟨false, 3, 1, true⟩) (mach (withRegs [(2, regOf 2 0x2000), (3, regOf 2 0)])) (fun w => w.untyped.isNone && w.sound [0, 1]) = true ∧
    ([.tlbinv ⟨false, 0, 1⟩, .tlbinvR ⟨false, 0, 1⟩, .tlbinvAbort ⟨false, 0, 1⟩] : List Instr).all (fun i =>
      runs i (mach (Group.uniforms (pairOf 1 0 0) [0x40000, 0, 1, 0])) (fun w => w.g.lighter.isNone && (w.checkUni w.u.us).isNone &&
        !w.dataParked && w.pair 0 % 65536 == 0 && decide (w.gWord 3 < 64) && (Map.get w.m0.ctxs 0).any (fun x => x.owner == 0) &&
        strandOk w)) = true := by decide +kernel

/-- BOPEN; BREVOKE of an open berth, of a stale one and of one that is not there. -/
theorem witness_SystemInstructions_berths :
    ([.bopen ⟨false, 0⟩, .brevoke ⟨false, 0⟩] : List Instr).all (fun i =>
      ([[], [(2, someBerth .opened)], [(2, someBerth .stale)]] : List (Map Berth)).all fun bs =>
      runs i ({ mach (Group.uniforms (pairOf 1 0 0) [0x70000, 0]) with berths := bs }.setHomeData 0x70000 [2]) (fun w =>
        w.needFull.isNone && (w.checkUni w.u.us).isNone && w.pair 0 % 64 == 0 && !w.acquireParked && !w.dataParked &&
        (match (w.release .device).readWords 0x70000 8 with
          | .ok (ws, _) => !anyPoison ws && (wordAt ws 0).data == 2 && (ws.drop 1).all fun t => t.data == 0
          | .error _ => false))) = true := by decide +kernel


/-! ### Witnesses of the events: a machine and operands for each clause -/

/-- Event i on machine m with operands a changes the machine. -/
def acts (i : Instr) (m : Machine) (a : Arg) : Bool :=
  match exec i { State.reset with cur := m, input := a } with
  | .next t => decide (t.cur ≠ m)
  | _ => false

def base : Machine := mach (pairOf 1 0 0)
def offMach : Machine := State.reset.cur
def image (n : Nat) : Arg := .firmware { image := [1], sig := [2], rollback := n }
def fused (l : Lcs) : Machine :=
  { base with fuses := { Fuses.blank with lcs := l, rollback := 2, identity := some 7, operator := some 9, certificate := some [1] } }
def asks (k : Signer) : Arg := .signed { signer := k, key := 5 }

/-- A firmware that is too old; a module that is RETIRED, or becomes so; one whose provisioning is completed. -/
theorem witness_BringUpEvents_firmware :
    acts .bringUp { offMach with fuses := { Fuses.blank with rollback := 2 } } (image 1) = true ∧
    ([{ Fuses.blank with lcs := .retired }, { Fuses.blank with change := some .retired },
      { Fuses.blank with change := some .provisioned, rollback := 2 }] : List Fuses).all (fun f =>
        acts .bringUp { offMach with fuses := f } (image 1)) = true := by decide +kernel

/-- Whether the signature verifies is free: in either case a clause says what step 1 does. -/
theorem witness_BringUpEvents_signature (ok : Bool) : Fuses.blank.lcs ≠ .retired ∧ Fuses.blank.rollback ≤ 0 ∧
    (offMach.bringUp [] ok 0).bring = if ok then .steps 1 else .hold := by
  cases ok <;> decide +kernel

theorem witness_BringUpEvents_steps :
    ([(.stackTraining, 2), (.ringLoopback, 3), (.phyLoopback, 4), (.sramBist, 5)] : List (Instr × Nat)).all
      (fun (i, k) => ([.none, .outcome .pass, .outcome (.fail .stack 3 1)] : List Arg).all fun a =>
        acts i { offMach with bring := .steps (k - 1) } a) = true ∧
    acts .clockStart { offMach with bring := .steps 6 } .none = true ∧ acts .powerLoss base .none = true := by decide +kernel

/-- The management port before READY; in READY; the life cycle in each state, asked by each signer. -/
theorem witness_BringUpEvents_requests :
    ([.resetRequest, .readFailureReport, .readIdentity] : List Instr).all (fun i => acts i { offMach with bring := .steps 3 } .none &&
      acts i { base with report := some { step := 1, lcs := .deployed, unit := .stack, number := 3, detail := 0, boots := 1, digest := [], sigKey := 0, sig := [] } }
        .none && acts i (fused .deployed) .none) = true ∧
    acts .readIdentity { base with fuses := { Fuses.blank with lcs := .provisioned, identity := some 3 } } .none = true ∧
    ([.manufacture, .provisioned, .deployed, .debug] : List Lcs).all (fun l =>
      ([.vendor, .operator, .other] : List Signer).all fun k =>
        acts .provisioningRequest (fused l) (asks k) && acts .deployRequest (fused l) (asks k) && acts .debugRequest (fused l) (asks k) &&
        acts .retireRequest (fused l) (asks k)) = true ∧
    ([.deployed, .manufacture] : List Lcs).all (fun l => acts .installCertificate (fused l) (.certificate { bytes := [2] })) = true := by
  decide +kernel

/-- Whether the certificate's signature verifies is free: a clause says what becomes of it in either case. -/
theorem witness_BringUpEvents_certificate (bytes : List Byte) :
    ((fused .deployed).fuses.takesCertificate bytes = true ∨ (fused .deployed).fuses.takesCertificate bytes = false) ∧ base.bring = .ready :=
  ⟨by cases (fused .deployed).fuses.takesCertificate bytes <;> simp, rfl⟩

def channel : Channel := { key := { an := 1, pn := 5, seen := [] }, old := none, window := 32, closed := false }

/-- Owner 0 of a DEPLOYED module with a channel on port 1, its management queue pair, launch queue pair of context 0, and a path's. -/
def owned : Machine :=
  { fused .deployed with
    chans := [(chanKey 0 1, channel)], paths := [(0, { owner := 0, port := 1, usable := true })]
    qps := [(managementQp 0 1, { owner := 0, port := 1, use := .management }), (launchQp 0 1, { owner := 0, port := 1, use := .launch 0 }),
      (pathQp 0, { owner := 0, port := 1, use := .peer })]
    counters := [(chanKey 0 1, { dropped := 1, icv := 0, refused := 0, closures := 0 })]
    berths := [(2, { someBerth .opened with base := 0x80000, size := 0x10000, peers := 1 }), (3, { someBerth .opened with import_ := true, path := 0 })] }

theorem witness_BringUpEvents_attestation :
    owned.bring = .ready ∧ owned.portLost.contains 1 = false ∧ Map.get owned.qps (managementQp 0 1) =
      some { owner := 0, port := 1, use := .management } ∧ Map.get owned.chans (chanKey 0 1) = some channel ∧
    acts .attestationRequest owned (.nonce 0 1 (List.replicate 32 7)) = true := by decide +kernel

def createForm (owner : Nat) : CreateReq :=
  { owner := owner, priv := true, buoy := false, debug := false, super := 0xFF, ptRoot := 0x100000, saveBase := 0x10000000, ngimg := 1
    nbimg := 1, fqBase := 0x300000, fqSize := 16, tqSize := 16, tqBase := 0x310000, shPool := 0x320000, statusVa := 2 ^ 56
    deadline := 0, bimgOff := 1, qdBase := 0x330000, shSize := 16 }

def queueForm : QueueReq := { queue := 3, base := 0x350000, size := 4, prio := 1, net := true, ordered := false }

def ctxWith (f : Ctx → Ctx) : Machine := { owned with ctxs := [(0, f loadedCtx)] }

theorem witness_OwnerEvents_requests :
    acts .createOwner owned (.n2 3 64) = true ∧ 3 ∉ owned.owners ∧
    createFormOk (createForm 0) = true ∧ owned.freeCtxId = some 1 ∧ owned.superOk (createForm 0) 1 = true ∧
    owned.serves 0 ∧ acts .createContext owned (.create (createForm 0)) = true ∧
    acts .loadContext (ctxWith fun c => { c with state := .created }) (.n2 0 0) = true ∧
    acts .loadContext { owned with owners := [0, 1], chans := (chanKey 1 2, channel) :: owned.chans } (.n2 1 0) = true ∧
    acts .startContext (ctxWith fun c => { c with state := .loading }) (.n2 0 0) = true ∧
    queueFormOk queueForm = true ∧ loadedCtx.alive = true ∧ (owned.queueDesc loadedCtx 3).open_ = false ∧
    (owned.queueDesc loadedCtx 3).progress = (owned.queueDesc loadedCtx 3).tail ∧ acts .openQueue owned (.queue 0 0 queueForm) = true ∧
    acts .closeQueue (withQueue owned 3 0) (.n3 0 0 3) = true ∧ acts .setDeadline owned (.n3 0 0 777) = true ∧
    acts .openPath owned (.n2 0 1) = true ∧ ((List.range 65535).find? fun p => !Map.has owned.paths p) = some 1 ∧
    acts .closePath owned (.n2 0 0) = true := by
  unfold Machine.serves
  decide +kernel

def vacant : Machine := ({ owned with ctxs := [], berths := [] } : Machine).setHomeData 0x80000 [5]

/-- Owner 0's channel on port 1 has a new key: frames have come under it or not, and one message has gone. -/
def rotated (came : Bool) : Machine :=
  { owned with chans := [(chanKey 0 1, { channel with old := some channel.key, seenNew := came })], netOut := [.ack (pathQp 0)] }

theorem witness_OwnerEvents_settings :
    ([true, false] : List Bool).all (fun b => (Map.get (rotated b).chans (chanKey 0 1)).any fun c => (rotated b).keySettled 0 1 c == b) = true ∧
    acts .pilotKeyRotation (rotated true) (.flag 0 1 true) = true ∧ acts .pilotKeyRotation (rotated false) (.flag 0 1 false) = true ∧
    owned.openPort 0 = some 1 ∧
    acts .setThr owned (.n2 35 32) = true ∧ acts .powerLimit owned (.n 1) = true ∧ acts .counterClear owned (.n2 0 1) = true ∧
    vacant.ctxs = [] ∧ Map.get vacant.berths 9 = none ∧ acts .berthPageReassign vacant (.n3 9 0x80000 0x10000) = true := by
  decide +kernel

/-- A BOPEN of context 0: its block at 0x70000, its window at 0x80000. -/
def opens (ws : List Word) : HmReq := { ctx := 0, addr := 0x70000, open_ := true, words := ws }
def exportWords : List Word := [0x80000, 0, 0x10000, 0, 0x1C0, 1, 0, 0]
def importWords (path : Word) : List Word := [0, 0, 0x10000, 0, 0x1D0, 0, path, 0]
/-- Every berth number is taken. -/
def allTaken : Map Berth := (List.range 4095).map fun i => (i + 1, someBerth .opened)

theorem witness_noFreeBerth (m : Machine) : ({ m with berths := allTaken } : Machine).freeBerth = none := by
  have get : ∀ (l : List Nat) (i : Nat), i ∈ l → Map.get (l.map fun i => (i + 1, someBerth .opened)) (i + 1) = some (someBerth .opened) := by
    intro l i hi
    induction l with
    | nil => cases hi
    | cons a l ih =>
      by_cases h : a = i
      · simp [Map.get, h]
      · simp [Map.get, h, ih (by simpa [Ne.symm h] using hi)]
  simp only [Machine.freeBerth, List.findSome?_eq_none_iff]
  intro i hi
  simp only [allTaken, get _ i hi]
  rfl

/-- A request that is malformed, whose window is not mapped, granted; an import of a path that is not there. -/
theorem witness_OwnerEvents_opens :
    ([[1, 0, 0x10000, 0, 0x1C0, 1, 0, 0], [0x80000, 0, 0x10000, 0, 0x1E0, 1, 0, 0], exportWords, importWords 9] : List (List Word)).all (fun ws =>
      ((owned.answerBlock 0 0x70000 0 0 0).isSome && acts .bopenAnswer { owned with hmReqs := [opens ws] } .none)) = true ∧
    openFormOk [1, 0, 0x10000, 0, 0x1C0, 1, 0, 0] = false ∧ openFormOk exportWords = true ∧
    owned.windowOk 0 (berthOfWords [0x80000, 0, 0x10000, 0, 0x1E0, 1, 0, 0] 0 0) = false ∧
    owned.windowOk 0 (berthOfWords exportWords 0 0) = true ∧ owned.freeBerth = some 1 ∧ openFormOk (importWords 9) = true ∧
    Map.get owned.paths (berthOfWords (importWords 9) 0 0).path = none := by decide +kernel

/-- A revocation to be put in force, and one in force, of an export and of an import; a BREVOKE with words that fail their check. -/
theorem witness_OwnerEvents_revokes :
    ([true, false] : List Bool).all (fun imp => ([true, false] : List Bool).all fun done =>
      acts (if done then .berthRevokeDone else .berthRevokeInForce) { owned with
        berths := [(2, { someBerth .revoking with import_ := imp, revoke := some (false, 0, 0x70000, 7, done), used := [pathQp 0] })] } (.n 2)) =
      true ∧
    acts .berthRevokeDone { owned with hmReqs := [{ opens [] with open_ := false }] } .none = true := by decide +kernel

def frameOf (ok : Bool) : Frame := { owner := 0, port := 1, an := 1, pn := 9, icvOk := ok, qp := launchQp 0 1 }
def sendOf : LaunchSend := { owner := 0, port := 1, qp := launchQp 0 1, imm := some 3, data := List.replicate 64 0 }

/-- A launch queue that takes the message, and one that is full. -/
def netQueue (used : Nat) : Machine :=
  owned.setHomeData (descAddr loadedCtx 3) ((descWords queueForm).set 6 (BitVec.ofNat 32 used))

theorem witness_OwnerEvents_network :
    acts .ethernetFrameReceive owned (.frame (frameOf true)) = true ∧ acts .ethernetFrameReceive owned (.frame (frameOf false)) = true ∧
    ([(0, true), (4, false)] : List (Nat × Bool)).all (fun (n, b) => ((netQueue n).queueDesc loadedCtx 3).open_ &&
      ((netQueue n).queueDesc loadedCtx 3).net &&
      ((netQueue n).appendEntries loadedCtx 3 [((wordsOf sendOf.data).drop 0).take 16]).isSome == b &&
      acts .roceLaunchSend (netQueue n) (.launch sendOf)) = true ∧
    acts .revocationNoticeReceive owned (.n 3) = true ∧ acts .roceRetryExhausted owned (.n 0) = true ∧
    acts .portLossOfSignal owned (.n 3) = true := by decide +kernel

def rdmaOf (gen : Nat) (publish : Bool) : RdmaReq :=
  { owner := 0, port := 1, qp := pathQp 0, key := berthKey 0 2 gen, offset := 0x40, len := 8, data := List.replicate 8 1
    imm := some (if publish then 0x80000000 else 0), cas := false, operand := 1, swap := 0 }

theorem witness_OwnerEvents_rdma :
    (owned.berthCheck 0 2 (berthKey 0 2 1) .write 0x40 8).isNone = true ∧ (owned.berthCheck 0 2 (berthKey 0 2 1) .read 0x40 8).isNone = true ∧
    (owned.berthCheck 0 2 (berthKey 0 2 1) .atomic 0x40 8).isNone = true ∧
    owned.berthCheck 0 2 (berthKey 0 2 7) .write 0x40 8 = some .revoked ∧ owned.berthCheck 0 2 (berthKey 0 2 7) .read 0x40 8 = some .revoked ∧
    (windowPages 0x40 8).all (fun o => ([.write, .read, .atomic] : List Access).all fun k => match (owned.exportPlace 2 o k).1 with
      | .window 2 _ _ => true
      | _ => false) = true ∧
    (match owned.putBytes 2 0x40 (List.replicate 8 1) with
      | .done _ => true
      | _ => false) = true ∧
    keyBerth (rdmaOf 1 false).key = 2 ∧ rdmaPublishes (rdmaOf 1 false) = false ∧ rdmaPublishes (rdmaOf 1 true) = true ∧
    acts .rdmaWrite owned (.rdma (rdmaOf 1 false)) = true ∧ acts .rdmaWritePublish owned (.rdma (rdmaOf 1 true)) = true ∧
    acts .rdmaRead owned (.rdma (rdmaOf 1 false)) = true ∧ acts .rdmaAtomic owned (.rdma (rdmaOf 1 false)) = true ∧
    acts .rdmaWrite owned (.rdma (rdmaOf 7 false)) = true := by decide +kernel


def ctxAs (st : CtxState) (f : Ctx → Ctx) : Machine := { base with ctxs := [(0, f { loadedCtx with state := st })] }
def gridAs (f : Grid → Grid) : Machine := { base with grids := [(1, f loadedGrid)] }
def groupAs (f : Group → Group) : Machine := mach (f (pairOf 1 0 0))

theorem witness_ScheduleEvents_contexts :
    acts .schedulerDeschedule base (.n 0) = true ∧
    (ctxAs .yielding id).allSaved 0 = false ∧
    acts .contextSaved { ctxAs .yielding (fun c => { c with quiet := true }) with blocks := [] } (.n 0) = true ∧
    acts .engineQuiet (ctxAs .yielding id) (.n 0) = true ∧
    (({ ctxAs .saved id with blocks := [], groups := [] } : Machine).restoreContext 0 { loadedCtx with state := .saved }).isSome = true ∧
    acts .schedulerRestore { ctxAs .saved id with blocks := [], groups := [] } (.n 0) = true ∧
    acts .killContext base (.n 0) = true ∧ ((Map.get (ctxAs .killed id).ctxs 0).any fun c => c.state == .killed) = true ∧
    (({ ctxAs .faulted (fun c => { c with quiet := true }) with blocks := [], groups := [] } : Machine).restoreContext 0
      { loadedCtx with state := .faulted, quiet := true }).isSome = true ∧
    owned.reaches 0 = true ∧ acts .resumeContext { owned with blocks := [], groups := [], ctxs := [(0, { loadedCtx with state := .faulted, quiet := true })] }
      (.n2 0 0) = true := by
  decide +kernel

/-- A launch queue with one entry. -/
def waitingQueue (m : Machine) : Machine :=
  m.setHomeData (descAddr loadedCtx 2) ((descWords { queue := 2, base := 0x350000, size := 4, prio := 0, net := false, ordered := false }).set 6 1)

theorem witness_ScheduleEvents_queues :
    base.gridsTaken 0 = 1 ∧ (waitingQueue base).launchChoice 0 loadedCtx = some 2 ∧ acts .takeLaunchEntry (waitingQueue base) (.n 0) = true ∧
    ((waitingQueue base).queueDesc loadedCtx 2).open_ = true ∧
    ((waitingQueue base).queueDesc loadedCtx 2).head < ((waitingQueue base).queueDesc loadedCtx 2).tail ∧
    acts .launchQueueAging { waitingQueue base with clock := 200000 } (.n2 0 2) = true := by decide +kernel

def lateGroup : Machine := { ctxAs .yielding id with clock := 300000 }
def savePoint : Machine :=
  { groupAs (fun g => { g with stack := [{ path 0 0xFF with park := some { why := .savept, instr := .savept ⟨false, 56⟩, pc := loadedPc, alone := true } }] })
    with ctxs := [(0, { loadedCtx with state := .yielding })] }

theorem witness_ScheduleEvents_blocks :
    (pairOf 1 0 0).atSavePoint = false ∧ acts .deadlineExpiry lateGroup (.n 3) = true ∧
    ((savePoint.gangOf 1 0).all fun e => savePoint.saveReady e.1 e.2) = true ∧ acts .blockSave savePoint (.n 2) = true ∧
    (groupAs fun g => { g with status := .retired }).tracked 2 = false ∧
    acts .blockRetire (groupAs fun g => { g with status := .retired }) (.n 2) = true ∧
    -- a save area past the end of memory
    (let c : Ctx := { loadedCtx with state := .yielding, saveBase := dramTop }
     let m : Machine := { savePoint with ctxs := [(0, c)] }
     ((m.gangOf 1 0).any fun e => m.imageFails e.1 c e.2) && acts .blockSave m (.n 2)) = true := by decide +kernel

def cmdOf (k : CmdKind) (st : QState) : Cmd :=
  { kind := k, ctx := 0, group := 3, block := 2, queue := 16, entry := 0, batch := 0, state := st, barrier := none, arrive := false
    orphan := false, recs := [boxRecord.map TWord.of], ops := [0, 0, 0, 0, 0x100, 0], run := [], shadow := none, sectors := [], asked := []
    retired := [], births := [], unp := (0, 0, 0), code := 0, reason := 0, count := 0, poisoned := 0, bytes := 0, reported := false
    errMark := false, prior := false, fault := none }

def withCmd (c : Cmd) (m : Machine) : Machine := { m with cmds := [(7, c)] }

theorem witness_ScheduleEvents_dies :
    acts .buoyReturn (withCmd (cmdOf .buoy .pending) base) (.n 7) = true ∧
    acts .computeDieReset base (.n 0) = true ∧ acts .computeDieReset { base with diesClosed := [5] } (.n 5) = true ∧
    acts .computeDieResetExit { base with dieReset := [5], diesClosed := [5] } (.n 5) = true ∧ base.bring = .ready := by decide +kernel

/-- A code header at the grid's CODE, as its record asks. -/
def headerWords : List Word := [0x40000000, 0, 0x44524E31, 0x3808, 0x1000, 0x10001, 0, 0] ++ List.replicate 24 0
def starting : Machine := (gridAs fun g => { g with state := .starting }).setHomeData 0x200000 headerWords

theorem witness_ScheduleEvents_grids :
    anyPoison loadedRecord = false ∧ recDepend loadedRecord = 0 ∧
    acts .dependencePoll (gridAs fun g => { g with state := .queued }) (.n2 0 1) = true ∧
    (match starting.startChecks 1 { loadedGrid with state := .starting, header := [] } with
      | .ok _ _ _ => true
      | _ => false) = true ∧
    (match (gridAs fun g => { g with state := .starting }).startChecks 1 { loadedGrid with state := .starting, header := [] } with
      | .fail _ => true
      | _ => false) = true ∧ recDoneMap loadedRecord = 0 ∧
    acts .gridDrained (gridAs fun g => { g with state := .draining, retired := 1 }) (.n 1) = true := by decide +kernel

def unplaced : Machine := { gridAs (fun g => { g with next := 0, gangs := 0 }) with blocks := [], groups := [], cores := [] }

theorem witness_ScheduleEvents_place :
    unplaced.ctxs = [(0, loadedCtx)] ∧ unplaced.placeable 0 = [(1, { loadedGrid with next := 0, gangs := 0 })] ∧
    (unplaced.tryGang 1 { loadedGrid with next := 0, gangs := 0 } { loadedCtx with gimgs := [], bimgs := [] } none).isSome = true ∧
    acts .placeGang { unplaced with ctxs := [(0, { loadedCtx with gimgs := [], bimgs := [] })] } .none = true ∧
    acts .retirementTrackerDrain { base with cores := [(0, { Core.empty with tracker := [(1, 2, [])] })] } (.n 0) = true := by
  decide +kernel

/-! Groups -/

def chainReady : Machine := Machine.loaded Fuses.blank lineOfAdd

theorem witness_GroupEvents_issue :
    ({ base with groups := [] } : Machine).tick.candidates none = [] ∧
    (match pickGroup (chainReady.tick.candidates none) with
      | some (_, g, .strand e) => (match (chainReady.tick.front g e).1 with
        | .chain _ => true
        | _ => false)
      | _ => false) = true := by decide +kernel

/-- Two strands at one packet merge, and the chain issues; a BATCH of theirs is held while eight batches are open. -/
def twoStrands (w : Word) (open_ : List Batch) : Machine :=
  { Machine.loaded Fuses.blank (placeWord [] 0 w) with
    groups := [(3, { loadedGroup with stack := [{ firstEntry loadedPc 8 with mask := 0x0F }, { firstEntry loadedPc 8 with sid := 1, mask := 0xF0 }]
                                      nextSid := 2, open_ := open_ })] }

/-- How many entries are held after ISSUE_SELECT and the word it issues. -/
def heldAfter (i : Instr) (m : Machine) : Option Nat :=
  match exec .issueSelect { State.reset with cur := m } with
  | .next t => match exec i t with
    | .next u => some u.cur.heldCount
    | _ => none
  | _ => none

theorem witness_StepRunsWords_merges :
    (twoStrands 0x02038308 []).settleAll.groups ≠ (twoStrands 0x02038308 []).groups ∧
    heldAfter (.add rr) (twoStrands 0x02038308 []).settleAll = some 0 ∧
    heldAfter (.batch ⟨false, .v 6, true⟩) (twoStrands 0x7A051A00 (List.replicate 8 (batchOf 1))).settleAll = some 1 ∧
    heldAfter (.batch ⟨false, .v 6, true⟩) (twoStrands 0x7A051A00 (List.replicate 8 (batchOf 1))) = some 1 := by decide +kernel

def eventful : Machine := groupAs fun g => { g with ev := { g.ev with enable := 0x3F, pend := 2 } }
def parkedFor (why : ParkWhy) (i : Instr) : Machine :=
  groupAs fun g => Group.uniforms { g with stack := [{ path 0 0xFF with park := some { why := why, instr := i, pc := loadedPc, alone := true } }] }
    [0x2000, 0]

theorem witness_GroupEvents_events :
    eventful.takesEvent { pairOf 1 0 0 with ev := { (pairOf 1 0 0).ev with enable := 0x3F, pend := 2 } } = some 1 ∧
    acts .eventEntry eventful (.n 3) = true ∧ acts .clockWrap { base with clock := 65536 } .none = true ∧
    acts .napExpiry (parkedFor (.nap 1) (.nap ⟨false, true, .k 1⟩)) (.n2 3 0) = true ∧
    acts .cwaitReread (parkedFor .cwait (.cwait ⟨false, 1, .v 1, 0⟩)) (.n2 3 0) = true ∧
    acts .batchComplete (groupAs fun g => { g with open_ := [batchOf 1] }) (.n 3) = true := by decide +kernel

/-- A load whose words have come, for two registers of eight lanes. -/
def arrived : Pending := { slots := [4, 5], lanes := 0xFF, words := [same8 1, same8 2], tag := 0, mread := none, parked := 0, instr := none, pc := loadedPc, mask := 0xFF, finj := 0 }

theorem witness_GroupEvents_returns :
    arrived.ready = true ∧ acts .loadDataReturn (groupAs fun g => { g with pending := [(9, arrived)] }) (.n2 3 9) = true ∧
    acts .mreadDataArrival (groupAs fun g => { g with pending := [(9, { arrived with mread := some 0 })] }) (.n2 3 9) = true ∧
    acts .matrixEntryDone { base with cores := [(0, { Core.empty with queue := [.mzero 3] })] } (.n 0) = true ∧
    (match (chainReady.fetchLine 0 0 loadedPc).1 with
      | .line l => decide (l = lineOfAdd)
      | _ => false) = true := by decide +kernel

/-- WAITV of EQ on a word that holds V1's value, and on one that does not. -/
def waitvOf (v : Word) : Machine := (parkedFor .waitv (.waitv ⟨false, .v 1, .z, 0, .eq⟩)).setHomeData 0x2000 [v]

theorem witness_GroupEvents_waitv : ([(0, true), (5, false)] : List (Word × Bool)).all (fun (v, b) =>
    ((waitvOf v).waiting (.n2 3 0)).length == 1 && (((waitvOf v).waiting (.n2 3 0)).all fun (gk, x) => x.park.any fun p =>
      ((waitvOf v).parkedWord gk x p).any fun w => w.leader == some 0 &&
        (match (waitvOf v).place w.g.core w.g.ctx (w.uaddr 0) 4 .read w.g.source with
          | (q, m1) => (m1.deviceWord w.g.core w.g.ctx (w.uaddr 0) (q.noBerth (m1.berthAt w.g.ctx (w.uaddr 0)))).any fun t => !t.1.poisoned &&
              condHolds .eq t.1.data (w.dat 1 0) == b))) = true := by decide +kernel

def faultCtx (w : List (List Word)) : Machine := { base with ctxs := [(0, { loadedCtx with fqWait := w })] }
/-- A full ring: TAIL is 16 entries past HEAD. -/
def fullRing : Machine := (faultCtx [[1, 2, 3]]).setHomeData 0x300008 [16, 0]

def request : Parked :=
  { core := 0, group := 3, ctx := 0, va := 0x40000000, access := 0, ova := 0x40000000, lane := 0, words := [], size := 4, instr := none
    slots := [], pendingId := 0, count := 0, waiting := true, flight := false }

theorem witness_GroupEvents_rings :
    ((faultCtx [[1, 2, 3]]).ringAppend 0x300000 16 (fqEntry [1, 2, 3] 0 0)).isSome = true ∧
    (fullRing.ringAppend 0x300000 16 (fqEntry [1, 2, 3] 0 0)).isNone = true ∧
    acts .queueHeadReread (faultCtx [[1, 2, 3]]) (.ring 0 .fault) = true ∧
    ({ base with parked := [(4, request)] } : Machine).faultsHeld 0 < faultBerths ∧
    ((Map.get base.ctxs 0).map (·.resolve)).getD 0 = request.count ∧
    acts .faultBerthFreed { base with parked := [(4, request)] } (.n 0) = true := by decide +kernel

def publishing : Ctx := { loadedCtx with shadows := [(1, someShadow .publishing)] }
def doneOr : Machine :=
  { withBitmap base with parked := [(4, { request with va := 0x50008, flight := true, waiting := false, access := 2, instr := some (.cdone ⟨false⟩) })] }

theorem witness_GroupEvents_effects :
    ([0, 1] : List Nat).all (fun mode => acts .tlbinvEffectComplete
      { parkedFor (.tlbinv 0 0x40000 1 mode) (.tlbinv ⟨false, 0, 1⟩) with grids := [] } (.n2 3 0)) = true ∧
    (withShadow base .publishing).writers 0 1 = [] ∧ Map.get (withShadow base .publishing).ctxs 0 = some publishing ∧
    (((withShadow base .publishing).updCtx 0 fun c => { c with shadows := Map.del c.shadows 1 }).swap 0 publishing (someShadow .publishing)).isSome =
      true ∧
    (match (doneOr.place 0 0 0x50008 4 .atomic 0).1 with
      | .pa pa _ => pa == 0x50008 && (match (({ doneOr with parked := [] } : Machine).atomHome 0 pa 2 false .or [TWord.of 1]).1 with
        | .old _ => true
        | _ => false)
      | _ => false) = true ∧ acts .cdoneOrPerform doneOr (.n 4) = true := by decide +kernel

/-! Engines -/

def entered : Machine := withQueue (withCmd (cmdOf .tcopy .pending) base) 16 1
def copyCmd : Cmd := cmdOf .tcopy .running
def storeCmd : Cmd := cmdOf .tstore .running
/-- The words of a TSTORE for the sector at 0x30000, its image at offset 0x100 of block 2. -/
def sectorWords (c : Cmd) : List (Nat × Nat × TWord) :=
  ((c.storeWords.filter fun e => e.2.va / 64 == 0xC00).map fun e =>
      let t := storedWord e.2 (base.spadWord 2 (0x100 + 4 * e.1))
      (e.2.va, t.1, t.2)) ++
    (c.padBytes.filter fun e => e.1 / 64 == 0xC00).map fun e => (e.1, e.2, TWord.zero)

theorem witness_EngineEvents_copies :
    (cmdOf .tcopy .pending).onQuay = false ∧ ({ cmdOf .qred .pending with queue := quayQ 2 } : Cmd).onQuay = true ∧ (base.freeEngine (cmdOf .qred .pending)).isSome = true ∧
    entered.engineTakes 0 loadedCtx 16 = true ∧ (entered.queueDesc loadedCtx 16).head < (entered.queueDesc loadedCtx 16).tail ∧
    acts .engineTakeEntry entered (.n2 0 16) = true ∧
    0 < copyCmd.imageSectors ∧ (match base.imageWords copySource copyCmd 0 16 with
      | .ok _ n => n.imageAt copyCmd == some (2, 0x100)
      | _ => false) = true ∧ acts .copySectorDelivered (withCmd copyCmd base) (.n2 7 0) = true ∧
    0xC00 ∈ storeCmd.destSectors ∧ base.imageAt storeCmd = some (2, 0x100) ∧
    (match base.enginePlace copySource storeCmd storeCmd.layout 0x30000 64 .write with
      | (p, n) => match (n.lastUseWrite storeCmd storeCmd.layout p).storeAt (n.engineStop copySource storeCmd) p 0x30000
            (n.enginePriAt 0 storeCmd.layout 0x30000 p) (sectorWords storeCmd) with
        | .done _ => !(sectorWords storeCmd).isEmpty
        | _ => false) = true ∧ acts .tstoreSectorWritten (withCmd storeCmd base) (.n2 7 0xC00) = true := by decide +kernel

/-- With a barrier of one arrival and four sectors owed. -/
theorem witness_EngineEvents_barriers :
    (((withCmd (cmdOf .tcopy .running) base).setBarWords 2 0x40 ([0x110, 4, 2, 0].map TWord.of)).barSector 2 0x40 false).1 = true := by
  decide +kernel

def runCmd : Cmd := { cmdOf .xcopy .running with ops := [0, 4], run := [(1, same8 9)] }

theorem witness_EngineEvents_completion :
    ((withCmd runCmd base).xcopyTarget runCmd).map (·.1) = some 3 ∧ (((pairOf 1 0 0).reg 4).empty &&& widthMask 8) = 0 ∧
    acts .xcopyDelivery (withCmd runCmd base) (.n 7) = true ∧
    ({ cmdOf .tcopy .running with sectors := [0, 1, 2, 3] } : Cmd).finished = true ∧
    acts .commandCompletion (withCmd { cmdOf .tcopy .running with sectors := [0, 1, 2, 3] } base) (.n 7) = true := by decide +kernel

def readCmd : Cmd := { cmdOf .hread .running with recs := [burstRecord.map TWord.of], ops := [0, 0, 0, 0] }

theorem witness_EngineEvents_bursts :
    readCmd.layout.bursts = 4 ∧ (withCmd readCmd base).berthsUsed 0 < burstBerths ∧
    readCmd.layout.inside (readCmd.layout.burstAt readCmd.org 0) = true ∧
    readCmd.again = [] ∧ (withCmd readCmd base).waitingBursts 0 = [] ∧ acts .hreadBurstRequest (withCmd readCmd base) (.n 7) = true ∧
    (match base.readBurst readCmd (readCmd.layout.addr (readCmd.layout.burstAt readCmd.org 0)) with
      | .ok _ _ => true
      | _ => false) = true ∧ readCmd.layout.lastUse = 0 ∧
    acts .hreadBurstReturn (withCmd { readCmd with asked := [0], unp := (1, 0, 0) } base) (.n2 7 0) = true ∧
    acts .hreadCompletion (withCmd { readCmd with unp := (4, 0, 0), retired := [0, 1, 2, 3] } base) (.n 7) = true := by decide +kernel

/-- A burst that waits in the core for a lighter's place. -/
def borne : Machine :=
  { withCmd { readCmd with unp := (1, 0, 0) } base with
    grids := [(1, { loadedGrid with header := headerWords.map TWord.of })]
    cores := [(0, { Core.empty with reserved := [(1, [5])], berths := [(7, 0, List.replicate 64 TWord.zero)] })] }

theorem witness_EngineEvents_birth :
    borne.mayBear { readCmd with unp := (1, 0, 0) } (pairOf 1 0 0) 0 = true ∧ (borne.freePlace 0 1).isSome = true ∧
    borne.waitingBursts 0 = [] ∧ acts .lighterBirth borne (.n 0) = true := by decide +kernel

/-- The table of the spec's example: nibble 1 is the literal 0x41; 18 input bits. -/
def unpacker (p : Nat) : Cmd := { cmdOf .qunpk .running with engine := 1, recs := [boxRecord.map TWord.of, boxRecord.map TWord.of], ops := [0, 0, 0, 0, 18], unp := (0, p, 2) }
def tabled (p : Nat) : Machine := (withCmd (unpacker p) base).setHomeData (tableArea loadedCtx 0) [0x8000000C, 0x4100D, 0x4200D, 0x200200F]

def redCmd : Cmd := { cmdOf .qred .running with engine := 1, recs := [boxRecord.map TWord.of, boxRecord.map TWord.of] }
def tableCmd : Cmd := { cmdOf .qtload .running with engine := 1, recs := [], ops := [0x60000, 0, 16, 1] }
def tableMach : Machine := (withCmd tableCmd base).setHomeData 0x60000 [0x8000000C, 0x4100D, 0x4200D, 0x200200F]

theorem witness_EngineEvents_quay :
    acts .qunpkSymbol (tabled 18) (.n 7) = true ∧
    (match (((tabled 0).setHomeData (tableArea loadedCtx 0) [0x8000000E]).inputBits 7 (unpacker 0) 0 4) with
      | .ok nib n => nib == 0 && (n.homeWord (tableArea loadedCtx 0)).1.data.toNat % 4 == 2
      | _ => false) = true ∧
    0 < redCmd.units ∧ acts .quayCommandRun (withCmd redCmd base) (.n2 7 0) = true ∧ tableCmd.units = 1 ∧
    (match tableMach.quayWords 7 tableCmd ((List.range 16).map fun i => (layoutOf [], 0x60000 + 4 * i)) with
      | .ok ts _ => ts.all fun t => t.good && tableEntryOk 16 t.data.toNat
      | _ => false) = true ∧ acts .quayCommandRun tableMach (.n2 7 0) = true := by decide +kernel

/-! Storage -/

def dirtyAt (sn : Nat) : Cache := [(sn, { words := List.replicate 16 (TWord.of 5), dirty := allDirty, pri := 1, low := 0 })]
/-- A set of 16 lines, each with one dirty sector, `n` lines apart; the sixth has the lowest PRI. -/
def fullSet (n : Nat) : Cache := (List.range 16).map fun k =>
  (4 * (k * n), { words := List.replicate 16 (TWord.of 5), dirty := allDirty, pri := if k = 5 then 1 else 2, low := 0 })
def someBank : BankId := { stack := 5, pch := 3, bank := 7 }
def dramAs (f : Dram → Dram) : Machine := base.withDram f

theorem witness_StorageEvents_caches :
    acts .directoryInvalidate { base with mem := { base.mem with presence := [(0x20, 2)], die := [(1, dirtyAt 0x81)] } } (.n 0x20) = true ∧
    ([(.l1 0, 64, { base with cores := [(0, { Core.empty with l1 := fullSet 64 })] }),
      (.die 0, 24576, { base with mem := { base.mem with die := [(0, fullSet 24576)] } }),
      (.msc, 8192, { base with mem := { base.mem with msc := fullSet 8192 } })] : List (CacheLevel × Nat × Machine)).all (fun (k, n, m) =>
        ((m.cacheAt k).setLines k 0).length == cacheWays && m.victim k 0 == some (5 * n) && acts .cacheEviction m (.level k 0)) = true ∧
    acts .dramRead base (.n 0x90) = true := by decide +kernel

/-- A dirty sector of the memory-side cache, to be evicted or written. -/
theorem witness_StorageEvents_dram : ∃ x, Map.get (dirtyAt 0x81) 0x81 = some x ∧ x.dirty ≠ 0 :=
  ⟨_, rfl, by decide⟩

theorem witness_StorageEvents_rows :
    acts .rowAlert (dramAs fun d => { d with alerts := [(0, BankId.key someBank, 7, 9)] }) (.bank someBank 9) = true ∧
    acts .refreshManagementCommand (dramAs fun d => { d with alert := [(BankId.key someBank, (7, 9, [8, 10]))] }) (.bank someBank 8) = true ∧
    acts .backoffWindowClose (dramAs fun d => { d with alert := [(BankId.key someBank, (7, 9, []))], act := [(rowKey (BankId.key someBank) 7 9, 40)] })
      (.bank someBank 9) = true ∧
    acts .backoffWindowClose (dramAs fun d => { d with alert := [(BankId.key someBank, (7, 9, []))], queued := [(bankKey (BankId.key someBank) 7, [9, 3])] })
      (.bank someBank 9) = true ∧
    ([true, false] : List Bool).all (fun b => acts .regularRefresh (dramAs fun d => { d with postponed := [(bankKey 3 7, 2)] }) (.flag 3 7 b)) = true ∧
    acts .selfRefreshEntry { base with clock := 8000 } (.n 3) = true ∧
    acts .storageError base (.storage (.tag 3 4)) = true ∧ acts .storageError base (.storage (.dram 0x90 [(3, 1)])) = true ∧
    acts .storageError base (.storage (.scratch 2 0x40 true)) = true := by decide +kernel

def packetOf : Packet := { src := 1, dest := 4, owner := 0, kind := 0, addr := 0x40, masks := [], operand := 0, data := [] }
/-- The header flit of the packet at stop 1, on its way up, as the link codes it; and one whose bytes fail their check. -/
def flitOf : Option Flit := (packetFlits packetOf 0 0).head?
def ringAs (f : Flit) : Machine := { base with ring := { base.ring with links := [(2, [f])] } }

theorem witness_StorageEvents_ring :
    base.ring.direction 1 4 = some 0 ∧
    acts .ringPacketInject { base with ring := { base.ring with waiting := [(1, [packetOf])] } } (.n 1) = true ∧
    flitOf.any (fun f => flitOk f.bytes && f.dest == 4 && acts .ringFlitReceive (ringAs f) (.flit 2 true none)) = true ∧
    flitOf.any (fun f => !flitOk (f.bytes.set 3 0x5A) && ([0, 7] : List Nat).all fun n =>
      acts .ringFlitReceive (ringAs { f with bytes := f.bytes.set 3 0x5A, dest := 2, fails := n }) (.flit 2 true none)) = true ∧
    flitOf.any (fun f => acts .ringFlitResend (ringAs { f with resend := true }) (.n2 1 0)) = true := by decide +kernel

/-! The entries of the matrix engine, and the units of the quay engines. -/

def somePart : MatPart := { tile := 1, slot := 2, m0 := 3, rows := 1, hd := 0, a := [List.replicate 32 (TWord.of 1)], scales := [[]], surv := TWord.zero }

/-- An entry of each kind at the head of the queue; a configuration that MCFG takes. -/
theorem witness_GroupEvents_matrix : mcOk 0xBB = true ∧
    ([.mzero 3, .loadB 2 (tagOf 10 0) [TWord.of 7] (some [TWord.of 0x100]), .loadB 0 0x0B [] none,
      .mma [somePart, somePart] 0xBB true, .mread 3 9] : List MatEntry).all (fun e =>
        (({ base with cores := [(0, { Core.empty with queue := [e] })] } : Machine).core 0).queue == [e]) = true := by decide +kernel

/-- The words of a unit, as its source words are found. -/
def unitFound {α : Type} (k : Nat) (c : Cmd) (asks : α → List (Layout × Nat)) (gives : α → List TWord → List TWord)
    (after : α → List TWord → Machine → Machine) : List α → Machine → Option (Machine × List TWord)
  | [], m => some (m, [])
  | e :: r, m => match m.quayWords k c (asks e) with
    | .ok ts x => (unitFound k c asks gives after r (after e ts x)).map fun o => (o.1, gives e ts ++ o.2)
    | .fault _ _ _ _ => none

theorem unitFound_gives {α : Type} {k : Nat} {c : Cmd} {asks : α → List (Layout × Nat)} {gives : α → List TWord → List TWord}
    {after : α → List TWord → Machine → Machine} : ∀ {es : List α} {m n : Machine} {out : List TWord},
      unitFound k c asks gives after es m = some (n, out) → Machine.unitGives k c asks gives after es m n out
  | [], m, n, out, h => by
    simp only [unitFound, Option.some.injEq, Prod.mk.injEq] at h
    exact ⟨h.1.symm, h.2.symm⟩
  | e :: r, m, n, out, h => by
    simp only [unitFound] at h
    split at h
    · next ts x hq =>
      obtain ⟨o, ho, hn⟩ := Option.map_eq_some_iff.mp h
      simp only [Prod.mk.injEq] at hn
      obtain ⟨rfl, rfl⟩ := hn
      exact ⟨ts, x, o.2, hq, rfl, unitFound_gives ho⟩
    · cases h

/-- A quay command of a kind on an engine, with its records and options. -/
def quayCmd (k : CmdKind) (recs : List (List Word)) (ops : List Word) : Cmd :=
  { cmdOf k .running with engine := 1, recs := recs.map (List.map TWord.of), ops := ops }
def onQuayEngine (c : Cmd) : Machine := withCmd c base

/-- One line of 40 Q4 elements at 0x30000, its scales at 0x3A000. -/
def codeRecord : List Word := recordOf [(0, 0x30000), (2, 40), (3, 1), (4, 1), (5, 1), (6, 1), (7, 0x4000A), (8, 32), (10, 32), (12, 32), (14, 32),
  (16, 0x10028), (17, 0x10001), (18, 0x10001), (19, 0x20010000), (20, 0x3A000), (25, 0xFFFFFFFF)]
/-- One line of 40 F32 elements at 0x38000. -/
def longRecord : List Word := recordOf [(0, 0x38000), (2, 40), (3, 1), (4, 1), (5, 1), (6, 1), (7, 0x200003), (8, 160), (10, 160), (12, 160), (14, 160),
  (16, 0x10028), (17, 0x10001), (18, 0x10001), (25, 0xFFFFFFFF)]

/-- A poisoned index, one that mismatches, one below 0, one outside, one inside. -/
theorem witness_EngineEvents_gather :
    let c := quayCmd .qgath [boxRecord, boxRecord, rowRecord] [0, 0]
    let src := layoutOf (c.recs.getD 1 [])
    let ix := layoutOf (c.recs.getD 2 [])
    (decide (0 < c.units) && !c.raw && ix.fmt == 1 && src.dimAt 1 == 4 &&
    ([(poisonWord, 0), (⟨3, 0⟩, 1), (TWord.of 0xFFFFFFFF, 2), (TWord.of 4, 2), (TWord.of 3, 3)] : List (TWord × Nat)).all (fun (x, n) =>
      match ((onQuayEngine c).setHomeWord 0x30000 x).quayWord 7 c ix (ix.addr [0, 0, 0, 0, 0]) with
      | .ok t _ => (if t.poisoned then 0 else if mismatch t then 1 else if decide (0 ≤ t.data.toInt) && decide (t.data.toInt < 4) then 3 else 2) == n
      | _ => false)) = true := by decide +kernel

/-- The words of line 3 for the first sector of line 0. -/
theorem witness_EngineEvents_gather_words :
    let c := quayCmd .qgath [boxRecord, boxRecord, rowRecord] [0, 0]
    let src := layoutOf (c.recs.getD 1 [])
    let row := src.addr (src.at_ 0 0)
    let from_ := src.addr (src.at_ 3 0)
    (unitFound 7 c (gatherAsks src src true from_ row) (gatherGives from_ row) (fun _ _ y => y) (lineWords row src.rowBytes 0)
      (onQuayEngine c)).isSome = true := by decide +kernel

theorem witness_EngineEvents_reduce :
    let c := quayCmd .qred [boxRecord, boxRecord] [0, 0, 0]
    let r := layoutOf (c.recs.getD 0 [])
    let row := r.addr (r.at_ 0 0)
    let es := lineWords row r.rowBytes 0
    0 < c.units ∧ c.raw = false ∧ es ≠ [] ∧
    (unitFound 7 c (fun e => [(r, r.addr (r.at_ 0 ((e.1 - row) / 4)))]) (fun _ ts => [redGives (c.op 0) (c.op 1) r.fmt ts])
      (fun _ ts y => if !(ts.any TWord.poisoned) && ts.any mismatch then y.failCmd 7 9 else y) es (onQuayEngine c)).isSome = true := by
  decide +kernel

/-- From I32 and from Q4 to F32. -/
theorem witness_EngineEvents_convert :
    ([([floatRecord, boxRecord], false), ([longRecord, codeRecord], true)] : List (List (List Word) × Bool)).all (fun (recs, q4) =>
      let c := quayCmd .qcvt recs [0, 0, 0]
      let dst := layoutOf (c.recs.getD 0 [])
      let src := layoutOf (c.recs.getD 1 [])
      let row := dst.addr (dst.at_ 0 0)
      let es := lineWords row dst.rowBytes 0
      decide (0 < c.units) && !c.raw && dst.fmt == 3 && (src.fmt == 10) == q4 && !es.isEmpty &&
      (match (onQuayEngine c).readScales 7 c src 0 (if src.fmt = 10 then src.slot / 4 else 0) with
        | .ok sw m1 =>
          let outs := fun (e : Piece) (ts : List TWord) =>
            cvtResults src dst 0 (c.op 1) ((c.op 2).testBit 8) (lineScales src sw) (pieceElems dst row e) ts
          let hits := fun (e : Piece) (ts : List TWord) =>
            if (ts.any fun t => !t.good) || (outs e ts).any Option.isNone then 0
            else ((outs e ts).filter fun o => (o.map (·.2)).getD false).length
          (unitFound 7 c (fun e => (pieceElems dst row e).map fun j => (src, src.addr (src.at_ 0 j))) (fun e ts => [cvtGives dst e (outs e ts) ts])
            (fun e ts y => let z := y.counts 7 (hits e ts)
              if ts.any mismatch then z.failCmd 7 9 else z)
            es (if src.fmt = 10 && scalesMismatch src sw then m1.failCmd 7 9 else m1)).isSome
        | _ => false)) = true := by decide +kernel

/-- To Q4: a sector of codes, and the scale slot. -/
theorem witness_EngineEvents_quantise :
    let c := quayCmd .qcvt [codeRecord, longRecord, rowRecord] [0, 0, 0]
    let dst := layoutOf (c.recs.getD 0 [])
    let src := layoutOf (c.recs.getD 1 [])
    let side := layoutOf (c.recs.getD 2 [])
    let start := dst.addr (dst.at_ 0 0)
    let es := lineWords start 32 0
    0 < c.units ∧ c.raw = false ∧ dst.fmt = 10 ∧ dst.q4Sectors < dst.q4Parts ∧ ceilDiv (dst.dimAt 0) 32 = 2 ∧ es.head?.isSome = true ∧
    lineWords (dst.scaleAddr 0) dst.slot 0 ≠ [] ∧
    (match (onQuayEngine c).quayWords 7 c ((List.range 2).map fun b => (side, side.addr (side.at_ 0 b))) with
      | .ok st m1 =>
        let exps := (st.zipIdx).map fun e => (sext 8 (elemBitsAt side e.2 (side.addr (side.at_ 0 e.2)) e.1), !e.1.good)
        let cs := fun (b : Nat) (ts : List TWord) => q4Codes (qtypeOf (c.op 0)) src 0 b (exps.getD b (0, true)).1 ts
        let bad := fun (b : Nat) (ts : List TWord) => (exps.getD b (0, true)).2 || ts.any fun t => !t.good
        (unitFound 7 c (fun b => (List.range (min 32 (src.dimAt 0 - 32 * b))).map fun j => (src, src.addr (src.at_ 0 (32 * b + j))))
          (fun b ts => q4Gives (bad b ts) (cs b ts))
          (fun b ts y => let z := if ts.any mismatch then y.failCmd 7 9 else y
            z.counts 7 (if bad b ts = false then ((cs b ts).filter (·.2)).length else 0)) [0, 1]
          (if st.any mismatch then m1.failCmd 7 9 else m1)).isSome
      | _ => false) = true := by decide +kernel

/-- What QUNPK and HREAD need beside: the table of the slot; a completion that is not recorded. -/
theorem witness_EngineEvents_tables :
    (cvtFmt 4).isSome = true ∧ (cvtFmt 3).isSome = true ∧ decodeScales (fun p => (scaleStream .uni 0 [-128, 3]).getD p 0) 2 0 0 = [.null, .ok .uni 3] ∧
    ((withCmd readCmd base).recorded (((Map.get base.groups 3).map (·.grid)).getD 0) 1 && base.logBusy 0 3) = false := by decide +kernel

/-- A tracker entry of stores that are still to be performed. -/
theorem witness_ScheduleEvents_stores :
    acts .retirementTrackerDrain { base with cores := [(0, { Core.empty with tracker := [(1, 2, [storesId])], l1 := dirtyAt 0x81 })] } (.n 0) = true ∧
    base.logBusy 0 1 = false ∧ loadedCtx.modes = [] ∧ loadedCtx.tlbDue = [] := by decide +kernel

/-- Nothing passes first; a flit at its stop; one whose link failed goes the other way. -/
theorem witness_StorageEvents_turns :
    base.ring.taken 1 0 = false ∧
    flitOf.any (fun f => flitOk f.bytes && acts .ringFlitReceive { base with ring := { base.ring with links := [(6, [f])] } } (.flit 4 true none)) = true ∧
    flitOf.any (fun f => base.ring.takes 3 f && acts .ringFlitResend
      { base with ring := { base.ring with links := [(2, [f])], failed := [2] } } (.n2 1 0)) = true := by decide +kernel

/-- A message that the recording holds back, a refused access, a marked frame and a request that the transport does not support. -/
theorem witness_OwnerEvents_refusals :
    ((ctxWith fun c => { c with logWait := [[2]] }).logBusy 0 2 && !owned.logBusy 0 2) = true ∧
    acts .roceLaunchSend (ctxWith fun c => { c with logWait := [[2]] }) (.launch sendOf) = true ∧
    (let m := { owned with berths := [(2, { someBerth .opened with base := 0x80000, size := 0x10000, peers := 1, perm := 0 })] }
     m.berthCheck 0 2 (berthKey 0 2 1) .write 0x40 8 = some .access ∧ acts .rdmaWrite m (.rdma (rdmaOf 1 false)) = true) ∧
    ([(true, false), (false, true)] : List (Bool × Bool)).all (fun (u, e) =>
      acts .ethernetFrameReceive owned (.frame { frameOf true with unsupported := u, ecn := e })) = true := by decide +kernel

/-- A command that stands at a fault in the window keeps its revocation from DONE. -/
theorem witness_OwnerEvents_busy :
    let r : Berth := { someBerth .revoking with revoke := some (false, 0, 0x70000, 7, true) }
    let c : Cmd := { cmdOf .tstore .suspended with recs := [(boxRecord.set 24 2).map TWord.of], fault := some (0, 0x80000, 0) }
    owned.windowBusy 2 r = false ∧ (withCmd c owned).windowBusy 2 r = true := by decide +kernel

end Sys2Proof.Tests
end

section
/-! SUPPORT. Every instruction word runs as a word, every other event as an event. Settles ExecAnswers. -/

namespace Sys2Proof.Machine

open Sys2Proof

/-- The meaning of every instruction but ISSUE_SELECT: a word's is an act of its context, an event's a change of the machine. -/
theorem exec_shape (i : Instr) (s : State) (h : i ≠ .issueSelect) :
    i.head?.elim (∃ f, exec i s = runEvent s f) fun _ => ∃ f, exec i s = runWord i s f := by
  cases i with
  | issueSelect => exact absurd rfl h
  | _ => unfold exec; exact ⟨_, rfl⟩

/-- ISSUE_SELECT is no word. -/
theorem issueSelect_ne_of_head {i : Instr} (h : i.head?.isSome = true) : i ≠ .issueSelect := by
  rintro rfl
  exact absurd h Bool.false_ne_true

/-- A word's meaning is an act of its context. -/
theorem exec_eq_runWord {i : Instr} (s : State) (h : i.head?.isSome = true) : ∃ f, exec i s = runWord i s f := by
  have shape := exec_shape i s (issueSelect_ne_of_head h)
  obtain ⟨n, hn⟩ := Option.isSome_iff_exists.mp h
  rwa [hn] at shape

/-- An event's meaning is a change of the machine. -/
theorem exec_eq_runEvent {i : Instr} (s : State) (h : i.head? = none) (hi : i ≠ .issueSelect) : ∃ f, exec i s = runEvent s f := by
  have shape := exec_shape i s hi
  rwa [h] at shape

/-- Settles O4: a word's act goes on with the chain or ends the issue, and an event changes the machine only. -/
theorem execAnswers : Obligations.ExecAnswers := by
  intro i s
  refine ⟨fun hw hi => ?_, fun hi hne => ?_⟩
  · obtain ⟨w, hw⟩ := Option.isSome_iff_exists.mp hw
    obtain ⟨f, hf⟩ := exec_eq_runWord s hi
    obtain ⟨-, -, hissue⟩ := applyAct_frame s w (f w)
    exact ⟨_, hf.trans (runWord_eq f hw), hissue⟩
  · obtain ⟨f, hf⟩ := exec_eq_runEvent s hi hne
    obtain ⟨m, hm⟩ := runEvent_next s f
    exact ⟨m, hf.trans hm⟩

end Sys2Proof.Machine
end

section
/-! SUPPORT. What the memory hierarchy leaves alone: its operations change memory, the cores' caches and the error counts, and
nothing else of the machine. -/

namespace Sys2Proof.Machine

open Sys2Proof

/-- The machine without memory, cores and error counts: what no access to memory changes. -/
def Machine.besideMemory (m : Machine) : Machine := { m with mem := Mem.empty, cores := [], errs := [] }

theorem groups_of_besideMemory {m n : Machine} (h : n.besideMemory = m.besideMemory) : n.groups = m.groups :=
  calc n.groups = n.besideMemory.groups := rfl
    _ = m.besideMemory.groups := by rw [h]

theorem ctxs_of_besideMemory {m n : Machine} (h : n.besideMemory = m.besideMemory) : n.ctxs = m.ctxs :=
  calc n.ctxs = n.besideMemory.ctxs := rfl
    _ = m.besideMemory.ctxs := by rw [h]

/-- A fold of accesses changes nothing beside memory when none of its steps does. -/
theorem besideMemory_foldl {α : Type} (f : Machine → α → Machine) (h : ∀ n a, (f n a).besideMemory = n.besideMemory)
    (l : List α) (m : Machine) : (l.foldl f m).besideMemory = m.besideMemory :=
  foldl_keeps (fun n : Machine => n.besideMemory = m.besideMemory) f (fun n a hn => (h n a).trans hn) l m rfl

theorem withMem_beside (m : Machine) (f : Mem → Mem) : (m.withMem f).besideMemory = m.besideMemory := rfl
theorem updCore_beside (m : Machine) (k : Nat) (f : Core → Core) : (m.updCore k f).besideMemory = m.besideMemory := rfl
theorem mscPut_beside (m : Machine) (sn : Nat) (s : Sector) : (m.mscPut sn s).besideMemory = m.besideMemory := rfl
theorem diePut_beside (m : Machine) (d sn : Nat) (s : Sector) : (m.diePut d sn s).besideMemory = m.besideMemory := rfl
theorem dieDrop_beside (m : Machine) (d sn : Nat) : (m.dieDrop d sn).besideMemory = m.besideMemory := rfl
theorem dramTouch_beside (m : Machine) (pa : Nat) : (m.dramTouch pa).besideMemory = m.besideMemory := rfl

/-! ### The home -/

theorem dramDecode_beside (m : Machine) (sn : Nat) : (m.dramDecode sn).2.besideMemory = m.besideMemory := by
  unfold Machine.dramDecode
  dsimp only
  split <;> rfl

theorem mscRead_beside (m : Machine) (sn pri : Nat) : (m.mscRead sn pri).2.besideMemory = m.besideMemory := by
  unfold Machine.mscRead
  split
  · exact mscPut_beside m sn _
  · exact (mscPut_beside _ sn _).trans ((dramDecode_beside _ sn).trans (dramTouch_beside m _))

theorem mscMerge_beside (m : Machine) (sn : Nat) (ws : List TWord) (dirty : BitVec 64) (pri : Nat) :
    (m.mscMerge sn ws dirty pri).besideMemory = m.besideMemory :=
  (mscPut_beside _ sn _).trans (mscRead_beside m sn pri)

theorem recall_beside (m : Machine) (d sn : Nat) : (m.recall d sn).besideMemory = m.besideMemory := by
  unfold Machine.recall
  split
  · rfl
  · dsimp only
    split
    · exact dieDrop_beside m d sn
    · exact (dieDrop_beside _ d sn).trans (mscMerge_beside m sn _ _ _)

theorem refresh_beside (m : Machine) (d sn : Nat) : (m.refresh d sn).besideMemory = m.besideMemory := by
  unfold Machine.refresh
  split <;> rfl

theorem invalidateLine_beside (m : Machine) (line : Nat) (keep : Option Nat) :
    (m.invalidateLine line keep).besideMemory = m.besideMemory := by
  have recalled : ∀ ds : List Nat,
      (ds.foldl (fun m d => (List.range 4).foldl (fun m i => m.recall d (line * 4 + i)) m) m).besideMemory = m.besideMemory :=
    fun ds => besideMemory_foldl _ (fun n d => besideMemory_foldl _ (fun x i => recall_beside x d _) _ n) ds m
  cases keep with
  | none => exact (withMem_beside _ _).trans (recalled _)
  | some d =>
    exact (withMem_beside _ _).trans ((besideMemory_foldl _ (fun n i => refresh_beside n d _) _ _).trans (recalled _))

theorem setHomeWord_beside (m : Machine) (pa : Nat) (t : TWord) : (m.setHomeWord pa t).besideMemory = m.besideMemory :=
  (mscMerge_beside _ _ _ _ _).trans (invalidateLine_beside m _ _)

theorem setHomeData_beside (m : Machine) (pa : Nat) (ws : List Word) : (m.setHomeData pa ws).besideMemory = m.besideMemory :=
  foldl_keeps (fun x : Nat × Machine => x.2.besideMemory = m.besideMemory) _
    (fun x t hx => (setHomeWord_beside x.2 x.1 t).trans hx) _ (pa, m) rfl

theorem homeNat64_beside (m : Machine) (pa : Nat) : (m.homeNat64 pa).2.besideMemory = m.besideMemory :=
  (mscRead_beside _ _ _).trans (mscRead_beside m _ _)

/-! ### Caches and releases -/

theorem dieRead_beside (m : Machine) (d sn pri : Nat) : (m.dieRead d sn pri).2.besideMemory = m.besideMemory := by
  unfold Machine.dieRead
  split
  · exact diePut_beside m d sn _
  · exact (withMem_beside _ _).trans ((diePut_beside _ d sn _).trans (mscRead_beside m sn pri))

theorem dieMerge_beside (m : Machine) (d sn : Nat) (ws : List TWord) (dirty : BitVec 64) (pri : Nat) :
    (m.dieMerge d sn ws dirty pri).besideMemory = m.besideMemory :=
  (diePut_beside _ d sn _).trans ((dieRead_beside _ d sn pri).trans (invalidateLine_beside m _ _))

theorem dieWriteBack_beside (m : Machine) (d sn : Nat) : (m.dieWriteBack d sn).besideMemory = m.besideMemory := by
  unfold Machine.dieWriteBack
  split
  · rfl
  · split
    · rfl
    · exact (withMem_beside _ _).trans ((mscMerge_beside _ sn _ _ _).trans (invalidateLine_beside m _ _))

theorem l1WriteBack_beside (m : Machine) (core sn : Nat) : (m.l1WriteBack core sn).besideMemory = m.besideMemory := by
  unfold Machine.l1WriteBack
  split
  · rfl
  · split
    · rfl
    · exact (updCore_beside _ core _).trans (dieMerge_beside m _ sn _ _ _)

theorem flushL1_beside (m : Machine) (core : Nat) : (m.flushL1 core).besideMemory = m.besideMemory :=
  besideMemory_foldl _ (fun n sn => l1WriteBack_beside n core sn) _ m

theorem flushDie_beside (m : Machine) (d : Nat) : (m.flushDie d).besideMemory = m.besideMemory :=
  besideMemory_foldl _ (fun n sn => dieWriteBack_beside n d sn) _ m

theorem release_beside (m : Machine) (core : Nat) (sc : Scope) (n : Nat) : (m.release core sc n).besideMemory = m.besideMemory := by
  unfold Machine.release
  split
  · dsimp only
    split
    · exact (flushDie_beside _ _).trans (flushL1_beside m core)
    · exact flushL1_beside m core
  · rfl

/-! ### Structures in memory: rings, the shadow pool, frames -/

theorem ringAppend_beside {m n : Machine} {base size : Nat} {ws : List Word} (h : m.ringAppend base size ws = some n) :
    n.besideMemory = m.besideMemory := by
  unfold Machine.ringAppend at h
  dsimp only at h
  split at h
  · exact absurd h (by simp)
  · obtain rfl := Option.some.inj h
    exact (setHomeData_beside _ _ _).trans ((setHomeData_beside _ _ _).trans
      ((homeNat64_beside _ _).trans (homeNat64_beside m _)))

theorem freeFrames_beside (m : Machine) (c : Ctx) (sh : Shadow) : (m.freeFrames c sh).besideMemory = m.besideMemory :=
  besideMemory_foldl _ (fun n _ =>
    (setHomeData_beside _ _ _).trans ((setHomeData_beside _ _ _).trans (homeNat64_beside n _))) _ m

theorem writeEntry_beside (m : Machine) (base pc : Nat) (raw : List Word) (mask : Mask) (uniforms : List TWord)
    (tags : List (BitVec 8)) (slots : List (List TWord)) :
    (m.writeEntry base pc raw mask uniforms tags slots).besideMemory = m.besideMemory :=
  (besideMemory_foldl _ (fun _ _ => (setHomeData_beside _ _ _).trans (setHomeData_beside _ _ _)) _ _).trans
    ((setHomeData_beside _ _ _).trans ((setHomeData_beside _ _ _).trans (setHomeData_beside m _ _)))

/-- Writing a trap frame changes memory only (R374). -/
theorem writeFrame_beside (m : Machine) (frame : Nat) (g : Group) (c : Ctx) (t : Trap) (is : Option (Issue × Mask))
    (chain pipe pc sid : Nat) : (m.writeFrame frame g c t is chain pipe pc sid).besideMemory = m.besideMemory := by
  unfold Machine.writeFrame
  refine (besideMemory_foldl _ (fun _ _ => writeEntry_beside _ _ _ _ _ _ _ _) _ _).trans ?_
  cases is with
  | none => exact setHomeData_beside m _ _
  | some i => exact (writeEntry_beside _ _ _ _ _ _ _ _).trans (setHomeData_beside m _ _)

end Sys2Proof.Machine
end

section
/-! SUPPORT. Taking a trap (R373 to R376): what of the group and of its context it changes. Settles TrapTaken. -/

namespace Sys2Proof.Machine

open Sys2Proof

/-- An entry of a map after a pass over its entries that keeps their keys. -/
theorem map_get_map {α : Type} (f : Nat × α → Nat × α) (hf : ∀ e, (f e).1 = e.1) (m : Map α) (k : Nat) :
    Map.get (m.map f) k = (Map.get m k).map fun a => (f (k, a)).2 := by
  induction m with
  | nil => rfl
  | cons e r ih =>
    obtain ⟨j, a⟩ := e
    have hj : (f (j, a)).1 = j := hf (j, a)
    simp only [List.map_cons, Map.get, hj]
    split
    · next h => subst h; rfl
    · exact ih

/-! ### The trap queue and the exports of a context -/

theorem drainTrapQueue_groups (m : Machine) (ctx : Nat) : (m.drainTrapQueue ctx).groups = m.groups := by
  unfold Machine.drainTrapQueue
  split
  · rfl
  · refine foldl_keeps (fun n : Machine => n.groups = m.groups) _ (fun n ws hn => ?_) _ _ rfl
    split
    · exact hn
    · split
      · exact hn
      · next h => exact (groups_of_besideMemory (ringAppend_beside h)).trans hn

theorem trapEntry_groups (m : Machine) (ctx frame code kind block gid : Nat) :
    (m.trapEntry ctx frame code kind block gid).groups = m.groups :=
  drainTrapQueue_groups _ ctx

theorem dropWindow_keeps (m : Machine) (b : Nat) : (m.dropWindow b).groups = m.groups ∧ (m.dropWindow b).ctxs = m.ctxs := by
  unfold Machine.dropWindow
  split
  · exact ⟨rfl, rfl⟩
  · split
    · exact ⟨(groups_of_besideMemory (freeFrames_beside _ _ _)).trans rfl,
        (ctxs_of_besideMemory (freeFrames_beside _ _ _)).trans rfl⟩
    · exact ⟨rfl, rfl⟩

theorem closeExports_keeps (m : Machine) (ctx : Nat) :
    (m.closeExports ctx).groups = m.groups ∧ (m.closeExports ctx).ctxs = m.ctxs := by
  refine foldl_keeps (fun n : Machine => n.groups = m.groups ∧ n.ctxs = m.ctxs) _ (fun n e hn => ?_) _ m ⟨rfl, rfl⟩
  obtain ⟨hg, hc⟩ := dropWindow_keeps n e.1
  dsimp only
  split
  · exact ⟨hg.trans hn.1, hc.trans hn.2⟩
  · exact hn

/-- A context without a supervisor whose group traps is FAULTED (R367). -/
theorem faultContext_ctx {m : Machine} {ctx : Nat} {c : Ctx} (h : Map.get m.ctxs ctx = some c) :
    Map.get (m.faultContext ctx).ctxs ctx = some { c with state := .faulted } := by
  show Map.get ((m.updCtx ctx _).closeExports ctx).ctxs ctx = _
  rw [(closeExports_keeps _ ctx).2, updCtx_ctxs, map_get_upd_same, h]
  rfl

/-- A live group of a context that enters FAULTED is stopped and saved (R372, R373). -/
theorem faultContext_group {m : Machine} {k : Nat} {g : Group} (h : Map.get m.groups k = some g) (hl : g.status = .live) :
    Map.get (m.faultContext g.ctx).groups k = some { stopGroup g with status := .saved } := by
  show Map.get (((m.updCtx g.ctx _).closeExports g.ctx).groups.map _) k = _
  rw [map_get_map _ (fun e => by dsimp only; split <;> rfl), (closeExports_keeps _ g.ctx).1, updCtx_groups, h]
  simp [hl]

/-! ### Taking the trap -/

/-- Nothing is in flight: there is nothing to deliver. -/
theorem deliverAll_idle {g : Group} (h : g.pending = []) : g.deliverAll = g := by
  unfold Group.deliverAll
  rw [h]
  rfl

theorem stopGroup_idle {g : Group} (h : g.pending = []) : stopGroup g = { g with stack := g.stack.map abandonEntry } := by
  rw [stopGroup, deliverAll_idle h]

theorem frameFor_group {m : Machine} {c : Ctx} {g : Group} (h : g.lighter = none) :
    m.frameFor c g = some (groupFrame c g.image, none) := by
  unfold Machine.frameFor
  rw [h]

section
variable {m : Machine} {gk : Nat} {g : Group} {c : Ctx} (t : Trap) (is : Option (Issue × Mask)) (chain pipe pc sid : Nat)
  (hg : Map.get m.groups gk = some g) (hc : Map.get m.ctxs g.ctx = some c) (hl : g.lighter = none) (hp : g.pending = [])
include hg hc hl hp

/-- A group whose context has a supervisor is TRAPPED in its own frame, otherwise as it was (R373). -/
theorem takeTrap_supervised (hs : c.super ≠ 0xFF) (hlost : noMemory (groupFrame c g.image) 65536 = false) :
    Map.get (m.takeTrap gk t is chain pipe pc sid).groups gk =
      some { g with status := .trapped (groupFrame c g.image), trapSid := sid } := by
  unfold Machine.takeTrap
  simp only [hg, hc, frameFor_group hl, hlost, hs, Bool.false_or, decide_false, Bool.false_eq_true, if_false]
  rw [trapEntry_groups, groups_of_besideMemory (release_beside _ _ _ _), groups_updGroup_same,
    groups_of_besideMemory (writeFrame_beside _ _ _ _ _ _ _ _ _ _), hg]
  simp [deliverAll_idle hp]

/-- A live group whose context has no supervisor, or whose frame cannot be written, is stopped and saved, its context FAULTED
(R367, R373). -/
theorem takeTrap_unsupervised (hlive : g.status = .live) (hs : c.super = 0xFF ∨ noMemory (groupFrame c g.image) 65536 = true) :
    (∃ replay stack, Map.get (m.takeTrap gk t is chain pipe pc sid).groups gk =
      some { g with replay := replay, stack := stack, status := .saved }) ∧
    Map.get (m.takeTrap gk t is chain pipe pc sid).ctxs g.ctx = some { c with state := .faulted } := by
  have hfault : (noMemory (groupFrame c g.image) 65536 || decide (c.super = 0xFF)) = true := by simpa using hs.symm
  unfold Machine.takeTrap
  simp only [hg, hc, frameFor_group hl, hfault, if_true]
  generalize hn : (if noMemory (groupFrame c g.image) 65536 then m
    else m.writeFrame (groupFrame c g.image) g c t is chain pipe pc sid) = n
  have hbeside : n.besideMemory = m.besideMemory := by
    rw [← hn]
    split
    · rfl
    · exact writeFrame_beside _ _ _ _ _ _ _ _ _ _
  generalize hb : n.updGroup gk _ = b
  have hgroup : ∃ replay, Map.get b.groups gk = some { g with replay := replay } := by
    rw [← hb, groups_updGroup_same, groups_of_besideMemory hbeside, hg]
    exact ⟨_, rfl⟩
  have hctx : Map.get b.ctxs g.ctx = some c := by rw [← hb, updGroup_ctxs, ctxs_of_besideMemory hbeside, hc]
  obtain ⟨replay, hgroup⟩ := hgroup
  refine ⟨⟨replay, g.stack.map abandonEntry, (faultContext_group hgroup hlive).trans ?_⟩, faultContext_ctx hctx⟩
  rw [stopGroup_idle]
  exact hp

end

/-! ### The trap of a word -/

/-- Groups take their ages from another machine (R190). -/
theorem agesFrom_group (m n : Machine) (k : Nat) :
    Map.get (m.agesFrom n).groups k = (Map.get m.groups k).map fun g => ((Map.get n.groups k).map g.agesFrom).getD g :=
  map_get_map (fun e : Nat × Group => (e.1, ((Map.get n.groups e.1).map e.2.agesFrom).getD e.2)) (fun _ => rfl) m.groups k

/-- The machine in which a word's trap is taken: `base`, with the injection that the chain used up, the strand past the chain, the
clock and the ages as they are now, and a replay entry that was being executed gone (R71, R90, R190, R383). -/
def trapBase (s : State) (w : W) (base : Machine) : Machine :=
  let finj := ((Map.get s.cur.groups w.gk).map (·.finj)).getD 0
  let base := base.updGroup w.gk fun g => { g with finj := g.finj &&& finj }
  let base := base.updGroup w.gk fun g => g.updEntry w.is.sid fun e => { e with pc := w.is.next, park := none, entered := false }
  let base := ({ base with clock := s.cur.clock, netCount := max base.netCount s.cur.netCount } : Machine).agesFrom s.cur
  if w.is.replay then base.updGroup w.gk fun g => { g with replay := g.replay.drop 1 } else base

/-- A word that traps takes its trap in that machine. -/
theorem applyAct_trap (s : State) (w : W) (t : Trap) (base : Machine) (mask : Mask) :
    ∃ is pc, (applyAct s w (.trap t base mask)).cur =
      (trapBase s w base).takeTrap w.gk t is w.is.pos (pipeOf w.instr) pc w.is.sid := by
  unfold applyAct
  dsimp only
  split <;> exact ⟨_, _, rfl⟩

theorem trapBase_ctxs (s : State) (w : W) (base : Machine) : (trapBase s w base).ctxs = base.ctxs := by
  unfold trapBase
  dsimp only
  split <;> rfl

/-- The trapping group is the one of `base`, but for FINJ, its strands, their ages and its replay queue. -/
theorem trapBase_group (s : State) (w : W) {base : Machine} {g : Group} (h : Map.get base.groups w.gk = some g) :
    ∃ finj stack age replay, Map.get (trapBase s w base).groups w.gk =
      some { g with finj := finj, stack := stack, age := age, replay := replay } := by
  have aged : ∀ (m : Machine) (h : Group), Map.get m.groups w.gk = some h → ∃ stack age,
      Map.get (m.agesFrom s.cur).groups w.gk = some { h with stack := stack, age := age } := fun m h hm => by
    rw [agesFrom_group, hm]
    cases Map.get s.cur.groups w.gk <;> exact ⟨_, _, rfl⟩
  unfold trapBase
  dsimp only
  generalize hb : ((base.updGroup w.gk _).updGroup w.gk _) = b
  have hgb : ∃ finj stack, Map.get b.groups w.gk = some { g with finj := finj, stack := stack } := by
    rw [← hb, groups_updGroup_same, groups_updGroup_same, h]
    exact ⟨_, _, rfl⟩
  obtain ⟨finj, stack, hgb⟩ := hgb
  obtain ⟨stack', age, haged⟩ := aged { b with clock := s.cur.clock, netCount := max b.netCount s.cur.netCount } _ hgb
  split
  · rw [groups_updGroup_same, haged]
    exact ⟨_, _, _, _, rfl⟩
  · exact ⟨_, _, _, _, haged⟩

/-- Settles O30: the group that traps is as the chain found it, and what taking its trap does turns on the context's supervisor and on
where the frame lies. -/
theorem trapTaken : Obligations.TrapTaken := by
  intro i s w t c hw hc hl hp hlive
  obtain ⟨is, -, -, hg, -, hgk, -⟩ := word_some hw
  rw [← hgk] at hg
  obtain ⟨ch, pc, hcur⟩ := applyAct_trap s w t w.m0 w.is.mask
  obtain ⟨finj, stack, age, replay, hbg⟩ := trapBase_group s w hg
  have hbc : Map.get (trapBase s w w.m0).ctxs w.g.ctx = some c := by rw [trapBase_ctxs, hc]
  refine ⟨rfl, rfl, ?_⟩
  simp only [W.trapAt, hcur]
  refine ⟨fun hs hlost => ?_, fun hs => ?_⟩
  · exact ⟨_, takeTrap_supervised t ch _ _ pc _ hbg hbc hl hp hs hlost, rfl, rfl, rfl, rfl, rfl, rfl, rfl⟩
  · obtain ⟨⟨r, st, hgroup⟩, hctx⟩ := takeTrap_unsupervised t ch w.is.pos (pipeOf w.instr) pc w.is.sid hbg hbc hl hp hlive hs
    exact ⟨_, _, hgroup, rfl, rfl, rfl, hctx, rfl⟩

end Sys2Proof.Machine
end

section
/-! SUPPORT. The operand check (R58): which lanes and which slot it names, over the sources of a word, over its base pair and over
the block word of a quad. -/

namespace Sys2Proof.Machine

open Sys2Proof

/-! ### Lists of lanes as masks -/

theorem testBit_foldl_or (ls : List Nat) (a i : Nat) :
    (ls.foldl (fun a l => a ||| 2 ^ l) a).testBit i = (a.testBit i || decide (i ∈ ls)) := by
  induction ls generalizing a with
  | nil => simp
  | cons l r ih =>
    rw [List.foldl_cons, ih, Nat.testBit_or, Nat.testBit_two_pow]
    by_cases h : i = l <;> simp [h, eq_comm]

/-- The mask of a list of lanes holds exactly these. -/
theorem lane_maskOf (ls : List Nat) {l : Nat} (h : l < 128) : lane (maskOf ls) l = decide (l ∈ ls) := by
  unfold lane maskOf
  rw [BitVec.getLsbD_ofNat, testBit_foldl_or]
  simp [h]

theorem mem_lanesOf {m : Mask} {l : Nat} : l ∈ lanesOf m ↔ l < 128 ∧ lane m l = true := by
  simp [lanesOf]

/-- The mask of some lanes of a mask is empty only when there are none. -/
theorem maskOf_filter_eq_zero {m : Mask} {p : Nat → Bool} : maskOf ((lanesOf m).filter p) = 0 ↔ (lanesOf m).filter p = [] := by
  refine ⟨fun h => List.eq_nil_iff_forall_not_mem.mpr fun l hl => ?_, fun h => by rw [h]; rfl⟩
  have hlane := lane_maskOf ((lanesOf m).filter p) (mem_lanesOf.mp (List.mem_filter.mp hl).1).1
  simp [h, hl, lane] at hlane

/-! ### The check over values -/

/-- Values per slot in which some lane is bad: the lanes, and the slot of the first such value. -/
def badValLanes (real : Mask) (vals : List (Nat × List TWord)) (f : TWord → Bool) : List Nat :=
  (lanesOf real).filter fun l => vals.any fun v => f (wordAt v.2 l)
def badValSlot (real : Mask) (vals : List (Nat × List TWord)) (f : TWord → Bool) : Nat :=
  ((vals.find? fun v => (lanesOf real).any fun l => f (wordAt v.2 l)).map (·.1)).getD 0

/-- Poison in a value traps POISON. -/
theorem operandCheck_poison {real : Mask} {vals : List (Nat × List TWord)} (h : badValLanes real vals TWord.poisoned ≠ []) :
    operandCheck real vals = some { code := .poison, info := badValSlot real vals TWord.poisoned
                                    lanes := some (maskOf (badValLanes real vals TWord.poisoned)) } := by
  unfold operandCheck
  exact if_pos (bne_iff_ne.mpr (mt maskOf_filter_eq_zero.mp h))

/-- Without poison a word that does not match its residue traps RCHK. -/
theorem operandCheck_rchk {real : Mask} {vals : List (Nat × List TWord)} (hp : badValLanes real vals TWord.poisoned = [])
    (h : badValLanes real vals (fun t => !t.good) ≠ []) :
    operandCheck real vals = some { code := .rchk, cause := min 3 (1 + badValSlot real vals fun t => !t.good)
                                    lanes := some (maskOf (badValLanes real vals fun t => !t.good)) } := by
  unfold operandCheck
  refine (if_neg fun hne => bne_iff_ne.mp hne (maskOf_filter_eq_zero.mpr hp)).trans ?_
  exact if_pos (bne_iff_ne.mpr (mt maskOf_filter_eq_zero.mp h))

/-- Values without poison and mismatch trap nothing. -/
theorem operandCheck_clean {real : Mask} {vals : List (Nat × List TWord)} (hp : badValLanes real vals TWord.poisoned = [])
    (hb : badValLanes real vals (fun t => !t.good) = []) : operandCheck real vals = none := by
  unfold operandCheck
  refine (if_neg fun hne => bne_iff_ne.mp hne (maskOf_filter_eq_zero.mpr hp)).trans ?_
  exact if_neg fun hne => bne_iff_ne.mp hne (maskOf_filter_eq_zero.mpr hb)

/-- A test over values finds the lanes and the first slot that `bad` tells of the slots ks of a word. -/
def W.finds (w : W) (vals : List (Nat × List TWord)) (f : TWord → Bool) (ks : List Nat) (bad : Nat → Nat → Bool) : Prop :=
  badValLanes w.real vals f = w.badLanes ks bad ∧ badValSlot w.real vals f = w.firstBad ks bad

/-- Poison that the check finds traps POISON (R56, R58). -/
theorem operandCheck_finds_poison {w : W} {vals : List (Nat × List TWord)} {ks : List Nat} {bad : Nat → Nat → Bool}
    (hf : w.finds vals TWord.poisoned ks bad) (h : w.badLanes ks bad ≠ []) :
    operandCheck w.real vals = some { code := .poison, info := w.firstBad ks bad, lanes := some (maskOf (w.badLanes ks bad)) } := by
  obtain ⟨hlanes, hslot⟩ := hf
  rw [operandCheck_poison (hlanes ▸ h), hlanes, hslot]

/-- Without poison a mismatch that the check finds traps RCHK (R58). -/
theorem operandCheck_finds_rchk {w : W} {vals : List (Nat × List TWord)} {ks : List Nat} {poison bad : Nat → Nat → Bool}
    (hp : w.finds vals TWord.poisoned ks poison) (hf : w.finds vals (fun t => !t.good) ks bad)
    (hnone : w.badLanes ks poison = []) (h : w.badLanes ks bad ≠ []) :
    operandCheck w.real vals =
      some { code := .rchk, cause := min 3 (1 + w.firstBad ks bad), lanes := some (maskOf (w.badLanes ks bad)) } := by
  obtain ⟨hlanes, hslot⟩ := hf
  rw [operandCheck_rchk (hp.1.trans hnone) (hlanes ▸ h), hlanes, hslot]

/-! ### The sources of a word -/

/-- The values of the given slots that carry a residue. -/
def W.srcVals (w : W) (ks : List Nat) : List (Nat × List TWord) := (ks.filter fun k => (w.ref k).stored).map fun k => (k, w.src k)

theorem any_srcVals (w : W) (ks : List Nat) (f : TWord → Bool) (l : Nat) :
    ((w.srcVals ks).any fun v => f (wordAt v.2 l)) = ks.any fun k => (w.ref k).stored && f (w.srcAt k l) := by
  simp [W.srcVals, List.any_map, List.any_filter, Function.comp_def, W.srcAt]

theorem find_srcVals (w : W) (ks : List Nat) (f : TWord → Bool) :
    ((w.srcVals ks).find? fun v => (lanesOf w.real).any fun l => f (wordAt v.2 l)).map (·.1) =
      ks.find? fun k => (lanesOf w.real).any fun l => (w.ref k).stored && f (w.srcAt k l) := by
  simp only [W.srcVals, List.find?_map, List.find?_filter, Option.map_map, Function.comp_def, W.srcAt, Option.map_id']
  refine congrArg (List.find? · ks) (funext fun k => ?_)
  cases (w.ref k).stored <;> simp [-List.any_eq_true]

theorem srcVals_finds (w : W) (ks : List Nat) (f : TWord → Bool) :
    w.finds (w.srcVals ks) f ks fun k l => (w.ref k).stored && f (w.srcAt k l) := by
  constructor
  · simp only [badValLanes, any_srcVals, W.badLanes]
  · rw [badValSlot, find_srcVals, W.firstBad, List.head?_filter]

/-! ### The base pair of a memory word (R247) -/

/-- The base pair's words, which the check takes as slot 0. -/
def W.uniVals (w : W) : List (Nat × List TWord) := w.u.us.map fun n => (0, List.replicate w.g.width (w.uni n))

theorem memCheck_eq (w : W) (ks : List Nat) : w.memCheck ks = operandCheck w.real (w.uniVals ++ w.srcVals ks) := rfl

/-- A lane of the group reads a uniform word. -/
theorem wordAt_replicate {n l : Nat} (h : l < n) (t : TWord) : wordAt (List.replicate n t) l = t := by
  simp [wordAt, List.getD_eq_getElem?_getD, h]

theorem lanesOf_ne_nil {m : Mask} (h : m ≠ 0) : lanesOf m ≠ [] := by
  refine fun hnil => h (BitVec.eq_of_getLsbD_eq fun l hl => ?_)
  have hmem : l ∉ lanesOf m := by simp [hnil]
  simpa [mem_lanesOf, hl, lane] using hmem

section
variable {w : W} (hwide : ∀ l, lane w.mask l = true → l < w.g.width)
include hwide

/-- Lanes that are no helpers are lanes of the group. -/
theorem real_lt_width {l : Nat} (hl : l ∈ lanesOf w.real) : l < w.g.width := by
  obtain ⟨-, hl⟩ := mem_lanesOf.mp hl
  refine hwide l ?_
  simp only [W.real, lane, BitVec.getLsbD_and, Bool.and_eq_true] at hl
  exact hl.1

/-- In every lane that is no helper the base pair reads as its uniform words. -/
theorem any_uniVals (f : TWord → Bool) {l : Nat} (hl : l ∈ lanesOf w.real) :
    (w.uniVals.any fun v => f (wordAt v.2 l)) = w.u.us.any fun n => f (w.uni n) := by
  simp [W.uniVals, List.any_map, Function.comp_def, wordAt_replicate (real_lt_width hwide hl)]

/-- A base pair without a bad word leaves the check to the sources. -/
theorem memVals_finds (ks : List Nat) {f : TWord → Bool} (h : (w.u.us.any fun n => f (w.uni n)) = false) :
    w.finds (w.uniVals ++ w.srcVals ks) f ks fun k l => (w.ref k).stored && f (w.srcAt k l) := by
  obtain ⟨hlanes, hslot⟩ := srcVals_finds w ks f
  constructor
  · refine (List.filter_congr fun l hl => ?_).trans hlanes
    rw [List.any_append, any_uniVals hwide f hl, h, Bool.false_or]
  · have hclean : ∀ v ∈ w.uniVals, ¬ ((lanesOf w.real).any fun l => f (wordAt v.2 l)) = true := fun v hv hbad => by
      obtain ⟨l, hl, hf⟩ := List.any_eq_true.mp hbad
      have hany : (w.uniVals.any fun v => f (wordAt v.2 l)) = true := List.any_eq_true.mpr ⟨v, hv, hf⟩
      rw [any_uniVals hwide f hl, h] at hany
      exact Bool.false_ne_true hany
    rw [← hslot, badValSlot, List.find?_append, List.find?_eq_none.mpr hclean, Option.none_or, badValSlot]

/-- A poisoned base pair stops every lane that is no helper. -/
theorem memCheck_poisoned_base (ks : List Nat) (hreal : w.real ≠ 0) (h : (w.u.us.any fun n => (w.uni n).poisoned) = true) :
    w.memCheck ks = some { code := .poison, lanes := some (maskOf (lanesOf w.real)) } := by
  have hlanes : badValLanes w.real (w.uniVals ++ w.srcVals ks) TWord.poisoned = lanesOf w.real :=
    List.filter_eq_self.mpr fun l hl => by rw [List.any_append, any_uniVals hwide _ hl, h, Bool.true_or]
  have hslot : badValSlot w.real (w.uniVals ++ w.srcVals ks) TWord.poisoned = 0 := by
    obtain ⟨l, hl⟩ := List.exists_mem_of_ne_nil _ (lanesOf_ne_nil hreal)
    obtain ⟨v, hv, hbad⟩ := List.any_eq_true.mp ((any_uniVals hwide _ hl).trans h)
    have hfound : (w.uniVals.find? fun v => (lanesOf w.real).any fun l => (wordAt v.2 l).poisoned).isSome :=
      List.find?_isSome.mpr ⟨v, hv, List.any_eq_true.mpr ⟨l, hl, hbad⟩⟩
    obtain ⟨u, hu⟩ := Option.isSome_iff_exists.mp hfound
    obtain ⟨n, -, rfl⟩ := List.mem_map.mp (List.mem_of_find?_eq_some hu)
    rw [badValSlot, List.find?_append, hu]
    rfl
  rw [memCheck_eq, operandCheck_poison (hlanes ▸ lanesOf_ne_nil hreal), hlanes, hslot]

end

/-! ### The block word of a quad (R151) -/

/-- What the operand check of CVTQ tests: the sources, and the block word as the quad reads it. -/
def W.blockVals (w : W) (n : Nat) : List (Nat × List TWord) :=
  w.srcVals (List.range n) ++ [(n, (List.range w.g.width).map (w.blockWord n))]

theorem checkBlock_eq (w : W) (n : Nat) : w.checkBlock n = operandCheck w.real (w.blockVals n) := rfl

/-- Slot k of CVTQ is bad in lane l: a source in its own lane, the block word in the first lane of the quad. -/
def W.blockBadIn (w : W) (n : Nat) (f : TWord → Bool) (k l : Nat) : Bool :=
  if k < n then (w.ref k).stored && f (w.srcAt k l) else f (w.srcAt n (4 * (l / 4)))

theorem blockBadIn_block (w : W) (n : Nat) (f : TWord → Bool) (l : Nat) : w.blockBadIn n f n l = f (w.srcAt n (4 * (l / 4))) :=
  if_neg (Nat.lt_irrefl n)

section
variable {w : W} (hwide : ∀ l, lane w.mask l = true → l < w.g.width) (n : Nat) (f : TWord → Bool)
include hwide

theorem wordAt_block {l : Nat} (hl : l ∈ lanesOf w.real) :
    wordAt ((List.range w.g.width).map (w.blockWord n)) l = w.srcAt n (4 * (l / 4)) := by
  simp [wordAt, List.getD_eq_getElem?_getD, real_lt_width hwide hl, W.blockWord, Nat.mul_comm]

/-- The operand check of CVTQ finds bad sources, and a bad block word in every lane of its quad. -/
theorem blockVals_finds : w.finds (w.blockVals n) f (List.range (n + 1)) (w.blockBadIn n f) := by
  constructor
  · refine List.filter_congr fun l hl => ?_
    have hsrcs : ((List.range n).any fun k => (w.ref k).stored && f (w.srcAt k l)) = (List.range n).any fun k => w.blockBadIn n f k l := by
      rw [Bool.eq_iff_iff, List.any_eq_true, List.any_eq_true]
      exact exists_congr fun k => and_congr_right fun hk => by rw [W.blockBadIn, if_pos (List.mem_range.mp hk)]
    rw [W.blockVals, List.any_append, any_srcVals, hsrcs, List.range_succ, List.any_append]
    simp [wordAt_block hwide n hl, blockBadIn_block]
  · have hsrcs : ((List.range n).find? fun k => (lanesOf w.real).any fun l => (w.ref k).stored && f (w.srcAt k l)) =
        (List.range n).find? fun k => (lanesOf w.real).any (w.blockBadIn n f k) := by
      rw [← List.head?_filter, ← List.head?_filter]
      refine congrArg List.head? (List.filter_congr fun k hk => congrArg (lanesOf w.real).any (funext fun l => ?_))
      rw [W.blockBadIn, if_pos (List.mem_range.mp hk)]
    have hblock : ((lanesOf w.real).any fun l => f (wordAt ((List.range w.g.width).map (w.blockWord n)) l)) =
        (lanesOf w.real).any (w.blockBadIn n f n) := by
      rw [Bool.eq_iff_iff, List.any_eq_true, List.any_eq_true]
      exact exists_congr fun l => and_congr_right fun hl => by rw [wordAt_block hwide n hl, blockBadIn_block]
    rw [badValSlot, W.blockVals, List.find?_append, Option.map_or, find_srcVals, hsrcs, W.firstBad, List.head?_filter,
      List.range_succ, List.find?_append, List.find?_singleton, List.find?_singleton, hblock]
    split <;> rfl

end

end Sys2Proof.Machine
end

section
/-! SUPPORT. Words that verify their sources (R58): a word whose tags pass (R51) does first what the operand check of its entry's
sources says. -/

namespace Sys2Proof.Machine

open Sys2Proof

/-! ### EMPTY, FORMAT and DOMAIN of a word whose tags pass -/

theorem intFamily_eq (t : Nat) : intFamily t = inFamily t := by
  rw [Bool.eq_iff_iff]
  simp [intFamily, inFamily, or_assoc]

/-- No source that is read with wait bit 0 is empty: no EMPTY trap (R92). -/
theorem emptyTrap_filled {w : W} (h : w.filled = true) {whole : Nat → Bool} (hw : ∀ k, whole k = false) : w.emptyTrap whole = none := by
  refine List.findSome?_eq_none_iff.mpr fun e he => ?_
  have hfull := List.all_eq_true.mp h e.1 (List.fst_mem_of_mem_zipIdx he)
  simp only [hw, Bool.false_eq_true, if_false]
  refine if_neg fun hbad => ?_
  simp only [Bool.and_eq_true, decide_eq_true_eq, Bool.not_eq_true', bne_iff_ne] at hbad
  obtain ⟨⟨hcode, hwait⟩, hempty⟩ := hbad
  exact hempty (by simpa [hwait, Nat.not_le.mpr hcode] using hfull)

theorem untyped_filled {w : W} (h : w.filled = true) : w.untyped = none := emptyTrap_filled h fun _ => rfl

section
variable {w : W} {ks : List Nat} {ok : Nat → Nat → Bool} {d : Nat}

/-- Sources that agree: each register's format is taken, and its domain is d (R51). -/
theorem agree_tag (h : w.agree ks ok d = true) {k : Nat} (hk : k ∈ ks) {t : BitVec 8} (ht : w.tag k = some t) :
    ok k (fmtOfTag t) = true ∧ domOfTag t = d := by
  obtain ⟨hall, -⟩ := Bool.and_eq_true_iff.mp h
  have := List.all_eq_true.mp hall k hk
  simpa [ht] using this

theorem checkFmt_agree (h : w.agree ks ok d = true) : w.checkFmt ks ok = none := by
  refine List.findSome?_eq_none_iff.mpr fun k hk => ?_
  cases ht : w.tag k with
  | none => rfl
  | some t => exact if_pos (agree_tag h hk ht).1

theorem srcDom_agree (h : w.agree ks ok 0 = true) {k : Nat} (hk : k ∈ ks) : w.srcDom k = 0 := by
  unfold W.srcDom
  cases ht : w.tag k with
  | none => rfl
  | some t => exact (agree_tag h hk ht).2

theorem zeroDom_agree (h : w.agree ks ok 0 = true) : w.zeroDom ks = none := by
  refine List.findSome?_eq_none_iff.mpr fun k hk => ?_
  cases ht : w.tag k with
  | none => rfl
  | some t => exact if_pos (agree_tag h hk ht).2

theorem autoTrap_agree (h : w.agree ks ok 0 = true) (dflt : Nat → ElFmt) : w.autoTrap dflt ks = none :=
  List.findSome?_eq_none_iff.mpr fun _ hk => if_pos (srcDom_agree h hk)

/-- Sources of domain 0 need no reconstruction (R327). -/
theorem reconstruct_agree (h : w.agree ks ok 0 = true) (dflt : Nat → ElFmt) :
    ks.foldl (fun w k => w.reconstruct (dflt k) k) w = w := by
  have hsame : ∀ l : List Nat, (∀ k ∈ l, k ∈ ks) → l.foldl (fun w k => w.reconstruct (dflt k) k) w = w := by
    intro l
    induction l with
    | nil => exact fun _ => rfl
    | cons k r ih =>
      intro hl
      have hk : w.reconstruct (dflt k) k = w := if_pos (srcDom_agree h (hl k (by simp)))
      rw [List.foldl_cons, hk, ih fun j hj => hl j (by simp [hj])]
  exact hsame ks fun _ hk => hk

theorem commonDom_agree (h : w.agree ks ok d = true) : ∃ e, w.commonDom ks = .ok e := by
  have hdom : ∀ e ∈ ks.filterMap (fun k => (w.tag k).map fun t => (k, t)), domOfTag e.2 = d := by
    intro e he
    obtain ⟨k, hk, htag⟩ := List.mem_filterMap.mp he
    obtain ⟨t, ht, rfl⟩ := Option.map_eq_some_iff.mp htag
    exact (agree_tag h hk ht).2
  unfold W.commonDom
  generalize ks.filterMap (fun k => (w.tag k).map fun t => (k, t)) = ts at hdom
  cases ts with
  | nil => exact ⟨0, rfl⟩
  | cons p r =>
    have hnone : (r.find? fun e => domOfTag e.2 != domOfTag p.2) = none :=
      List.find?_eq_none.mpr fun e he => by simp [hdom e (by simp [he]), hdom p (by simp)]
    exact ⟨domOfTag p.2, by simp only [hnone]⟩

/-- A typed word whose sources are full and agree goes on, with its sources as they stand. -/
theorem typed_agree (hf : w.filled = true) (h : w.agree ks ok d = true) {lin : Bool} (hd : lin = true ∨ d = 0) (dflt : Nat → ElFmt) :
    ∃ e, w.typed ks ok dflt lin = .ok (w, e) := by
  have hempty : (w.emptyTrap fun k => (!lin && w.auto) && ks.contains k && w.srcDom k != 0) = none := by
    refine emptyTrap_filled hf fun k => ?_
    rcases hd with rfl | rfl
    · rfl
    · by_cases hk : k ∈ ks
      · simp [srcDom_agree h hk]
      · simp [hk]
  unfold W.typed
  simp only [hempty, checkFmt_agree h]
  cases lin with
  | true =>
    obtain ⟨e, he⟩ := commonDom_agree h
    exact ⟨e, by simp only [he, if_true]⟩
  | false =>
    obtain rfl : d = 0 := by simpa using hd
    refine ⟨0, ?_⟩
    cases w.auto <;> simp [zeroDom_agree h, autoTrap_agree h, reconstruct_agree h]

end

/-! ### Acts that make a word's checks first -/

/-- An act of a word whose tags pass is the trap of its operand check, when that finds one. -/
def W.verifies (w : W) (c : Checks) (a : Act) : Prop :=
  w.filled = true → (∀ ok lin, c.typed = some (ok, lin) → ∃ d, w.agree c.ks ok d = true ∧ (lin = true ∨ d = 0)) →
    ∀ t, w.checkSrcs c.ks = some t → a = w.trapAt t

theorem tryResult_trap {w : W} {ks : List Nat} {t : Trap} (h : w.checkSrcs ks = some t) (slots : List Nat) (tag : BitVec 8)
    (f : Nat → TWord) : w.tryResult ks slots tag f = .error (w.trapAt t) := by
  unfold W.tryResult
  rw [h]

theorem checkedResult_trap {w : W} {ks : List Nat} {t : Trap} (h : w.checkSrcs ks = some t) (slots : List Nat) (tag : BitVec 8)
    (f : Nat → TWord) : w.checkedResult ks slots tag f = w.trapAt t := by
  unfold W.checkedResult
  rw [tryResult_trap h]

theorem checkedPred_trap {w : W} {ks : List Nat} {t : Trap} (h : w.checkSrcs ks = some t) (p : Fin 8) (f : Nat → Bool) :
    w.checkedPred ks p f = w.trapAt t := by
  unfold W.checkedPred
  rw [h]

section
variable (w : W)

theorem intResult_verifies (ks : List Nat) (lin : Bool) (fmt : W → Nat) (slots : List Nat) (f : W → Nat → TWord) :
    w.verifies { ks := ks, typed := some (fun _ t => inFamily t, lin) } (w.intResult ks lin fmt slots f) := by
  intro hf ht t h
  obtain ⟨d, hagree, hd⟩ := ht _ _ rfl
  obtain ⟨e, he⟩ := typed_agree hf hagree hd fun _ => elI32
  simp only [W.intResult, intFamily_eq, he]
  exact checkedResult_trap h _ _ _

theorem limbResult_verifies (slots : List Nat) (f : W → Nat → TWord) (carry : W → Nat → Bool) :
    w.verifies { ks := [0, 1], typed := some (fun _ t => inFamily t, false) } (w.limbResult slots f carry) := by
  intro hf ht t h
  obtain ⟨d, hagree, hd⟩ := ht _ _ rfl
  obtain ⟨e, he⟩ := typed_agree hf hagree hd fun _ => elI32
  simp only [W.limbResult, intFamily_eq, he, tryResult_trap h]

theorem byteResult_verifies (slots : List Nat) (code fmt : Nat) (v : Word → Word → Word → Word) (f : W → Nat → TWord) :
    let o := IntOp.bytes slots code fmt v
    w.verifies { ks := o.ks, typed := some (o.ok, o.linear) } (w.byteResult code fmt slots f) := by
  intro o hf ht t h
  obtain ⟨d, hagree, hd⟩ := ht _ _ rfl
  obtain ⟨e, he⟩ := typed_agree (ks := [0, 1, 2]) (ok := fun k t => if k < 2 then t == code || t == 0 else inFamily t) (lin := false)
    hf hagree hd fun k => if k < 2 then .int ⟨8, true⟩ else elI32
  simp only [W.byteResult, intFamily_eq, he]
  exact checkedResult_trap h _ _ _

theorem plainResult_verifies (ks : List Nat) (tag : BitVec 8) (slots : List Nat) (f : Nat → TWord) :
    w.verifies { ks := ks, typed := none } (w.plainResult ks tag slots f) := by
  intro hf _ t h
  simp only [W.plainResult, untyped_filled hf]
  exact checkedResult_trap h _ _ _

theorem cmpResult_verifies (p : Fin 8) (f : Word → Word → Bool) :
    w.verifies { ks := [0, 1], typed := some (fun _ t => inFamily t, false) } (w.cmpResult p f) := by
  intro hf ht t h
  obtain ⟨d, hagree, hd⟩ := ht _ _ rfl
  obtain ⟨e, he⟩ := typed_agree hf hagree hd fun _ => elI32
  simp only [W.cmpResult, intFamily_eq, he]
  exact checkedPred_trap h _ _

/-- A word without checked sources verifies nothing. -/
theorem nothing_verifies (typed : Option ((Nat → Nat → Bool) × Bool)) (a : Act) : w.verifies { ks := [], typed := typed } a := by
  intro _ _ t h
  have hnil : ∀ f, badValLanes w.real [] f = [] := fun f => List.filter_eq_nil_iff.mpr fun _ _ => Bool.false_ne_true
  have hnone : w.checkSrcs [] = none := operandCheck_clean (hnil _) (hnil _)
  exact absurd (hnone.symm.trans h) (Option.some_ne_none t).symm

theorem floatTyped_verifies (ks : List Nat) (ok : Nat → Nat → Bool) (dflt : ElFmt) (lin : Bool) (fmt : Nat) (slots : List Nat)
    (f : W → Nat → Nat × FFlags) :
    w.verifies { ks := ks, typed := some (ok, lin) } (w.floatTyped ks ok dflt lin fmt slots f) := by
  intro hf ht t h
  obtain ⟨d, hagree, hd⟩ := ht _ _ rfl
  obtain ⟨e, he⟩ := typed_agree hf hagree hd fun _ => dflt
  simp only [W.floatTyped, he, tryResult_trap h]

theorem fcmpAct_verifies (c : FCond) (p : Fin 8) :
    w.verifies { ks := [0, 1], typed := some (fun _ t => t == 3 || t == 0, false) } (w.fcmpAct c p) := by
  intro hf ht t h
  obtain ⟨d, hagree, hd⟩ := ht _ _ rfl
  obtain ⟨e, he⟩ := typed_agree (ok := okF32) hf hagree hd fun _ => elF32
  simp only [W.fcmpAct, he, checkedPred_trap h]
  rfl

theorem unpkAct_verifies {fr : Fmt} {a : ElFmt} (ha : elFmt fr = some a) (d : Nat) :
    w.verifies { ks := [0], typed := some (fun _ t => t == fr.code || t == 0, true) } (w.unpkAct fr d) := by
  intro hf ht t h
  obtain ⟨d, hagree, hd⟩ := ht _ _ rfl
  obtain ⟨e, he⟩ := typed_agree hf hagree hd fun _ => a
  simp only [W.unpkAct, ha, he, W.tryMany, h]

theorem redgAct_verifies (op : RedgOp) (slots : List Nat) :
    w.verifies { ks := [0], typed := (redgFmt op).map fun n => (fun _ t => if n = 3 then t == 3 || t == 0 else inFamily t, false) }
      (w.redgAct op slots) := by
  intro hf ht t h
  cases hop : redgFmt op with
  | none => simp only [W.redgAct, hop, untyped_filled hf, h]
  | some n =>
    obtain ⟨d, hagree, hd⟩ := ht _ _ (congrArg (Option.map _) hop)
    obtain ⟨e, he⟩ := typed_agree hf hagree hd fun _ => if n = fmtF32 then elF32 else elI32
    simp only [fmtF32] at he
    simp only [W.redgAct, hop, intFamily_eq, fmtF32, he, h]

end

end Sys2Proof.Machine
end

section
/-! SUPPORT. Each register word's meaning makes the checks of its entry first. -/

namespace Sys2Proof.Machine

open Sys2Proof

/-- A word whose meaning makes the given checks first. -/
def verifiesAs (i : Instr) (s : State) (w : W) (c : Checks) : Prop := ∃ a, exec i s = .next (applyAct s w a) ∧ w.verifies c a

/-- A word verifies what its act does. -/
theorem verifiesAs_of_run {i : Instr} {s : State} {w : W} {c : Checks} {f : W → Act} (hw : s.word i = some w)
    (hf : exec i s = runWord i s f) (h : w.verifies c (f w)) : verifiesAs i s w c :=
  ⟨f w, hf.trans (runWord_eq f hw), h⟩

section
variable {i : Instr} {s : State} {w : W} (hw : s.word i = some w)
include hw

theorem intOp_verifies {o : IntOp} (h : intOp i = some o) : verifiesAs i s w { ks := o.ks, typed := some (o.ok, o.linear) } := by
  cases i with
  | sad _ | dot4 _ | dot4U _ | dot4Sat _ | dot4USat _ =>
    cases h
    exact verifiesAs_of_run hw (by unfold exec; rfl) (byteResult_verifies w _ _ _ _ _)
  | add _ | sub _ | addSat _ | subSat _ | neg _ | abs _ | mul _ | mulh _ | mulhU _ | mad _ | madh _ | min _ | minU _ | max _ | maxU _
  | lea1 _ | lea2 _ | lea3 _ | lea4 _ | addi _ =>
    cases h
    exact verifiesAs_of_run hw (by unfold exec; rfl) (intResult_verifies w _ _ _ _ _)
  | _ => cases h

theorem plainOp_verifies {o : PlainOp} (h : plainOp w i = some o) : verifiesAs i s w { ks := o.ks, typed := none } := by
  cases i with
  | and _ | or _ | xor _ | andn _ | popc _ | clz _ | brev _ | shl _ | shr _ | sar _ | rol _ | ror _ | bfx _ | bfi _ | fshl _ | fshr _
  | sel _ | bmix _ | andi _ | ori _ | xori _ | shli _ =>
    cases h
    exact verifiesAs_of_run hw (by unfold exec; rfl) (plainResult_verifies w _ _ _ _)
  | _ => cases h

theorem predOp_verifies {o : PredOp} (h : predOp w i = some o) :
    verifiesAs i s w { ks := o.ks, typed := if o.ks.isEmpty then none else some (o.ok, false) } := by
  cases i with
  | cmpEq _ | cmpNe _ | cmpLt _ | cmpLe _ | cmpLtU _ | cmpLeU _ =>
    cases h
    simp only [List.isEmpty_cons, Bool.false_eq_true, if_false]
    exact verifiesAs_of_run hw (by unfold exec; rfl) (cmpResult_verifies w _ _)
  | plop _ | pollQuorum _ | pollSame _ | elect _ =>
    cases h
    exact verifiesAs_of_run hw (by unfold exec; rfl) (nothing_verifies w _ _)
  | _ => cases h

theorem arithOp_verifies {o : FloatOp} (h : arithOp w i = some o) : verifiesAs i s w { ks := o.ks, typed := some (o.ok, o.linear) } := by
  cases i with
  | fadd _ | faddRn _ | faddRz _ | faddRd _ | faddRu _ | fsub _ | fsubRn _ | fsubRz _ | fsubRd _ | fsubRu _
  | fmul _ | fmulRn _ | fmulRz _ | fmulRd _ | fmulRu _ | fma _ | fmaRn _ | fmaRz _ | fmaRd _ | fmaRu _
  | fint _ | fintRn _ | fintRz _ | fintRd _ | fintRu _ | fmin _ | fminNum _ | fmax _ | fmaxNum _ | fmak _ | faddi _ | fmuli _ =>
    cases h
    exact verifiesAs_of_run hw (by unfold exec; rfl) (floatTyped_verifies w _ _ _ _ _ _ _)
  | _ => cases h

theorem approxOp_verifies {o : FloatOp} (h : approxOp w i = some o) : verifiesAs i s w { ks := o.ks, typed := some (o.ok, false) } := by
  cases i with
  | frcp _ | frsq _ | fsqrt _ | fexp2 _ | flog2 _ | fsin _ | fcos _ =>
    cases h
    exact verifiesAs_of_run hw (by unfold exec; rfl) (floatTyped_verifies w _ _ _ _ _ _ _)
  | _ => cases h

theorem packedOp_verifies {o : FloatOp} (h : packedOp w i = some o) : verifiesAs i s w { ks := o.ks, typed := some (o.ok, o.linear) } := by
  cases i with
  | pfma _ | pfmaRn _ | pfmaRz _ | pfmaRd _ | pfmaRu _ =>
    cases h
    exact verifiesAs_of_run hw (by unfold exec; rfl) (floatTyped_verifies w _ _ _ _ _ _ _)
  | cvt f =>
    unfold packedOp at h
    dsimp only at h
    split at h
    · next a b ha hb =>
      cases h
      refine verifiesAs_of_run hw (by unfold exec; rfl) ?_
      simp only [W.cvtAct, ha, hb]
      exact floatTyped_verifies w _ _ _ _ _ _ _
    · cases h
  | pack f =>
    unfold packedOp at h
    dsimp only at h
    split at h
    · next b hb =>
      cases h
      refine verifiesAs_of_run hw (by unfold exec; rfl) ?_
      simp only [W.packAct, hb, intFamily_eq]
      exact floatTyped_verifies w _ _ _ _ _ _ _
    · cases h
  | _ => cases h

/-- Every register word makes the checks of its entry first. -/
theorem regChecks_verifies {c : Checks} (h : regChecks w i = some c) : verifiesAs i s w c := by
  unfold regChecks at h
  dsimp only at h
  split at h
  · -- ADDC
    cases h
    exact verifiesAs_of_run hw (by unfold exec; rfl) (limbResult_verifies w _ _ _)
  · -- SUBB
    cases h
    exact verifiesAs_of_run hw (by unfold exec; rfl) (limbResult_verifies w _ _ _)
  · -- FCMP
    cases h
    exact verifiesAs_of_run hw (by unfold exec; rfl) (fcmpAct_verifies w _ _)
  · -- UNPK
    obtain ⟨a, ha, rfl⟩ := Option.map_eq_some_iff.mp h
    exact verifiesAs_of_run hw (by unfold exec; rfl) (unpkAct_verifies w ha _)
  · -- REDG
    cases h
    exact verifiesAs_of_run hw (by unfold exec; rfl) (redgAct_verifies w _ _)
  · -- the words of the tables
    simp only [Option.orElse_eq_orElse, Option.orElse_eq_or, Option.or_eq_some_iff, Option.map_eq_some_iff] at h
    rcases h with ⟨o, ho, rfl⟩ | ⟨-, ⟨o, ho, rfl⟩ | ⟨-, ⟨o, ho, rfl⟩ | ⟨-, ⟨o, ho, rfl⟩ | ⟨-, ⟨o, ho, rfl⟩ | ⟨-, o, ho, rfl⟩⟩⟩⟩⟩
    · exact intOp_verifies hw ho
    · exact plainOp_verifies hw ho
    · exact predOp_verifies hw ho
    · exact arithOp_verifies hw ho
    · exact approxOp_verifies hw ho
    · exact packedOp_verifies hw ho

end

end Sys2Proof.Machine
end

section
/-! SUPPORT. Loads, stores and atomics verify their base pair and sources first (R247), CVTQ its block word too (R151). Settles
PoisonStops. -/

namespace Sys2Proof.Machine

open Sys2Proof

/-- A check that fails before the others traps. -/
theorem guard_first (w : W) (t : Trap) (l : List (Option Trap)) (k : Act) : w.guard (firstTrap (some t :: l)) k = w.trapAt t := rfl

/-! ### Memory words -/

/-- Nothing holds a memory word at issue: no access of its group is parked, and its core takes its requests. -/
def W.unheld (w : W) : Prop := w.acquireParked = false ∧ w.syncParked = false ∧ w.dataParked = false ∧ w.noRoom = false

section
variable {w : W} {t : Trap} (hfree : w.unheld)
include hfree

theorem load_trap (h : w.memCheck [0] = some t) (a : Acc) (ty : LdT) (addr : Nat → Nat) (slots : List Nat) :
    w.load a ty addr slots = w.trapAt t := by
  obtain ⟨hacq, hsync, -, hroom⟩ := hfree
  simp [W.load, hacq, hsync, hroom, h, guard_first]

theorem store_trap {n : Nat} (h : w.memCheck (if n < 4 then [0, 1] else [0]) = some t) (a : Acc) (run : Nat) (addr : Nat → Nat) :
    w.store a n run addr = w.trapAt t := by
  obtain ⟨hacq, -, hdata, hroom⟩ := hfree
  simp [W.store, hacq, hdata, hroom, h, guard_first]

theorem atom_trap {op : AtomOp} (h : w.memCheck (List.range (1 + op.srcRun)) = some t) (red : Bool) (pri : Nat) (lu : Bool)
    (sc : Scope) (g : Nat) (slots : List Nat) : w.atom red op pri lu sc g slots = w.trapAt t := by
  obtain ⟨hacq, hsync, hdata, hroom⟩ := hfree
  simp [W.atom, hacq, hsync, hdata, hroom, h, guard_first]

theorem atoms_trap {op : AtomOp} (h : w.memCheck (List.range (1 + op.srcRun)) = some t) (sc : Scope) (g : Nat) (slots : List Nat) :
    w.atoms op sc g slots = w.trapAt t := by
  obtain ⟨hacq, hsync, hdata, -⟩ := hfree
  simp [W.atoms, hacq, hsync, hdata, h, guard_first]

end

/-- A word traps what its act traps. -/
theorem exec_trap_of_run {i : Instr} {s : State} {w : W} {t : Trap} {f : W → Act} (hw : s.word i = some w)
    (hf : exec i s = runWord i s f) (h : f w = w.trapAt t) : exec i s = .next (applyAct s w (w.trapAt t)) := by
  rw [hf, runWord_eq f hw, h]

section
variable {i : Instr} {s : State} {w : W} {t : Trap} (hw : s.word i = some w) (hfree : w.unheld)
include hw hfree

theorem atomForm_trap {a : AtomForm} (ha : atomForm i = some a) (h : w.memCheck (List.range (1 + a.op.srcRun)) = some t) :
    exec i s = .next (applyAct s w (w.trapAt t)) := by
  cases i with
  | atomAdd _ | atomMin _ | atomMax _ | atomMinU _ | atomMaxU _ | atomFadd _ | atomExch _ | atomCas _ | atomAnd _ | atomOr _ | atomXor _
  | atomAddD _ | atomExchD _ | atomCasD _ | redAdd _ | redMin _ | redMax _ | redMinU _ | redMaxU _ | redFadd _ | redAnd _ | redOr _ =>
    cases ha
    exact exec_trap_of_run hw (by unfold exec; rfl) (atom_trap hfree h _ _ _ _ _ _)
  | _ => cases ha

theorem atomsForm_trap {a : AtomForm} (ha : atomsForm i = some a) (h : w.memCheck (List.range (1 + a.op.srcRun)) = some t) :
    exec i s = .next (applyAct s w (w.trapAt t)) := by
  cases i with
  | atomsAdd _ | atomsMin _ | atomsMax _ | atomsMinU _ | atomsMaxU _ | atomsFadd _ | atomsExch _ | atomsCas _ =>
    cases ha
    exact exec_trap_of_run hw (by unfold exec; rfl) (atoms_trap hfree h _ _ _)
  | _ => cases ha

/-- A memory word traps what the check of its base pair and sources finds (R247). -/
theorem memSources_trap {ks : List Nat} (hks : memSources i = some ks) (h : w.memCheck ks = some t) :
    exec i s = .next (applyAct s w (w.trapAt t)) := by
  have hacq : w.acquireParked = false := hfree.1
  unfold memSources at hks
  split at hks
  · -- LD
    cases hks
    exact exec_trap_of_run hw (by unfold exec; rfl) (load_trap hfree h _ _ _ _)
  · -- LDA
    cases hks
    exact exec_trap_of_run hw (by unfold exec; rfl) (load_trap hfree h _ _ _ _)
  · -- LDS
    cases hks
    refine exec_trap_of_run hw (by unfold exec; rfl) ?_
    simp [hacq, h, guard_first]
  · -- ST
    cases hks
    exact exec_trap_of_run hw (by unfold exec; rfl) (store_trap hfree h _ _ _)
  · -- STS
    cases hks
    refine exec_trap_of_run hw (by unfold exec; rfl) ?_
    simp only [hacq, h, guard_first, Bool.false_eq_true, if_false]
  · -- STL
    next f =>
    cases hks
    have hsize : ¬ (if f.dw then 8 else 4) < 4 := by split <;> omega
    exact exec_trap_of_run hw (by unfold exec; rfl) (store_trap hfree (by rwa [if_neg hsize]) _ _ _)
  · -- atomics and reductions
    simp only [Option.orElse_eq_orElse, Option.orElse_eq_or, Option.or_eq_some_iff, Option.map_eq_some_iff] at hks
    rcases hks with ⟨a, ha, rfl⟩ | ⟨-, a, ha, rfl⟩
    · exact atomForm_trap hw hfree ha h
    · exact atomsForm_trap hw hfree ha h

end

/-! ### CVTQ -/

/-- CVTQ with whole quads, its tags passed, traps what the check of its sources and block word finds (R151, R152). -/
theorem cvtqQ_trap {w : W} {t : Trap} (hf : w.filled = true) (h : w.agree (List.range 8) okF32 0 = true) (hq : w.quadMask = none)
    (hc : w.checkBlock 8 = some t) (ty : QType) (slots : List Nat) : w.cvtqQAct ty slots = w.trapAt t := by
  obtain ⟨e, he⟩ := typed_agree hf h (.inr rfl) (lin := false) fun _ => elF32
  simp only [W.cvtqQAct, he, hq, W.tryMany, hc]

theorem cvtqX_trap {w : W} {t : Trap} (hf : w.filled = true) (h : w.agree [0] (fun _ t => t == 10 || t == 0) 0 = true)
    (hq : w.quadMask = none) (hc : w.checkBlock 1 = some t) (ty : QType) (d : Nat) : w.cvtqXAct ty d = w.trapAt t := by
  obtain ⟨e, he⟩ := typed_agree hf h (.inr rfl) (lin := false) fun _ => elF32
  simp only [W.cvtqXAct, he, hq, W.tryMany, hc]

/-! ### Good words -/

/-- A word that matches its residue is not poison (R56). -/
theorem not_poisoned_of_good {t : TWord} (h : t.good = true) : t.poisoned = false := by
  have hres : t.res = resOf t.data := by simpa [TWord.good] using h
  have hne : resOf t.data ≠ 15#4 := fun h15 => by
    have := congrArg BitVec.toNat h15
    simp only [resOf, BitVec.toNat_ofNat] at this
    omega
  simpa [TWord.poisoned, hres] using hne

theorem uni_clean {w : W} (h : w.uniSound = true) :
    (w.u.us.any fun n => (w.uni n).poisoned) = false ∧ (w.u.us.any fun n => !(w.uni n).good) = false := by
  have hgood := List.all_eq_true.mp h
  exact ⟨List.any_eq_false.mpr fun n hn => by simp [not_poisoned_of_good (hgood n hn)],
    List.any_eq_false.mpr fun n hn => by simp [hgood n hn]⟩

/-- Settles O27: each word first makes the operand check of the slots its entry names, and that check names the lanes and the first
slot that are bad. -/
theorem poisonStops : Obligations.PoisonStops := by
  intro i s w hw stops
  refine ⟨fun c hc hf ht => ?_, fun ks ok n hn hks hf ha hq hwide => ?_, fun ks hks hacq hsync hdata hroom hwide => ?_⟩
  · obtain ⟨a, hexec, hv⟩ := regChecks_verifies hw hc
    have htrap : ∀ t, w.checkSrcs c.ks = some t → exec i s = .next (applyAct s w (w.trapAt t)) := fun t h => by
      rw [hexec, hv hf ht t h]
    exact ⟨fun hp => htrap _ (operandCheck_finds_poison (srcVals_finds w c.ks _) hp),
      fun hp hb => htrap _ (operandCheck_finds_rchk (srcVals_finds w c.ks _) (srcVals_finds w c.ks _) hp hb)⟩
  · intro bad hbad
    have hcheck : w.checkBlock n = some _ := operandCheck_finds_poison (blockVals_finds hwide n TWord.poisoned) hbad
    rcases hn with ⟨⟨f, rfl⟩, rfl⟩ | ⟨⟨f, rfl⟩, rfl⟩
    · cases hks
      exact exec_trap_of_run hw (by unfold exec; rfl) (cvtqQ_trap hf ha hq hcheck _ _)
    · cases hks
      exact exec_trap_of_run hw (by unfold exec; rfl) (cvtqX_trap hf ha hq hcheck _ _)
  · intro uni
    have htrap : ∀ t, w.memCheck ks = some t → exec i s = .next (applyAct s w (w.trapAt t)) := fun t h =>
      memSources_trap hw ⟨hacq, hsync, hdata, hroom⟩ hks h
    refine ⟨fun hreal hu => htrap _ (memCheck_poisoned_base hwide ks hreal hu),
      fun hu hp => htrap _ (operandCheck_finds_poison (memVals_finds hwide ks hu) hp), fun hs hp hb => ?_⟩
    obtain ⟨hpoison, hgood⟩ := uni_clean hs
    exact htrap _ (operandCheck_finds_rchk (memVals_finds hwide ks hpoison) (memVals_finds hwide ks (f := fun t => !t.good) hgood) hp hb)

end Sys2Proof.Machine
end
